-- ==== Sys2Proof/Word.lean ====
section
/-! DEFINITION. The two word types of HUFFCORE: a byte of a buffer (rule R60) and a 32-bit register (rule R21). -/

namespace Sys2Proof

/-- A byte of a buffer, 8 bits (rule R60). -/
abbrev Byte := BitVec 8

/-- The contents of a register, 32 bits (rule R21). -/
abbrev Word := BitVec 32

end Sys2Proof
end

