-- ==== Sys2Proof/Machine/Records.lean ====
section
/-! DEFINITION. The record types of the internal memories, the four buffers' names and the fault kinds. -/

namespace Sys2Proof

/-- The four buffers (rule R60). -/
inductive Space where
  | src
  | pay
  | dict
  | dst
  deriving DecidableEq, Repr

/-- The kind of a `TREE` record (rule R42). -/
inductive NodeKind where
  | absent
  | leaf
  | internal
  | unused
  deriving DecidableEq, Repr, Inhabited

/-- A `TREE` record (rule R42). A child reference is an index of the arena, or `none` for `NONE`. -/
structure TreeRec where
  kind  : NodeKind
  value : Byte
  freq  : Word
  low   : Option Nat
  high  : Option Nat
  deriving DecidableEq, Repr, Inhabited

/-- The kind of a `TRIE` record (rule R44): there is no `UNUSED` here. -/
inductive TrieKind where
  | absent
  | leaf
  | internal
  deriving DecidableEq, Repr, Inhabited

/-- A `TRIE` record (rule R44): no `freq` field. -/
structure TrieRec where
  kind  : TrieKind
  value : Byte
  low   : Option Nat
  high  : Option Nat
  deriving DecidableEq, Repr, Inhabited

/-- A key of the priority queue: a frequency and a `TREE` index (rules R45, R131). -/
structure PqKey where
  freq  : Word
  index : Nat
  deriving DecidableEq, Repr

/-- The ten faults of the hardware (rule R231). Each is recorded in `ERR`; none stops the model. -/
inductive HwFault where
  | sourceUnavailable
  | sinkUnavailable
  | malformedDictionary
  | incompleteCodeword
  | badPadding
  | noBranch
  | symbolNotCoded
  | sequenceError
  | illegalCommand
  | capacityExceeded
  deriving DecidableEq, Repr

end Sys2Proof
end

