-- ==== Sys2Proof/Syntax.lean ====
section
/-! DEFINITION. The commands (rule R94), the registers' names (rule R21), the host's actions (rules R22, R78, R261) and
the script notation (rules R106, R107), as syntax. -/

namespace Sys2Proof

/-- The commands of the opcode map (rule R94), one constructor per row of spec/opcode_table.json. A byte operand is
8 bits (format B, rule R92) and an index operand 17 bits (format X, rule R93). -/
inductive Instr where
  | nop
  | clr
  | scan
  | build
  | gen
  | dser
  | pack
  | encode
  | ddes
  | unpack
  | decode
  | lookup (b : Byte)
  | rdfreq (b : Byte)
  | rdtree (idx : BitVec 17)
  | rdtrie (idx : BitVec 17)
  deriving DecidableEq, Repr

/-- The three formats of the command word (rules R91 to R93). -/
inductive Format where
  | n
  | b
  | x
  deriving DecidableEq, Repr

/-- A command word before it is known to be legal: its opcode, bits 7:0, and the 24 bits above (rule R90). -/
structure RawCommand where
  opcode  : BitVec 8
  operand : BitVec 24
  deriving DecidableEq, Repr

/-- The 26 registers of the window, by name (rule R21). -/
inductive Reg where
  | cmd
  | status
  | err
  | errinfo
  | srcLen
  | payLen
  | dictLen
  | dstLen
  | nsym
  | treeRoot
  | trieRoot
  | trieNodes
  | res0
  | res1
  | res2
  | res3
  | res4
  | cwlen
  | cwbits0
  | cwbits1
  | cwbits2
  | cwbits3
  | cwbits4
  | cwbits5
  | cwbits6
  | cwbits7
  deriving DecidableEq, Repr

/-- What the host may do to a register (rule R21). -/
inductive Access where
  | rw
  | ro
  | wo
  deriving DecidableEq, Repr

/-- The width of a host access to the register window. Rule R22 gives a meaning to `word` only. -/
inductive AccessWidth where
  | byte
  | half
  | word
  deriving DecidableEq, Repr

/-- One action of the host (rules R22, R78, R261). Actions happen between commands, one at a time. That an access to a
buffer moves one byte is a DESIGN CHOICE (notes/assumptions/19.md). -/
inductive HostAction where
  | writeReg (offset : Nat) (width : AccessWidth) (v : Word)
  | readReg (offset : Nat) (width : AccessWidth)
  | writeBuf (space : Space) (offset : Nat) (v : Byte)
  | readBuf (space : Space) (offset : Nat)
  | reset
  deriving DecidableEq, Repr

/-- One line of a host script (rule R106), with the two pseudo-lines of rule R107. -/
inductive ScriptLine where
  | wr (reg : Reg) (v : Nat)
  | rd (reg : Reg)
  | fill (space : Space) (bytes : List Byte)
  | dump (space : Space) (n : Nat)
  | command (i : Instr)
  | encodeBang (bytes : List Byte)
  | decodeBang
  deriving DecidableEq, Repr

end Sys2Proof
end

