-- ==== Sys2Proof/Machine/Operands.lean ====
section
/-! DEFINITION. The operand forms of the command word (rules R90 to R93), the number encodings (rule R15), and the forms
in which codewords, references and kinds stand in registers (rules R103, R104). -/

namespace Sys2Proof.Machine

/-- Bits 7:0 of a command word (rule R90). -/
def opcodeField (w : Word) : BitVec 8 := w.extractLsb' 0 8

/-- Bits 31:8 of a command word: the operand and zero fields together (rule R90). -/
def operandField (w : Word) : BitVec 24 := w.extractLsb' 8 24

/-- The byte operand of format B, bits 15:8 (rule R92). -/
def byteOperand (w : Word) : Byte := w.extractLsb' 8 8

/-- The index operand of format X, bits 24:8 (rule R93). -/
def indexOperand (w : Word) : BitVec 17 := w.extractLsb' 8 17

/-- The zero field of format N, bits 31:8, holds zero (rule R91). -/
def zeroFieldN (w : Word) : Bool := w.extractLsb' 8 24 == 0#24

/-- The zero field of format B, bits 31:16, holds zero (rule R92). -/
def zeroFieldB (w : Word) : Bool := w.extractLsb' 16 16 == 0#16

/-- The zero field of format X, bits 31:25, holds zero (rule R93). -/
def zeroFieldX (w : Word) : Bool := w.extractLsb' 25 7 == 0#7

/-- The word of format N (rule R91). -/
def wordN (op : BitVec 8) : Word := 0#24 ++ op

/-- The word of format B (rule R92). -/
def wordB (op : BitVec 8) (b : Byte) : Word := 0#16 ++ b ++ op

/-- The word of format X (rule R93). -/
def wordX (op : BitVec 8) (idx : BitVec 17) : Word := 0#7 ++ idx ++ op

/-- `LE32` (rule R15): the byte at the lowest offset is the least significant. -/
def le32 (b0 b1 b2 b3 : Byte) : Nat :=
  b0.toNat + 256 * b1.toNat + 65536 * b2.toNat + 16777216 * b3.toNat

/-- `LE32bytes` (rule R15), least significant byte first. -/
def le32Bytes (v : Nat) : List Byte :=
  [BitVec.ofNat 8 v, BitVec.ofNat 8 (v >>> 8), BitVec.ofNat 8 (v >>> 16), BitVec.ofNat 8 (v >>> 24)]

/-- `ref` (rules R104, R141): an index as a number, or 0xFFFFFFFF for `NONE`. -/
def refWord : Option Nat → Word
  | some i => BitVec.ofNat 32 i
  | none => 0xFFFFFFFF#32

/-- The kind code of a `TREE` record (rule R104). -/
def nodeKindCode : NodeKind → Word
  | .absent => 0#32
  | .leaf => 1#32
  | .internal => 2#32
  | .unused => 3#32

/-- The kind code of a `TRIE` record (rule R104). -/
def trieKindCode : TrieKind → Word
  | .absent => 0#32
  | .leaf => 1#32
  | .internal => 2#32

/-- The form of `TREE_ROOT` and `TRIE_ROOT` (rules R34, R35): bit 31 `PRESENT`, the index below; 0 when absent. -/
def rootWord : Option Nat → Word
  | some i => 0x80000000#32 ||| BitVec.ofNat 32 i
  | none => 0#32

/-- `PRESENT` of a root register, bit 31 (rules R34, R35). -/
def rootPresent (w : Word) : Bool := w.getLsbD 31

/-- `INDEX` of `TREE_ROOT`, bits 8:0 (rule R34). -/
def treeRootIndex (w : Word) : Nat := (w.extractLsb' 0 9).toNat

/-- Register `CWBITS<j>` for a codeword (rule R103): bit `31 − (i mod 32)` of register `i div 32` is codeword bit `i`,
and 0 beyond the codeword's end. -/
def cwbitsWord (cw : List Bool) (j : Nat) : Word :=
  BitVec.ofFnLE fun t : Fin 32 => cw.getD (32 * j + (31 - t.val)) false

/-- The character byte of a codeword bit, `'0'` or `'1'` (rules R97, R98). -/
def charOf (bit : Bool) : Byte := if bit then 0x31#8 else 0x30#8

/-- Payload bit `k` lies in the byte at offset `1 + k div 8`, bit `7 − (k mod 8)` (rule R70). -/
def payloadBit (byte : Byte) (k : Nat) : Bool := byte.getLsbD (7 - k % 8)

end Sys2Proof.Machine
end

