-- ==== Sys2Proof/Machine/Window.lean ====
section
/-! DEFINITION. The register window: the offset and the access of every register (rule R21). -/

namespace Sys2Proof.Machine

/-- The byte offset of a register inside the window (rule R21). -/
def regOffset : Reg → Nat
  | .cmd => 0x00
  | .status => 0x04
  | .err => 0x08
  | .errinfo => 0x0C
  | .srcLen => 0x10
  | .payLen => 0x14
  | .dictLen => 0x18
  | .dstLen => 0x1C
  | .nsym => 0x20
  | .treeRoot => 0x24
  | .trieRoot => 0x28
  | .trieNodes => 0x2C
  | .res0 => 0x30
  | .res1 => 0x34
  | .res2 => 0x38
  | .res3 => 0x3C
  | .res4 => 0x40
  | .cwlen => 0x44
  | .cwbits0 => 0x48
  | .cwbits1 => 0x4C
  | .cwbits2 => 0x50
  | .cwbits3 => 0x54
  | .cwbits4 => 0x58
  | .cwbits5 => 0x5C
  | .cwbits6 => 0x60
  | .cwbits7 => 0x64

/-- The access of a register (rule R21). -/
def regAccess : Reg → Access
  | .cmd => .wo
  | .srcLen => .rw
  | .payLen => .rw
  | .dictLen => .rw
  | .status | .err | .errinfo | .dstLen | .nsym | .treeRoot | .trieRoot | .trieNodes => .ro
  | .res0 | .res1 | .res2 | .res3 | .res4 | .cwlen => .ro
  | .cwbits0 | .cwbits1 | .cwbits2 | .cwbits3 | .cwbits4 | .cwbits5 | .cwbits6 | .cwbits7 => .ro

/-- All registers, in the order of their offsets. -/
def allRegs : List Reg :=
  [.cmd, .status, .err, .errinfo, .srcLen, .payLen, .dictLen, .dstLen, .nsym, .treeRoot, .trieRoot, .trieNodes,
    .res0, .res1, .res2, .res3, .res4, .cwlen, .cwbits0, .cwbits1, .cwbits2, .cwbits3, .cwbits4, .cwbits5, .cwbits6,
    .cwbits7]

/-- The register at an offset, and `none` at an offset outside the table (rules R21, R22). -/
def regAt (off : Nat) : Option Reg := allRegs.find? fun r => regOffset r == off

end Sys2Proof.Machine
end

