-- ==== Sys2Proof/WellFormed.lean ====
section
/-! DEFINITION. The checks on syntax: which raw command words the opcode map admits (rules R91 to R95), which host accesses
have a meaning (rules R21, R22), and which script lines can be written (rule R106). An `Instr` carries its own
bounds in its operand types, so it needs no check. -/

namespace Sys2Proof

/-- The format of a defined opcode, and `none` for the opcodes of rule R95 (a) (rule R94). -/
def formatOf (op : BitVec 8) : Option Format :=
  if op = 0x00#8 ∨ op = 0x01#8 ∨ op = 0x10#8 ∨ op = 0x11#8 ∨ op = 0x12#8 ∨ op = 0x13#8 ∨ op = 0x14#8 ∨
      op = 0x1F#8 ∨ op = 0x20#8 ∨ op = 0x21#8 ∨ op = 0x2F#8 then some .n
  else if op = 0x30#8 ∨ op = 0x31#8 then some .b
  else if op = 0x32#8 ∨ op = 0x33#8 then some .x
  else none

/-- A raw command is well formed when its opcode is defined and its format's zero field is zero (rule R95). -/
def RawCommand.wellFormed (c : RawCommand) : Bool :=
  match formatOf c.opcode with
  | some .n => c.operand == 0#24
  | some .b => c.operand.extractLsb' 8 16 == 0#16
  | some .x => c.operand.extractLsb' 17 7 == 0#7
  | none => false

/-- The two halves of a command word (rule R90). -/
def RawCommand.ofWord (w : Word) : RawCommand := ⟨Machine.opcodeField w, Machine.operandField w⟩

/-- A host action has a meaning when a register access is a whole word at an offset of the table (rule R22).
That a buffer offset lies below the capacity depends on the instance and is tested by the machine. -/
def HostAction.wellFormed : HostAction → Bool
  | .writeReg off width _ => width == .word && (Machine.regAt off).isSome
  | .readReg off width => width == .word && (Machine.regAt off).isSome
  | .writeBuf _ _ _ => true
  | .readBuf _ _ => true
  | .reset => true

/-- A script line can be written when `WR` names an `RW` register and a 32-bit value, and a `FILL` or `DUMP` is no
longer than a length register can hold (rules R106, R29). -/
def ScriptLine.wellFormed : ScriptLine → Bool
  | .wr reg v => Machine.regAccess reg == .rw && decide (v < 2 ^ 32)
  | .rd _ => true
  | .fill _ bytes => decide (bytes.length < 2 ^ 32)
  | .dump _ n => decide (n < 2 ^ 32)
  | .command _ => true
  | .encodeBang bytes => decide (bytes.length < 2 ^ 32)
  | .decodeBang => true

end Sys2Proof
end

