-- ==== Sys2Proof/Decode.lean ====
section
/-! DEFINITION. The decoder of command words (rules R90 to R95) and, after it, the encoder. -/

namespace Sys2Proof

/-- Why a word encodes no command (rule R95). -/
inductive DecodeError where
  /-- R95 (a): the opcode is not in the table. -/
  | undefinedOpcode (opcode : BitVec 8)
  /-- R95 (b): a defined opcode with a nonzero bit in a field that must be 0. -/
  | nonzeroField (opcode : BitVec 8)
  deriving DecidableEq, Repr

/-- A row of format N (rule R91). -/
def rowN (w : Word) (i : Instr) : Except DecodeError Instr :=
  if Machine.zeroFieldN w then .ok i else .error (.nonzeroField (Machine.opcodeField w))

/-- A row of format B (rule R92). -/
def rowB (w : Word) (i : Byte → Instr) : Except DecodeError Instr :=
  if Machine.zeroFieldB w then .ok (i (Machine.byteOperand w)) else .error (.nonzeroField (Machine.opcodeField w))

/-- A row of format X (rule R93). -/
def rowX (w : Word) (i : BitVec 17 → Instr) : Except DecodeError Instr :=
  if Machine.zeroFieldX w then .ok (i (Machine.indexOperand w)) else .error (.nonzeroField (Machine.opcodeField w))

/-- The command a word encodes, or why it encodes none (rules R94, R95). Total on all 2^32 words. -/
def decode (w : Word) : Except DecodeError Instr :=
  let op := Machine.opcodeField w
  if op = 0x00#8 then rowN w .nop
  else if op = 0x01#8 then rowN w .clr
  else if op = 0x10#8 then rowN w .scan
  else if op = 0x11#8 then rowN w .build
  else if op = 0x12#8 then rowN w .gen
  else if op = 0x13#8 then rowN w .dser
  else if op = 0x14#8 then rowN w .pack
  else if op = 0x1F#8 then rowN w .encode
  else if op = 0x20#8 then rowN w .ddes
  else if op = 0x21#8 then rowN w .unpack
  else if op = 0x2F#8 then rowN w .decode
  else if op = 0x30#8 then rowB w .lookup
  else if op = 0x31#8 then rowB w .rdfreq
  else if op = 0x32#8 then rowX w .rdtree
  else if op = 0x33#8 then rowX w .rdtrie
  else .error (.undefinedOpcode op)

/-- The word of a command (rules R91 to R94), written from the opcode map. -/
def encode : Instr → Word
  | .nop => Machine.wordN 0x00#8
  | .clr => Machine.wordN 0x01#8
  | .scan => Machine.wordN 0x10#8
  | .build => Machine.wordN 0x11#8
  | .gen => Machine.wordN 0x12#8
  | .dser => Machine.wordN 0x13#8
  | .pack => Machine.wordN 0x14#8
  | .encode => Machine.wordN 0x1F#8
  | .ddes => Machine.wordN 0x20#8
  | .unpack => Machine.wordN 0x21#8
  | .decode => Machine.wordN 0x2F#8
  | .lookup b => Machine.wordB 0x30#8 b
  | .rdfreq b => Machine.wordB 0x31#8 b
  | .rdtree idx => Machine.wordX 0x32#8 idx
  | .rdtrie idx => Machine.wordX 0x33#8 idx

/-- One row of the opcode map: a word `w` encodes the command exactly when `w AND mask = pattern` (rule R94). -/
structure OpcodeRow where
  mnemonic : String
  pattern  : Word
  mask     : Word
  deriving DecidableEq, Repr

/-- The opcode map (rule R94), copied row by row. The decoder is not written from it, so the two check one another. -/
def opcodeMap : List OpcodeRow :=
  [⟨"NOP", 0x00000000#32, 0xFFFFFFFF#32⟩, ⟨"CLR", 0x00000001#32, 0xFFFFFFFF#32⟩,
    ⟨"SCAN", 0x00000010#32, 0xFFFFFFFF#32⟩, ⟨"BUILD", 0x00000011#32, 0xFFFFFFFF#32⟩,
    ⟨"GEN", 0x00000012#32, 0xFFFFFFFF#32⟩, ⟨"DSER", 0x00000013#32, 0xFFFFFFFF#32⟩,
    ⟨"PACK", 0x00000014#32, 0xFFFFFFFF#32⟩, ⟨"ENCODE", 0x0000001F#32, 0xFFFFFFFF#32⟩,
    ⟨"DDES", 0x00000020#32, 0xFFFFFFFF#32⟩, ⟨"UNPACK", 0x00000021#32, 0xFFFFFFFF#32⟩,
    ⟨"DECODE", 0x0000002F#32, 0xFFFFFFFF#32⟩, ⟨"LOOKUP", 0x00000030#32, 0xFFFF00FF#32⟩,
    ⟨"RDFREQ", 0x00000031#32, 0xFFFF00FF#32⟩, ⟨"RDTREE", 0x00000032#32, 0xFE0000FF#32⟩,
    ⟨"RDTRIE", 0x00000033#32, 0xFE0000FF#32⟩]

/-- A word matches a row (rule R94). -/
def OpcodeRow.matchesWord (r : OpcodeRow) (w : Word) : Bool := w &&& r.mask == r.pattern

/-- The mnemonic of a command (rule R94). -/
def Instr.mnemonic : Instr → String
  | .nop => "NOP"
  | .clr => "CLR"
  | .scan => "SCAN"
  | .build => "BUILD"
  | .gen => "GEN"
  | .dser => "DSER"
  | .pack => "PACK"
  | .encode => "ENCODE"
  | .ddes => "DDES"
  | .unpack => "UNPACK"
  | .decode => "DECODE"
  | .lookup _ => "LOOKUP"
  | .rdfreq _ => "RDFREQ"
  | .rdtree _ => "RDTREE"
  | .rdtrie _ => "RDTRIE"

/-- What the decoder reads from a table row's word. A command is one 32-bit word (rule R90) and a register has no byte
order (rule R22), so the table's bit numbers are the word's own. -/
def decodeTableWord (nbits w : Nat) : Option Instr :=
  match decode (BitVec.ofNat 32 (w % 2 ^ nbits)) with
  | .ok i => some i
  | .error _ => none

end Sys2Proof
end

