-- ==== Sys2Proof/Config.lean ====
section
/-! DEFINITION. What an instance of the hardware fixes (rule R9), and the free values: constants with no body, of which
no proof can see a value (93_implementation_defined.md U2, U3, U5). -/

namespace Sys2Proof

/-- The four capacities of an instance, in bytes (rule R9). The width of the type is the bound 2^32 − 1. -/
structure Params where
  srcCap  : Word
  payCap  : Word
  dictCap : Word
  dstCap  : Word
  deriving DecidableEq, Repr

/-- The constraints of rule R9 that the type does not carry: `PAY_CAP` ≥ 1 and `DICT_CAP` ≥ 4. -/
abbrev Params.Legal (p : Params) : Prop := 1 ≤ p.payCap.toNat ∧ 4 ≤ p.dictCap.toNat

/-- Every capacity 2^32 − 1: the spec's own suggestion for a model (rule R9).
DESIGN CHOICE, unsafe (notes/assumptions/1.md): the state after reset describes this instance. -/
def Params.largest : Params := ⟨0xFFFFFFFF#32, 0xFFFFFFFF#32, 0xFFFFFFFF#32, 0xFFFFFFFF#32⟩

namespace Config

/-- `MAXLEN`, the greatest codeword length in bits (rule R9). -/
def maxLen : Nat := 255

/-- `TREE_N`, the number of records of the `TREE` arena (rule R9). -/
def treeN : Nat := 512

/-- `TRIE_N`, the number of records of the `TRIE` arena (rule R9). -/
def trieN : Nat := 65281

/-- `PQ_N`, the capacity of the priority queue (rule R9). -/
def pqN : Nat := 256

/-- Free value (U2, U3): the byte at an offset of a buffer that nothing has written since the draw with this number. -/
opaque unwrittenByte : Nat → Space → Nat → Byte

/-- Free value (U5): a count of a `FREQ` whose contents are unspecified. -/
opaque unspecifiedCount : Nat → Nat → Word

/-- Free value (U5): a record of a `TREE` whose contents are unspecified. -/
opaque unspecifiedTreeRec : Nat → Nat → TreeRec

/-- Free value (U5): the bits of an entry of a `CODE` whose contents are unspecified (read up to `MAXLEN` of them). -/
opaque unspecifiedCodeword : Nat → Nat → List Bool

/-- Free value (U5): a record of a `TRIE` whose contents are unspecified. -/
opaque unspecifiedTrieRec : Nat → Nat → TrieRec

end Config

end Sys2Proof
end

