-- ==== Sys2Proof/Machine/State.lean ====
section
/-! DEFINITION. The state of HUFFCORE as plain data (rule R20), why a step can stop, and the state after reset
(rules R49, R260). -/

namespace Sys2Proof.Machine

/-- Sparse data by key: keys strictly rising, nothing listed twice. What an unlisted key reads as is said where a
table is read. -/
abbrev Table (α : Type) := List (Nat × α)

/-- The bytes of one buffer that the host or a command has written, by offset. An unlisted offset holds no value
of its own: `Buffer.byteAt` gives it a free one (93_implementation_defined.md U2). -/
abbrev Memory := List Host.Cell

/-- One of the four buffers (rule R60): the bytes written since the draw with this number, and that number. -/
structure Buffer where
  cells : Memory
  draw  : Nat
  deriving DecidableEq, Repr

/-- The contents of an internal memory: unspecified, every read of it a free value of the numbered draw, or known
(rule R49, 93_implementation_defined.md U5). -/
inductive Contents (α : Type) where
  | unspecified (draw : Nat)
  | known (v : α)
  deriving DecidableEq, Repr

/-- The 25 registers that store something (rule R21). `CMD` stores nothing (rule R26). -/
structure Regs where
  status    : Word
  err       : Word
  errinfo   : Word
  srcLen    : Word
  payLen    : Word
  dictLen   : Word
  dstLen    : Word
  nsym      : Word
  treeRoot  : Word
  trieRoot  : Word
  trieNodes : Word
  res0      : Word
  res1      : Word
  res2      : Word
  res3      : Word
  res4      : Word
  cwlen     : Word
  cwbits0   : Word
  cwbits1   : Word
  cwbits2   : Word
  cwbits3   : Word
  cwbits4   : Word
  cwbits5   : Word
  cwbits6   : Word
  cwbits7   : Word
  deriving DecidableEq, Repr

/-- The complete state (rule R20): the registers, the five internal memories and the four buffers. The last four
fields are the model's own: the capacities of the instance (rule R9), the number of the next draw of free values,
the host's actions still to come (rule R48: "an input of the model") and what host reads have returned, latest first.
-/
structure State where
  regs     : Regs
  freq     : Contents (Table Word)
  tree     : Contents (Table TreeRec)
  code     : Contents (Table (List Bool))
  trie     : Contents (Table TrieRec)
  pq       : List PqKey
  src      : Buffer
  pay      : Buffer
  dict     : Buffer
  dst      : Buffer
  params   : Params
  draws    : Nat
  script   : List HostAction
  returned : List Word
  deriving DecidableEq, Repr

/-- Why a step stops with a fault. Hardware faults are not among them: a command that faults records it in `ERR` and
the machine goes on (rule R236). -/
inductive Fault where
  /-- Raised by a host access to a buffer offset at or above the capacity: the buffer has no such byte (rule R60).
  Safe: nothing is concluded about a run that contains one (notes/assumptions/8.md). -/
  | noSuchByte (space : Space) (offset : Nat)
  deriving DecidableEq, Repr

/-- Why a step has no meaning. No command is among the causes. -/
inductive Refusal where
  /-- Raised by an arm of `exec` whose instruction has no meaning yet; no arm raises it in this model. Safe. -/
  | notModelled (mnemonic : String)
  /-- Raised by a host access to a register offset outside the table of rule R21: "a model refuses it" (rule R22,
  93_implementation_defined.md U1). Safe. -/
  | undefinedRegister (offset : Nat)
  /-- Raised by a host access to the register window of a width other than 32 bits (rule R22, U1). Safe. -/
  | narrowRegisterAccess (offset : Nat)
  deriving DecidableEq, Repr

/-- Every register reads 0 (rule R49). -/
def Regs.zero : Regs where
  status := 0#32
  err := 0#32
  errinfo := 0#32
  srcLen := 0#32
  payLen := 0#32
  dictLen := 0#32
  dstLen := 0#32
  nsym := 0#32
  treeRoot := 0#32
  trieRoot := 0#32
  trieNodes := 0#32
  res0 := 0#32
  res1 := 0#32
  res2 := 0#32
  res3 := 0#32
  res4 := 0#32
  cwlen := 0#32
  cwbits0 := 0#32
  cwbits1 := 0#32
  cwbits2 := 0#32
  cwbits3 := 0#32
  cwbits4 := 0#32
  cwbits5 := 0#32
  cwbits6 := 0#32
  cwbits7 := 0#32

/-- The state after reset (rules R49, R260): every register 0, `PQ` empty, the internal memories and the buffers
unspecified. DESIGN CHOICE (notes/assumptions/1.md, 2.md, 3.md, 7.md): the capacities, the empty script and the draw
numbers are the model's. -/
def State.reset : State where
  regs := Regs.zero
  freq := .unspecified 0
  tree := .unspecified 0
  code := .unspecified 0
  trie := .unspecified 0
  pq := []
  src := ⟨[], 0⟩
  pay := ⟨[], 0⟩
  dict := ⟨[], 0⟩
  dst := ⟨[], 0⟩
  params := Params.largest
  draws := 1
  script := []
  returned := []

end Sys2Proof.Machine
end

