-- ==== Sys2Proof/Machine/Table.lean ====
section
/-! DEFINITION. Sparse tables in canonical form: the one place where lists of key and value pairs are read and written.
The four buffers and the memories FREQ, TREE, CODE and TRIE are all held in this form. -/

namespace Sys2Proof.Machine

/-- The value listed at a key. -/
def lookAt {α : Type} : List (Nat × α) → Nat → Option α
  | [], _ => none
  | (j, v) :: rest, k => if k = j then some v else lookAt rest k

/-- The table with a value listed at a key, keys kept strictly rising. -/
def putAt {α : Type} : List (Nat × α) → Nat → α → List (Nat × α)
  | [], k, v => [(k, v)]
  | (j, w) :: rest, k, v =>
    if k < j then (k, v) :: (j, w) :: rest else if k = j then (k, v) :: rest else (j, w) :: putAt rest k v

/-- The table with nothing listed at a key. -/
def dropAt {α : Type} : List (Nat × α) → Nat → List (Nat × α)
  | [], _ => []
  | (j, w) :: rest, k => if k = j then rest else (j, w) :: dropAt rest k

/-- The value at a key of a table whose unlisted keys read as `d`. -/
def entryAt {α : Type} (d : α) (t : List (Nat × α)) (k : Nat) : α := (lookAt t k).getD d

/-- Write a value at a key of a table whose unlisted keys read as `d`: writing `d` removes the entry. -/
def setEntry {α : Type} [DecidableEq α] (d : α) (t : List (Nat × α)) (k : Nat) (v : α) : List (Nat × α) :=
  if v = d then dropAt t k else putAt t k v

/-- Every listed key is above the bound, and they rise strictly. -/
def risesFrom {α : Type} : Nat → List (Nat × α) → Bool
  | _, [] => true
  | n, (j, _) :: rest => decide (n ≤ j) && risesFrom (j + 1) rest

/-- Canonical form of a table: keys strictly rising, and no listed value equal to what an unlisted key reads as. -/
def tableWf {α : Type} [DecidableEq α] (d : α) (t : List (Nat × α)) : Bool :=
  risesFrom 0 t && t.all fun e => e.2 != d

/-- Canonical form of a buffer's memory: addresses strictly rising. An unlisted address reads as no value, which no
listed byte equals, so equal memories are equal lists. -/
def Memory.wf (m : Memory) : Bool := risesFrom 0 m

end Sys2Proof.Machine
end

