-- ==== Sys2Proof/Machine/Flags.lean ====
section
/-! DEFINITION. The flags of `STATUS` (rule R25) and every computation on them (rules R215, R236, R268). There are no
arithmetic condition codes. -/

namespace Sys2Proof.Machine

/-- The four valid flags (rule R25). -/
inductive ValidFlag where
  | freq
  | tree
  | code
  | trie
  deriving DecidableEq, Repr

/-- The bit of `STATUS` that holds a valid flag (rule R25). -/
def flagBit : ValidFlag → Nat
  | .freq => 0
  | .tree => 1
  | .code => 2
  | .trie => 3

/-- The bit of `STATUS` that holds `ERR_SET` (rule R25). -/
def errSetBit : Nat := 31

/-- A word with one bit set to the given value and every other bit kept. -/
def withBit (w : Word) (i : Nat) (b : Bool) : Word :=
  (w &&& ~~~(1#32 <<< i)) ||| (if b then 1#32 <<< i else 0#32)

/-- A valid flag of the state. -/
def State.flag (s : State) (f : ValidFlag) : Bool := s.regs.status.getLsbD (flagBit f)

/-- `ERR_SET` of the state. -/
def State.errSet (s : State) : Bool := s.regs.status.getLsbD errSetBit

/-- `STATUS.<flag> <- b`. -/
def State.setFlag (f : ValidFlag) (b : Bool) (s : State) : State :=
  { s with regs := { s.regs with status := withBit s.regs.status (flagBit f) b } }

/-- `STATUS` after `raise` (rule R236): the four valid flags 0, `ERR_SET` 1. -/
def faultStatus (w : Word) : Word :=
  withBit (withBit (withBit (withBit (withBit w 0 false) 1 false) 2 false) 3 false) errSetBit true

end Sys2Proof.Machine
end

