-- ==== Sys2Proof/Machine/Ops.lean ====
section
/-! DEFINITION. The shared operations: reading and writing buffers (rules R66, R67), the internal memories and their
records, the priority queue (rules R131 to R134), taking a fault (rule R236) and the recovery from one (rule R217), and
the dispatcher's tests around a command's body (rule R215). -/

namespace Sys2Proof.Machine

/-! ### Buffers -/

/-- The buffer of a name (rule R60). -/
def State.buf (s : State) : Space → Buffer
  | .src => s.src
  | .pay => s.pay
  | .dict => s.dict
  | .dst => s.dst

/-- The state with one buffer replaced. -/
def State.setBuf (s : State) (sp : Space) (b : Buffer) : State :=
  match sp with
  | .src => { s with src := b }
  | .pay => { s with pay := b }
  | .dict => { s with dict := b }
  | .dst => { s with dst := b }

/-- The capacity of a buffer in bytes (rule R9). -/
def State.cap (s : State) : Space → Nat
  | .src => s.params.srcCap.toNat
  | .pay => s.params.payCap.toNat
  | .dict => s.params.dictCap.toNat
  | .dst => s.params.dstCap.toNat

/-- The length register of a buffer, as a number (rules R29 to R32). -/
def State.len (s : State) : Space → Nat
  | .src => s.regs.srcLen.toNat
  | .pay => s.regs.payLen.toNat
  | .dict => s.regs.dictLen.toNat
  | .dst => s.regs.dstLen.toNat

/-- The length register of a buffer written. -/
def State.setLen (s : State) (sp : Space) (n : Nat) : State :=
  match sp with
  | .src => { s with regs := { s.regs with srcLen := BitVec.ofNat 32 n } }
  | .pay => { s with regs := { s.regs with payLen := BitVec.ofNat 32 n } }
  | .dict => { s with regs := { s.regs with dictLen := BitVec.ofNat 32 n } }
  | .dst => { s with regs := { s.regs with dstLen := BitVec.ofNat 32 n } }

/-- The id of a buffer in `ERRINFO` (rule R68). -/
def spaceId : Space → Nat
  | .src => 0
  | .pay => 1
  | .dict => 2
  | .dst => 3

/-- The byte at an offset of a buffer: what was written there, or the free value of the buffer's draw (U2, U3). -/
def Buffer.byteAt (b : Buffer) (sp : Space) (a : Nat) : Byte :=
  (lookAt b.cells a).getD (Config.unwrittenByte b.draw sp a)

/-- `MemRead(SPACE:a, 1)` (rule R66). -/
def State.memRead (s : State) (sp : Space) (a : Nat) : Byte := (s.buf sp).byteAt sp a

/-- `MemRead(SPACE:a, 4)` (rule R66): little-endian, at any offset. -/
def State.memRead32 (s : State) (sp : Space) (a : Nat) : Nat :=
  le32 (s.memRead sp a) (s.memRead sp (a + 1)) (s.memRead sp (a + 2)) (s.memRead sp (a + 3))

/-- `MemWrite(SPACE:a, 1, v)` (rule R67). -/
def State.memWrite (s : State) (sp : Space) (a : Nat) (v : Byte) : State :=
  s.setBuf sp { s.buf sp with cells := putAt (s.buf sp).cells a v }

/-- The bytes written at rising offsets from `a`. -/
def State.memWriteAll (s : State) (sp : Space) (a : Nat) : List Byte → State
  | [] => s
  | v :: rest => (s.memWrite sp a v).memWriteAll sp (a + 1) rest

/-- `MemWrite(SPACE:a, 4, v)` (rule R67): `LE32bytes(v)` at rising offsets. -/
def State.memWrite32 (s : State) (sp : Space) (a : Nat) (v : Nat) : State := s.memWriteAll sp a (le32Bytes v)

/-! ### Internal memories -/

/-- `ABSENT_REC` (rule R135): what an unlisted record of `TREE` reads as. -/
def absentRec : TreeRec := ⟨.absent, 0#8, 0#32, none, none⟩

/-- `TABSENT` (rule R171): what an unlisted record of `TRIE` reads as. -/
def absentTrieRec : TrieRec := ⟨.absent, 0#8, none, none⟩

/-- `NEWNODE` (rule R171). -/
def newTrieNode : TrieRec := ⟨.internal, 0#8, none, none⟩

/-- The child of a `TREE` record on a bit: `low` on 0, `high` on 1 (rule R42). -/
def treeChild (r : TreeRec) (bit : Bool) : Option Nat := if bit then r.high else r.low

/-- The child of a `TRIE` record on a bit: `low` on 0, `high` on 1 (rule R44). -/
def trieChild (r : TrieRec) (bit : Bool) : Option Nat := if bit then r.high else r.low

/-- A `TRIE` record with one child replaced. -/
def setTrieChild (r : TrieRec) (bit : Bool) (i : Nat) : TrieRec :=
  if bit then { r with high := some i } else { r with low := some i }

/-- `FREQ[b]` (rule R40). -/
def State.freqAt (s : State) (b : Byte) : Word :=
  match s.freq with
  | .known t => entryAt 0#32 t b.toNat
  | .unspecified d => Config.unspecifiedCount d b.toNat

/-- `TREE[i]` (rules R41, R42). -/
def State.treeAt (s : State) (i : Nat) : TreeRec :=
  match s.tree with
  | .known t => entryAt absentRec t i
  | .unspecified d => Config.unspecifiedTreeRec d i

/-- The bits of `CODE[b]`; its `len` is their number, 0 when `b` has no codeword (rule R43). -/
def State.codeAt (s : State) (b : Byte) : List Bool :=
  match s.code with
  | .known t => entryAt [] t b.toNat
  | .unspecified d => (Config.unspecifiedCodeword d b.toNat).take Config.maxLen

/-- `TRIE[i]` (rule R44). -/
def State.trieAt (s : State) (i : Nat) : TrieRec :=
  match s.trie with
  | .known t => entryAt absentTrieRec t i
  | .unspecified d => Config.unspecifiedTrieRec d i

/-- The 256 byte values in rising order. -/
def allBytes : List Byte := (List.range 256).map (BitVec.ofNat 8)

/-! ### The priority queue -/

/-- The order of the keys (rule R131): by frequency, then by index. -/
def keyLess (x y : PqKey) : Bool :=
  decide (x.freq.toNat < y.freq.toNat) || (decide (x.freq.toNat = y.freq.toNat) && decide (x.index < y.index))

/-- `PQ.insert` (rule R132). The queue is held as the rising list of its keys. -/
def pqInsert (x : PqKey) : List PqKey → List PqKey
  | [] => [x]
  | y :: rest => if keyLess x y then x :: y :: rest else y :: pqInsert x rest

/-- `PQ.extract_min` (rule R134): the least key and the queue without it. -/
def pqExtractMin : List PqKey → Option (PqKey × List PqKey)
  | [] => none
  | x :: rest => some (x, rest)

/-! ### Faults -/

/-- The code of a fault in `ERR` (rule R231). -/
def faultCode : HwFault → Word
  | .sourceUnavailable => 1#32
  | .sinkUnavailable => 2#32
  | .malformedDictionary => 3#32
  | .incompleteCodeword => 4#32
  | .badPadding => 5#32
  | .noBranch => 6#32
  | .symbolNotCoded => 7#32
  | .sequenceError => 8#32
  | .illegalCommand => 9#32
  | .capacityExceeded => 10#32

/-- The contents of the internal memories become unspecified and `PQ` becomes empty (rules R217, R236, R260). -/
def State.forgetMemories (s : State) : State :=
  { s with freq := .unspecified s.draws, tree := .unspecified s.draws, code := .unspecified s.draws,
           trie := .unspecified s.draws, pq := [], draws := s.draws + 1 }

/-- An output of a command that faulted: every byte of the buffer unspecified, its length register 0 (rule R236, U3).
-/
def State.discardOutput (s : State) (draw : Nat) (sp : Space) : State := (s.setBuf sp ⟨[], draw⟩).setLen sp 0

/-- `raise X(info)` (rule R236), for a command whose outputs are `outs`. -/
def State.raise (s : State) (x : HwFault) (info : Nat) (outs : List Space) : State :=
  outs.foldl (fun t sp => t.discardOutput s.draws sp)
    { s.forgetMemories with
      regs := { s.regs with err := faultCode x, errinfo := BitVec.ofNat 32 info, status := faultStatus s.regs.status } }

/-- What CLR does (rule R217): the recovery from a fault. -/
def State.clear (s : State) : State :=
  { s.forgetMemories with
    regs := { Regs.zero with srcLen := s.regs.srcLen, payLen := s.regs.payLen, dictLen := s.regs.dictLen } }

/-- Hardware reset (rules R49, R260). The capacities, the host's remaining actions and what it has read stay. -/
def State.hardReset (s : State) : State :=
  { s.forgetMemories with
    regs := Regs.zero, src := ⟨[], s.draws⟩, pay := ⟨[], s.draws⟩, dict := ⟨[], s.draws⟩, dst := ⟨[], s.draws⟩ }

/-! ### Running a command -/

/-- How a part of a command's pseudocode ends: with a result, or at a `raise` with the state at that moment. -/
inductive Run (α : Type) where
  | done (a : α)
  | raised (x : HwFault) (info : Nat) (s : State)
  deriving DecidableEq, Repr

/-- Statements run in the order written; the first `raise` ends them (rules R13, R237). -/
def Run.andThen {α β : Type} (r : Run α) (f : α → Run β) : Run β :=
  match r with
  | .done a => f a
  | .raised x info s => .raised x info s

/-- The state in which a command ends (rule R236 where it raises). -/
def Run.finish (outs : List Space) : Run State → State
  | .done s => s
  | .raised x info s => s.raise x info outs

/-- The prerequisite test of the dispatcher (rule R215). -/
def State.admits (s : State) : Option ValidFlag → Bool
  | none => true
  | some f => s.flag f

/-- The dispatcher's procedure for a legal word `w` other than CLR's (rule R215): ignored while a fault is recorded,
SequenceError when the prerequisite flag is 0, else the command's body with its output buffers `outs`. -/
def runCommand (w : Word) (pre : Option ValidFlag) (outs : List Space) (body : State → Run State) (s : State) :
    Host.Outcome State Fault Refusal :=
  if s.regs.err ≠ 0#32 then .next s
  else if s.admits pre then .next ((body s).finish outs)
  else .next (s.raise .sequenceError w.toNat [])

/-- The dispatcher's procedure for an illegal word (rules R95, R215). -/
def rejectWord (w : Word) (s : State) : Host.Outcome State Fault Refusal :=
  if s.regs.err ≠ 0#32 then .next s else .next (s.raise .illegalCommand w.toNat [])

end Sys2Proof.Machine
end

