-- ==== Sys2Proof/Machine/BitPacker.lean ====
section
/-! DEFINITION. The BitPacker command: PACK (rule R191). -/

namespace Sys2Proof.Machine

/-- What PACK works on: the state, the next `PAY` offset, the accumulator and the number of bits in it
(rules R46, R191). -/
structure PackCtx where
  st   : State
  q    : Nat
  acc  : Nat
  nacc : Nat
  deriving DecidableEq, Repr

/-- A byte to `PAY` at the next offset, behind its capacity check (rules R68, R191). -/
def packByte (c : PackCtx) (v : Nat) : Run PackCtx :=
  if c.q + 1 > c.st.cap .pay then .raised .sinkUnavailable (spaceId .pay) c.st
  else .done { st := c.st.memWrite .pay c.q (BitVec.ofNat 8 v), q := c.q + 1, acc := 0, nacc := 0 }

/-- One codeword bit enters the accumulator; a full accumulator is written (rule R191). -/
def packBit (c : PackCtx) (bit : Bool) : Run PackCtx :=
  if c.nacc + 1 = 8 then packByte c (2 * c.acc + bit.toNat)
  else .done { c with acc := 2 * c.acc + bit.toNat, nacc := c.nacc + 1 }

/-- The bits of one codeword (rule R191). -/
def packBits : List Bool → PackCtx → Run PackCtx
  | [], c => .done c
  | bit :: rest, c => (packBit c bit).andThen (packBits rest)

/-- The `n` input bytes from offset `i` (rule R191). -/
def packInput : Nat → Nat → PackCtx → Run PackCtx
  | 0, _, c => .done c
  | n + 1, i, c =>
    let cw := c.st.codeAt (c.st.memRead .src i)
    if cw.length = 0 then .raised .symbolNotCoded i c.st else (packBits cw c).andThen (packInput n (i + 1))

/-- The last, partial byte and the padding count (rule R191): the state and `PAY`'s length. -/
def packFlush (c : PackCtx) : Run State :=
  if c.nacc > 0 then
    (packByte c (c.acc * 2 ^ (8 - c.nacc))).andThen fun d =>
      .done ((d.st.memWrite .pay 0 (BitVec.ofNat 8 (8 - c.nacc))).setLen .pay d.q)
  else .done ((c.st.memWrite .pay 0 0#8).setLen .pay c.q)

/-- The pseudocode of PACK (rule R191). -/
def packBody (s : State) : Run State :=
  if s.len .src > s.cap .src then .raised .sourceUnavailable (spaceId .src) s
  else if 1 > s.cap .pay then .raised .sinkUnavailable (spaceId .pay) s
  else (packInput (s.len .src) 0 ⟨s, 1, 0, 0⟩).andThen packFlush

/-- PACK (rules R191, R215). -/
def execPack (s : State) : Host.Outcome State Fault Refusal :=
  runCommand (encode .pack) (some .code) [.pay] packBody s

end Sys2Proof.Machine
end

