-- ==== Sys2Proof/Machine/BitUnpacker.lean ====
section
/-! DEFINITION. The BitUnpacker command: UNPACK (rules R201 to R206). -/

namespace Sys2Proof.Machine

/-- What UNPACK works on: the state, the node pointer and the number of bytes emitted (rules R47, R201). -/
structure UnpackCtx where
  st  : State
  cur : Nat
  m   : Nat
  deriving DecidableEq, Repr

/-- Payload bit `k` (rules R70, R201). -/
def State.payBit (s : State) (k : Nat) : Bool := payloadBit (s.memRead .pay (1 + k / 8)) k

/-- A leaf emits its byte behind the capacity check of `DST`, and the walk returns to the root (rule R201). -/
def unpackEmit (c : UnpackCtx) (v : Byte) : Run UnpackCtx :=
  if c.m + 1 > c.st.cap .dst then .raised .sinkUnavailable (spaceId .dst) c.st
  else .done { st := c.st.memWrite .dst c.m v, cur := 0, m := c.m + 1 }

/-- One payload bit (rule R201). -/
def unpackBit (c : UnpackCtx) (k : Nat) : Run UnpackCtx :=
  match trieChild (c.st.trieAt c.cur) (c.st.payBit k) with
  | none => .raised .noBranch k c.st
  | some nxt =>
    if (c.st.trieAt nxt).kind = .leaf then unpackEmit c (c.st.trieAt nxt).value else .done { c with cur := nxt }

/-- The `n` payload bits from number `k` (rule R201). -/
def unpackLoop : Nat → Nat → UnpackCtx → Run UnpackCtx
  | 0, _, c => .done c
  | n + 1, k, c => (unpackBit c k).andThen (unpackLoop n (k + 1))

/-- The pseudocode of UNPACK (rules R201, R203). -/
def unpackBody (s : State) : Run State :=
  if s.len .pay > s.cap .pay then .raised .sourceUnavailable (spaceId .pay) s
  else if !rootPresent s.regs.trieRoot then .done (s.setLen .dst 0)
  else if s.len .pay ≤ 1 then .done (s.setLen .dst 0)
  else
    let pad := (s.memRead .pay 0).toNat
    if pad > 7 then .raised .badPadding pad s
    else
      let nbits := 8 * (s.len .pay - 1) - pad
      (unpackLoop nbits 0 ⟨s, 0, 0⟩).andThen fun c =>
        if c.cur ≠ 0 then .raised .incompleteCodeword nbits c.st else .done (c.st.setLen .dst c.m)

/-- UNPACK (rules R201, R215). -/
def execUnpack (s : State) : Host.Outcome State Fault Refusal :=
  runCommand (encode .unpack) (some .trie) [.dst] unpackBody s

end Sys2Proof.Machine
end

