-- ==== Sys2Proof/Machine/CodeTable.lean ====
section
/-! DEFINITION. The CodeTable commands: GEN (rule R151) and LOOKUP (rule R154). -/

namespace Sys2Proof.Machine

/-- The pair of a child pushed on GEN's stack. A reference `NONE`, which no INTERNAL record of a built tree holds
(rule R42), pushes nothing (notes/assumptions/10.md). -/
def pushChild (child : Option Nat) (path : List Bool) (stack : List (Nat × List Bool)) : List (Nat × List Bool) :=
  match child with
  | some i => (i, path) :: stack
  | none => stack

/-- The walk of GEN (rule R151) with at most `n` pops. -/
def genWalk (s : State) : Nat → List (Nat × List Bool) → Table (List Bool) → Table (List Bool)
  | 0, _, t => t
  | _ + 1, [], t => t
  | n + 1, (i, path) :: stack, t =>
    match (s.treeAt i).kind with
    | .leaf => genWalk s n stack (setEntry [] t (s.treeAt i).value.toNat path)
    | .internal =>
      genWalk s n
        (pushChild (s.treeAt i).low (path ++ [false]) (pushChild (s.treeAt i).high (path ++ [true]) stack)) t
    | .unused => genWalk s n stack t
    | .absent => genWalk s n stack t

/-- The bound on GEN's pops: each record of a tree in the arena is popped once, and the arena has `TREE_N` records
(notes/assumptions/10.md). -/
def genPops : Nat := Config.treeN

/-- The pseudocode of GEN (rule R151). -/
def genBody (s : State) : Run State :=
  let s1 := s.setFlag .code false
  let table := if rootPresent s.regs.treeRoot then genWalk s genPops [(treeRootIndex s.regs.treeRoot, [])] [] else []
  .done ({ s1 with code := .known table }.setFlag .code true)

/-- GEN (rules R151, R215). -/
def execGen (s : State) : Host.Outcome State Fault Refusal := runCommand (encode .gen) (some .tree) [] genBody s

/-- `CWLEN` and `CWBITS0` to `CWBITS7` written with a codeword (rules R103, R154). -/
def State.showCodeword (s : State) (cw : List Bool) : State :=
  { s with regs := { s.regs with
      cwlen := BitVec.ofNat 32 cw.length
      cwbits0 := cwbitsWord cw 0, cwbits1 := cwbitsWord cw 1, cwbits2 := cwbitsWord cw 2, cwbits3 := cwbitsWord cw 3
      cwbits4 := cwbitsWord cw 4, cwbits5 := cwbitsWord cw 5, cwbits6 := cwbitsWord cw 6
      cwbits7 := cwbitsWord cw 7 } }

/-- The pseudocode of LOOKUP (rule R154). -/
def lookupBody (b : Byte) (s : State) : Run State := .done (s.showCodeword (s.codeAt b))

/-- LOOKUP (rules R154, R215). -/
def execLookup (b : Byte) (s : State) : Host.Outcome State Fault Refusal :=
  runCommand (encode (.lookup b)) (some .code) [] (lookupBody b) s

end Sys2Proof.Machine
end

