-- ==== Sys2Proof/Machine/Dictionary.lean ====
section
/-! DEFINITION. The DictionaryCodec commands: DSER (rule R166), DDES (rules R171 to R173) and RDTRIE (rule R175). -/

namespace Sys2Proof.Machine

/-! ### DSER -/

/-- The number of byte values with a codeword (rule R166). -/
def State.codedBytes (s : State) : Nat := (allBytes.filter fun b => !(s.codeAt b).isEmpty).length

/-- The bytes of one dictionary entry (rules R96, R97). -/
def entryBytes (b : Byte) (cw : List Bool) : List Byte := b :: (le32Bytes cw.length ++ cw.map charOf)

/-- One pass of DSER's loop (rule R166) from offset `p`: the state and the next offset. -/
def dserEntry (s : State) (p : Nat) (b : Byte) : Run (State × Nat) :=
  let cw := s.codeAt b
  if cw.length = 0 then .done (s, p)
  else if p + 5 + cw.length > s.cap .dict then .raised .sinkUnavailable (spaceId .dict) s
  else .done (s.memWriteAll .dict p (entryBytes b cw), p + 5 + cw.length)

/-- DSER's loop over byte values (rule R166). -/
def dserLoop : List Byte → State × Nat → Run (State × Nat)
  | [], c => .done c
  | b :: rest, c => (dserEntry c.1 c.2 b).andThen (dserLoop rest)

/-- The pseudocode of DSER (rule R166). -/
def dserBody (s : State) : Run State :=
  if 4 > s.cap .dict then .raised .sinkUnavailable (spaceId .dict) s
  else
    (dserLoop allBytes (s.memWrite32 .dict 0 s.codedBytes, 4)).andThen fun c => .done (c.1.setLen .dict c.2)

/-- DSER (rules R166, R215). -/
def execDser (s : State) : Host.Outcome State Fault Refusal :=
  runCommand (encode .dser) (some .code) [.dict] dserBody s

/-! ### DDES -/

/-- The trie under construction and the number of its records (rule R171). -/
structure TrieCtx where
  trie  : Table TrieRec
  nodes : Nat
  deriving DecidableEq, Repr

/-- `TRIE[i]` of a trie under construction. -/
def TrieCtx.recAt (t : TrieCtx) (i : Nat) : TrieRec := entryAt absentTrieRec t.trie i

/-- `TRIE[i] <- r` in a trie under construction. -/
def TrieCtx.writeRec (t : TrieCtx) (i : Nat) (r : TrieRec) : TrieCtx :=
  { t with trie := setEntry absentTrieRec t.trie i r }

/-- A new record at the next free index (rule R172). -/
def TrieCtx.newNode (t : TrieCtx) : TrieCtx := { t.writeRec t.nodes newTrieNode with nodes := t.nodes + 1 }

/-- A new record made the child of `cur` on a bit (rule R171). -/
def TrieCtx.growChild (t : TrieCtx) (cur : Nat) (bit : Bool) : TrieCtx :=
  t.newNode.writeRec cur (setTrieChild (t.newNode.recAt cur) bit t.nodes)

/-- One character of a codeword, at `DICT` offset `a`, from node `cur` (rule R171, checks 8 and 9): the node reached. -/
def ddesChar (s : State) (a : Nat) (cur : Nat) (t : TrieCtx) : Run (Nat × TrieCtx) :=
  let c := s.memRead .dict a
  if c ≠ charOf false ∧ c ≠ charOf true then .raised .malformedDictionary a s
  else if (t.recAt cur).kind = .leaf then .raised .malformedDictionary a s
  else
    let bit := c == charOf true
    match trieChild (t.recAt cur) bit with
    | some child => .done (child, t)
    | none => .done (t.nodes, t.growChild cur bit)

/-- The `n` characters from offset `a` (rule R171). -/
def ddesChars (s : State) : Nat → Nat → Nat × TrieCtx → Run (Nat × TrieCtx)
  | 0, _, c => .done c
  | n + 1, a, c => (ddesChar s a c.1 c.2).andThen (ddesChars s n (a + 1))

/-- What DDES's loop carries from entry to entry: the offset `p`, the byte values seen and the trie (rule R171). -/
structure DdesCtx where
  p    : Nat
  seen : List Byte
  trie : TrieCtx
  deriving DecidableEq, Repr

/-- The end of an entry: check 10, then the node becomes the leaf (rule R171). -/
def ddesMark (s : State) (p : Nat) (bv : Byte) (cur : Nat) (t : TrieCtx) : Run TrieCtx :=
  let r := t.recAt cur
  if r.kind = .leaf ∨ r.low ≠ none ∨ r.high ≠ none then .raised .malformedDictionary p s
  else .done (t.writeRec cur { r with kind := .leaf, value := bv })

/-- One entry of the blob (rule R171, checks 3 to 10). -/
def ddesEntry (s : State) (c : DdesCtx) : Run DdesCtx :=
  let n := s.len .dict
  if n - c.p < 5 then .raised .malformedDictionary c.p s
  else
    let bv := s.memRead .dict c.p
    let len := s.memRead32 .dict (c.p + 1)
    if len = 0 then .raised .malformedDictionary c.p s
    else if len > n - (c.p + 5) then .raised .malformedDictionary c.p s
    else if len > Config.maxLen then .raised .capacityExceeded c.p s
    else if bv ∈ c.seen then .raised .malformedDictionary c.p s
    else
      (ddesChars s len (c.p + 5) (0, c.trie)).andThen fun walked =>
        (ddesMark s c.p bv walked.1 walked.2).andThen fun t =>
          .done ⟨c.p + 5 + len, c.seen ++ [bv], t⟩

/-- The entries of the blob, `count` of them (rule R171). -/
def ddesLoop (s : State) : Nat → DdesCtx → Run DdesCtx
  | 0, c => .done c
  | n + 1, c => (ddesEntry s c).andThen (ddesLoop s n)

/-- The trie before the first entry (rules R171, R172): empty, or the root alone. -/
def ddesRoot (count : Nat) : TrieCtx := if count > 0 then TrieCtx.newNode ⟨[], 0⟩ else ⟨[], 0⟩

/-- `TRIE`, `TRIE_ROOT` and `TRIE_NODES` written with the finished trie (rules R35, R36, R171). -/
def State.setTrie (s : State) (count : Nat) (t : TrieCtx) : State :=
  { s with trie := .known t.trie
           regs := { s.regs with trieRoot := rootWord (if count = 0 then none else some 0)
                                 trieNodes := BitVec.ofNat 32 t.nodes } }

/-- The pseudocode of DDES (rule R171). -/
def ddesBody (s : State) : Run State :=
  let s1 := s.setFlag .trie false
  let n := s1.len .dict
  if n > s1.cap .dict then .raised .sourceUnavailable (spaceId .dict) s1
  else if n < 4 then .raised .malformedDictionary 0 s1
  else
    let count := s1.memRead32 .dict 0
    if count > (n - 4) / 5 then .raised .malformedDictionary 0 s1
    else
      (ddesLoop s1 count ⟨4, [], ddesRoot count⟩).andThen fun c =>
        if c.p ≠ n then .raised .malformedDictionary c.p s1
        else .done ((s1.setTrie count c.trie).setFlag .trie true)

/-- DDES (rules R171, R215). -/
def execDdes (s : State) : Host.Outcome State Fault Refusal := runCommand (encode .ddes) none [] ddesBody s

/-! ### RDTRIE -/

/-- `RES0` to `RES4` written with a `TRIE` record (rules R104, R175). -/
def State.showTrieRec (s : State) (r : TrieRec) : State :=
  { s with regs := { s.regs with res0 := trieKindCode r.kind, res1 := r.value.setWidth 32, res2 := 0#32,
                                 res3 := refWord r.low, res4 := refWord r.high } }

/-- The pseudocode of RDTRIE (rule R175). -/
def rdtrieBody (idx : BitVec 17) (s : State) : Run State :=
  .done (s.showTrieRec (if idx.toNat ≥ s.regs.trieNodes.toNat then absentTrieRec else s.trieAt idx.toNat))

/-- RDTRIE (rules R175, R215). -/
def execRdtrie (idx : BitVec 17) (s : State) : Host.Outcome State Fault Refusal :=
  runCommand (encode (.rdtrie idx)) (some .trie) [] (rdtrieBody idx) s

end Sys2Proof.Machine
end

