-- ==== Sys2Proof/Machine/Frequency.lean ====
section
/-! DEFINITION. The FrequencyTable commands: SCAN (rule R121) and RDFREQ (rule R122). -/

namespace Sys2Proof.Machine

/-- The counting loop of SCAN (rule R121) over the `n` input bytes from offset `i`. -/
def scanLoop (s : State) : Nat → Nat → Table Word → Table Word
  | 0, _, t => t
  | n + 1, i, t =>
    let b := (s.memRead .src i).toNat
    scanLoop s n (i + 1) (setEntry 0#32 t b (entryAt 0#32 t b + 1#32))

/-- The number of byte values with a nonzero count (rules R33, R121). -/
def State.distinctBytes (s : State) : Nat := (allBytes.filter fun b => s.freqAt b != 0#32).length

/-- `NSYM <- n` (rule R33). -/
def State.setNsym (s : State) (n : Nat) : State := { s with regs := { s.regs with nsym := BitVec.ofNat 32 n } }

/-- The pseudocode of SCAN (rule R121). -/
def scanBody (s : State) : Run State :=
  if s.len .src > s.cap .src then .raised .sourceUnavailable (spaceId .src) s
  else
    let s1 := ((s.setFlag .freq false).setFlag .tree false).setFlag .code false
    let s2 := { s1 with freq := .known (scanLoop s (s.len .src) 0 []) }
    .done ((s2.setNsym s2.distinctBytes).setFlag .freq true)

/-- SCAN (rules R121, R215). -/
def execScan (s : State) : Host.Outcome State Fault Refusal := runCommand (encode .scan) none [] scanBody s

/-- The pseudocode of RDFREQ (rule R122). -/
def rdfreqBody (b : Byte) (s : State) : Run State := .done { s with regs := { s.regs with res0 := s.freqAt b } }

/-- RDFREQ (rules R122, R215). -/
def execRdfreq (b : Byte) (s : State) : Host.Outcome State Fault Refusal :=
  runCommand (encode (.rdfreq b)) (some .freq) [] (rdfreqBody b) s

end Sys2Proof.Machine
end

