-- ==== Sys2Proof/Machine/TreeBuilder.lean ====
section
/-! DEFINITION. The TreeBuilder commands: BUILD (rules R135 to R139) and RDTREE (rule R141). -/

namespace Sys2Proof.Machine

/-- What BUILD works on: the arena, the queue and the number of internal nodes made (rule R135). -/
structure BuildCtx where
  tree : Table TreeRec
  pq   : List PqKey
  made : Nat
  deriving DecidableEq, Repr

/-- `TREE[i] <- r`. -/
def writeTree (t : Table TreeRec) (i : Nat) (r : TreeRec) : Table TreeRec := setEntry absentRec t i r

/-- The record of an internal node (rule R42). -/
def internalRec (freq : Word) (low high : Nat) : TreeRec := ⟨.internal, 0#8, freq, some low, some high⟩

/-- The record of the leaf of a byte value (rule R42). -/
def leafRec (b : Byte) (freq : Word) : TreeRec := ⟨.leaf, b, freq, none, none⟩

/-- The record of the placeholder (rules R42, R137). -/
def placeholderRec : TreeRec := ⟨.unused, 0#8, 0#32, none, none⟩

/-- The index of the placeholder (rule R41). -/
def placeholderIndex : Nat := 511

/-- The index of the internal node made `k`-th, counting from 0 (rule R139). -/
def internalIndex (k : Nat) : Nat := 256 + k

/-- The leaf of one byte value enters the arena and the queue when its count is nonzero (rule R135). -/
def addLeaf (s : State) (c : BuildCtx) (b : Byte) : BuildCtx :=
  if s.freqAt b = 0#32 then c
  else { c with tree := writeTree c.tree b.toNat (leafRec b (s.freqAt b)), pq := pqInsert ⟨s.freqAt b, b.toNat⟩ c.pq }

/-- All leaves, in rising order of byte value (rule R135). -/
def addLeaves (s : State) : BuildCtx := allBytes.foldl (addLeaf s) ⟨[], [], 0⟩

/-- One pass of the merge loop (rule R138): the least key becomes `low`, the second least `high`. -/
def mergeOnce (c : BuildCtx) : BuildCtx :=
  match pqExtractMin c.pq with
  | none => c
  | some (x, rest) =>
    match pqExtractMin rest with
    | none => c
    | some (y, rest2) =>
      { tree := writeTree c.tree (internalIndex c.made) (internalRec (x.freq + y.freq) x.index y.index)
        pq := pqInsert ⟨x.freq + y.freq, internalIndex c.made⟩ rest2
        made := c.made + 1 }

/-- The merge loop: it passes while more than one key is left (rule R135). The first argument bounds the passes;
`buildTree` gives it the number of keys, and each pass leaves one key fewer. -/
def mergeLoop : Nat → BuildCtx → BuildCtx
  | 0, c => c
  | n + 1, c => if c.pq.length > 1 then mergeLoop n (mergeOnce c) else c

/-- The three cases of BUILD (rules R136 to R138): the arena, the root's index, and the queue left, which is empty. -/
def buildTree (c : BuildCtx) : BuildCtx × Option Nat :=
  if c.pq.length = 0 then (c, none)
  else if c.pq.length = 1 then
    match pqExtractMin c.pq with
    | none => (c, none)
    | some (x, rest) =>
      ({ tree := writeTree (writeTree c.tree placeholderIndex placeholderRec) (internalIndex 0)
           (internalRec x.freq x.index placeholderIndex)
         pq := rest, made := 1 }, some (internalIndex 0))
  else
    let d := mergeLoop c.pq.length c
    match pqExtractMin d.pq with
    | none => (d, none)
    | some (x, rest) => ({ d with pq := rest }, some x.index)

/-- `TREE_ROOT <- r` (rule R34). -/
def State.setTreeRoot (s : State) (r : Option Nat) : State :=
  { s with regs := { s.regs with treeRoot := rootWord r } }

/-- The pseudocode of BUILD (rule R135). FREQ is discarded at the end: its contents become unspecified (U5). -/
def buildBody (s : State) : Run State :=
  let s1 := (s.setFlag .tree false).setFlag .code false
  let built := buildTree (addLeaves s)
  let s2 := { s1 with tree := .known built.1.tree, pq := built.1.pq, freq := .unspecified s.draws,
                      draws := s.draws + 1 }
  .done (((s2.setTreeRoot built.2).setFlag .freq false).setFlag .tree true)

/-- BUILD (rules R135, R215). -/
def execBuild (s : State) : Host.Outcome State Fault Refusal :=
  runCommand (encode .build) (some .freq) [] buildBody s

/-- `RES0` to `RES4` written with a `TREE` record (rules R104, R141). -/
def State.showTreeRec (s : State) (r : TreeRec) : State :=
  { s with regs := { s.regs with res0 := nodeKindCode r.kind, res1 := r.value.setWidth 32, res2 := r.freq,
                                 res3 := refWord r.low, res4 := refWord r.high } }

/-- The pseudocode of RDTREE (rule R141). -/
def rdtreeBody (idx : BitVec 17) (s : State) : Run State :=
  .done (s.showTreeRec (if idx.toNat > 511 then absentRec else s.treeAt idx.toNat))

/-- RDTREE (rules R141, R215). -/
def execRdtree (idx : BitVec 17) (s : State) : Host.Outcome State Fault Refusal :=
  runCommand (encode (.rdtree idx)) (some .tree) [] (rdtreeBody idx) s

end Sys2Proof.Machine
end

