-- ==== Sys2Proof/Machine/Control.lean ====
section
/-! DEFINITION. The control commands NOP and CLR (rules R216, R217) and the orchestrators ENCODE and DECODE
(rules R218, R219). -/

namespace Sys2Proof.Machine

/-- NOP (rules R215, R216). -/
def execNop (s : State) : Host.Outcome State Fault Refusal := runCommand (encode .nop) none [] .done s

/-- CLR (rules R215, R217): the one command that runs while a fault is recorded. -/
def execClr (s : State) : Host.Outcome State Fault Refusal := .next s.clear

/-- The pseudocode of ENCODE (rule R218): five bodies in order, the first `raise` ends it. -/
def encodeBody (s : State) : Run State :=
  ((((scanBody s).andThen buildBody).andThen genBody).andThen dserBody).andThen packBody

/-- ENCODE (rules R215, R218); its outputs are `DICT` and `PAY` (rule R236). -/
def execEncode (s : State) : Host.Outcome State Fault Refusal :=
  runCommand (encode .encode) none [.dict, .pay] encodeBody s

/-- The pseudocode of DECODE (rule R219). -/
def decodeBody (s : State) : Run State := (ddesBody s).andThen unpackBody

/-- DECODE (rules R215, R219); its output is `DST` (rule R236). -/
def execDecode (s : State) : Host.Outcome State Fault Refusal :=
  runCommand (encode .decode) none [.dst] decodeBody s

end Sys2Proof.Machine
end

