-- ==== Sys2Proof/Machine/Dispatch.lean ====
section
/-! DEFINITION. One arm per command: what a write of that command's word to CMD does. -/

namespace Sys2Proof.Machine

def exec (i : Instr) (s : State) : Host.Outcome State Fault Refusal :=
  match i with
  | .nop => Sys2Proof.Machine.execNop s
  | .clr => Sys2Proof.Machine.execClr s
  | .scan => Sys2Proof.Machine.execScan s
  | .build => Sys2Proof.Machine.execBuild s
  | .gen => Sys2Proof.Machine.execGen s
  | .dser => Sys2Proof.Machine.execDser s
  | .pack => Sys2Proof.Machine.execPack s
  | .encode => Sys2Proof.Machine.execEncode s
  | .ddes => Sys2Proof.Machine.execDdes s
  | .unpack => Sys2Proof.Machine.execUnpack s
  | .decode => Sys2Proof.Machine.execDecode s
  | .lookup b => Sys2Proof.Machine.execLookup b s
  | .rdfreq b => Sys2Proof.Machine.execRdfreq b s
  | .rdtree idx => Sys2Proof.Machine.execRdtree idx s
  | .rdtrie idx => Sys2Proof.Machine.execRdtrie idx s

end Sys2Proof.Machine
end

