-- ==== Sys2Proof/Machine/HostPort.lean ====
section
/-! DEFINITION. What the host can do: the register window (rules R21, R22, R26), the buffers (rules R60, R78), reset
(rule R261), and the script notation's expansion into such actions (rules R106, R107). -/

namespace Sys2Proof.Machine

/-- A host write of a word to `CMD` (rules R26, R215). -/
def commandWrite (w : Word) (s : State) : Host.Outcome State Fault Refusal :=
  match decode w with
  | .ok i => exec i s
  | .error _ => rejectWord w s

/-- What a register reads as (rules R21, R22). A read of `CMD` returns 0. -/
def State.regValue (s : State) : Reg → Word
  | .cmd => 0#32
  | .status => s.regs.status
  | .err => s.regs.err
  | .errinfo => s.regs.errinfo
  | .srcLen => s.regs.srcLen
  | .payLen => s.regs.payLen
  | .dictLen => s.regs.dictLen
  | .dstLen => s.regs.dstLen
  | .nsym => s.regs.nsym
  | .treeRoot => s.regs.treeRoot
  | .trieRoot => s.regs.trieRoot
  | .trieNodes => s.regs.trieNodes
  | .res0 => s.regs.res0
  | .res1 => s.regs.res1
  | .res2 => s.regs.res2
  | .res3 => s.regs.res3
  | .res4 => s.regs.res4
  | .cwlen => s.regs.cwlen
  | .cwbits0 => s.regs.cwbits0
  | .cwbits1 => s.regs.cwbits1
  | .cwbits2 => s.regs.cwbits2
  | .cwbits3 => s.regs.cwbits3
  | .cwbits4 => s.regs.cwbits4
  | .cwbits5 => s.regs.cwbits5
  | .cwbits6 => s.regs.cwbits6
  | .cwbits7 => s.regs.cwbits7

/-- The registers after a host write of a value to one that is not `CMD` (rules R21, R22): the three length registers
that are `RW` take it, and a write to an `RO` register changes nothing. -/
def hostWrite (r : Reg) (v : Word) (g : Regs) : Regs :=
  match r with
  | .srcLen => { g with srcLen := v }
  | .payLen => { g with payLen := v }
  | .dictLen => { g with dictLen := v }
  | .cmd | .status | .err | .errinfo | .dstLen | .nsym | .treeRoot | .trieRoot | .trieNodes => g
  | .res0 | .res1 | .res2 | .res3 | .res4 | .cwlen => g
  | .cwbits0 | .cwbits1 | .cwbits2 | .cwbits3 | .cwbits4 | .cwbits5 | .cwbits6 | .cwbits7 => g

/-- A host write to a register (rules R21, R22, R26): to `CMD`, a command. -/
def regWrite (r : Reg) (v : Word) (s : State) : Host.Outcome State Fault Refusal :=
  if r = .cmd then commandWrite v s else .next { s with regs := hostWrite r v s.regs }

/-- A value delivered to the host (the model's own field, notes/assumptions/3.md). -/
def State.deliver (s : State) (v : Word) : State := { s with returned := v :: s.returned }

/-- The register a host access reaches (rule R22, U1), or why the access has no meaning. -/
def accessedReg (off : Nat) (width : AccessWidth) : Except Refusal Reg :=
  if width ≠ .word then .error (.narrowRegisterAccess off)
  else
    match regAt off with
    | some r => .ok r
    | none => .error (.undefinedRegister off)

/-- One action of the host. -/
def perform (a : HostAction) (s : State) : Host.Outcome State Fault Refusal :=
  match a with
  | .writeReg off width v =>
    match accessedReg off width with
    | .ok r => regWrite r v s
    | .error e => .refused e
  | .readReg off width =>
    match accessedReg off width with
    | .ok r => .next (s.deliver (s.regValue r))
    | .error e => .refused e
  | .writeBuf sp off v => if off < s.cap sp then .next (s.memWrite sp off v) else .fault (.noSuchByte sp off)
  | .readBuf sp off =>
    if off < s.cap sp then .next (s.deliver ((s.memRead sp off).setWidth 32)) else .fault (.noSuchByte sp off)
  | .reset => .next s.hardReset

/-- The host's write of a word to `CMD`, as an action. -/
def commandAction (w : Word) : HostAction := .writeReg 0x00 .word w

/-- `FILL` (rule R106): the bytes at offsets from `off` up, one action and so one step for each byte. DESIGN CHOICE
(notes/assumptions/19.md): rule R106 calls the line one host action and says nowhere how many bytes an access moves. -/
def fillActions (sp : Space) : Nat → List Byte → List HostAction
  | _, [] => []
  | off, v :: rest => .writeBuf sp off v :: fillActions sp (off + 1) rest

/-- The actions a script line stands for (rules R106, R107). A `FILL` or `DUMP` line is one action for each byte, in
rising offset order: DESIGN CHOICE, notes/assumptions/19.md. -/
def lineActions : ScriptLine → List HostAction
  | .wr reg v => [.writeReg (regOffset reg) .word (BitVec.ofNat 32 v)]
  | .rd reg => [.readReg (regOffset reg) .word]
  | .fill sp bytes => fillActions sp 0 bytes
  | .dump sp n => (List.range n).map fun off => .readBuf sp off
  | .command i => [commandAction (encode i)]
  | .encodeBang bytes =>
    fillActions .src 0 bytes ++
      [.writeReg (regOffset .srcLen) .word (BitVec.ofNat 32 bytes.length), commandAction (encode .encode)]
  | .decodeBang => [commandAction (encode .decode), .readReg (regOffset .dstLen) .word]

/-- The actions of a script: those of its lines, in order (rule R106: "lines run in order"). That a `FILL` or `DUMP` line
is several of the model's actions is the model's choice (notes/assumptions/19.md). -/
def scriptActions (lines : List ScriptLine) : List HostAction := lines.flatMap lineActions

/-- A host action with the script moved past it; with no action to come the block waits, which changes nothing
(rule R248). -/
def nextAction (s : State) : Host.Outcome State Fault Refusal :=
  match s.script with
  | [] => .next s
  | a :: rest => perform a { s with script := rest }

end Sys2Proof.Machine
end

