-- ==== Sys2Proof/Machine/Step.lean ====
section
/-! DEFINITION. One step: the host's next action (rules R8, R24). The machine fetches nothing; its next command is the
word the host writes to CMD next. -/

namespace Sys2Proof.Machine

/-- One step: the next action of the host's script. -/
def step (s : State) : Host.Outcome State Fault Refusal := nextAction s

/-- The state in which the host's next action is the write of a command word to `CMD` (notes/assumptions/2.md). -/
def State.withFetchWord (s : State) (nbits w : Nat) : State :=
  { s with script := commandAction (BitVec.ofNat 32 (w % 2 ^ nbits)) :: s.script }

end Sys2Proof.Machine
end

