-- ==== Sys2Proof/Safety.lean ====
section
/-! DEFINITION. The terms claims are stated in: what a run that went wrong is (rule R276), what a state's buffers,
codewords and trees say, the tables of the spec about all commands, and the invariants of the machine. -/

namespace Sys2Proof.Machine

/-! ### Runs -/

/-- No fault is recorded (rule R276: "A run 'went wrong' exactly when `ERR` ≠ 0"). -/
abbrev State.Ok (s : State) : Prop := s.regs.err = 0#32

/-- Commands in order lead from one state to another, and none of them records a fault. -/
def RunsTo : List Instr → State → State → Prop
  | [], s, t => t = s
  | i :: rest, s, t => ∃ u, exec i s = .next u ∧ u.Ok ∧ RunsTo rest u t

/-! ### What stays the same -/

/-- Every byte of a buffer reads as before. -/
def SameBytes (s t : State) (sp : Space) : Prop := ∀ a, t.memRead sp a = s.memRead sp a

/-- Every byte of every buffer reads as before. -/
def SameBuffers (s t : State) : Prop := ∀ sp, SameBytes s t sp

/-- Every byte of every buffer but one reads as before. -/
def SameBuffersBut (sp : Space) (s t : State) : Prop := ∀ sp2, sp2 ≠ sp → SameBytes s t sp2

/-- The bytes of a buffer at and above an offset read as before. -/
def SameBytesFrom (s t : State) (sp : Space) (n : Nat) : Prop := ∀ a, n ≤ a → t.memRead sp a = s.memRead sp a

/-- The five internal memories are as before. -/
def SameMemories (s t : State) : Prop :=
  t.freq = s.freq ∧ t.tree = s.tree ∧ t.code = s.code ∧ t.trie = s.trie ∧ t.pq = s.pq

/-- The capacities, the host's remaining actions and what it has read are as before (the model's own fields). -/
def SameHostSide (s t : State) : Prop := t.params = s.params ∧ t.script = s.script ∧ t.returned = s.returned

/-- The bits of `STATUS` that hold no valid flag are as before. -/
def SameOtherStatus (s t : State) : Prop := ∀ i, 4 ≤ i → t.regs.status.getLsbD i = s.regs.status.getLsbD i

/-! ### What a state says -/

/-- The bytes of the valid region of a buffer (rules R61 to R64). -/
def State.region (s : State) (sp : Space) : List Byte := (List.range (s.len sp)).map (s.memRead sp)

/-- The codewords of the first `n` input bytes, one after another (rule R102). -/
def State.inputBits (s : State) (n : Nat) : List Bool :=
  (List.range n).flatMap fun i => s.codeAt (s.memRead .src i)

/-- The number of payload bits that are not padding (rule R100). -/
def State.payloadBitCount (s : State) : Nat := 8 * (s.len .pay - 1) - (s.memRead .pay 0).toNat

/-- The payload bits that are not padding (rules R70, R100). -/
def State.payloadBits (s : State) : List Bool := (List.range s.payloadBitCount).map s.payBit

/-- A dictionary as a list of byte values and codewords, in the order of a blob (rule R97). -/
abbrev Entries := List (Byte × List Bool)

/-- The blob of a dictionary (rules R96, R97). -/
def blobOf (es : Entries) : List Byte := le32Bytes es.length ++ es.flatMap fun e => entryBytes e.1 e.2

/-- The dictionary held in `CODE`, in rising order of byte value (rule R99). -/
def State.codeEntries (s : State) : Entries :=
  (allBytes.map fun b => (b, s.codeAt b)).filter fun e => !e.2.isEmpty

/-- No codeword is a prefix of another (rule R153 (b)). -/
abbrev PrefixFree (es : Entries) : Prop := es.Pairwise fun x y => ¬ x.2 <+: y.2 ∧ ¬ y.2 <+: x.2

/-- A CodeTable: keys unique, codewords of 1 to 255 bits, prefix-free (rules R150, R9, R153). -/
abbrev ValidTable (es : Entries) : Prop :=
  (es.map Prod.fst).Nodup ∧ (∀ e ∈ es, 1 ≤ e.2.length ∧ e.2.length ≤ Config.maxLen) ∧ PrefixFree es

/-- The paths of a list that are not in another, each once and in order, put behind that other. -/
def addNew (ps qs : List (List Bool)) : List (List Bool) :=
  qs.foldl (fun acc q => if q ∈ acc then acc else acc ++ [q]) ps

/-- The paths to the records of the trie of a dictionary, in the order of first need (rule R172): "entries in blob order,
and within an entry the bits in codeword order", the root's empty path first. A path's place is its record's index. -/
def pathsByNeed (es : Entries) : List (List Bool) := addNew [] (es.flatMap fun e => e.2.inits)

/-- The node of `TREE` reached from a node along a path (rule R42). -/
def State.treeWalk (s : State) : Nat → List Bool → Option Nat
  | cur, [] => some cur
  | cur, bit :: rest =>
    match treeChild (s.treeAt cur) bit with
    | none => none
    | some nxt => s.treeWalk nxt rest

/-- The node of `TRIE` reached from a node along a path (rule R202). -/
def State.trieWalk (s : State) : Nat → List Bool → Option Nat
  | cur, [] => some cur
  | cur, bit :: rest =>
    match trieChild (s.trieAt cur) bit with
    | none => none
    | some nxt => s.trieWalk nxt rest

/-- A path from a node of `TREE` ends on the leaf of a byte value. -/
def State.TreeRoutes (s : State) (root : Nat) (path : List Bool) (b : Byte) : Prop :=
  ∃ i, s.treeWalk root path = some i ∧ (s.treeAt i).kind = .leaf ∧ (s.treeAt i).value = b

/-- The trie routes a codeword to a byte value (rule R176): the walk from the root ends on its leaf. -/
def State.TrieRoutes (s : State) (cw : List Bool) (b : Byte) : Prop :=
  ∃ i, s.trieWalk 0 cw = some i ∧ (s.trieAt i).kind = .leaf ∧ (s.trieAt i).value = b

/-- The key of a node of `TREE` in the priority queue (rule R131). -/
def State.keyOf (s : State) (i : Nat) : PqKey := ⟨(s.treeAt i).freq, i⟩

/-- The nodes in the queue before the `k`-th pass of BUILD's loop, read from the finished arena: the leaves and the
internal nodes made before, less those already made children (rules R135, R138). -/
def State.Waiting (s : State) (k i : Nat) : Prop :=
  ((i < 256 ∧ (s.treeAt i).kind = .leaf) ∨ (256 ≤ i ∧ i < 256 + k)) ∧
    ∀ j, j < k → (s.treeAt (256 + j)).low ≠ some i ∧ (s.treeAt (256 + j)).high ≠ some i

/-- A register of `CWBITS` by number (rule R39). -/
def cwbitsReg (g : Regs) (j : Nat) : Word :=
  match j with
  | 0 => g.cwbits0
  | 1 => g.cwbits1
  | 2 => g.cwbits2
  | 3 => g.cwbits3
  | 4 => g.cwbits4
  | 5 => g.cwbits5
  | 6 => g.cwbits6
  | _ => g.cwbits7

/-! ### Tables of the spec about all commands -/

/-- The prerequisite flag of a command (rule R215). -/
def prerequisite : Instr → Option ValidFlag
  | .nop | .clr | .scan | .ddes | .encode | .decode => none
  | .build | .rdfreq _ => some .freq
  | .gen | .rdtree _ => some .tree
  | .dser | .pack | .lookup _ => some .code
  | .unpack | .rdtrie _ => some .trie

/-- A command's prerequisite flag is 1, or it has none (rule R215). -/
def State.Ready (s : State) (i : Instr) : Prop := ∀ f, prerequisite i = some f → s.flag f = true

/-- The buffers whose length registers a command's fault zeroes (rule R236), which are the buffers it writes
(rule R74). -/
def outputsOf : Instr → List Space
  | .dser => [.dict]
  | .pack => [.pay]
  | .encode => [.dict, .pay]
  | .unpack | .decode => [.dst]
  | .nop | .clr | .scan | .build | .gen | .ddes => []
  | .lookup _ | .rdfreq _ | .rdtree _ | .rdtrie _ => []

/-- The input buffer whose length a command compares with its capacity before anything else (rules R68, R233). -/
def firstInputOf : Instr → Option Space
  | .scan | .pack | .encode => some .src
  | .ddes | .decode => some .dict
  | .unpack => some .pay
  | .nop | .clr | .build | .gen | .dser => none
  | .lookup _ | .rdfreq _ | .rdtree _ | .rdtrie _ => none

/-- The valid flags after a command that succeeds (rule R268); the last argument is the flag before. -/
def flagAfter : Instr → ValidFlag → Bool → Bool
  | .scan, .freq, _ => true
  | .scan, .tree, _ => false
  | .scan, .code, _ => false
  | .build, .freq, _ => false
  | .build, .tree, _ => true
  | .build, .code, _ => false
  | .gen, .code, _ => true
  | .encode, .freq, _ => false
  | .encode, .tree, _ => true
  | .encode, .code, _ => true
  | .ddes, .trie, _ => true
  | .decode, .trie, _ => true
  | .clr, _, _ => false
  | _, _, old => old

/-- The faults a well-formed word of a command can raise, with the buffer id where the table names one
(rule R233). -/
def faultsOf : Instr → List (HwFault × Option Nat)
  | .nop | .clr => []
  | .scan => [(.sourceUnavailable, some 0)]
  | .build | .gen => [(.sequenceError, none)]
  | .dser => [(.sequenceError, none), (.sinkUnavailable, some 2)]
  | .pack => [(.sequenceError, none), (.sourceUnavailable, some 0), (.sinkUnavailable, some 1), (.symbolNotCoded, none)]
  | .encode => [(.sourceUnavailable, some 0), (.sinkUnavailable, some 2), (.sinkUnavailable, some 1)]
  | .ddes => [(.sourceUnavailable, some 2), (.malformedDictionary, none), (.capacityExceeded, none)]
  | .unpack =>
    [(.sequenceError, none), (.sourceUnavailable, some 1), (.badPadding, none), (.noBranch, none),
      (.sinkUnavailable, some 3), (.incompleteCodeword, none)]
  | .decode =>
    [(.sourceUnavailable, some 2), (.malformedDictionary, none), (.capacityExceeded, none),
      (.sourceUnavailable, some 1), (.badPadding, none), (.noBranch, none), (.sinkUnavailable, some 3),
      (.incompleteCodeword, none)]
  | .lookup _ | .rdfreq _ | .rdtree _ | .rdtrie _ => [(.sequenceError, none)]

/-- The fourteen result registers (rule R23). -/
def resultRegs : List Reg :=
  [.res0, .res1, .res2, .res3, .res4, .cwlen, .cwbits0, .cwbits1, .cwbits2, .cwbits3, .cwbits4, .cwbits5, .cwbits6,
    .cwbits7]

/-- The result registers a command may change (rules R37 to R39): the readback commands' own, and CLR's all. -/
def resultsWrittenBy : Instr → List Reg
  | .clr => resultRegs
  | .rdfreq _ => [.res0]
  | .rdtree _ | .rdtrie _ => [.res0, .res1, .res2, .res3, .res4]
  | .lookup _ =>
    [.cwlen, .cwbits0, .cwbits1, .cwbits2, .cwbits3, .cwbits4, .cwbits5, .cwbits6, .cwbits7]
  | .nop | .scan | .build | .gen | .dser | .pack | .encode | .ddes | .unpack | .decode => []

/-! ### Invariants -/

/-- A property of an internal memory's contents, when they are known. -/
def Contents.Holds {α : Type} (P : α → Prop) : Contents α → Prop
  | .unspecified _ => True
  | .known v => P v

/-- A table is canonical and its keys lie below a bound. -/
abbrev TableOk {α : Type} [DecidableEq α] (d : α) (n : Nat) (t : Table α) : Prop :=
  tableWf d t = true ∧ ∀ e ∈ t, e.1 < n

/-- Storage is canonical: the buffers' memories and the known tables are in their one form, every listed byte lies
below its buffer's capacity (rule R60), and every record inside its arena (rules R40 to R44). -/
def State.StorageOk (s : State) : Prop :=
  (∀ sp, (s.buf sp).cells.wf = true ∧ ∀ c ∈ (s.buf sp).cells, c.1 < s.cap sp) ∧
  s.freq.Holds (TableOk 0#32 256) ∧ s.tree.Holds (TableOk absentRec Config.treeN) ∧
  s.code.Holds (TableOk [] 256) ∧ s.trie.Holds (TableOk absentTrieRec Config.trieN)

/-- `ERR`, `ERRINFO` and `STATUS` agree (rules R25, R27, R28, R236): `ERR_SET` is 1 exactly when `ERR` ≠ 0, the code is
at most 10, no info is held without a fault, a recorded fault leaves no valid flag, and the reserved bits of `STATUS`
are 0. -/
def State.FaultFlagsOk (s : State) : Prop :=
  (s.errSet = true ↔ s.regs.err ≠ 0#32) ∧ s.regs.err.toNat ≤ 10 ∧ (s.Ok → s.regs.errinfo = 0#32) ∧
  (¬ s.Ok → ∀ f, s.flag f = false) ∧ ∀ i, 4 ≤ i → i < 31 → s.regs.status.getLsbD i = false

/-- The registers with reserved bits hold values of their form (rules R33 to R36, R38, R39). -/
def State.RegsOk (s : State) : Prop :=
  s.regs.nsym.toNat ≤ 256 ∧ (∃ r : Option Nat, (∀ i, r = some i → i < Config.treeN) ∧ s.regs.treeRoot = rootWord r) ∧
  (s.regs.trieRoot = rootWord none ∨ s.regs.trieRoot = rootWord (some 0)) ∧
  s.regs.trieNodes.toNat ≤ Config.trieN ∧ s.regs.cwlen.toNat ≤ Config.maxLen ∧ s.regs.cwbits7.getLsbD 0 = false

/-- A reference from record `i` is one a built tree holds: to a record that is not absent, made earlier, or to the
placeholder (rules R42, R139). -/
abbrev TreeRefOk (t : Table TreeRec) (i c : Nat) : Prop :=
  (entryAt absentRec t c).kind ≠ .absent ∧ (c < i ∨ c = placeholderIndex)

/-- A listed `TREE` record has one of the shapes of rule R42. -/
def TreeRecOk (t : Table TreeRec) (e : Nat × TreeRec) : Prop :=
  match e.2.kind with
  | .absent => False
  | .leaf => e.1 < 256 ∧ e.2 = leafRec (BitVec.ofNat 8 e.1) e.2.freq ∧ e.2.freq ≠ 0#32
  | .unused => e.1 = placeholderIndex ∧ e.2 = placeholderRec
  | .internal =>
    256 ≤ e.1 ∧ e.1 ≤ 510 ∧
      ∃ l h, e.2 = internalRec ((entryAt absentRec t l).freq + (entryAt absentRec t h).freq) l h ∧
        TreeRefOk t e.1 l ∧ TreeRefOk t e.1 h

/-- All child references of an arena. -/
def treeRefs (t : Table TreeRec) : List Nat := t.flatMap fun e => e.2.low.toList ++ e.2.high.toList

/-- The arena holds one tree with the given root (rules R41, R42, R139, R140): every record has its shape, every
record but the root is the child of exactly one record, and the root is an internal node, absent exactly when the
arena is empty. -/
def TreeShape (t : Table TreeRec) (root : Option Nat) : Prop :=
  (∀ e ∈ t, TreeRecOk t e) ∧ (treeRefs t).Nodup ∧ (∀ e ∈ t, e.1 ∈ treeRefs t ↔ root ≠ some e.1) ∧
  match root with
  | none => t = []
  | some r => (entryAt absentRec t r).kind = .internal

/-- A reference from record `i` of a trie: to a record made later (rule R172). -/
abbrev TrieRefOk (nodes i : Nat) (c : Option Nat) : Prop := ∀ j, c = some j → i < j ∧ j < nodes

/-- A `TRIE` record in use has one of the shapes of rule R44. -/
def TrieRecOk (nodes i : Nat) (r : TrieRec) : Prop :=
  match r.kind with
  | .absent => False
  | .leaf => r.low = none ∧ r.high = none
  | .internal =>
    r.value = 0#8 ∧ (r.low ≠ none ∨ r.high ≠ none) ∧ TrieRefOk nodes i r.low ∧ TrieRefOk nodes i r.high

/-- The arena holds one trie of `nodes` records (rules R35, R36, R44, R172, R202): records 0 to `nodes` − 1 are in use,
each of its shape, the root is an internal node, and no record is the child of two. -/
def TrieShape (t : Table TrieRec) (nodes : Nat) : Prop :=
  (∀ i, i < nodes → TrieRecOk nodes i (entryAt absentTrieRec t i)) ∧
  (∀ i, nodes ≤ i → entryAt absentTrieRec t i = absentTrieRec) ∧
  (0 < nodes → (entryAt absentTrieRec t 0).kind = .internal) ∧
  (t.flatMap fun e => e.2.low.toList ++ e.2.high.toList).Nodup

/-- The tree in the state is one BUILD makes, `TREE_ROOT` names its root, and `NSYM` counts its leaves
(rules R25, R33, R34). -/
def State.TreeOk (s : State) : Prop :=
  ∃ t root, s.tree = .known t ∧ tableWf absentRec t = true ∧ TreeShape t root ∧ s.regs.treeRoot = rootWord root ∧
    s.regs.nsym.toNat = (t.filter fun e => e.2.kind == .leaf).length

/-- The trie in the state is one DDES makes, and `TRIE_ROOT` and `TRIE_NODES` describe it (rules R25, R35, R36). -/
def State.TrieOk (s : State) : Prop :=
  ∃ t, s.trie = .known t ∧ tableWf absentTrieRec t = true ∧ TrieShape t s.regs.trieNodes.toNat ∧
    s.regs.trieRoot = rootWord (if s.regs.trieNodes.toNat = 0 then none else some 0)

/-- What a valid flag says about its structure (rules R25, R33): each flag's memory is known and holds a result of its
command. The queue is empty between commands (rule R45) and the capacities are legal (rule R9). -/
def State.StructuresOk (s : State) : Prop :=
  s.pq = [] ∧ s.params.Legal ∧ s.code.Holds (fun t => ∀ e ∈ t, e.2.length ≤ Config.maxLen) ∧
  (s.flag .freq = true → (∃ t, s.freq = .known t) ∧ s.regs.nsym.toNat = s.distinctBytes) ∧
  (s.flag .tree = true → s.TreeOk) ∧
  (s.flag .code = true → s.flag .tree = true ∧ (∃ t, s.code = .known t) ∧ ValidTable s.codeEntries ∧
    ∀ b, s.codeAt b ≠ [] ↔ (s.treeAt b.toNat).kind = .leaf) ∧
  (s.flag .trie = true → s.TrieOk)

/-- The invariant of the machine. -/
def State.Inv (s : State) : Prop := s.StorageOk ∧ s.FaultFlagsOk ∧ s.RegsOk ∧ s.StructuresOk

end Sys2Proof.Machine
end

