-- ==== Sys2Proof/Certificates/Slice0/Obligations.lean ====
section
/-! DEFINITION. The statements for the provers. Each docstring names the rule it formalises, or says that it is derived. -/

open Sys2Proof Sys2Proof.Machine

/-! ### Encoding -/

/-- Derived (rules R90 to R94): decoding the word of any command, with any operand, gives that command. -/
def Obligations.DecodeOfEncodedCommand : Prop := ∀ i : Instr, decode (encode i) = .ok i

/-- Derived (rules R90 to R94): a word that decodes is the word of what it decodes to, so no two words share a
meaning and no bit is dropped. -/
def Obligations.DecodedWordIsReencoded : Prop := ∀ (w : Word) (i : Instr), decode w = .ok i → encode i = w

/-- R94: a word encodes a command exactly when it matches a row of the opcode map, of fifteen rows; the row is that
command's, and the operand is the format's field (rules R92, R93). -/
def Obligations.DecodeFollowsOpcodeMap : Prop :=
  ∀ w : Word,
    (∀ i, decode w = .ok i → ∃ r ∈ opcodeMap, r.mnemonic = i.mnemonic ∧ w &&& r.mask = r.pattern) ∧
    (∀ r ∈ opcodeMap, w &&& r.mask = r.pattern → ∃ i, decode w = .ok i ∧ i.mnemonic = r.mnemonic) ∧
    (∀ b, (decode w = .ok (.lookup b) ∨ decode w = .ok (.rdfreq b)) → b.toNat = w.toNat / 2 ^ 8 % 2 ^ 8) ∧
    (∀ idx, (decode w = .ok (.rdtree idx) ∨ decode w = .ok (.rdtrie idx)) → idx.toNat = w.toNat / 2 ^ 8 % 2 ^ 17) ∧
    opcodeMap.length = 15

/-- R95: a word that matches no row of the opcode map raises IllegalCommand with the word as info and does nothing
else. -/
def Obligations.UndefinedWordRaisesIllegalCommand : Prop :=
  ∀ (w : Word) (s : State), (∀ r ∈ opcodeMap, w &&& r.mask ≠ r.pattern) → s.Ok →
    commandWrite w s = .next (s.raise .illegalCommand w.toNat [])

/-- Derived (rules R91 to R94): words written out from the encodings, one of each format and family. -/
def Obligations.WrittenOutWordsDecode : Prop :=
  decode 0x00000000#32 = .ok .nop ∧ decode 0x00000010#32 = .ok .scan ∧ decode 0x00000011#32 = .ok .build ∧
  decode 0x00000012#32 = .ok .gen ∧ decode 0x00000013#32 = .ok .dser ∧ decode 0x00000014#32 = .ok .pack ∧
  decode 0x00000021#32 = .ok .unpack ∧ decode 0x00006C30#32 = .ok (.lookup 0x6C#8) ∧
  decode 0x00006C31#32 = .ok (.rdfreq 0x6C#8) ∧ decode 0x00010132#32 = .ok (.rdtree 257#17) ∧
  decode 0x00000433#32 = .ok (.rdtrie 4#17)

/-! ### The step, the host's accesses and reset -/

/-- Derived (rules R26, R215; notes/assumptions/2.md): when the host's next action is the write of a legal word to
`CMD`, the step is that command's `exec` with the action taken off the script; and `withFetchWord` places such a write.
-/
def Obligations.StepRunsTheDecodedCommand : Prop :=
  (∀ (s : State) (w : Word) (i : Instr) (rest : List HostAction),
    s.script = .writeReg 0x00 .word w :: rest → decode w = .ok i → step s = exec i { s with script := rest }) ∧
  ∀ (s : State) (i : Instr), step (s.withFetchWord 32 (encode i).toNat) = exec i s

/-- Derived (rule R248; notes/assumptions/2.md): with no host action to come the block waits and loses no state. -/
def Obligations.StepWaitsForTheHost : Prop := ∀ s : State, s.script = [] → step s = .next s

/-- Derived (rules R13, R276): no command stops the machine, in any state; faults are recorded in `ERR`. -/
def Obligations.EveryCommandEnds : Prop := ∀ (i : Instr) (s : State), ∃ t, exec i s = .next t

/-- Derived (rules R21, R22; notes/assumptions/3.md for the field `returned`): a host read of any register delivers its
value and changes nothing else; a read of `CMD` delivers 0. -/
def Obligations.HostReadDeliversTheRegister : Prop :=
  ∀ (s : State) (r : Reg) (rest : List HostAction), s.script = .readReg (regOffset r) .word :: rest →
    step s = .next { s with script := rest, returned := s.regValue r :: s.returned } ∧ s.regValue .cmd = 0#32

/-- Derived (rules R21, R22, R29 to R31): a host write changes a length register that is `RW` to the value written, and
a write to an `RO` register changes nothing. -/
def Obligations.HostWriteReachesOnlyLengths : Prop :=
  ∀ (s : State) (r : Reg) (v : Word) (rest : List HostAction), r ≠ .cmd →
    s.script = .writeReg (regOffset r) .word v :: rest →
    ∃ t, step s = .next t ∧ t = { s with script := rest, regs := t.regs } ∧
      ∀ q, t.regValue q = if q = r ∧ (r = .srcLen ∨ r = .payLen ∨ r = .dictLen) then v else s.regValue q

/-- Derived (rule R22, 93_implementation_defined.md U1): a host access to an offset that is not a multiple of 4 or is
0x68 or above, or of a width other than 32 bits, is refused; every other access to the window has a meaning. A narrow
access at an undefined offset is refused for its width: that the width is tested first is the model's DESIGN CHOICE
(notes/assumptions/9.md). -/
def Obligations.UndefinedRegisterAccessIsRefused : Prop :=
  ∀ (s : State) (off : Nat) (v : Word),
    ((off % 4 ≠ 0 ∨ 0x68 ≤ off) →
      perform (.readReg off .word) s = .refused (.undefinedRegister off) ∧
      perform (.writeReg off .word v) s = .refused (.undefinedRegister off)) ∧
    (∀ width, width ≠ .word →
      perform (.readReg off width) s = .refused (.narrowRegisterAccess off) ∧
      perform (.writeReg off width v) s = .refused (.narrowRegisterAccess off)) ∧
    (off % 4 = 0 → off < 0x68 →
      (∃ t, perform (.readReg off .word) s = .next t) ∧ ∃ t, perform (.writeReg off .word v) s = .next t)

/-- Derived (rules R60, R78, R79; notes/assumptions/8.md for the stop): a host write of a buffer byte below the capacity
stores it, no other byte of any buffer changes, and the next host read of it delivers it; at or above the capacity
there is no such byte. -/
def Obligations.HostByteIsStoredAndReadBack : Prop :=
  ∀ (s : State) (sp : Space) (off : Nat) (v : Byte),
    (off < s.cap sp → ∃ t, perform (.writeBuf sp off v) s = .next t ∧ t.memRead sp off = v ∧
      (∀ sp2 a, ¬ (sp2 = sp ∧ a = off) → t.memRead sp2 a = s.memRead sp2 a) ∧ t.regs = s.regs ∧ SameMemories s t ∧
      SameHostSide s t ∧
      perform (.readBuf sp off) t = .next { t with returned := v.setWidth 32 :: t.returned }) ∧
    (s.cap sp ≤ off → perform (.writeBuf sp off v) s = .fault (.noSuchByte sp off) ∧
      perform (.readBuf sp off) s = .fault (.noSuchByte sp off))

/-- Derived (rules R15, R66, R67, R69): a 4-byte write followed by a 4-byte read at the same offset, aligned or not,
gives the value back; the byte at the lowest offset is the least significant; no other byte changes. -/
def Obligations.FourByteWriteReadsBack : Prop :=
  ∀ (s : State) (sp : Space) (a v : Nat), v < 2 ^ 32 →
    (s.memWrite32 sp a v).memRead32 sp a = v ∧
    (∀ k, k < 4 → ((s.memWrite32 sp a v).memRead sp (a + k)).toNat = v / 256 ^ k % 256) ∧
    ∀ sp2 c, (sp2 ≠ sp ∨ c < a ∨ a + 4 ≤ c) → (s.memWrite32 sp a v).memRead sp2 c = s.memRead sp2 c

/-- Derived (rules R49, R260): after reset every register reads 0, no flag is set and the queue is empty. The
capacities and the empty script are the model's choice (notes/assumptions/1.md, 2.md) and are not stated. -/
def Obligations.ResetReadsZero : Prop :=
  (∀ r, State.reset.regValue r = 0#32) ∧ (∀ f, State.reset.flag f = false) ∧ State.reset.pq = []

/-- R262: CLR has the effect of reset on every register except `SRC_LEN`, `PAY_LEN` and `DICT_LEN`, which CLR keeps and
reset zeroes; CLR keeps buffer bytes, and reset leaves every one of them a free value. -/
def Obligations.ClrComparedWithReset : Prop :=
  ∀ s : State, ∃ t u, exec .clr s = .next t ∧ perform .reset s = .next u ∧
    (∀ r, r ≠ .srcLen → r ≠ .payLen → r ≠ .dictLen → t.regValue r = u.regValue r) ∧
    (∀ r, u.regValue r = 0#32) ∧
    t.regs.srcLen = s.regs.srcLen ∧ t.regs.payLen = s.regs.payLen ∧ t.regs.dictLen = s.regs.dictLen ∧
    SameBuffers s t ∧ ∃ d, ∀ sp a, u.memRead sp a = Config.unwrittenByte d sp a

/-! ### Faults and the dispatcher -/

/-- Derived (rules R231, R236): what `raise` records, with the ten codes of `ERR` written out, and what it clears and
leaves, for a command with the outputs `outs`. -/
def Obligations.RaiseRecordsTheFault : Prop :=
  ∀ (s : State) (x : HwFault) (info : Nat) (outs : List Space),
    let t := s.raise x info outs
    t.regs.err = (match x with
      | .sourceUnavailable => 1#32
      | .sinkUnavailable => 2#32
      | .malformedDictionary => 3#32
      | .incompleteCodeword => 4#32
      | .badPadding => 5#32
      | .noBranch => 6#32
      | .symbolNotCoded => 7#32
      | .sequenceError => 8#32
      | .illegalCommand => 9#32
      | .capacityExceeded => 10#32) ∧
    t.regs.errinfo.toNat = info % 2 ^ 32 ∧ (∀ f, t.flag f = false) ∧ t.errSet = true ∧
    (∀ sp ∈ outs, t.len sp = 0) ∧ (∀ sp, sp ∉ outs → t.len sp = s.len sp ∧ SameBytes s t sp) ∧ t.pq = [] ∧
    t.regs = { s.regs with err := t.regs.err, errinfo := t.regs.errinfo, status := t.regs.status,
                           srcLen := t.regs.srcLen, payLen := t.regs.payLen, dictLen := t.regs.dictLen,
                           dstLen := t.regs.dstLen } ∧ SameHostSide s t

/-- R238: while a fault is recorded every word but CLR's is ignored without any effect, host reads and writes of
registers and buffers still work, and `ERR`, `ERRINFO` and `STATUS` survive every step but a write of CLR's word and a
reset. -/
def Obligations.RecordedFaultIsSticky : Prop :=
  ∀ s : State, ¬ s.Ok →
    (∀ w : Word, w ≠ 0x00000001#32 → commandWrite w s = .next s) ∧
    (∀ r, perform (.readReg (regOffset r) .word) s = .next { s with returned := s.regValue r :: s.returned }) ∧
    (∀ (v : Word), (∃ t, perform (.writeReg (regOffset .srcLen) .word v) s = .next t ∧ t.regs.srcLen = v) ∧
      (∃ t, perform (.writeReg (regOffset .payLen) .word v) s = .next t ∧ t.regs.payLen = v) ∧
      ∃ t, perform (.writeReg (regOffset .dictLen) .word v) s = .next t ∧ t.regs.dictLen = v) ∧
    (∀ sp off v, off < s.cap sp →
      (∃ t, perform (.writeBuf sp off v) s = .next t ∧ t.memRead sp off = v) ∧
      perform (.readBuf sp off) s = .next { s with returned := (s.memRead sp off).setWidth 32 :: s.returned }) ∧
    ∀ t, step s = .next t → (∀ rest, s.script ≠ .writeReg 0x00 .word 0x00000001#32 :: rest) →
      (∀ rest, s.script ≠ .reset :: rest) →
      t.regs.err = s.regs.err ∧ t.regs.errinfo = s.regs.errinfo ∧ t.regs.status = s.regs.status

/-- Derived (rules R215, R269): a command whose prerequisite flag is 0 raises SequenceError with its word as info. -/
def Obligations.MissingPrerequisiteRaisesSequenceError : Prop :=
  ∀ (i : Instr) (f : ValidFlag) (s : State), prerequisite i = some f → s.Ok → s.flag f = false →
    exec i s = .next (s.raise .sequenceError (encode i).toNat [])

/-- Derived (rules R68, R219, R237): a command whose first input buffer's length register exceeds the buffer's capacity raises
SourceUnavailable with the buffer's id, before anything else of its own. DECODE reads two buffers: `DICT` first, and
when DDES has accepted it a `PAY_LEN` above `PAY_CAP` raises SourceUnavailable with id 1, whatever `PAY` holds. -/
def Obligations.OverlongInputRaisesSourceUnavailable : Prop :=
  (∀ (i : Instr) (sp : Space) (s : State), firstInputOf i = some sp → s.Ok → s.Ready i → s.cap sp < s.len sp →
    exec i s = .next (s.raise .sourceUnavailable (spaceId sp) (outputsOf i))) ∧
  ∀ s t : State, s.Ok → exec .ddes s = .next t → t.Ok → s.cap .pay < s.len .pay →
    exec .decode s = .next (t.raise .sourceUnavailable 1 [.dst])

/-- R233: which command can raise which fault, for a well-formed command word: no other than the listed ones, and each
of the listed ones in some state; and an undefined word raises IllegalCommand. -/
def Obligations.CommandsRaiseOnlyTheirFaults : Prop :=
  (∀ (i : Instr) (s t : State), s.Ok → exec i s = .next t → ¬ t.Ok →
    ∃ e ∈ faultsOf i, t.regs.err = faultCode e.1 ∧ ∀ n, e.2 = some n → t.regs.errinfo = BitVec.ofNat 32 n) ∧
  (∀ (i : Instr), ∀ e ∈ faultsOf i, ∃ s t : State, s.Ok ∧ exec i s = .next t ∧ t.regs.err = faultCode e.1 ∧
    ∀ n, e.2 = some n → t.regs.errinfo = BitVec.ofNat 32 n) ∧
  ∀ (w : Word) (s : State), s.Ok → (∀ i, decode w ≠ .ok i) → ∃ t, commandWrite w s = .next t ∧ t.regs.err = 9#32

/-- Derived (rules R236, R239, 93_implementation_defined.md U6): after a command that faults no flag is valid, `ERR_SET`
is 1 and the queue is empty; the command's own output lengths are 0 unless the dispatcher raised the fault; every other
length, every byte of the other buffers and every register but `NSYM` and `TREE_ROOT` (which ENCODE may have written)
and `TRIE_ROOT` and `TRIE_NODES` (which DECODE may have written) keep their values. -/
def Obligations.FaultedCommandKeepsTheRest : Prop :=
  ∀ (i : Instr) (s t : State), s.Ok → exec i s = .next t → ¬ t.Ok →
    (∀ f, t.flag f = false) ∧ t.errSet = true ∧ t.pq = [] ∧
    (s.Ready i → ∀ sp ∈ outputsOf i, t.len sp = 0) ∧
    (∀ sp, (¬ s.Ready i ∨ sp ∉ outputsOf i) → t.len sp = s.len sp ∧ SameBytes s t sp) ∧
    (∀ r, r ∉ [Reg.status, .err, .errinfo, .srcLen, .payLen, .dictLen, .dstLen] →
      (i = .encode → r ≠ .nsym ∧ r ≠ .treeRoot) → (i = .decode → r ≠ .trieRoot ∧ r ≠ .trieNodes) →
      t.regValue r = s.regValue r) ∧ SameHostSide s t

/-! ### Control -/

/-- R216: the word of NOP; it changes nothing, whether or not a fault is recorded. -/
def Obligations.NopDoesNothing : Prop := encode .nop = 0x00000000#32 ∧ ∀ s : State, exec .nop s = .next s

/-- R217: the word of CLR; in every state it leaves: each register but the three `RW` lengths reads 0, the lengths and every buffer byte are
kept, the queue is empty, the internal memories' contents are unspecified, and no fault is recorded. No other command
ends a recorded fault. -/
def Obligations.ClrClearsAllButLengths : Prop :=
  encode .clr = 0x00000001#32 ∧ (∀ (i : Instr) (s : State), i ≠ .clr → ¬ s.Ok → exec i s = .next s) ∧
  ∀ s : State, ∃ t, exec .clr s = .next t ∧ t.Ok ∧
    t.regs = { Regs.zero with srcLen := s.regs.srcLen, payLen := s.regs.payLen, dictLen := s.regs.dictLen } ∧
    t.pq = [] ∧ SameBuffers s t ∧ SameHostSide s t ∧
    ∃ d, t.freq = .unspecified d ∧ t.tree = .unspecified d ∧ t.code = .unspecified d ∧ t.trie = .unspecified d

/-! ### FrequencyTable -/

/-- Derived (rules R121, R123): SCAN counts every byte value of the input, `NSYM` is the number of distinct ones, the
flags are as rule R268 says, and nothing else changes. -/
def Obligations.ScanCountsEveryByte : Prop :=
  ∀ s : State, s.Ok → s.len .src ≤ s.cap .src → ∃ t, exec .scan s = .next t ∧
    (∀ b, (t.freqAt b).toNat = (s.region .src).count b) ∧
    t.regs.nsym.toNat = (s.region .src).dedup.length ∧
    (∀ f, t.flag f = flagAfter .scan f (s.flag f)) ∧ SameOtherStatus s t ∧
    t.regs = { s.regs with nsym := t.regs.nsym, status := t.regs.status } ∧
    t.tree = s.tree ∧ t.code = s.code ∧ t.trie = s.trie ∧ t.pq = s.pq ∧ SameBuffers s t ∧ SameHostSide s t

/-- Derived (rule R123 (b)): any permutation of the input gives the same counts and the same `NSYM`. -/
def Obligations.ScanIgnoresInputOrder : Prop :=
  ∀ s1 s2 t1 t2 : State, s1.Ok → s2.Ok → s1.len .src ≤ s1.cap .src → s2.len .src ≤ s2.cap .src →
    (s1.region .src).Perm (s2.region .src) → exec .scan s1 = .next t1 → exec .scan s2 = .next t2 →
    t1.freq = t2.freq ∧ t1.regs.nsym = t2.regs.nsym

/-- R122: the word of RDFREQ; it writes the count to `RES0` and changes nothing else; with `FREQ_VALID` 0 it raises
SequenceError; a byte value that does not occur in the input has the count 0. -/
def Obligations.RdfreqReturnsTheCount : Prop :=
  ∀ (b : Byte) (s : State),
    (encode (.rdfreq b)).toNat = 0x00000031 + 256 * b.toNat ∧
    (s.Ok → s.flag .freq = true →
      exec (.rdfreq b) s = .next { s with regs := { s.regs with res0 := s.freqAt b } }) ∧
    (s.Ok → s.flag .freq = false →
      exec (.rdfreq b) s = .next (s.raise .sequenceError (encode (.rdfreq b)).toNat [])) ∧
    ∀ s0 : State, s0.Ok → exec .scan s0 = .next s → s.Ok → b ∉ s0.region .src → s.freqAt b = 0#32

/-! ### TreeBuilder -/

/-- Derived (rules R131, R132, R134): the key order is a strict total order, what the queue yields first is its least
key, and the queue does not depend on the order of insertion. -/
def Obligations.QueueYieldsTheLeastKey : Prop :=
  (∀ x, keyLess x x = false) ∧
  (∀ x y z, keyLess x y = true → keyLess y z = true → keyLess x z = true) ∧
  (∀ x y, x ≠ y → keyLess x y = true ∨ keyLess y x = true) ∧
  ∀ keys : List PqKey, keys.Nodup →
    (∀ keys2, keys.Perm keys2 → keys2.foldr pqInsert [] = keys.foldr pqInsert []) ∧
    ∀ x rest, pqExtractMin (keys.foldr pqInsert []) = some (x, rest) →
      (x :: rest).Perm keys ∧ ∀ y ∈ rest, keyLess x y = true

/-- What BUILD changes besides the tree and what it leaves (rules R135, R268). -/
def BuildFrame (s t : State) : Prop :=
  (∀ f, t.flag f = flagAfter .build f (s.flag f)) ∧ SameOtherStatus s t ∧
  t.regs = { s.regs with treeRoot := t.regs.treeRoot, status := t.regs.status } ∧
  t.code = s.code ∧ t.trie = s.trie ∧ t.pq = [] ∧ SameBuffers s t ∧ SameHostSide s t

/-- Derived (rules R135, R136): with no nonzero count BUILD leaves the arena absent and the root absent, and succeeds.
-/
def Obligations.BuildOfNoSymbols : Prop :=
  ∀ s : State, s.Ok → s.flag .freq = true → (∀ b, s.freqAt b = 0#32) → ∃ t, exec .build s = .next t ∧
    (∀ i, t.treeAt i = absentRec) ∧ t.regs.treeRoot = 0x00000000#32 ∧ BuildFrame s t

/-- Derived (rules R135, R137): with exactly one nonzero count BUILD makes the leaf, the placeholder and a root with the
leaf on bit 0. -/
def Obligations.BuildOfOneSymbol : Prop :=
  ∀ (s : State) (a : Byte), s.Ok → s.flag .freq = true → (∀ b, s.freqAt b ≠ 0#32 ↔ b = a) →
    ∃ t, exec .build s = .next t ∧
      t.treeAt a.toNat = ⟨.leaf, a, s.freqAt a, none, none⟩ ∧ t.treeAt 511 = ⟨.unused, 0#8, 0#32, none, none⟩ ∧
      t.treeAt 256 = ⟨.internal, 0#8, s.freqAt a, some a.toNat, some 511⟩ ∧
      (∀ i, i ≠ a.toNat → i ≠ 256 → i ≠ 511 → t.treeAt i = absentRec) ∧
      t.regs.treeRoot = 0x80000100#32 ∧ BuildFrame s t

/-- Derived (rules R131, R135, R138, R139): with `n` ≥ 2 nonzero counts BUILD makes the leaves and `n` − 1 internal nodes;
pass `k` makes node 256 + `k` from the two least keys waiting, the least becoming `low`, with the sum of their
frequencies; the root is the node made last; every other record is absent. -/
def Obligations.BuildMergesTwoLeastKeys : Prop :=
  ∀ (s : State) (n : Nat), s.Ok → s.flag .freq = true → n = s.distinctBytes → 2 ≤ n →
    ∃ t, exec .build s = .next t ∧
      (∀ b : Byte, t.treeAt b.toNat = if s.freqAt b = 0#32 then absentRec else ⟨.leaf, b, s.freqAt b, none, none⟩) ∧
      (∀ k, k < n - 1 → ∃ a c,
        t.treeAt (256 + k) = ⟨.internal, 0#8, (t.treeAt a).freq + (t.treeAt c).freq, some a, some c⟩ ∧
        t.Waiting k a ∧ t.Waiting k c ∧ keyLess (t.keyOf a) (t.keyOf c) = true ∧
        ∀ x, t.Waiting k x → x = a ∨ x = c ∨ keyLess (t.keyOf c) (t.keyOf x) = true) ∧
      (∀ i, 256 + n - 1 ≤ i → t.treeAt i = absentRec) ∧
      t.regs.treeRoot = BitVec.ofNat 32 (0x80000000 + 256 + n - 2) ∧ BuildFrame s t

/-- R141: the word of RDTREE; it returns the record in `RES0` to `RES4`, an index above 511 reading as `ABSENT`, and changes nothing
else; with `TREE_VALID` 0 it raises SequenceError. -/
def Obligations.RdtreeReturnsTheRecord : Prop :=
  ∀ (idx : BitVec 17) (s : State),
    (encode (.rdtree idx)).toNat = 0x00000032 + 256 * idx.toNat ∧
    (s.Ok → s.flag .tree = true →
      let r := if 511 < idx.toNat then absentRec else s.treeAt idx.toNat
      ∃ t, exec (.rdtree idx) s = .next t ∧
        t = { s with regs := { s.regs with res0 := t.regs.res0, res1 := t.regs.res1, res2 := t.regs.res2,
                                           res3 := t.regs.res3, res4 := t.regs.res4 } } ∧
        t.regs.res0 = (match r.kind with | .absent => 0#32 | .leaf => 1#32 | .internal => 2#32 | .unused => 3#32) ∧
        t.regs.res1 = r.value.setWidth 32 ∧ t.regs.res2 = r.freq ∧
        (∀ i, r.low = some i → t.regs.res3 = BitVec.ofNat 32 i) ∧ (r.low = none → t.regs.res3 = 0xFFFFFFFF#32) ∧
        (∀ i, r.high = some i → t.regs.res4 = BitVec.ofNat 32 i) ∧ (r.high = none → t.regs.res4 = 0xFFFFFFFF#32)) ∧
    (s.Ok → s.flag .tree = false →
      exec (.rdtree idx) s = .next (s.raise .sequenceError (encode (.rdtree idx)).toNat []))

/-! ### CodeTable -/

/-- What GEN changes besides the table and what it leaves (rules R151, R268). -/
def GenFrame (s t : State) : Prop :=
  (∀ f, t.flag f = flagAfter .gen f (s.flag f)) ∧ SameOtherStatus s t ∧
  t.regs = { s.regs with status := t.regs.status } ∧
  t.freq = s.freq ∧ t.tree = s.tree ∧ t.trie = s.trie ∧ t.pq = s.pq ∧ SameBuffers s t ∧ SameHostSide s t

/-- Derived (rules R150 to R152): GEN gives every leaf of a built tree the path from the root to it and every other byte
value no codeword; the path of a leaf has 1 to 255 bits. That the arena holds a tree of BUILD is a premise, which the
machine's invariant gives. -/
def Obligations.GenAssignsThePathOfEveryLeaf : Prop :=
  ∀ (s : State) (r : Nat), s.Ok → s.flag .tree = true → s.TreeOk → r < 512 → s.regs.treeRoot = rootWord (some r) →
    ∃ t, exec .gen s = .next t ∧
      (∀ b path, s.TreeRoutes r path b ↔ (t.codeAt b = path ∧ path ≠ [])) ∧
      (∀ b, (t.codeAt b).length ≤ 255) ∧ GenFrame s t

/-- Derived (rule R151, corner case (a)): of an absent root GEN makes the empty table, and succeeds. -/
def Obligations.GenOfAnAbsentRoot : Prop :=
  ∀ s : State, s.Ok → s.flag .tree = true → s.regs.treeRoot.getLsbD 31 = false →
    ∃ t, exec .gen s = .next t ∧ (∀ b, t.codeAt b = []) ∧ GenFrame s t

/-- Derived (rules R150, R153): the table GEN makes from a built tree is a CodeTable: keys unique, codewords of 1 to 255
bits, no codeword a prefix of another. -/
def Obligations.GeneratedCodeIsPrefixFree : Prop :=
  ∀ s t : State, s.Ok → s.flag .tree = true → s.TreeOk → exec .gen s = .next t → ValidTable t.codeEntries

/-- Derived (rules R154, R103): LOOKUP returns the codeword's length and its bits, left-aligned, zero beyond its end, and
changes nothing else; a byte value with no codeword gives length 0. -/
def Obligations.LookupReturnsTheCodeword : Prop :=
  ∀ (b : Byte) (s : State), s.Ok → s.flag .code = true →
    ∃ t, exec (.lookup b) s = .next t ∧ t.regs.cwlen = BitVec.ofNat 32 (s.codeAt b).length ∧
      (∀ i, i < 256 →
        (cwbitsReg t.regs (i / 32)).getLsbD (31 - i % 32) =
          if h : i < (s.codeAt b).length then (s.codeAt b)[i] else false) ∧
      t = { s with regs := { s.regs with
              cwlen := t.regs.cwlen, cwbits0 := t.regs.cwbits0, cwbits1 := t.regs.cwbits1,
              cwbits2 := t.regs.cwbits2, cwbits3 := t.regs.cwbits3, cwbits4 := t.regs.cwbits4,
              cwbits5 := t.regs.cwbits5, cwbits6 := t.regs.cwbits6, cwbits7 := t.regs.cwbits7 } }

/-! ### DictionaryCodec -/

/-- Derived (rules R96 to R99, R166): DSER writes the blob of the table, entries in rising order of byte value, when it
fits; bytes beyond it keep their values and nothing else changes. -/
def Obligations.DserWritesTheBlob : Prop :=
  ∀ s : State, s.Ok → s.flag .code = true → (blobOf s.codeEntries).length ≤ s.cap .dict →
    ∃ t, exec .dser s = .next t ∧ t.region .dict = blobOf s.codeEntries ∧
      SameBytesFrom s t .dict (blobOf s.codeEntries).length ∧ SameBuffersBut .dict s t ∧
      t.regs = { s.regs with dictLen := BitVec.ofNat 32 (blobOf s.codeEntries).length } ∧
      SameMemories s t ∧ SameHostSide s t

/-- Derived (rules R68, R166): a blob that does not fit `DICT_CAP` raises SinkUnavailable with id 2. -/
def Obligations.DserRaisesWhenTheBlobDoesNotFit : Prop :=
  ∀ s : State, s.Ok → s.flag .code = true → s.cap .dict < (blobOf s.codeEntries).length →
    exec .dser s = .next (s.raise .sinkUnavailable 2 [.dict])

/-- Derived (rules R171, R172, R174, R176): DDES of the blob of any CodeTable, entries in any order, succeeds, and the
trie routes a bit string to a byte value exactly when the table does. Records are numbered in the order of first need:
the walk along a path ends on record `k` exactly when the path is the `k`-th codeword prefix, in blob order and bit order
(with no entry there is no record); `TRIE_NODES` is their number, a record that is not a leaf is internal with value 0,
and every other record is absent. Encode-side structures and all buffers stay. -/
def Obligations.DdesRoutesEveryCodeword : Prop :=
  ∀ (s : State) (es : Entries), s.Ok → s.len .dict ≤ s.cap .dict → ValidTable es → s.region .dict = blobOf es →
    ∃ t, exec .ddes s = .next t ∧ (∀ b cw, t.TrieRoutes cw b ↔ (b, cw) ∈ es) ∧
      (es ≠ [] → ∀ path k, t.trieWalk 0 path = some k ↔ (pathsByNeed es)[k]? = some path) ∧
      t.regs.trieNodes.toNat = (pathsByNeed es).length ∧
      (∀ k, k < (pathsByNeed es).length → (t.trieAt k).kind ≠ .leaf →
        (t.trieAt k).kind = .internal ∧ (t.trieAt k).value = 0#8) ∧
      (∀ k, (pathsByNeed es).length ≤ k → t.trieAt k = absentTrieRec) ∧
      t.regs.trieRoot = (if es = [] then 0x00000000#32 else 0x80000000#32) ∧
      (∀ f, t.flag f = flagAfter .ddes f (s.flag f)) ∧ SameOtherStatus s t ∧
      t.regs = { s.regs with trieRoot := t.regs.trieRoot, trieNodes := t.regs.trieNodes, status := t.regs.status } ∧
      t.freq = s.freq ∧ t.tree = s.tree ∧ t.code = s.code ∧ t.pq = s.pq ∧ SameBuffers s t ∧ SameHostSide s t

/-- Derived (rules R171, R173): DDES accepts exactly the blobs of CodeTables. -/
def Obligations.DdesAcceptsExactlyCodeTables : Prop :=
  ∀ s : State, s.Ok → s.len .dict ≤ s.cap .dict →
    ∃ t, exec .ddes s = .next t ∧ (t.Ok ↔ ∃ es, ValidTable es ∧ s.region .dict = blobOf es)

/-- Derived (rules R171, R173, checks 1 and 2): a blob with no room for `entry_count`, or declaring more entries than its
bytes support, raises MalformedDictionary with offset 0. -/
def Obligations.TruncatedBlobIsMalformed : Prop :=
  ∀ s : State, s.Ok → s.len .dict ≤ s.cap .dict →
    (s.len .dict < 4 ∨ (s.len .dict - 4) / 5 < s.memRead32 .dict 0) →
    exec .ddes s = .next (s.raise .malformedDictionary 0 [])

/-- Derived (rules R171, R173, checks 3 to 7, in that order): what the header of the entry after a valid table's entries
raises. -/
def Obligations.BadEntryHeaderIsReported : Prop :=
  ∀ (s : State) (count : Nat) (es : Entries) (rest : List Byte),
    s.Ok → s.len .dict ≤ s.cap .dict → ValidTable es → count < 2 ^ 32 → es.length < count →
    s.region .dict = le32Bytes count ++ (es.flatMap fun e => entryBytes e.1 e.2) ++ rest →
    count ≤ (s.len .dict - 4) / 5 →
    let p := s.len .dict - rest.length
    let len := s.memRead32 .dict (p + 1)
    let bv := s.memRead .dict p
    (rest.length < 5 → exec .ddes s = .next (s.raise .malformedDictionary p [])) ∧
    (5 ≤ rest.length → (len = 0 ∨ rest.length - 5 < len) →
      exec .ddes s = .next (s.raise .malformedDictionary p [])) ∧
    (5 ≤ rest.length → 255 < len → len ≤ rest.length - 5 →
      exec .ddes s = .next (s.raise .capacityExceeded p [])) ∧
    (5 ≤ rest.length → 0 < len → len ≤ 255 → len ≤ rest.length - 5 → bv ∈ es.map Prod.fst →
      exec .ddes s = .next (s.raise .malformedDictionary p []))

/-- Derived (rules R171, R173, R232, checks 8 to 11): what an entry with a good header raises when its characters are
bad, and what bytes after the last entry raise. The bits `bits` are read, no codeword of the entries before being a
proper prefix of them: the next character, if it is neither '0' nor '1' or stands after a whole codeword, is reported
at its own offset (checks 8 and 9); and when they are all of the entry's bits, one that equals or begins a codeword
before is reported at the entry's offset (check 10). Bytes after the last entry are reported at the offset of the first
of them (check 11), which is 4 for an `entry_count` of 0. -/
def Obligations.BadCodewordOrSpareBytesAreReported : Prop :=
  ∀ (s : State) (count : Nat) (es : Entries) (rest : List Byte),
    s.Ok → s.len .dict ≤ s.cap .dict → ValidTable es → count < 2 ^ 32 →
    s.region .dict = le32Bytes count ++ (es.flatMap fun e => entryBytes e.1 e.2) ++ rest →
    count ≤ (s.len .dict - 4) / 5 →
    let p := s.len .dict - rest.length
    let len := s.memRead32 .dict (p + 1)
    (es.length < count → 5 ≤ rest.length → 0 < len → len ≤ 255 → len ≤ rest.length - 5 →
      s.memRead .dict p ∉ es.map Prod.fst →
      ∀ bits : List Bool, bits.length ≤ len →
        (∀ j (h : j < bits.length), s.memRead .dict (p + 5 + j) = if bits[j] then 0x31#8 else 0x30#8) →
        (∀ e ∈ es, e.2 <+: bits → e.2 = bits) →
        (bits.length < len →
          (s.memRead .dict (p + 5 + bits.length) ≠ 0x30#8 ∧ s.memRead .dict (p + 5 + bits.length) ≠ 0x31#8) ∨
            (∃ e ∈ es, e.2 = bits) →
          exec .ddes s = .next (s.raise .malformedDictionary (p + 5 + bits.length) [])) ∧
        (bits.length = len → (∃ e ∈ es, bits <+: e.2) → exec .ddes s = .next (s.raise .malformedDictionary p []))) ∧
    (es.length = count → rest ≠ [] → exec .ddes s = .next (s.raise .malformedDictionary p []))

/-- R175: the word of RDTRIE; it returns the record in `RES0` to `RES4`, an index at or above `TRIE_NODES` reading as `ABSENT`, and changes
nothing else; with `TRIE_VALID` 0 it raises SequenceError. -/
def Obligations.RdtrieReturnsTheRecord : Prop :=
  ∀ (idx : BitVec 17) (s : State),
    (encode (.rdtrie idx)).toNat = 0x00000033 + 256 * idx.toNat ∧
    (s.Ok → s.flag .trie = true →
      let r := if s.regs.trieNodes.toNat ≤ idx.toNat then absentTrieRec else s.trieAt idx.toNat
      ∃ t, exec (.rdtrie idx) s = .next t ∧
        t = { s with regs := { s.regs with res0 := t.regs.res0, res1 := t.regs.res1, res2 := t.regs.res2,
                                           res3 := t.regs.res3, res4 := t.regs.res4 } } ∧
        t.regs.res0 = (match r.kind with | .absent => 0#32 | .leaf => 1#32 | .internal => 2#32) ∧
        t.regs.res1 = r.value.setWidth 32 ∧ t.regs.res2 = 0#32 ∧
        (∀ i, r.low = some i → t.regs.res3 = BitVec.ofNat 32 i) ∧ (r.low = none → t.regs.res3 = 0xFFFFFFFF#32) ∧
        (∀ i, r.high = some i → t.regs.res4 = BitVec.ofNat 32 i) ∧ (r.high = none → t.regs.res4 = 0xFFFFFFFF#32)) ∧
    (s.Ok → s.flag .trie = false →
      exec (.rdtrie idx) s = .next (s.raise .sequenceError (encode (.rdtrie idx)).toNat []))

/-! ### BitPacker -/

/-- Every input byte has a codeword (rule R191). -/
def AllCoded (s : State) : Prop := ∀ i, i < s.len .src → s.codeAt (s.memRead .src i) ≠ []

/-- Derived (rules R70, R101, R102, R191, R192): PACK writes the codewords of the input one after another, first bit
first, zero bits in the padding, the padding count at offset 0, when they fit; nothing else changes. -/
def Obligations.PackConcatenatesTheCodewords : Prop :=
  ∀ s : State, s.Ok → s.flag .code = true → s.len .src ≤ s.cap .src → AllCoded s →
    let bits := s.inputBits (s.len .src)
    1 + (bits.length + 7) / 8 ≤ s.cap .pay →
    ∃ t, exec .pack s = .next t ∧ t.len .pay = 1 + (bits.length + 7) / 8 ∧
      (t.memRead .pay 0).toNat = (8 - bits.length % 8) % 8 ∧ t.payloadBits = bits ∧
      (∀ k, bits.length ≤ k → k < 8 * ((bits.length + 7) / 8) → t.payBit k = false) ∧
      SameBytesFrom s t .pay (t.len .pay) ∧ SameBuffersBut .pay s t ∧
      t.regs = { s.regs with payLen := t.regs.payLen } ∧ SameMemories s t ∧ SameHostSide s t

/-- Derived (rules R68, R191): a payload that does not fit `PAY_CAP` raises SinkUnavailable with id 1: the whole bytes of
the codewords of some first `i` input bytes, all coded, outgrow it, whatever stands after them; or the codewords of the
whole input, all coded, do with the last partial byte. -/
def Obligations.PackRaisesWhenThePayloadDoesNotFit : Prop :=
  ∀ s : State, s.Ok → s.flag .code = true → s.len .src ≤ s.cap .src →
    (∃ i, i ≤ s.len .src ∧ (∀ j, j < i → s.codeAt (s.memRead .src j) ≠ []) ∧
        s.cap .pay < 1 + (s.inputBits i).length / 8) ∨
      (AllCoded s ∧ s.cap .pay < 1 + ((s.inputBits (s.len .src)).length + 7) / 8) →
    exec .pack s = .next (s.raise .sinkUnavailable 1 [.pay])

/-- Derived (rule R191): the first input byte with no codeword raises SymbolNotCoded with its offset, when the bytes
before it have not outgrown `PAY`. -/
def Obligations.PackStopsAtTheFirstUncodedByte : Prop :=
  ∀ (s : State) (i : Nat), s.Ok → s.flag .code = true → s.len .src ≤ s.cap .src → i < s.len .src →
    s.codeAt (s.memRead .src i) = [] → (∀ j, j < i → s.codeAt (s.memRead .src j) ≠ []) →
    1 + (s.inputBits i).length / 8 ≤ s.cap .pay →
    exec .pack s = .next (s.raise .symbolNotCoded i [.pay])

/-! ### BitUnpacker -/

/-- Derived (rules R200 to R202): UNPACK of a payload that is a sequence of codewords of the trie emits their byte values
in order, when they fit; bytes beyond them keep their values and nothing else changes. That the arena holds a trie of
DDES is a premise, which the machine's invariant gives. -/
def Obligations.UnpackEmitsEveryCodewordsByte : Prop :=
  ∀ (s : State) (ms : Entries), s.Ok → s.flag .trie = true → s.TrieOk → s.len .pay ≤ s.cap .pay → 2 ≤ s.len .pay →
    (s.memRead .pay 0).toNat ≤ 7 → (∀ e ∈ ms, s.TrieRoutes e.2 e.1) → s.payloadBits = ms.flatMap Prod.snd →
    ms.length ≤ s.cap .dst →
    ∃ t, exec .unpack s = .next t ∧ t.region .dst = ms.map Prod.fst ∧ SameBytesFrom s t .dst ms.length ∧
      SameBuffersBut .dst s t ∧ t.regs = { s.regs with dstLen := BitVec.ofNat 32 ms.length } ∧
      SameMemories s t ∧ SameHostSide s t

/-- R203: with an absent root, or a payload of at most one byte, UNPACK produces zero bytes and no fault, whatever `PAY`
holds; but a `PAY_LEN` above `PAY_CAP` is a fault first. -/
def Obligations.UnpackOfNothingIsNoFault : Prop :=
  ∀ s : State, s.Ok → s.flag .trie = true → (s.regs.trieRoot.getLsbD 31 = false ∨ s.len .pay ≤ 1) →
    (s.len .pay ≤ s.cap .pay → exec .unpack s = .next { s with regs := { s.regs with dstLen := 0#32 } }) ∧
    (s.cap .pay < s.len .pay → exec .unpack s = .next (s.raise .sourceUnavailable 1 [.dst]))

/-- Derived (rules R201, R204, R206): after a sequence of complete codewords, payload bits that leave the walk inside a
codeword raise IncompleteCodeword with the bit count; a bit whose child is missing raises NoBranch with its number;
a codeword too many for `DST` raises SinkUnavailable; and a padding count above 7 raises BadPadding before any of them.
-/
def Obligations.UnpackReportsABadPayload : Prop :=
  ∀ (s : State) (ms : Entries) (part rest : List Bool) (cur : Nat),
    s.Ok → s.flag .trie = true → s.TrieOk → s.regs.trieNodes ≠ 0#32 → s.len .pay ≤ s.cap .pay → 2 ≤ s.len .pay →
    (∀ e ∈ ms, s.TrieRoutes e.2 e.1) → s.payloadBits = ms.flatMap Prod.snd ++ part ++ rest →
    s.trieWalk 0 part = some cur → (s.trieAt cur).kind = .internal →
    (7 < (s.memRead .pay 0).toNat →
      exec .unpack s = .next (s.raise .badPadding (s.memRead .pay 0).toNat [.dst])) ∧
    ((s.memRead .pay 0).toNat ≤ 7 → ms.length ≤ s.cap .dst → part ≠ [] → rest = [] →
      exec .unpack s = .next (s.raise .incompleteCodeword s.payloadBitCount [.dst])) ∧
    (∀ bit rest2, (s.memRead .pay 0).toNat ≤ 7 → ms.length ≤ s.cap .dst → rest = bit :: rest2 →
      trieChild (s.trieAt cur) bit = none →
      exec .unpack s = .next (s.raise .noBranch ((ms.flatMap Prod.snd).length + part.length) [.dst])) ∧
    ((s.memRead .pay 0).toNat ≤ 7 → s.cap .dst < ms.length →
      exec .unpack s = .next (s.raise .sinkUnavailable 3 [.dst]))

/-! ### Orchestrators and round trips -/

/-- Derived (rules R107, R218, R219, R236, R237): where SCAN, BUILD, GEN, DSER and PACK in order succeed, ENCODE gives the
state they give; where those before one of them succeed and that one faults, ENCODE records its fault, of the state
before it, with both outputs discarded. Where DDES succeeds, DECODE is UNPACK after it; where DDES faults, DECODE records
that fault, whatever the payload, with its own output discarded. -/
def Obligations.EncodeIsTheFiveCommands : Prop :=
  ∀ s : State, s.Ok →
    (∀ t, RunsTo [.scan, .build, .gen, .dser, .pack] s t → exec .encode s = .next t) ∧
    (∀ (before : List Instr) (i : Instr) (after : List Instr) (u t : State),
      [.scan, .build, .gen, .dser, .pack] = before ++ i :: after → RunsTo before s u → exec i u = .next t → ¬ t.Ok →
      ∃ x info, t = u.raise x info (outputsOf i) ∧ exec .encode s = .next (u.raise x info [.dict, .pay])) ∧
    (∀ t, exec .ddes s = .next t → t.Ok → exec .decode s = exec .unpack t) ∧
    ∀ t, exec .ddes s = .next t → ¬ t.Ok →
      ∃ x info, t = s.raise x info [] ∧ exec .decode s = .next (s.raise x info [.dst])

/-- Derived (rules R218, R153, R167, R192): ENCODE succeeds where the input fits `SRC` and the largest dictionary and
payload fit `DICT` and `PAY`; the keys are the byte values of the input, the table is a CodeTable, `DICT` holds its blob
and `PAY` the input's codewords; the decode side, `SRC` and `DST` stay. -/
def Obligations.EncodeCompletesWithinCapacity : Prop :=
  ∀ s : State, s.Ok → s.len .src ≤ s.cap .src → 66564 ≤ s.cap .dict → 1 + (255 * s.len .src + 7) / 8 ≤ s.cap .pay →
    ∃ t, exec .encode s = .next t ∧ (∀ b, t.codeAt b ≠ [] ↔ b ∈ s.region .src) ∧ ValidTable t.codeEntries ∧
      t.region .dict = blobOf t.codeEntries ∧ t.payloadBits = t.inputBits (t.len .src) ∧
      (∀ f, t.flag f = flagAfter .encode f (s.flag f)) ∧ SameOtherStatus s t ∧
      t.regs = { s.regs with nsym := t.regs.nsym, treeRoot := t.regs.treeRoot, dictLen := t.regs.dictLen,
                             payLen := t.regs.payLen, status := t.regs.status } ∧
      t.trie = s.trie ∧ t.pq = [] ∧ SameBytes s t .src ∧ SameBytes s t .dst ∧ SameHostSide s t

/-- Derived (rules R219, R205): DECODE of the blob of a CodeTable and a payload of its codewords gives their byte values;
with an empty dictionary or a payload of at most one byte it gives none. The encode side and the input buffers stay. -/
def Obligations.DecodeRestoresThePackedBytes : Prop :=
  ∀ (s : State) (es ms : Entries), s.Ok → s.len .dict ≤ s.cap .dict → s.len .pay ≤ s.cap .pay → ValidTable es →
    s.region .dict = blobOf es →
    ((ms = [] ∧ (es = [] ∨ s.len .pay ≤ 1)) ∨
      (2 ≤ s.len .pay ∧ (s.memRead .pay 0).toNat ≤ 7 ∧ (∀ e ∈ ms, e ∈ es) ∧ s.payloadBits = ms.flatMap Prod.snd)) →
    ms.length ≤ s.cap .dst →
    ∃ t, exec .decode s = .next t ∧ t.region .dst = ms.map Prod.fst ∧ SameBytesFrom s t .dst ms.length ∧
      SameBuffersBut .dst s t ∧ (∀ f, t.flag f = flagAfter .decode f (s.flag f)) ∧ SameOtherStatus s t ∧
      t.regs = { s.regs with trieRoot := t.regs.trieRoot, trieNodes := t.regs.trieNodes, dstLen := t.regs.dstLen,
                             status := t.regs.status } ∧
      t.freq = s.freq ∧ t.tree = s.tree ∧ t.code = s.code ∧ t.pq = s.pq ∧ SameHostSide s t

/-- R220: ENCODE followed by DECODE on the buffers ENCODE wrote returns the input byte for byte, provided no capacity is
exceeded. -/
def Obligations.EncodeThenDecodeReturnsTheInput : Prop :=
  ∀ s t : State, s.Ok → exec .encode s = .next t → t.Ok → s.len .src ≤ s.cap .dst →
    ∃ u, exec .decode t = .next u ∧ u.Ok ∧ u.region .dst = s.region .src

/-! ### All commands -/

/-- Derived (rule R23): a result register changes only by the readback commands that write it, and CLR; a command that faults or is
ignored changes none. -/
def Obligations.ResultsChangeOnlyByReadback : Prop :=
  ∀ (i : Instr) (s t : State), exec i s = .next t →
    (∀ r ∈ resultRegs, r ∉ resultsWrittenBy i → t.regValue r = s.regValue r) ∧
    (i ≠ .clr → (¬ s.Ok ∨ ¬ t.Ok) → ∀ r ∈ resultRegs, t.regValue r = s.regValue r)

/-- Derived (rules R61, R64, R74): no command changes a byte of a buffer that is not among its outputs, and none changes a
capacity, the host's script or what the host has read. -/
def Obligations.CommandsWriteOnlyTheirOutputs : Prop :=
  ∀ (i : Instr) (s t : State), exec i s = .next t →
    (∀ sp, sp ∉ outputsOf i → SameBytes s t sp) ∧ SameHostSide s t

/-- R268: the valid flags after each command that succeeds, and that any fault clears all four. -/
def Obligations.FlagsFollowTheTable : Prop :=
  ∀ (i : Instr) (s t : State), s.Ok → exec i s = .next t →
    (t.Ok → ∀ f, t.flag f = flagAfter i f (s.flag f)) ∧ (¬ t.Ok → ∀ f, t.flag f = false)

/-! ### Invariants -/

/-- Derived (rules R49, R260): the machine's invariant holds after reset. It includes that the capacities are legal; their
values after reset are the model's choice (notes/assumptions/1.md). -/
def Obligations.InvariantAfterReset : Prop := State.reset.Inv

/-- Derived (rules R40 to R44, R60, R68): from every state with canonical storage, a step gives canonical storage: memories
in their one form, every byte below its capacity, every record inside its arena (the bounds of rules R139, R172). -/
def Obligations.StepKeepsStorageCanonical : Prop :=
  ∀ s t : State, s.StorageOk → step s = .next t → t.StorageOk

/-- Derived (rules R25, R27, R28, R236): from every state where `ERR`, `ERRINFO` and `STATUS` agree, a step gives one where
they agree. -/
def Obligations.StepKeepsFaultFlagsConsistent : Prop :=
  ∀ s t : State, s.FaultFlagsOk → step s = .next t → t.FaultFlagsOk

/-- Derived (rules R25, R33 to R45, R140, R152, R153, R172): from every state with the machine's invariant, a step gives one
with it: valid flags stand before structures of their shape, codewords are prefix-free and at most 255 bits, and reserved
register bits read 0. -/
def Obligations.StepKeepsTheInvariant : Prop := ∀ s t : State, s.Inv → step s = .next t → t.Inv
end

