-- ==== Sys2Proof/Laws/Table.lean ====
section
/-! SUPPORT. The laws of sparse tables: read after write, and that every operation keeps the canonical form. -/

namespace Sys2Proof.Machine

variable {α : Type}

@[simp] theorem lookAt_nil (k : Nat) : lookAt ([] : List (Nat × α)) k = none := rfl

theorem lookAt_putAt (t : List (Nat × α)) (k j : Nat) (v : α) :
    lookAt (putAt t k v) j = if j = k then some v else lookAt t j := by
  induction t with
  | nil => simp [putAt, lookAt]
  | cons e rest ih =>
    obtain ⟨i, w⟩ := e
    simp only [putAt]
    split
    · simp [lookAt]
    · split
      · subst_vars
        by_cases h : j = i <;> simp [lookAt, h]
      · by_cases h : j = i
        · subst h
          simp [lookAt, Ne.symm ‹¬k = j›]
        · simp [lookAt, h, ih]

theorem lookAt_of_risesFrom {n : Nat} {t : List (Nat × α)} (h : risesFrom n t = true) {k : Nat} (hk : k < n) :
    lookAt t k = none := by
  induction t generalizing n with
  | nil => rfl
  | cons e rest ih =>
    obtain ⟨i, w⟩ := e
    simp only [risesFrom, Bool.and_eq_true, decide_eq_true_eq] at h
    have : k ≠ i := by omega
    simp [lookAt, this, ih h.2 (by omega)]

theorem risesFrom_mono {m n : Nat} {t : List (Nat × α)} (hmn : m ≤ n) (h : risesFrom n t = true) :
    risesFrom m t = true := by
  cases t with
  | nil => rfl
  | cons e rest =>
    obtain ⟨i, w⟩ := e
    simp only [risesFrom, Bool.and_eq_true, decide_eq_true_eq] at h ⊢
    exact ⟨by omega, h.2⟩

theorem lookAt_dropAt {n : Nat} {t : List (Nat × α)} (h : risesFrom n t = true) (k j : Nat) :
    lookAt (dropAt t k) j = if j = k then none else lookAt t j := by
  induction t generalizing n with
  | nil => simp [dropAt, lookAt]
  | cons e rest ih =>
    obtain ⟨i, w⟩ := e
    simp only [risesFrom, Bool.and_eq_true, decide_eq_true_eq] at h
    simp only [dropAt]
    split
    · subst_vars
      by_cases hj : j = i
      · subst hj; simp [lookAt_of_risesFrom h.2 (Nat.lt_succ_self j)]
      · simp [lookAt, hj]
    · by_cases hj : j = i
      · subst hj
        simp [lookAt, Ne.symm ‹¬k = j›]
      · simp [lookAt, hj, ih h.2]

theorem risesFrom_putAt {n k : Nat} {t : List (Nat × α)} (hk : n ≤ k) (h : risesFrom n t = true) (v : α) :
    risesFrom n (putAt t k v) = true := by
  induction t generalizing n with
  | nil => simp [putAt, risesFrom, hk]
  | cons e rest ih =>
    obtain ⟨i, w⟩ := e
    simp only [risesFrom, Bool.and_eq_true, decide_eq_true_eq] at h
    simp only [putAt]
    split
    · simp only [risesFrom, Bool.and_eq_true, decide_eq_true_eq]
      exact ⟨hk, by omega, h.2⟩
    · split
      · subst_vars
        simp only [risesFrom, Bool.and_eq_true, decide_eq_true_eq]
        exact h
      · simp only [risesFrom, Bool.and_eq_true, decide_eq_true_eq]
        exact ⟨h.1, ih (by omega) h.2⟩

theorem risesFrom_dropAt {n : Nat} {t : List (Nat × α)} (h : risesFrom n t = true) (k : Nat) :
    risesFrom n (dropAt t k) = true := by
  induction t generalizing n with
  | nil => rfl
  | cons e rest ih =>
    obtain ⟨i, w⟩ := e
    simp only [risesFrom, Bool.and_eq_true, decide_eq_true_eq] at h
    simp only [dropAt]
    split
    · exact risesFrom_mono (by omega) h.2
    · simp only [risesFrom, Bool.and_eq_true, decide_eq_true_eq]
      exact ⟨h.1, ih h.2⟩

theorem mem_putAt {t : List (Nat × α)} {k : Nat} {v : α} {e : Nat × α} (h : e ∈ putAt t k v) :
    e = (k, v) ∨ e ∈ t := by
  induction t with
  | nil => simpa [putAt] using h
  | cons f rest ih =>
    obtain ⟨i, w⟩ := f
    simp only [putAt] at h
    split at h
    · simpa using h
    · split at h
      · rcases List.mem_cons.1 h with h | h
        · exact .inl h
        · exact .inr (List.mem_cons_of_mem _ h)
      · rcases List.mem_cons.1 h with h | h
        · exact .inr (by simp [h])
        · exact (ih h).imp id (List.mem_cons_of_mem _)

theorem mem_of_mem_dropAt {t : List (Nat × α)} {k : Nat} {e : Nat × α} (h : e ∈ dropAt t k) : e ∈ t := by
  induction t with
  | nil => exact h
  | cons f rest ih =>
    obtain ⟨i, w⟩ := f
    simp only [dropAt] at h
    split at h
    · exact List.mem_cons_of_mem _ h
    · rcases List.mem_cons.1 h with h | h
      · simp [h]
      · exact List.mem_cons_of_mem _ (ih h)

/-! ### Tables whose unlisted keys read as a value -/

variable [DecidableEq α] {d : α}

omit [DecidableEq α] in
@[simp] theorem entryAt_nil (k : Nat) : entryAt d [] k = d := rfl

@[simp] theorem tableWf_nil : tableWf d [] = true := rfl

theorem risesFrom_of_tableWf {t : List (Nat × α)} (h : tableWf d t = true) : risesFrom 0 t = true := by
  simp only [tableWf, Bool.and_eq_true] at h; exact h.1

/-- Read after write, and every other key alone. -/
theorem entryAt_setEntry {t : List (Nat × α)} (h : tableWf d t = true) (k j : Nat) (v : α) :
    entryAt d (setEntry d t k v) j = if j = k then v else entryAt d t j := by
  unfold setEntry entryAt
  split
  · rw [lookAt_dropAt (risesFrom_of_tableWf h)]
    split <;> simp_all
  · rw [lookAt_putAt]
    split <;> simp

theorem tableWf_setEntry {t : List (Nat × α)} (h : tableWf d t = true) (k : Nat) (v : α) :
    tableWf d (setEntry d t k v) = true := by
  simp only [tableWf, Bool.and_eq_true, List.all_eq_true] at h ⊢
  unfold setEntry
  split
  · exact ⟨risesFrom_dropAt h.1 k, fun e he => h.2 e (mem_of_mem_dropAt he)⟩
  · refine ⟨risesFrom_putAt (Nat.zero_le k) h.1 v, fun e he => ?_⟩
    rcases mem_putAt he with rfl | he
    · simpa using ‹¬v = d›
    · exact h.2 e he

theorem mem_setEntry {t : List (Nat × α)} {k : Nat} {v : α} {e : Nat × α} (h : e ∈ setEntry d t k v) :
    e = (k, v) ∨ e ∈ t := by
  unfold setEntry at h
  split at h
  · exact .inr (mem_of_mem_dropAt h)
  · exact mem_putAt h

omit [DecidableEq α] in
theorem lookAt_eq_of_mem {n : Nat} {t : List (Nat × α)} (h : risesFrom n t = true) {k : Nat} {v : α}
    (hm : (k, v) ∈ t) : lookAt t k = some v := by
  induction t generalizing n with
  | nil => simp at hm
  | cons e rest ih =>
    obtain ⟨i, w⟩ := e
    simp only [risesFrom, Bool.and_eq_true, decide_eq_true_eq] at h
    rcases List.mem_cons.1 hm with hm | hm
    · simp only [Prod.mk.injEq] at hm; simp [lookAt, hm.1, hm.2]
    · have hl := ih h.2 hm
      have : k ≠ i := by
        intro hki
        rw [lookAt_of_risesFrom h.2 (by omega)] at hl
        simp at hl
      simp [lookAt, this, hl]

omit [DecidableEq α] in
theorem mem_of_lookAt {t : List (Nat × α)} {k : Nat} {v : α} (h : lookAt t k = some v) : (k, v) ∈ t := by
  induction t with
  | nil => simp at h
  | cons e rest ih =>
    obtain ⟨i, w⟩ := e
    rw [lookAt] at h
    split at h
    · simp only [Option.some.injEq] at h; subst_vars; simp
    · exact List.mem_cons_of_mem _ (ih h)

omit [DecidableEq α] in
/-- Equal reads, equal lists: a rising list is determined by what it lists. -/
theorem eq_of_lookAt_eq {n m : Nat} {t u : List (Nat × α)} (ht : risesFrom n t = true) (hu : risesFrom m u = true)
    (h : ∀ k, lookAt t k = lookAt u k) : t = u := by
  induction t generalizing n m u with
  | nil =>
    cases u with
    | nil => rfl
    | cons e rest => have := h e.1; simp [lookAt] at this
  | cons e rest ih =>
    obtain ⟨i, v⟩ := e
    cases u with
    | nil => have := h i; simp [lookAt] at this
    | cons f rest2 =>
      obtain ⟨j, w⟩ := f
      simp only [risesFrom, Bool.and_eq_true, decide_eq_true_eq] at ht hu
      have hij : i = j := by
        by_contra hne
        rcases Nat.lt_or_gt_of_ne hne with hlt | hlt
        · have := h i
          simp [lookAt, hne, lookAt_of_risesFrom hu.2 (show i < j + 1 by omega)] at this
        · have := h j
          simp [lookAt, Ne.symm hne, lookAt_of_risesFrom ht.2 (show j < i + 1 by omega)] at this
      subst hij
      have hvw : v = w := by have := h i; simpa [lookAt] using this
      subst hvw
      congr 1
      refine ih ht.2 hu.2 fun k => ?_
      by_cases hk : k = i
      · subst hk
        rw [lookAt_of_risesFrom ht.2 (Nat.lt_succ_self k), lookAt_of_risesFrom hu.2 (Nat.lt_succ_self k)]
      · have := h k
        simpa [lookAt, hk] using this

/-- Equal memories are equal data: two canonical tables that read alike are the same list. -/
theorem eq_of_entryAt_eq {t u : List (Nat × α)} (ht : tableWf d t = true) (hu : tableWf d u = true)
    (h : ∀ k, entryAt d t k = entryAt d u k) : t = u := by
  refine eq_of_lookAt_eq (risesFrom_of_tableWf ht) (risesFrom_of_tableWf hu) fun k => ?_
  simp only [tableWf, Bool.and_eq_true, List.all_eq_true] at ht hu
  have hk := h k
  unfold entryAt at hk
  cases h1 : lookAt t k with
  | none =>
    cases h2 : lookAt u k with
    | none => rfl
    | some w => have := hu.2 _ (mem_of_lookAt h2); simp_all
  | some v =>
    cases h2 : lookAt u k with
    | none => have := ht.2 _ (mem_of_lookAt h1); simp_all
    | some w => simp_all

/-! ### Buffers' memories -/

@[simp] theorem Memory_wf_nil : Memory.wf [] = true := rfl

/-- A write keeps the canonical form of a buffer's memory. -/
theorem Memory_wf_putAt {m : Memory} (h : m.wf = true) (a : Nat) (v : Byte) : Memory.wf (putAt m a v) = true :=
  risesFrom_putAt (Nat.zero_le a) h v

end Sys2Proof.Machine
end

