-- ==== Sys2Proof/Laws/State.lean ====
section
/-! SUPPORT. One lemma per field per update of the state, and per observation per update, so that no later proof unfolds
a record update. -/

namespace Sys2Proof.Machine

variable (s : State)

/-! ### `State.setFlag` -/

@[simp] theorem State.setFlag_regs (f : ValidFlag) (b : Bool) :
    (s.setFlag f b).regs = { s.regs with status := withBit s.regs.status (flagBit f) b } := rfl
@[simp] theorem State.setFlag_freq (f : ValidFlag) (b : Bool) : (s.setFlag f b).freq = s.freq := rfl
@[simp] theorem State.setFlag_tree (f : ValidFlag) (b : Bool) : (s.setFlag f b).tree = s.tree := rfl
@[simp] theorem State.setFlag_code (f : ValidFlag) (b : Bool) : (s.setFlag f b).code = s.code := rfl
@[simp] theorem State.setFlag_trie (f : ValidFlag) (b : Bool) : (s.setFlag f b).trie = s.trie := rfl
@[simp] theorem State.setFlag_pq (f : ValidFlag) (b : Bool) : (s.setFlag f b).pq = s.pq := rfl
@[simp] theorem State.setFlag_src (f : ValidFlag) (b : Bool) : (s.setFlag f b).src = s.src := rfl
@[simp] theorem State.setFlag_pay (f : ValidFlag) (b : Bool) : (s.setFlag f b).pay = s.pay := rfl
@[simp] theorem State.setFlag_dict (f : ValidFlag) (b : Bool) : (s.setFlag f b).dict = s.dict := rfl
@[simp] theorem State.setFlag_dst (f : ValidFlag) (b : Bool) : (s.setFlag f b).dst = s.dst := rfl
@[simp] theorem State.setFlag_params (f : ValidFlag) (b : Bool) : (s.setFlag f b).params = s.params := rfl
@[simp] theorem State.setFlag_draws (f : ValidFlag) (b : Bool) : (s.setFlag f b).draws = s.draws := rfl
@[simp] theorem State.setFlag_script (f : ValidFlag) (b : Bool) : (s.setFlag f b).script = s.script := rfl
@[simp] theorem State.setFlag_returned (f : ValidFlag) (b : Bool) : (s.setFlag f b).returned = s.returned := rfl

@[simp] theorem State.memRead_setFlag (f : ValidFlag) (b : Bool) (sp : Space) (a : Nat) :
    (s.setFlag f b).memRead sp a = s.memRead sp a := by cases sp <;> rfl
@[simp] theorem State.buf_setFlag (f : ValidFlag) (b : Bool) (sp : Space) :
    (s.setFlag f b).buf sp = s.buf sp := by cases sp <;> rfl
@[simp] theorem State.cap_setFlag (f : ValidFlag) (b : Bool) (sp : Space) :
    (s.setFlag f b).cap sp = s.cap sp := by cases sp <;> rfl
@[simp] theorem State.freqAt_setFlag (f : ValidFlag) (b : Bool) (x : Byte) :
    (s.setFlag f b).freqAt x = s.freqAt x := rfl
@[simp] theorem State.treeAt_setFlag (f : ValidFlag) (b : Bool) (i : Nat) :
    (s.setFlag f b).treeAt i = s.treeAt i := rfl
@[simp] theorem State.codeAt_setFlag (f : ValidFlag) (b : Bool) (x : Byte) :
    (s.setFlag f b).codeAt x = s.codeAt x := rfl
@[simp] theorem State.trieAt_setFlag (f : ValidFlag) (b : Bool) (i : Nat) :
    (s.setFlag f b).trieAt i = s.trieAt i := rfl
@[simp] theorem State.len_setFlag (f : ValidFlag) (b : Bool) (sp : Space) :
    (s.setFlag f b).len sp = s.len sp := by
  cases sp <;> rfl

/-! ### `State.setNsym` -/

@[simp] theorem State.setNsym_regs (n : Nat) : (s.setNsym n).regs = { s.regs with nsym := BitVec.ofNat 32 n } := rfl
@[simp] theorem State.setNsym_freq (n : Nat) : (s.setNsym n).freq = s.freq := rfl
@[simp] theorem State.setNsym_tree (n : Nat) : (s.setNsym n).tree = s.tree := rfl
@[simp] theorem State.setNsym_code (n : Nat) : (s.setNsym n).code = s.code := rfl
@[simp] theorem State.setNsym_trie (n : Nat) : (s.setNsym n).trie = s.trie := rfl
@[simp] theorem State.setNsym_pq (n : Nat) : (s.setNsym n).pq = s.pq := rfl
@[simp] theorem State.setNsym_src (n : Nat) : (s.setNsym n).src = s.src := rfl
@[simp] theorem State.setNsym_pay (n : Nat) : (s.setNsym n).pay = s.pay := rfl
@[simp] theorem State.setNsym_dict (n : Nat) : (s.setNsym n).dict = s.dict := rfl
@[simp] theorem State.setNsym_dst (n : Nat) : (s.setNsym n).dst = s.dst := rfl
@[simp] theorem State.setNsym_params (n : Nat) : (s.setNsym n).params = s.params := rfl
@[simp] theorem State.setNsym_draws (n : Nat) : (s.setNsym n).draws = s.draws := rfl
@[simp] theorem State.setNsym_script (n : Nat) : (s.setNsym n).script = s.script := rfl
@[simp] theorem State.setNsym_returned (n : Nat) : (s.setNsym n).returned = s.returned := rfl

@[simp] theorem State.memRead_setNsym (n : Nat) (sp : Space) (a : Nat) :
    (s.setNsym n).memRead sp a = s.memRead sp a := by cases sp <;> rfl
@[simp] theorem State.buf_setNsym (n : Nat) (sp : Space) :
    (s.setNsym n).buf sp = s.buf sp := by cases sp <;> rfl
@[simp] theorem State.cap_setNsym (n : Nat) (sp : Space) :
    (s.setNsym n).cap sp = s.cap sp := by cases sp <;> rfl
@[simp] theorem State.freqAt_setNsym (n : Nat) (x : Byte) :
    (s.setNsym n).freqAt x = s.freqAt x := rfl
@[simp] theorem State.treeAt_setNsym (n : Nat) (i : Nat) :
    (s.setNsym n).treeAt i = s.treeAt i := rfl
@[simp] theorem State.codeAt_setNsym (n : Nat) (x : Byte) :
    (s.setNsym n).codeAt x = s.codeAt x := rfl
@[simp] theorem State.trieAt_setNsym (n : Nat) (i : Nat) :
    (s.setNsym n).trieAt i = s.trieAt i := rfl
@[simp] theorem State.len_setNsym (n : Nat) (sp : Space) :
    (s.setNsym n).len sp = s.len sp := by
  cases sp <;> rfl
@[simp] theorem State.flag_setNsym (n : Nat) (g : ValidFlag) :
    (s.setNsym n).flag g = s.flag g := rfl

/-! ### `State.setTreeRoot` -/

@[simp] theorem State.setTreeRoot_regs (r : Option Nat) :
    (s.setTreeRoot r).regs = { s.regs with treeRoot := rootWord r } := rfl
@[simp] theorem State.setTreeRoot_freq (r : Option Nat) : (s.setTreeRoot r).freq = s.freq := rfl
@[simp] theorem State.setTreeRoot_tree (r : Option Nat) : (s.setTreeRoot r).tree = s.tree := rfl
@[simp] theorem State.setTreeRoot_code (r : Option Nat) : (s.setTreeRoot r).code = s.code := rfl
@[simp] theorem State.setTreeRoot_trie (r : Option Nat) : (s.setTreeRoot r).trie = s.trie := rfl
@[simp] theorem State.setTreeRoot_pq (r : Option Nat) : (s.setTreeRoot r).pq = s.pq := rfl
@[simp] theorem State.setTreeRoot_src (r : Option Nat) : (s.setTreeRoot r).src = s.src := rfl
@[simp] theorem State.setTreeRoot_pay (r : Option Nat) : (s.setTreeRoot r).pay = s.pay := rfl
@[simp] theorem State.setTreeRoot_dict (r : Option Nat) : (s.setTreeRoot r).dict = s.dict := rfl
@[simp] theorem State.setTreeRoot_dst (r : Option Nat) : (s.setTreeRoot r).dst = s.dst := rfl
@[simp] theorem State.setTreeRoot_params (r : Option Nat) : (s.setTreeRoot r).params = s.params := rfl
@[simp] theorem State.setTreeRoot_draws (r : Option Nat) : (s.setTreeRoot r).draws = s.draws := rfl
@[simp] theorem State.setTreeRoot_script (r : Option Nat) : (s.setTreeRoot r).script = s.script := rfl
@[simp] theorem State.setTreeRoot_returned (r : Option Nat) : (s.setTreeRoot r).returned = s.returned := rfl

@[simp] theorem State.memRead_setTreeRoot (r : Option Nat) (sp : Space) (a : Nat) :
    (s.setTreeRoot r).memRead sp a = s.memRead sp a := by cases sp <;> rfl
@[simp] theorem State.buf_setTreeRoot (r : Option Nat) (sp : Space) :
    (s.setTreeRoot r).buf sp = s.buf sp := by cases sp <;> rfl
@[simp] theorem State.cap_setTreeRoot (r : Option Nat) (sp : Space) :
    (s.setTreeRoot r).cap sp = s.cap sp := by cases sp <;> rfl
@[simp] theorem State.freqAt_setTreeRoot (r : Option Nat) (x : Byte) :
    (s.setTreeRoot r).freqAt x = s.freqAt x := rfl
@[simp] theorem State.treeAt_setTreeRoot (r : Option Nat) (i : Nat) :
    (s.setTreeRoot r).treeAt i = s.treeAt i := rfl
@[simp] theorem State.codeAt_setTreeRoot (r : Option Nat) (x : Byte) :
    (s.setTreeRoot r).codeAt x = s.codeAt x := rfl
@[simp] theorem State.trieAt_setTreeRoot (r : Option Nat) (i : Nat) :
    (s.setTreeRoot r).trieAt i = s.trieAt i := rfl
@[simp] theorem State.len_setTreeRoot (r : Option Nat) (sp : Space) :
    (s.setTreeRoot r).len sp = s.len sp := by
  cases sp <;> rfl
@[simp] theorem State.flag_setTreeRoot (r : Option Nat) (g : ValidFlag) :
    (s.setTreeRoot r).flag g = s.flag g := rfl

/-! ### `State.setTrie` -/

@[simp] theorem State.setTrie_regs (n : Nat) (t : TrieCtx) :
    (s.setTrie n t).regs = { s.regs with trieRoot := rootWord (if n = 0 then none else some 0), trieNodes := BitVec.ofNat 32 t.nodes } := rfl
@[simp] theorem State.setTrie_freq (n : Nat) (t : TrieCtx) : (s.setTrie n t).freq = s.freq := rfl
@[simp] theorem State.setTrie_tree (n : Nat) (t : TrieCtx) : (s.setTrie n t).tree = s.tree := rfl
@[simp] theorem State.setTrie_code (n : Nat) (t : TrieCtx) : (s.setTrie n t).code = s.code := rfl
@[simp] theorem State.setTrie_trie (n : Nat) (t : TrieCtx) : (s.setTrie n t).trie = .known t.trie := rfl
@[simp] theorem State.setTrie_pq (n : Nat) (t : TrieCtx) : (s.setTrie n t).pq = s.pq := rfl
@[simp] theorem State.setTrie_src (n : Nat) (t : TrieCtx) : (s.setTrie n t).src = s.src := rfl
@[simp] theorem State.setTrie_pay (n : Nat) (t : TrieCtx) : (s.setTrie n t).pay = s.pay := rfl
@[simp] theorem State.setTrie_dict (n : Nat) (t : TrieCtx) : (s.setTrie n t).dict = s.dict := rfl
@[simp] theorem State.setTrie_dst (n : Nat) (t : TrieCtx) : (s.setTrie n t).dst = s.dst := rfl
@[simp] theorem State.setTrie_params (n : Nat) (t : TrieCtx) : (s.setTrie n t).params = s.params := rfl
@[simp] theorem State.setTrie_draws (n : Nat) (t : TrieCtx) : (s.setTrie n t).draws = s.draws := rfl
@[simp] theorem State.setTrie_script (n : Nat) (t : TrieCtx) : (s.setTrie n t).script = s.script := rfl
@[simp] theorem State.setTrie_returned (n : Nat) (t : TrieCtx) : (s.setTrie n t).returned = s.returned := rfl

@[simp] theorem State.memRead_setTrie (n : Nat) (t : TrieCtx) (sp : Space) (a : Nat) :
    (s.setTrie n t).memRead sp a = s.memRead sp a := by cases sp <;> rfl
@[simp] theorem State.buf_setTrie (n : Nat) (t : TrieCtx) (sp : Space) :
    (s.setTrie n t).buf sp = s.buf sp := by cases sp <;> rfl
@[simp] theorem State.cap_setTrie (n : Nat) (t : TrieCtx) (sp : Space) :
    (s.setTrie n t).cap sp = s.cap sp := by cases sp <;> rfl
@[simp] theorem State.freqAt_setTrie (n : Nat) (t : TrieCtx) (x : Byte) :
    (s.setTrie n t).freqAt x = s.freqAt x := rfl
@[simp] theorem State.treeAt_setTrie (n : Nat) (t : TrieCtx) (i : Nat) :
    (s.setTrie n t).treeAt i = s.treeAt i := rfl
@[simp] theorem State.codeAt_setTrie (n : Nat) (t : TrieCtx) (x : Byte) :
    (s.setTrie n t).codeAt x = s.codeAt x := rfl
@[simp] theorem State.len_setTrie (n : Nat) (t : TrieCtx) (sp : Space) :
    (s.setTrie n t).len sp = s.len sp := by
  cases sp <;> rfl
@[simp] theorem State.flag_setTrie (n : Nat) (t : TrieCtx) (g : ValidFlag) :
    (s.setTrie n t).flag g = s.flag g := rfl

/-! ### `State.showTreeRec` -/

@[simp] theorem State.showTreeRec_freq (r : TreeRec) : (s.showTreeRec r).freq = s.freq := rfl
@[simp] theorem State.showTreeRec_tree (r : TreeRec) : (s.showTreeRec r).tree = s.tree := rfl
@[simp] theorem State.showTreeRec_code (r : TreeRec) : (s.showTreeRec r).code = s.code := rfl
@[simp] theorem State.showTreeRec_trie (r : TreeRec) : (s.showTreeRec r).trie = s.trie := rfl
@[simp] theorem State.showTreeRec_pq (r : TreeRec) : (s.showTreeRec r).pq = s.pq := rfl
@[simp] theorem State.showTreeRec_src (r : TreeRec) : (s.showTreeRec r).src = s.src := rfl
@[simp] theorem State.showTreeRec_pay (r : TreeRec) : (s.showTreeRec r).pay = s.pay := rfl
@[simp] theorem State.showTreeRec_dict (r : TreeRec) : (s.showTreeRec r).dict = s.dict := rfl
@[simp] theorem State.showTreeRec_dst (r : TreeRec) : (s.showTreeRec r).dst = s.dst := rfl
@[simp] theorem State.showTreeRec_params (r : TreeRec) : (s.showTreeRec r).params = s.params := rfl
@[simp] theorem State.showTreeRec_draws (r : TreeRec) : (s.showTreeRec r).draws = s.draws := rfl
@[simp] theorem State.showTreeRec_script (r : TreeRec) : (s.showTreeRec r).script = s.script := rfl
@[simp] theorem State.showTreeRec_returned (r : TreeRec) : (s.showTreeRec r).returned = s.returned := rfl

@[simp] theorem State.memRead_showTreeRec (r : TreeRec) (sp : Space) (a : Nat) :
    (s.showTreeRec r).memRead sp a = s.memRead sp a := by cases sp <;> rfl
@[simp] theorem State.buf_showTreeRec (r : TreeRec) (sp : Space) :
    (s.showTreeRec r).buf sp = s.buf sp := by cases sp <;> rfl
@[simp] theorem State.cap_showTreeRec (r : TreeRec) (sp : Space) :
    (s.showTreeRec r).cap sp = s.cap sp := by cases sp <;> rfl
@[simp] theorem State.freqAt_showTreeRec (r : TreeRec) (x : Byte) :
    (s.showTreeRec r).freqAt x = s.freqAt x := rfl
@[simp] theorem State.treeAt_showTreeRec (r : TreeRec) (i : Nat) :
    (s.showTreeRec r).treeAt i = s.treeAt i := rfl
@[simp] theorem State.codeAt_showTreeRec (r : TreeRec) (x : Byte) :
    (s.showTreeRec r).codeAt x = s.codeAt x := rfl
@[simp] theorem State.trieAt_showTreeRec (r : TreeRec) (i : Nat) :
    (s.showTreeRec r).trieAt i = s.trieAt i := rfl
@[simp] theorem State.len_showTreeRec (r : TreeRec) (sp : Space) :
    (s.showTreeRec r).len sp = s.len sp := by
  cases sp <;> rfl
@[simp] theorem State.flag_showTreeRec (r : TreeRec) (g : ValidFlag) :
    (s.showTreeRec r).flag g = s.flag g := rfl

/-! ### `State.showTrieRec` -/

@[simp] theorem State.showTrieRec_freq (r : TrieRec) : (s.showTrieRec r).freq = s.freq := rfl
@[simp] theorem State.showTrieRec_tree (r : TrieRec) : (s.showTrieRec r).tree = s.tree := rfl
@[simp] theorem State.showTrieRec_code (r : TrieRec) : (s.showTrieRec r).code = s.code := rfl
@[simp] theorem State.showTrieRec_trie (r : TrieRec) : (s.showTrieRec r).trie = s.trie := rfl
@[simp] theorem State.showTrieRec_pq (r : TrieRec) : (s.showTrieRec r).pq = s.pq := rfl
@[simp] theorem State.showTrieRec_src (r : TrieRec) : (s.showTrieRec r).src = s.src := rfl
@[simp] theorem State.showTrieRec_pay (r : TrieRec) : (s.showTrieRec r).pay = s.pay := rfl
@[simp] theorem State.showTrieRec_dict (r : TrieRec) : (s.showTrieRec r).dict = s.dict := rfl
@[simp] theorem State.showTrieRec_dst (r : TrieRec) : (s.showTrieRec r).dst = s.dst := rfl
@[simp] theorem State.showTrieRec_params (r : TrieRec) : (s.showTrieRec r).params = s.params := rfl
@[simp] theorem State.showTrieRec_draws (r : TrieRec) : (s.showTrieRec r).draws = s.draws := rfl
@[simp] theorem State.showTrieRec_script (r : TrieRec) : (s.showTrieRec r).script = s.script := rfl
@[simp] theorem State.showTrieRec_returned (r : TrieRec) : (s.showTrieRec r).returned = s.returned := rfl

@[simp] theorem State.memRead_showTrieRec (r : TrieRec) (sp : Space) (a : Nat) :
    (s.showTrieRec r).memRead sp a = s.memRead sp a := by cases sp <;> rfl
@[simp] theorem State.buf_showTrieRec (r : TrieRec) (sp : Space) :
    (s.showTrieRec r).buf sp = s.buf sp := by cases sp <;> rfl
@[simp] theorem State.cap_showTrieRec (r : TrieRec) (sp : Space) :
    (s.showTrieRec r).cap sp = s.cap sp := by cases sp <;> rfl
@[simp] theorem State.freqAt_showTrieRec (r : TrieRec) (x : Byte) :
    (s.showTrieRec r).freqAt x = s.freqAt x := rfl
@[simp] theorem State.treeAt_showTrieRec (r : TrieRec) (i : Nat) :
    (s.showTrieRec r).treeAt i = s.treeAt i := rfl
@[simp] theorem State.codeAt_showTrieRec (r : TrieRec) (x : Byte) :
    (s.showTrieRec r).codeAt x = s.codeAt x := rfl
@[simp] theorem State.trieAt_showTrieRec (r : TrieRec) (i : Nat) :
    (s.showTrieRec r).trieAt i = s.trieAt i := rfl
@[simp] theorem State.len_showTrieRec (r : TrieRec) (sp : Space) :
    (s.showTrieRec r).len sp = s.len sp := by
  cases sp <;> rfl
@[simp] theorem State.flag_showTrieRec (r : TrieRec) (g : ValidFlag) :
    (s.showTrieRec r).flag g = s.flag g := rfl

/-! ### `State.showCodeword` -/

@[simp] theorem State.showCodeword_freq (cw : List Bool) : (s.showCodeword cw).freq = s.freq := rfl
@[simp] theorem State.showCodeword_tree (cw : List Bool) : (s.showCodeword cw).tree = s.tree := rfl
@[simp] theorem State.showCodeword_code (cw : List Bool) : (s.showCodeword cw).code = s.code := rfl
@[simp] theorem State.showCodeword_trie (cw : List Bool) : (s.showCodeword cw).trie = s.trie := rfl
@[simp] theorem State.showCodeword_pq (cw : List Bool) : (s.showCodeword cw).pq = s.pq := rfl
@[simp] theorem State.showCodeword_src (cw : List Bool) : (s.showCodeword cw).src = s.src := rfl
@[simp] theorem State.showCodeword_pay (cw : List Bool) : (s.showCodeword cw).pay = s.pay := rfl
@[simp] theorem State.showCodeword_dict (cw : List Bool) : (s.showCodeword cw).dict = s.dict := rfl
@[simp] theorem State.showCodeword_dst (cw : List Bool) : (s.showCodeword cw).dst = s.dst := rfl
@[simp] theorem State.showCodeword_params (cw : List Bool) : (s.showCodeword cw).params = s.params := rfl
@[simp] theorem State.showCodeword_draws (cw : List Bool) : (s.showCodeword cw).draws = s.draws := rfl
@[simp] theorem State.showCodeword_script (cw : List Bool) : (s.showCodeword cw).script = s.script := rfl
@[simp] theorem State.showCodeword_returned (cw : List Bool) : (s.showCodeword cw).returned = s.returned := rfl

@[simp] theorem State.memRead_showCodeword (cw : List Bool) (sp : Space) (a : Nat) :
    (s.showCodeword cw).memRead sp a = s.memRead sp a := by cases sp <;> rfl
@[simp] theorem State.buf_showCodeword (cw : List Bool) (sp : Space) :
    (s.showCodeword cw).buf sp = s.buf sp := by cases sp <;> rfl
@[simp] theorem State.cap_showCodeword (cw : List Bool) (sp : Space) :
    (s.showCodeword cw).cap sp = s.cap sp := by cases sp <;> rfl
@[simp] theorem State.freqAt_showCodeword (cw : List Bool) (x : Byte) :
    (s.showCodeword cw).freqAt x = s.freqAt x := rfl
@[simp] theorem State.treeAt_showCodeword (cw : List Bool) (i : Nat) :
    (s.showCodeword cw).treeAt i = s.treeAt i := rfl
@[simp] theorem State.codeAt_showCodeword (cw : List Bool) (x : Byte) :
    (s.showCodeword cw).codeAt x = s.codeAt x := rfl
@[simp] theorem State.trieAt_showCodeword (cw : List Bool) (i : Nat) :
    (s.showCodeword cw).trieAt i = s.trieAt i := rfl
@[simp] theorem State.len_showCodeword (cw : List Bool) (sp : Space) :
    (s.showCodeword cw).len sp = s.len sp := by
  cases sp <;> rfl
@[simp] theorem State.flag_showCodeword (cw : List Bool) (g : ValidFlag) :
    (s.showCodeword cw).flag g = s.flag g := rfl

/-! ### `State.deliver` -/

@[simp] theorem State.deliver_regs (v : Word) : (s.deliver v).regs = s.regs := rfl
@[simp] theorem State.deliver_freq (v : Word) : (s.deliver v).freq = s.freq := rfl
@[simp] theorem State.deliver_tree (v : Word) : (s.deliver v).tree = s.tree := rfl
@[simp] theorem State.deliver_code (v : Word) : (s.deliver v).code = s.code := rfl
@[simp] theorem State.deliver_trie (v : Word) : (s.deliver v).trie = s.trie := rfl
@[simp] theorem State.deliver_pq (v : Word) : (s.deliver v).pq = s.pq := rfl
@[simp] theorem State.deliver_src (v : Word) : (s.deliver v).src = s.src := rfl
@[simp] theorem State.deliver_pay (v : Word) : (s.deliver v).pay = s.pay := rfl
@[simp] theorem State.deliver_dict (v : Word) : (s.deliver v).dict = s.dict := rfl
@[simp] theorem State.deliver_dst (v : Word) : (s.deliver v).dst = s.dst := rfl
@[simp] theorem State.deliver_params (v : Word) : (s.deliver v).params = s.params := rfl
@[simp] theorem State.deliver_draws (v : Word) : (s.deliver v).draws = s.draws := rfl
@[simp] theorem State.deliver_script (v : Word) : (s.deliver v).script = s.script := rfl
@[simp] theorem State.deliver_returned (v : Word) : (s.deliver v).returned = v :: s.returned := rfl

@[simp] theorem State.memRead_deliver (v : Word) (sp : Space) (a : Nat) :
    (s.deliver v).memRead sp a = s.memRead sp a := by cases sp <;> rfl
@[simp] theorem State.buf_deliver (v : Word) (sp : Space) :
    (s.deliver v).buf sp = s.buf sp := by cases sp <;> rfl
@[simp] theorem State.cap_deliver (v : Word) (sp : Space) :
    (s.deliver v).cap sp = s.cap sp := by cases sp <;> rfl
@[simp] theorem State.freqAt_deliver (v : Word) (x : Byte) :
    (s.deliver v).freqAt x = s.freqAt x := rfl
@[simp] theorem State.treeAt_deliver (v : Word) (i : Nat) :
    (s.deliver v).treeAt i = s.treeAt i := rfl
@[simp] theorem State.codeAt_deliver (v : Word) (x : Byte) :
    (s.deliver v).codeAt x = s.codeAt x := rfl
@[simp] theorem State.trieAt_deliver (v : Word) (i : Nat) :
    (s.deliver v).trieAt i = s.trieAt i := rfl
@[simp] theorem State.len_deliver (v : Word) (sp : Space) :
    (s.deliver v).len sp = s.len sp := by
  cases sp <;> rfl
@[simp] theorem State.flag_deliver (v : Word) (g : ValidFlag) :
    (s.deliver v).flag g = s.flag g := rfl

/-! ### `State.forgetMemories` -/

@[simp] theorem State.forgetMemories_regs : (s.forgetMemories).regs = s.regs := rfl
@[simp] theorem State.forgetMemories_freq : (s.forgetMemories).freq = .unspecified s.draws := rfl
@[simp] theorem State.forgetMemories_tree : (s.forgetMemories).tree = .unspecified s.draws := rfl
@[simp] theorem State.forgetMemories_code : (s.forgetMemories).code = .unspecified s.draws := rfl
@[simp] theorem State.forgetMemories_trie : (s.forgetMemories).trie = .unspecified s.draws := rfl
@[simp] theorem State.forgetMemories_pq : (s.forgetMemories).pq = [] := rfl
@[simp] theorem State.forgetMemories_src : (s.forgetMemories).src = s.src := rfl
@[simp] theorem State.forgetMemories_pay : (s.forgetMemories).pay = s.pay := rfl
@[simp] theorem State.forgetMemories_dict : (s.forgetMemories).dict = s.dict := rfl
@[simp] theorem State.forgetMemories_dst : (s.forgetMemories).dst = s.dst := rfl
@[simp] theorem State.forgetMemories_params : (s.forgetMemories).params = s.params := rfl
@[simp] theorem State.forgetMemories_draws : (s.forgetMemories).draws = s.draws + 1 := rfl
@[simp] theorem State.forgetMemories_script : (s.forgetMemories).script = s.script := rfl
@[simp] theorem State.forgetMemories_returned : (s.forgetMemories).returned = s.returned := rfl

@[simp] theorem State.memRead_forgetMemories (sp : Space) (a : Nat) :
    (s.forgetMemories).memRead sp a = s.memRead sp a := by cases sp <;> rfl
@[simp] theorem State.buf_forgetMemories (sp : Space) :
    (s.forgetMemories).buf sp = s.buf sp := by cases sp <;> rfl
@[simp] theorem State.cap_forgetMemories (sp : Space) :
    (s.forgetMemories).cap sp = s.cap sp := by cases sp <;> rfl
@[simp] theorem State.len_forgetMemories (sp : Space) :
    (s.forgetMemories).len sp = s.len sp := by
  cases sp <;> rfl
@[simp] theorem State.flag_forgetMemories (g : ValidFlag) :
    (s.forgetMemories).flag g = s.flag g := rfl

/-! ### `State.clear` -/

@[simp] theorem State.clear_regs :
    (s.clear).regs = { Regs.zero with srcLen := s.regs.srcLen, payLen := s.regs.payLen, dictLen := s.regs.dictLen } := rfl
@[simp] theorem State.clear_freq : (s.clear).freq = .unspecified s.draws := rfl
@[simp] theorem State.clear_tree : (s.clear).tree = .unspecified s.draws := rfl
@[simp] theorem State.clear_code : (s.clear).code = .unspecified s.draws := rfl
@[simp] theorem State.clear_trie : (s.clear).trie = .unspecified s.draws := rfl
@[simp] theorem State.clear_pq : (s.clear).pq = [] := rfl
@[simp] theorem State.clear_src : (s.clear).src = s.src := rfl
@[simp] theorem State.clear_pay : (s.clear).pay = s.pay := rfl
@[simp] theorem State.clear_dict : (s.clear).dict = s.dict := rfl
@[simp] theorem State.clear_dst : (s.clear).dst = s.dst := rfl
@[simp] theorem State.clear_params : (s.clear).params = s.params := rfl
@[simp] theorem State.clear_draws : (s.clear).draws = s.draws + 1 := rfl
@[simp] theorem State.clear_script : (s.clear).script = s.script := rfl
@[simp] theorem State.clear_returned : (s.clear).returned = s.returned := rfl

@[simp] theorem State.memRead_clear (sp : Space) (a : Nat) :
    (s.clear).memRead sp a = s.memRead sp a := by cases sp <;> rfl
@[simp] theorem State.buf_clear (sp : Space) :
    (s.clear).buf sp = s.buf sp := by cases sp <;> rfl
@[simp] theorem State.cap_clear (sp : Space) :
    (s.clear).cap sp = s.cap sp := by cases sp <;> rfl

/-! ### `State.hardReset` -/

@[simp] theorem State.hardReset_regs : (s.hardReset).regs = Regs.zero := rfl
@[simp] theorem State.hardReset_freq : (s.hardReset).freq = .unspecified s.draws := rfl
@[simp] theorem State.hardReset_tree : (s.hardReset).tree = .unspecified s.draws := rfl
@[simp] theorem State.hardReset_code : (s.hardReset).code = .unspecified s.draws := rfl
@[simp] theorem State.hardReset_trie : (s.hardReset).trie = .unspecified s.draws := rfl
@[simp] theorem State.hardReset_pq : (s.hardReset).pq = [] := rfl
@[simp] theorem State.hardReset_src : (s.hardReset).src = ⟨[], s.draws⟩ := rfl
@[simp] theorem State.hardReset_pay : (s.hardReset).pay = ⟨[], s.draws⟩ := rfl
@[simp] theorem State.hardReset_dict : (s.hardReset).dict = ⟨[], s.draws⟩ := rfl
@[simp] theorem State.hardReset_dst : (s.hardReset).dst = ⟨[], s.draws⟩ := rfl
@[simp] theorem State.hardReset_params : (s.hardReset).params = s.params := rfl
@[simp] theorem State.hardReset_draws : (s.hardReset).draws = s.draws + 1 := rfl
@[simp] theorem State.hardReset_script : (s.hardReset).script = s.script := rfl
@[simp] theorem State.hardReset_returned : (s.hardReset).returned = s.returned := rfl

@[simp] theorem State.cap_hardReset (sp : Space) :
    (s.hardReset).cap sp = s.cap sp := by cases sp <;> rfl

/-! ### `State.setBuf` -/

@[simp] theorem State.setBuf_regs (sp : Space) (b : Buffer) : (s.setBuf sp b).regs = s.regs := by
  cases sp <;> rfl
@[simp] theorem State.setBuf_freq (sp : Space) (b : Buffer) : (s.setBuf sp b).freq = s.freq := by
  cases sp <;> rfl
@[simp] theorem State.setBuf_tree (sp : Space) (b : Buffer) : (s.setBuf sp b).tree = s.tree := by
  cases sp <;> rfl
@[simp] theorem State.setBuf_code (sp : Space) (b : Buffer) : (s.setBuf sp b).code = s.code := by
  cases sp <;> rfl
@[simp] theorem State.setBuf_trie (sp : Space) (b : Buffer) : (s.setBuf sp b).trie = s.trie := by
  cases sp <;> rfl
@[simp] theorem State.setBuf_pq (sp : Space) (b : Buffer) : (s.setBuf sp b).pq = s.pq := by
  cases sp <;> rfl
@[simp] theorem State.setBuf_params (sp : Space) (b : Buffer) : (s.setBuf sp b).params = s.params := by
  cases sp <;> rfl
@[simp] theorem State.setBuf_draws (sp : Space) (b : Buffer) : (s.setBuf sp b).draws = s.draws := by
  cases sp <;> rfl
@[simp] theorem State.setBuf_script (sp : Space) (b : Buffer) : (s.setBuf sp b).script = s.script := by
  cases sp <;> rfl
@[simp] theorem State.setBuf_returned (sp : Space) (b : Buffer) : (s.setBuf sp b).returned = s.returned := by
  cases sp <;> rfl

@[simp] theorem State.freqAt_setBuf (sp : Space) (b : Buffer) (x : Byte) : (s.setBuf sp b).freqAt x = s.freqAt x := by
  cases sp <;> rfl
@[simp] theorem State.treeAt_setBuf (sp : Space) (b : Buffer) (i : Nat) : (s.setBuf sp b).treeAt i = s.treeAt i := by
  cases sp <;> rfl
@[simp] theorem State.codeAt_setBuf (sp : Space) (b : Buffer) (x : Byte) : (s.setBuf sp b).codeAt x = s.codeAt x := by
  cases sp <;> rfl
@[simp] theorem State.trieAt_setBuf (sp : Space) (b : Buffer) (i : Nat) : (s.setBuf sp b).trieAt i = s.trieAt i := by
  cases sp <;> rfl
@[simp] theorem State.cap_setBuf (sp : Space) (b : Buffer) (sp2 : Space) : (s.setBuf sp b).cap sp2 = s.cap sp2 := by
  cases sp <;> cases sp2 <;> rfl
@[simp] theorem State.len_setBuf (sp : Space) (b : Buffer) (sp2 : Space) : (s.setBuf sp b).len sp2 = s.len sp2 := by
  cases sp <;> cases sp2 <;> rfl
@[simp] theorem State.flag_setBuf (sp : Space) (b : Buffer) (g : ValidFlag) : (s.setBuf sp b).flag g = s.flag g := by
  cases sp <;> rfl

/-! ### `State.setLen` -/

@[simp] theorem State.setLen_freq (sp : Space) (n : Nat) : (s.setLen sp n).freq = s.freq := by
  cases sp <;> rfl
@[simp] theorem State.setLen_tree (sp : Space) (n : Nat) : (s.setLen sp n).tree = s.tree := by
  cases sp <;> rfl
@[simp] theorem State.setLen_code (sp : Space) (n : Nat) : (s.setLen sp n).code = s.code := by
  cases sp <;> rfl
@[simp] theorem State.setLen_trie (sp : Space) (n : Nat) : (s.setLen sp n).trie = s.trie := by
  cases sp <;> rfl
@[simp] theorem State.setLen_pq (sp : Space) (n : Nat) : (s.setLen sp n).pq = s.pq := by
  cases sp <;> rfl
@[simp] theorem State.setLen_src (sp : Space) (n : Nat) : (s.setLen sp n).src = s.src := by
  cases sp <;> rfl
@[simp] theorem State.setLen_pay (sp : Space) (n : Nat) : (s.setLen sp n).pay = s.pay := by
  cases sp <;> rfl
@[simp] theorem State.setLen_dict (sp : Space) (n : Nat) : (s.setLen sp n).dict = s.dict := by
  cases sp <;> rfl
@[simp] theorem State.setLen_dst (sp : Space) (n : Nat) : (s.setLen sp n).dst = s.dst := by
  cases sp <;> rfl
@[simp] theorem State.setLen_params (sp : Space) (n : Nat) : (s.setLen sp n).params = s.params := by
  cases sp <;> rfl
@[simp] theorem State.setLen_draws (sp : Space) (n : Nat) : (s.setLen sp n).draws = s.draws := by
  cases sp <;> rfl
@[simp] theorem State.setLen_script (sp : Space) (n : Nat) : (s.setLen sp n).script = s.script := by
  cases sp <;> rfl
@[simp] theorem State.setLen_returned (sp : Space) (n : Nat) : (s.setLen sp n).returned = s.returned := by
  cases sp <;> rfl

@[simp] theorem State.freqAt_setLen (sp : Space) (n : Nat) (x : Byte) : (s.setLen sp n).freqAt x = s.freqAt x := by
  cases sp <;> rfl
@[simp] theorem State.treeAt_setLen (sp : Space) (n : Nat) (i : Nat) : (s.setLen sp n).treeAt i = s.treeAt i := by
  cases sp <;> rfl
@[simp] theorem State.codeAt_setLen (sp : Space) (n : Nat) (x : Byte) : (s.setLen sp n).codeAt x = s.codeAt x := by
  cases sp <;> rfl
@[simp] theorem State.trieAt_setLen (sp : Space) (n : Nat) (i : Nat) : (s.setLen sp n).trieAt i = s.trieAt i := by
  cases sp <;> rfl
@[simp] theorem State.cap_setLen (sp : Space) (n : Nat) (sp2 : Space) : (s.setLen sp n).cap sp2 = s.cap sp2 := by
  cases sp <;> cases sp2 <;> rfl
@[simp] theorem State.buf_setLen (sp : Space) (n : Nat) (sp2 : Space) : (s.setLen sp n).buf sp2 = s.buf sp2 := by
  cases sp <;> cases sp2 <;> rfl
@[simp] theorem State.memRead_setLen (sp : Space) (n : Nat) (sp2 : Space) (a : Nat) :
    (s.setLen sp n).memRead sp2 a = s.memRead sp2 a := by cases sp <;> cases sp2 <;> rfl
@[simp] theorem State.flag_setLen (sp : Space) (n : Nat) (g : ValidFlag) : (s.setLen sp n).flag g = s.flag g := by
  cases sp <;> rfl

/-! ### `State.memWrite` -/

@[simp] theorem State.memWrite_regs (sp : Space) (a : Nat) (v : Byte) : (s.memWrite sp a v).regs = s.regs := by
  cases sp <;> rfl
@[simp] theorem State.memWrite_freq (sp : Space) (a : Nat) (v : Byte) : (s.memWrite sp a v).freq = s.freq := by
  cases sp <;> rfl
@[simp] theorem State.memWrite_tree (sp : Space) (a : Nat) (v : Byte) : (s.memWrite sp a v).tree = s.tree := by
  cases sp <;> rfl
@[simp] theorem State.memWrite_code (sp : Space) (a : Nat) (v : Byte) : (s.memWrite sp a v).code = s.code := by
  cases sp <;> rfl
@[simp] theorem State.memWrite_trie (sp : Space) (a : Nat) (v : Byte) : (s.memWrite sp a v).trie = s.trie := by
  cases sp <;> rfl
@[simp] theorem State.memWrite_pq (sp : Space) (a : Nat) (v : Byte) : (s.memWrite sp a v).pq = s.pq := by
  cases sp <;> rfl
@[simp] theorem State.memWrite_params (sp : Space) (a : Nat) (v : Byte) : (s.memWrite sp a v).params = s.params := by
  cases sp <;> rfl
@[simp] theorem State.memWrite_draws (sp : Space) (a : Nat) (v : Byte) : (s.memWrite sp a v).draws = s.draws := by
  cases sp <;> rfl
@[simp] theorem State.memWrite_script (sp : Space) (a : Nat) (v : Byte) : (s.memWrite sp a v).script = s.script := by
  cases sp <;> rfl
@[simp] theorem State.memWrite_returned (sp : Space) (a : Nat) (v : Byte) : (s.memWrite sp a v).returned = s.returned := by
  cases sp <;> rfl

@[simp] theorem State.freqAt_memWrite (sp : Space) (a : Nat) (v : Byte) (x : Byte) : (s.memWrite sp a v).freqAt x = s.freqAt x := by
  cases sp <;> rfl
@[simp] theorem State.treeAt_memWrite (sp : Space) (a : Nat) (v : Byte) (i : Nat) : (s.memWrite sp a v).treeAt i = s.treeAt i := by
  cases sp <;> rfl
@[simp] theorem State.codeAt_memWrite (sp : Space) (a : Nat) (v : Byte) (x : Byte) : (s.memWrite sp a v).codeAt x = s.codeAt x := by
  cases sp <;> rfl
@[simp] theorem State.trieAt_memWrite (sp : Space) (a : Nat) (v : Byte) (i : Nat) : (s.memWrite sp a v).trieAt i = s.trieAt i := by
  cases sp <;> rfl
@[simp] theorem State.cap_memWrite (sp : Space) (a : Nat) (v : Byte) (sp2 : Space) : (s.memWrite sp a v).cap sp2 = s.cap sp2 := by
  cases sp <;> cases sp2 <;> rfl
@[simp] theorem State.len_memWrite (sp : Space) (a : Nat) (v : Byte) (sp2 : Space) : (s.memWrite sp a v).len sp2 = s.len sp2 := by
  cases sp <;> cases sp2 <;> rfl
@[simp] theorem State.flag_memWrite (sp : Space) (a : Nat) (v : Byte) (g : ValidFlag) : (s.memWrite sp a v).flag g = s.flag g := by
  cases sp <;> rfl

/-! ### `State.discardOutput` -/

@[simp] theorem State.discardOutput_freq (d : Nat) (sp : Space) : (s.discardOutput d sp).freq = s.freq := by
  cases sp <;> rfl
@[simp] theorem State.discardOutput_tree (d : Nat) (sp : Space) : (s.discardOutput d sp).tree = s.tree := by
  cases sp <;> rfl
@[simp] theorem State.discardOutput_code (d : Nat) (sp : Space) : (s.discardOutput d sp).code = s.code := by
  cases sp <;> rfl
@[simp] theorem State.discardOutput_trie (d : Nat) (sp : Space) : (s.discardOutput d sp).trie = s.trie := by
  cases sp <;> rfl
@[simp] theorem State.discardOutput_pq (d : Nat) (sp : Space) : (s.discardOutput d sp).pq = s.pq := by
  cases sp <;> rfl
@[simp] theorem State.discardOutput_params (d : Nat) (sp : Space) : (s.discardOutput d sp).params = s.params := by
  cases sp <;> rfl
@[simp] theorem State.discardOutput_draws (d : Nat) (sp : Space) : (s.discardOutput d sp).draws = s.draws := by
  cases sp <;> rfl
@[simp] theorem State.discardOutput_script (d : Nat) (sp : Space) : (s.discardOutput d sp).script = s.script := by
  cases sp <;> rfl
@[simp] theorem State.discardOutput_returned (d : Nat) (sp : Space) : (s.discardOutput d sp).returned = s.returned := by
  cases sp <;> rfl

@[simp] theorem State.freqAt_discardOutput (d : Nat) (sp : Space) (x : Byte) : (s.discardOutput d sp).freqAt x = s.freqAt x := by
  cases sp <;> rfl
@[simp] theorem State.treeAt_discardOutput (d : Nat) (sp : Space) (i : Nat) : (s.discardOutput d sp).treeAt i = s.treeAt i := by
  cases sp <;> rfl
@[simp] theorem State.codeAt_discardOutput (d : Nat) (sp : Space) (x : Byte) : (s.discardOutput d sp).codeAt x = s.codeAt x := by
  cases sp <;> rfl
@[simp] theorem State.trieAt_discardOutput (d : Nat) (sp : Space) (i : Nat) : (s.discardOutput d sp).trieAt i = s.trieAt i := by
  cases sp <;> rfl
@[simp] theorem State.cap_discardOutput (d : Nat) (sp : Space) (sp2 : Space) : (s.discardOutput d sp).cap sp2 = s.cap sp2 := by
  cases sp <;> cases sp2 <;> rfl
@[simp] theorem State.flag_discardOutput (d : Nat) (sp : Space) (g : ValidFlag) : (s.discardOutput d sp).flag g = s.flag g := by
  cases sp <;> rfl

/-! ### What the spaced updates change -/

theorem State.buf_setBuf (sp : Space) (b : Buffer) (sp2 : Space) :
    (s.setBuf sp b).buf sp2 = if sp2 = sp then b else s.buf sp2 := by
  cases sp <;> cases sp2 <;> rfl

theorem State.len_setLen (sp : Space) (n : Nat) (sp2 : Space) :
    (s.setLen sp n).len sp2 = if sp2 = sp then n % 2 ^ 32 else s.len sp2 := by
  cases sp <;> cases sp2 <;> rfl

theorem State.buf_memWrite (sp : Space) (a : Nat) (v : Byte) (sp2 : Space) :
    (s.memWrite sp a v).buf sp2 =
      if sp2 = sp then { s.buf sp with cells := putAt (s.buf sp).cells a v } else s.buf sp2 :=
  s.buf_setBuf sp _ sp2

/-- Read after write (rules R66, R67), and every other byte of every buffer alone (rule R60). -/
theorem State.memRead_memWrite (sp : Space) (a : Nat) (v : Byte) (sp2 : Space) (c : Nat) :
    (s.memWrite sp a v).memRead sp2 c = if sp2 = sp ∧ c = a then v else s.memRead sp2 c := by
  unfold State.memRead
  rw [State.buf_memWrite]
  by_cases h : sp2 = sp
  · subst h
    simp only [if_true, Buffer.byteAt, lookAt_putAt, true_and]
    split <;> rfl
  · simp [h]

theorem State.buf_discardOutput (d : Nat) (sp sp2 : Space) :
    (s.discardOutput d sp).buf sp2 = if sp2 = sp then ⟨[], d⟩ else s.buf sp2 := by
  cases sp <;> cases sp2 <;> rfl

theorem State.len_discardOutput (d : Nat) (sp sp2 : Space) :
    (s.discardOutput d sp).len sp2 = if sp2 = sp then 0 else s.len sp2 := by
  cases sp <;> cases sp2 <;> rfl

/-- Two states with the same fields are the same. -/
theorem State.ext_fields {s t : State} (h1 : s.regs = t.regs) (h2 : s.freq = t.freq) (h3 : s.tree = t.tree)
    (h4 : s.code = t.code) (h5 : s.trie = t.trie) (h6 : s.pq = t.pq) (h7 : s.src = t.src) (h8 : s.pay = t.pay)
    (h9 : s.dict = t.dict) (h10 : s.dst = t.dst) (h11 : s.params = t.params) (h12 : s.draws = t.draws)
    (h13 : s.script = t.script) (h14 : s.returned = t.returned) : s = t := by
  cases s; cases t; simp_all

/-! ### Flags -/

/-- A bit of a word with one bit set to a value. -/
theorem getLsbD_withBit (w : Word) (i : Nat) (b : Bool) (j : Nat) :
    (withBit w i b).getLsbD j = if j = i ∧ j < 32 then b else w.getLsbD j := by
  have hone : (1#32 <<< i).getLsbD j = decide (j = i ∧ j < 32) := by
    by_cases hj : j < 32
    · rcases Nat.lt_trichotomy j i with h | h | h
      · simp [hj, h, Nat.ne_of_lt h]
      · subst h; simp [hj]
      · have h0 : (1#32).getLsbD (j - i) = false := by
          rw [BitVec.getLsbD_one]; simp; omega
        simp only [BitVec.getLsbD_shiftLeft, h0, Bool.and_false]
        simp [Nat.ne_of_gt h]
    · simp [hj]
  unfold withBit
  by_cases hj : j < 32
  · by_cases hij : j = i
    · subst hij
      cases b <;> simp only [BitVec.getLsbD_or, BitVec.getLsbD_and, BitVec.getLsbD_not, hone, Bool.false_eq_true,
        if_true, if_false, BitVec.getLsbD_zero] <;> simp [hj]
    · cases b <;> simp only [BitVec.getLsbD_or, BitVec.getLsbD_and, BitVec.getLsbD_not, hone, Bool.false_eq_true,
        if_true, if_false, BitVec.getLsbD_zero] <;> simp [hj, hij]
  · have : w.getLsbD j = false := BitVec.getLsbD_of_ge w j (by omega)
    simp only [BitVec.getLsbD_or, BitVec.getLsbD_and, this]
    cases b <;> simp [hj]

@[simp] theorem State.flag_setFlag (f g : ValidFlag) (b : Bool) :
    (s.setFlag f b).flag g = if g = f then b else s.flag g := by
  unfold State.flag
  rw [State.setFlag_regs, getLsbD_withBit]
  cases f <;> cases g <;> simp [flagBit]

@[simp] theorem flag_faultStatus (w : Word) (f : ValidFlag) : (faultStatus w).getLsbD (flagBit f) = false := by
  unfold faultStatus errSetBit
  simp only [getLsbD_withBit]
  cases f <;> simp [flagBit]

@[simp] theorem errSet_faultStatus (w : Word) : (faultStatus w).getLsbD errSetBit = true := by
  simp [faultStatus, errSetBit, getLsbD_withBit]

theorem reserved_faultStatus (w : Word) {i : Nat} (h1 : 4 ≤ i) (h2 : i < 31) :
    (faultStatus w).getLsbD i = w.getLsbD i := by
  unfold faultStatus errSetBit
  simp only [getLsbD_withBit]
  simp [show i ≠ 0 by omega, show i ≠ 1 by omega, show i ≠ 2 by omega, show i ≠ 3 by omega, show i ≠ 31 by omega]

@[simp] theorem State.flag_clear (f : ValidFlag) : s.clear.flag f = false := by
  cases f <;> simp [State.flag, Regs.zero]

@[simp] theorem State.flag_hardReset (f : ValidFlag) : s.hardReset.flag f = false := by
  cases f <;> simp [State.flag, Regs.zero]

end Sys2Proof.Machine
end

