-- ==== Sys2Proof/Laws/Ops.lean ====
section
/-! SUPPORT. The shared operations: one lemma each that says everything it can do. -/

namespace Sys2Proof.Machine

variable {s t : State}

/-! ### Numbers and bytes -/

/-- The four bytes of a number read back as the number (rule R15). -/
theorem le32_le32Bytes {v : Nat} (h : v < 2 ^ 32) :
    le32 (BitVec.ofNat 8 v) (BitVec.ofNat 8 (v >>> 8)) (BitVec.ofNat 8 (v >>> 16)) (BitVec.ofNat 8 (v >>> 24)) = v := by
  simp only [le32, BitVec.toNat_ofNat, Nat.shiftRight_eq_div_pow]
  omega

@[simp] theorem length_le32Bytes (v : Nat) : (le32Bytes v).length = 4 := rfl

/-- Four bytes are the bytes of the number they make (rule R15). -/
theorem le32Bytes_le32 (b0 b1 b2 b3 : Byte) : le32Bytes (le32 b0 b1 b2 b3) = [b0, b1, b2, b3] := by
  have h0 := b0.isLt; have h1 := b1.isLt; have h2 := b2.isLt; have h3 := b3.isLt
  simp only [le32Bytes, le32, Nat.shiftRight_eq_div_pow]
  congr 1
  · apply BitVec.eq_of_toNat_eq; simp only [BitVec.toNat_ofNat]; omega
  congr 1
  · apply BitVec.eq_of_toNat_eq; simp only [BitVec.toNat_ofNat]; omega
  congr 1
  · apply BitVec.eq_of_toNat_eq; simp only [BitVec.toNat_ofNat]; omega
  congr 1
  apply BitVec.eq_of_toNat_eq; simp only [BitVec.toNat_ofNat]; omega

theorem le32_lt (b0 b1 b2 b3 : Byte) : le32 b0 b1 b2 b3 < 2 ^ 32 := by
  have h0 := b0.isLt; have h1 := b1.isLt; have h2 := b2.isLt; have h3 := b3.isLt
  simp only [le32]; omega

theorem memRead32_lt (s : State) (sp : Space) (a : Nat) : s.memRead32 sp a < 2 ^ 32 := le32_lt _ _ _ _

@[simp] theorem length_allBytes : allBytes.length = 256 := by simp [allBytes]

theorem mem_allBytes (b : Byte) : b ∈ allBytes := by
  refine List.mem_map.2 ⟨b.toNat, List.mem_range.2 (by simpa using b.isLt), ?_⟩
  apply BitVec.eq_of_toNat_eq
  rw [BitVec.toNat_ofNat, Nat.mod_eq_of_lt (by simpa using b.isLt)]

theorem nodup_allBytes : allBytes.Nodup := by
  refine List.Nodup.map_on (fun x hx y hy h => ?_) List.nodup_range
  have := congrArg BitVec.toNat h
  simp only [BitVec.toNat_ofNat, List.mem_range] at this hx hy
  omega

/-! ### Writing several bytes -/

@[simp] theorem State.memWriteAll_nil (s : State) (sp : Space) (a : Nat) : s.memWriteAll sp a [] = s := rfl

@[simp] theorem State.memWriteAll_cons (s : State) (sp : Space) (a : Nat) (v : Byte) (vs : List Byte) :
    s.memWriteAll sp a (v :: vs) = (s.memWrite sp a v).memWriteAll sp (a + 1) vs := rfl

/-- What the bytes written at rising offsets leave in every buffer. -/
theorem State.memRead_memWriteAll (s : State) (sp : Space) (a : Nat) (vs : List Byte) (sp2 : Space) (c : Nat) :
    (s.memWriteAll sp a vs).memRead sp2 c =
      if sp2 = sp ∧ a ≤ c then vs.getD (c - a) (s.memRead sp2 c) else s.memRead sp2 c := by
  induction vs generalizing s a with
  | nil => simp
  | cons v rest ih =>
    rw [State.memWriteAll_cons, ih, State.memRead_memWrite]
    by_cases hsp : sp2 = sp
    · subst hsp
      rcases Nat.lt_trichotomy c a with h | h | h
      · simp [show ¬ a + 1 ≤ c by omega, show ¬ a ≤ c by omega, show c ≠ a by omega]
      · subst h; simp
      · obtain ⟨d, rfl⟩ : ∃ d, c = a + 1 + d := ⟨c - (a + 1), by omega⟩
        simp [show a + 1 + d - a = d + 1 by omega, show a + 1 + d ≠ a by omega, show a ≤ a + 1 + d by omega]
    · simp [hsp]

/-- Everything but the one buffer's bytes is untouched by a write of several bytes. -/
theorem State.memWriteAll_frame (s : State) (sp : Space) (a : Nat) (vs : List Byte) :
    (s.memWriteAll sp a vs).regs = s.regs ∧ (s.memWriteAll sp a vs).freq = s.freq ∧
    (s.memWriteAll sp a vs).tree = s.tree ∧ (s.memWriteAll sp a vs).code = s.code ∧
    (s.memWriteAll sp a vs).trie = s.trie ∧ (s.memWriteAll sp a vs).pq = s.pq ∧
    (s.memWriteAll sp a vs).params = s.params ∧ (s.memWriteAll sp a vs).draws = s.draws ∧
    (s.memWriteAll sp a vs).script = s.script ∧ (s.memWriteAll sp a vs).returned = s.returned ∧
    (∀ sp2, sp2 ≠ sp → (s.memWriteAll sp a vs).buf sp2 = s.buf sp2) ∧
    ((s.memWriteAll sp a vs).buf sp).draw = (s.buf sp).draw := by
  induction vs generalizing s a with
  | nil => simp
  | cons v rest ih =>
    obtain ⟨h1, h2, h3, h4, h5, h6, h7, h8, h9, h10, h11, h12⟩ := ih (s.memWrite sp a v) (a + 1)
    simp only [State.memWriteAll_cons]
    refine ⟨by simp [h1], by simp [h2], by simp [h3], by simp [h4], by simp [h5], by simp [h6], by simp [h7],
      by simp [h8], by simp [h9], by simp [h10], fun sp2 hne => ?_, ?_⟩
    · rw [h11 sp2 hne, State.buf_memWrite, if_neg hne]
    · rw [h12, State.buf_memWrite, if_pos rfl]

/-! ### Two states that differ in one buffer's bytes -/

/-- `t` is `s` with other bytes written in one buffer, and nothing else changed. -/
structure DiffersIn (sp : Space) (s t : State) : Prop where
  regs     : t.regs = s.regs
  freq     : t.freq = s.freq
  tree     : t.tree = s.tree
  code     : t.code = s.code
  trie     : t.trie = s.trie
  pq       : t.pq = s.pq
  params   : t.params = s.params
  draws    : t.draws = s.draws
  script   : t.script = s.script
  returned : t.returned = s.returned
  others   : ∀ sp2, sp2 ≠ sp → t.buf sp2 = s.buf sp2

theorem DiffersIn.refl (sp : Space) (s : State) : DiffersIn sp s s :=
  ⟨rfl, rfl, rfl, rfl, rfl, rfl, rfl, rfl, rfl, rfl, fun _ _ => rfl⟩

theorem DiffersIn.trans {sp : Space} {u : State} (h : DiffersIn sp s t) (k : DiffersIn sp t u) : DiffersIn sp s u :=
  ⟨k.regs.trans h.regs, k.freq.trans h.freq, k.tree.trans h.tree, k.code.trans h.code, k.trie.trans h.trie,
    k.pq.trans h.pq, k.params.trans h.params, k.draws.trans h.draws, k.script.trans h.script,
    k.returned.trans h.returned, fun sp2 hne => (k.others sp2 hne).trans (h.others sp2 hne)⟩

theorem differsIn_memWrite (s : State) (sp : Space) (a : Nat) (v : Byte) : DiffersIn sp s (s.memWrite sp a v) :=
  ⟨by simp, by simp, by simp, by simp, by simp, by simp, by simp, by simp, by simp, by simp, fun sp2 hne => by
    rw [State.buf_memWrite, if_neg hne]⟩

theorem differsIn_memWriteAll (s : State) (sp : Space) (a : Nat) (vs : List Byte) :
    DiffersIn sp s (s.memWriteAll sp a vs) := by
  obtain ⟨h1, h2, h3, h4, h5, h6, h7, h8, h9, h10, h11, -⟩ := s.memWriteAll_frame sp a vs
  exact ⟨h1, h2, h3, h4, h5, h6, h7, h8, h9, h10, h11⟩

theorem DiffersIn.cap {sp : Space} (h : DiffersIn sp s t) (sp2 : Space) : t.cap sp2 = s.cap sp2 := by
  cases sp2 <;> simp [State.cap, h.params]

theorem DiffersIn.len {sp : Space} (h : DiffersIn sp s t) (sp2 : Space) : t.len sp2 = s.len sp2 := by
  cases sp2 <;> simp [State.len, h.regs]

theorem DiffersIn.memRead {sp : Space} (h : DiffersIn sp s t) {sp2 : Space} (hne : sp2 ≠ sp) (a : Nat) :
    t.memRead sp2 a = s.memRead sp2 a := by simp [State.memRead, h.others sp2 hne]

theorem DiffersIn.freqAt {sp : Space} (h : DiffersIn sp s t) (b : Byte) : t.freqAt b = s.freqAt b := by
  simp [State.freqAt, h.freq]

theorem DiffersIn.treeAt {sp : Space} (h : DiffersIn sp s t) (i : Nat) : t.treeAt i = s.treeAt i := by
  simp [State.treeAt, h.tree]

theorem DiffersIn.codeAt {sp : Space} (h : DiffersIn sp s t) (b : Byte) : t.codeAt b = s.codeAt b := by
  simp [State.codeAt, h.code]

theorem DiffersIn.trieAt {sp : Space} (h : DiffersIn sp s t) (i : Nat) : t.trieAt i = s.trieAt i := by
  simp [State.trieAt, h.trie]

theorem DiffersIn.flag {sp : Space} (h : DiffersIn sp s t) (f : ValidFlag) : t.flag f = s.flag f := by
  simp [State.flag, h.regs]

/-! ### Taking a fault -/

theorem foldl_discardOutput (outs : List Space) (d : Nat) (s : State) :
    let t := outs.foldl (fun u sp => u.discardOutput d sp) s
    (t.freq = s.freq ∧ t.tree = s.tree ∧ t.code = s.code ∧ t.trie = s.trie ∧ t.pq = s.pq ∧ t.params = s.params ∧
      t.draws = s.draws ∧ t.script = s.script ∧ t.returned = s.returned) ∧
    t.regs = { s.regs with srcLen := t.regs.srcLen, payLen := t.regs.payLen, dictLen := t.regs.dictLen,
                           dstLen := t.regs.dstLen } ∧
    (∀ sp, t.buf sp = if sp ∈ outs then ⟨[], d⟩ else s.buf sp) ∧
    ∀ sp, t.len sp = if sp ∈ outs then 0 else s.len sp := by
  induction outs generalizing s with
  | nil => simp
  | cons x rest ih =>
    obtain ⟨⟨h1, h2, h3, h4, h5, h6, h7, h8, h9⟩, hr, hb, hl⟩ := ih (s.discardOutput d x)
    simp only [List.foldl_cons]
    refine ⟨⟨by simp [h1], by simp [h2], by simp [h3], by simp [h4], by simp [h5], by simp [h6], by simp [h7],
      by simp [h8], by simp [h9]⟩, ?_, fun sp => ?_, fun sp => ?_⟩
    · rw [hr]; cases x <;> rfl
    · rw [hb, State.buf_discardOutput]
      by_cases h : sp = x <;> by_cases k : sp ∈ rest <;> simp [h, k]
    · rw [hl, State.len_discardOutput]
      by_cases h : sp = x <;> by_cases k : sp ∈ rest <;> simp [h, k]

/-- Everything `raise` does (rule R236). -/
theorem raise_spec (s : State) (x : HwFault) (info : Nat) (outs : List Space) :
    let t := s.raise x info outs
    t.regs = { s.regs with
      err := faultCode x, errinfo := BitVec.ofNat 32 info, status := faultStatus s.regs.status,
      srcLen := t.regs.srcLen, payLen := t.regs.payLen, dictLen := t.regs.dictLen, dstLen := t.regs.dstLen } ∧
    (∀ sp, t.buf sp = if sp ∈ outs then ⟨[], s.draws⟩ else s.buf sp) ∧
    (∀ sp, t.len sp = if sp ∈ outs then 0 else s.len sp) ∧
    t.freq = .unspecified s.draws ∧ t.tree = .unspecified s.draws ∧ t.code = .unspecified s.draws ∧
    t.trie = .unspecified s.draws ∧ t.pq = [] ∧ t.params = s.params ∧ t.draws = s.draws + 1 ∧
    t.script = s.script ∧ t.returned = s.returned := by
  obtain ⟨⟨h1, h2, h3, h4, h5, h6, h7, h8, h9⟩, hr, hb, hl⟩ :=
    foldl_discardOutput outs s.draws
      { s.forgetMemories with
        regs := { s.regs with err := faultCode x, errinfo := BitVec.ofNat 32 info, status := faultStatus s.regs.status } }
  exact ⟨hr, fun sp => by rw [State.raise, hb]; cases sp <;> rfl, fun sp => by rw [State.raise, hl]; cases sp <;> rfl,
    h1, h2, h3, h4, h5, h6, h7, h8, h9⟩

theorem raise_err (s : State) (x : HwFault) (info : Nat) (outs : List Space) :
    (s.raise x info outs).regs.err = faultCode x := by rw [(raise_spec s x info outs).1]

theorem raise_errinfo (s : State) (x : HwFault) (info : Nat) (outs : List Space) :
    (s.raise x info outs).regs.errinfo = BitVec.ofNat 32 info := by rw [(raise_spec s x info outs).1]

theorem raise_status (s : State) (x : HwFault) (info : Nat) (outs : List Space) :
    (s.raise x info outs).regs.status = faultStatus s.regs.status := by rw [(raise_spec s x info outs).1]

theorem faultCode_ne_zero (x : HwFault) : faultCode x ≠ 0#32 := by cases x <;> decide

theorem faultCode_le (x : HwFault) : (faultCode x).toNat ≤ 10 := by cases x <;> decide

theorem faultCode_injective {x y : HwFault} (h : faultCode x = faultCode y) : x = y := by
  cases x <;> cases y <;> first | rfl | exact absurd h (by decide)

theorem raise_err_ne_zero (s : State) (x : HwFault) (info : Nat) (outs : List Space) :
    (s.raise x info outs).regs.err ≠ 0#32 := by rw [raise_err]; exact faultCode_ne_zero x

theorem raise_flag (s : State) (x : HwFault) (info : Nat) (outs : List Space) (f : ValidFlag) :
    (s.raise x info outs).flag f = false := by
  rw [State.flag, raise_status, flag_faultStatus]

theorem raise_errSet (s : State) (x : HwFault) (info : Nat) (outs : List Space) :
    (s.raise x info outs).errSet = true := by
  rw [State.errSet, raise_status, errSet_faultStatus]

/-- The state after a fault is fully given by the fault and the state before (rule R239): what a command has written to
its own output buffer before the fault does not show. -/
theorem raise_eq_of_differsIn {sp : Space} (h : DiffersIn sp s t) (x : HwFault) (info : Nat) {outs : List Space}
    (hsp : sp ∈ outs) : t.raise x info outs = s.raise x info outs := by
  obtain ⟨a1, a2, a3, a4, a5, a6, a7, a8, a9, a10, a11, a12⟩ := raise_spec s x info outs
  obtain ⟨b1, b2, b3, b4, b5, b6, b7, b8, b9, b10, b11, b12⟩ := raise_spec t x info outs
  have hbuf : ∀ q, (t.raise x info outs).buf q = (s.raise x info outs).buf q := by
    intro q
    rw [a2, b2, h.draws]
    split
    · rfl
    · exact h.others q (by rintro rfl; contradiction)
  have hlen : ∀ q, (t.raise x info outs).len q = (s.raise x info outs).len q := by
    intro q; rw [a3, b3, h.len]
  refine State.ext_fields ?_ (by rw [b4, a4, h.draws]) (by rw [b5, a5, h.draws]) (by rw [b6, a6, h.draws])
    (by rw [b7, a7, h.draws]) (by rw [b8, a8]) (hbuf .src) (hbuf .pay) (hbuf .dict) (hbuf .dst)
    (by rw [b9, a9, h.params]) (by rw [b10, a10, h.draws]) (by rw [b11, a11, h.script])
    (by rw [b12, a12, h.returned])
  have e1 : (t.raise x info outs).regs.srcLen = (s.raise x info outs).regs.srcLen := BitVec.eq_of_toNat_eq (hlen .src)
  have e2 : (t.raise x info outs).regs.payLen = (s.raise x info outs).regs.payLen := BitVec.eq_of_toNat_eq (hlen .pay)
  have e3 : (t.raise x info outs).regs.dictLen = (s.raise x info outs).regs.dictLen :=
    BitVec.eq_of_toNat_eq (hlen .dict)
  have e4 : (t.raise x info outs).regs.dstLen = (s.raise x info outs).regs.dstLen := BitVec.eq_of_toNat_eq (hlen .dst)
  rw [h.regs, e1, e2, e3, e4] at b1
  exact b1.trans a1.symm

/-! ### Running a command -/

@[simp] theorem andThen_done {α β : Type} (a : α) (f : α → Run β) : (Run.done a).andThen f = f a := rfl

@[simp] theorem andThen_raised {α β : Type} (x : HwFault) (info : Nat) (s : State) (f : α → Run β) :
    (Run.raised x info s : Run α).andThen f = .raised x info s := rfl

@[simp] theorem andThen_assoc {α β γ : Type} (r : Run α) (f : α → Run β) (g : β → Run γ) :
    (r.andThen f).andThen g = r.andThen fun a => (f a).andThen g := by cases r <;> rfl

/-- A sequence that ends with a result had a result to go on with. -/
theorem andThen_eq_done {α β : Type} {r : Run α} {f : α → Run β} {b : β} (h : r.andThen f = .done b) :
    ∃ a, r = .done a ∧ f a = .done b := by
  cases r with
  | done a => exact ⟨a, rfl, h⟩
  | raised x info s => exact absurd h (by simp)

/-- A sequence that raises raises in its first part, or in its second after a result of the first. -/
theorem andThen_eq_raised {α β : Type} {r : Run α} {f : α → Run β} {x : HwFault} {info : Nat} {u : State}
    (h : r.andThen f = .raised x info u) : r = .raised x info u ∨ ∃ a, r = .done a ∧ f a = .raised x info u := by
  cases r with
  | done a => exact .inr ⟨a, rfl, h⟩
  | raised y j v => exact .inl (by simpa using h)

@[simp] theorem finish_done (outs : List Space) (s : State) : (Run.done s).finish outs = s := rfl

@[simp] theorem finish_raised (outs : List Space) (x : HwFault) (info : Nat) (s : State) :
    (Run.raised x info s).finish outs = s.raise x info outs := rfl

/-- Everything the dispatcher does with a legal word (rule R215): the command is ignored, refused for its prerequisite,
run to its end, or ended by a fault of its own. -/
theorem runCommand_cases {w : Word} {pre : Option ValidFlag} {outs : List Space} {body : State → Run State}
    (h : runCommand w pre outs body s = .next t) :
    (s.regs.err ≠ 0#32 ∧ t = s) ∨
    (s.regs.err = 0#32 ∧ s.admits pre = false ∧ t = s.raise .sequenceError w.toNat []) ∨
    (s.regs.err = 0#32 ∧ s.admits pre = true ∧ body s = .done t) ∨
    (s.regs.err = 0#32 ∧ s.admits pre = true ∧ ∃ x info u, body s = .raised x info u ∧ t = u.raise x info outs) := by
  unfold runCommand at h
  split at h
  · exact .inl ⟨‹_›, by simpa using h.symm⟩
  · have he : s.regs.err = 0#32 := by simpa using ‹¬s.regs.err ≠ 0#32›
    split at h
    · cases hb : body s with
      | done u =>
        have : u = t := by simpa [hb] using h
        exact .inr (.inr (.inl ⟨he, ‹_›, by rw [this]⟩))
      | raised x info u =>
        exact .inr (.inr (.inr ⟨he, ‹_›, x, info, u, rfl, by simpa [hb] using h.symm⟩))
    · exact .inr (.inl ⟨he, by simpa using ‹¬s.admits pre = true›, by simpa using h.symm⟩)

/-- A command that may run answers the state its body ends in. -/
theorem runCommand_run {w : Word} {pre : Option ValidFlag} {outs : List Space} {body : State → Run State}
    (he : s.regs.err = 0#32) (hp : s.admits pre = true) :
    runCommand w pre outs body s = .next ((body s).finish outs) := by simp [runCommand, he, hp]

/-- A command whose prerequisite flag is 0 raises SequenceError. -/
theorem runCommand_refused {w : Word} {pre : Option ValidFlag} {outs : List Space} {body : State → Run State}
    (he : s.regs.err = 0#32) (hp : s.admits pre = false) :
    runCommand w pre outs body s = .next (s.raise .sequenceError w.toNat []) := by simp [runCommand, he, hp]

/-- A command met while a fault is recorded is ignored. -/
theorem runCommand_ignored {w : Word} {pre : Option ValidFlag} {outs : List Space} {body : State → Run State}
    (he : s.regs.err ≠ 0#32) : runCommand w pre outs body s = .next s := by simp [runCommand, he]

/-- The dispatcher never stops the machine. -/
theorem runCommand_next (w : Word) (pre : Option ValidFlag) (outs : List Space) (body : State → Run State) (s : State) :
    ∃ t, runCommand w pre outs body s = .next t := by
  unfold runCommand; split
  · exact ⟨_, rfl⟩
  · split <;> exact ⟨_, rfl⟩

end Sys2Proof.Machine
end

