-- ==== Sys2Proof/Laws/Storage.lean ====
section
/-! SUPPORT. Every operation on buffers keeps their canonical form and their bounds, and reset has it. -/

namespace Sys2Proof.Machine

/-- The buffers' part of `State.StorageOk`: canonical form, and every listed byte below the capacity (rule R60). -/
def State.BuffersOk (s : State) : Prop := ∀ sp, (s.buf sp).cells.wf = true ∧ ∀ c ∈ (s.buf sp).cells, c.1 < s.cap sp

theorem State.buffersOk_reset : State.reset.BuffersOk := by
  intro sp; cases sp <;> exact ⟨rfl, by simp [State.reset, State.buf]⟩

theorem State.BuffersOk.memWrite {s : State} (h : s.BuffersOk) {sp : Space} {a : Nat} (ha : a < s.cap sp) (v : Byte) :
    (s.memWrite sp a v).BuffersOk := by
  intro sp2
  rw [State.buf_memWrite, State.cap_memWrite]
  split
  · next heq =>
    subst heq
    refine ⟨Memory_wf_putAt (h sp2).1 a v, fun c hc => ?_⟩
    rcases mem_putAt hc with hc | hc
    · rw [hc]; exact ha
    · exact (h sp2).2 c hc
  · exact h sp2

theorem State.BuffersOk.memWriteAll {s : State} (h : s.BuffersOk) {sp : Space} {a : Nat} (vs : List Byte)
    (ha : a + vs.length ≤ s.cap sp) : (s.memWriteAll sp a vs).BuffersOk := by
  induction vs generalizing s a with
  | nil => exact h
  | cons v rest ih =>
    simp only [List.length_cons] at ha
    exact ih (h.memWrite (by omega) v) (by rw [State.cap_memWrite]; omega)

/-- Equal buffers and capacities have the form together. -/
theorem State.BuffersOk.congr {s t : State} (h : s.BuffersOk) (hb : ∀ sp, t.buf sp = s.buf sp) (hp : t.params = s.params) :
    t.BuffersOk := by
  intro sp
  rw [hb, show t.cap sp = s.cap sp by cases sp <;> simp [State.cap, hp]]
  exact h sp

theorem State.BuffersOk.raise {s : State} (h : s.BuffersOk) (x : HwFault) (info : Nat) (outs : List Space) :
    (s.raise x info outs).BuffersOk := by
  obtain ⟨-, hb, -, -, -, -, -, -, hp, -⟩ := raise_spec s x info outs
  intro sp
  rw [hb, show (s.raise x info outs).cap sp = s.cap sp by cases sp <;> simp [State.cap, hp]]
  split
  · exact ⟨rfl, by simp⟩
  · exact h sp

theorem State.BuffersOk.clear {s : State} (h : s.BuffersOk) : s.clear.BuffersOk :=
  h.congr (fun sp => by cases sp <;> rfl) rfl

theorem State.buffersOk_hardReset (s : State) : s.hardReset.BuffersOk := by
  intro sp; cases sp <;> exact ⟨rfl, by simp [State.hardReset, State.buf]⟩

theorem State.StorageOk.buffers {s : State} (h : s.StorageOk) : s.BuffersOk := h.1

/-- A known table keeps its form and its bound when an entry inside the bound is written. -/
theorem tableOk_setEntry {α : Type} [DecidableEq α] {d : α} {n : Nat} {t : Table α} (h : TableOk d n t) {k : Nat}
    (hk : k < n) (v : α) : TableOk d n (setEntry d t k v) := by
  refine ⟨tableWf_setEntry h.1 k v, fun e he => ?_⟩
  rcases mem_setEntry he with he | he
  · rw [he]; exact hk
  · exact h.2 e he

theorem tableOk_nil {α : Type} [DecidableEq α] (d : α) (n : Nat) : TableOk d n ([] : Table α) :=
  ⟨rfl, by simp⟩

end Sys2Proof.Machine
end

