-- ==== Sys2Proof/Laws/Frequency.lean ====
section
/-! SUPPORT. SCAN (rule R121): the counting loop counts, and what the command changes. -/

namespace Sys2Proof.Machine

variable {s : State}

/-- The counting loop keeps the table's form. -/
theorem tableOk_scanLoop (s : State) (n i : Nat) {t : Table Word} (h : TableOk 0#32 256 t) :
    TableOk 0#32 256 (scanLoop s n i t) := by
  induction n generalizing i t with
  | zero => exact h
  | succ n ih => exact ih (i + 1) (tableOk_setEntry h (s.memRead .src i).isLt _)

/-- The counting loop adds, modulo 2^32, the number of times a byte value stands in the bytes it passes. -/
theorem entryAt_scanLoop (s : State) (n i : Nat) {t : Table Word} (h : tableWf 0#32 t = true) (b : Byte) :
    entryAt 0#32 (scanLoop s n i t) b.toNat =
      entryAt 0#32 t b.toNat + BitVec.ofNat 32 (((List.range' i n).map (s.memRead .src)).count b) := by
  induction n generalizing i t with
  | zero => simp [scanLoop]
  | succ n ih =>
    rw [scanLoop, ih (i + 1) (tableWf_setEntry h _ _), entryAt_setEntry h, List.range'_succ, List.map_cons, List.count_cons]
    by_cases hb : s.memRead .src i = b
    · subst hb
      simp only [beq_self_eq_true, ↓reduceIte, BitVec.ofNat_add]
      rw [BitVec.add_assoc, BitVec.add_comm 1#32]
    · have : b.toNat ≠ (s.memRead .src i).toNat := fun he => hb (BitVec.eq_of_toNat_eq he.symm)
      simp [this, hb]

/-- The region of a buffer as a range of offsets. -/
theorem region_eq (s : State) (sp : Space) : s.region sp = (List.range' 0 (s.len sp)).map (s.memRead sp) := by
  rw [State.region, List.range_eq_range']

theorem length_region (s : State) (sp : Space) : (s.region sp).length = s.len sp := by simp [State.region]

theorem len_lt (s : State) (sp : Space) : s.len sp < 2 ^ 32 := by
  cases sp <;> exact BitVec.isLt _

theorem cap_lt (s : State) (sp : Space) : s.cap sp < 2 ^ 32 := by
  cases sp <;> exact BitVec.isLt _

/-- The count that SCAN stores for a byte value, as a number: no count wraps (rule R14). -/
theorem scanLoop_count (s : State) (b : Byte) :
    (entryAt 0#32 (scanLoop s (s.len .src) 0 []) b.toNat).toNat = (s.region .src).count b := by
  rw [entryAt_scanLoop s _ _ tableWf_nil, ← region_eq, entryAt_nil]
  simp only [BitVec.zero_add, BitVec.toNat_ofNat]
  refine Nat.mod_eq_of_lt (Nat.lt_of_le_of_lt List.count_le_length ?_)
  rw [length_region]; exact len_lt s .src

/-- The state SCAN ends in (rule R121). -/
def State.scanned (s : State) : State :=
  let s1 := ((s.setFlag .freq false).setFlag .tree false).setFlag .code false
  let s2 := { s1 with freq := .known (scanLoop s (s.len .src) 0 []) }
  (s2.setNsym s2.distinctBytes).setFlag .freq true

/-- Everything SCAN's body does. -/
theorem scanBody_eq (s : State) :
    scanBody s = if s.len .src > s.cap .src then .raised .sourceUnavailable 0 s else .done s.scanned := rfl

theorem State.freqAt_scanned (s : State) (b : Byte) : (s.scanned.freqAt b).toNat = (s.region .src).count b :=
  scanLoop_count s b

theorem State.scanned_frame (s : State) :
    s.scanned.tree = s.tree ∧ s.scanned.code = s.code ∧ s.scanned.trie = s.trie ∧ s.scanned.pq = s.pq ∧
    (∀ sp, s.scanned.buf sp = s.buf sp) ∧ s.scanned.params = s.params ∧ s.scanned.draws = s.draws ∧
    s.scanned.script = s.script ∧ s.scanned.returned = s.returned ∧
    s.scanned.regs = { s.regs with nsym := s.scanned.regs.nsym, status := s.scanned.regs.status } :=
  ⟨rfl, rfl, rfl, rfl, fun sp => by cases sp <;> rfl, rfl, rfl, rfl, rfl, rfl⟩

theorem State.flag_scanned (s : State) (f : ValidFlag) :
    s.scanned.flag f = match f with | .freq => true | .tree => false | .code => false | .trie => s.flag .trie := by
  have h : s.scanned.regs.status =
      withBit (withBit (withBit (withBit s.regs.status 0 false) 1 false) 2 false) 0 true := rfl
  unfold State.flag
  rw [h]
  cases f <;> simp only [getLsbD_withBit, flagBit] <;> simp

/-- The byte values with a nonzero count are those of the input. -/
theorem State.freqAt_scanned_ne_zero (s : State) (b : Byte) : s.scanned.freqAt b ≠ 0#32 ↔ b ∈ s.region .src := by
  rw [← List.count_pos_iff, ← s.freqAt_scanned b, Nat.pos_iff_ne_zero, ne_eq, ne_eq, ← BitVec.toNat_inj]
  simp

theorem State.distinctBytes_le (s : State) : s.distinctBytes ≤ 256 := by
  unfold State.distinctBytes
  exact Nat.le_trans (List.length_filter_le _ _) (by simp)

theorem State.nsym_scanned (s : State) : s.scanned.regs.nsym.toNat = s.scanned.distinctBytes := by
  have : s.scanned.regs.nsym = BitVec.ofNat 32 s.scanned.distinctBytes := rfl
  rw [this, BitVec.toNat_ofNat, Nat.mod_eq_of_lt (Nat.lt_of_le_of_lt (State.distinctBytes_le _) (by decide))]

end Sys2Proof.Machine
end

