-- ==== Sys2Proof/Laws/BitPacker.lean ====
section
/-! SUPPORT. PACK (rule R191): the bits it has written after every codeword, and how it ends. -/

namespace Sys2Proof.Machine

/-! ### Bits of a number -/

/-- The number whose binary digits are the bits, first bit first. -/
def bitsValue (l : List Bool) : Nat := l.foldl (fun v b => 2 * v + b.toNat) 0

@[simp] theorem bitsValue_nil : bitsValue [] = 0 := rfl

theorem bitsValue_concat (l : List Bool) (b : Bool) : bitsValue (l ++ [b]) = 2 * bitsValue l + b.toNat := by
  simp [bitsValue]

theorem bitsValue_lt (l : List Bool) : bitsValue l < 2 ^ l.length := by
  induction l using List.reverseRecOn with
  | nil => simp
  | append_singleton l b ih =>
    rw [bitsValue_concat, List.length_append, List.length_singleton, Nat.pow_succ]
    have : b.toNat ≤ 1 := Bool.toNat_le b
    omega

theorem testBit_bitsValue (l : List Bool) (k : Nat) (hk : k < l.length) :
    (bitsValue l).testBit (l.length - 1 - k) = l.getD k false := by
  induction l using List.reverseRecOn with
  | nil => simp at hk
  | append_singleton l b ih =>
    rw [bitsValue_concat]
    simp only [List.length_append, List.length_singleton] at hk ⊢
    by_cases h : k = l.length
    · subst h
      simp only [Nat.add_sub_cancel, Nat.sub_self, Nat.testBit_zero]
      cases b <;> simp [List.getD_eq_getElem?_getD]
    · have hk : k < l.length := by omega
      obtain ⟨d, hd⟩ : ∃ d, l.length + 1 - 1 - k = d + 1 := ⟨l.length - 1 - k, by omega⟩
      have h2 : (2 * bitsValue l + b.toNat) / 2 = bitsValue l := by
        have : b.toNat ≤ 1 := Bool.toNat_le b
        omega
      rw [hd, Nat.testBit_add_one, h2, show d = l.length - 1 - k by omega, ih hk]
      simp [List.getD_eq_getElem?_getD, List.getElem?_append_left hk]

/-! ### What PACK has written -/

/-- What holds when the bits so far have been packed: full bytes in `PAY`, the rest in the accumulator. -/
structure PackInv (s : State) (bits : List Bool) (c : PackCtx) : Prop where
  diff    : DiffersIn .pay s c.st
  q       : c.q = 1 + bits.length / 8
  nacc    : c.nacc = bits.length % 8
  acc     : c.acc = bitsValue (bits.drop (8 * (bits.length / 8)))
  written : ∀ k, k < 8 * (bits.length / 8) → c.st.payBit k = bits.getD k false
  other   : ∀ a, (a = 0 ∨ c.q ≤ a) → c.st.memRead .pay a = s.memRead .pay a
  fits    : c.q ≤ s.cap .pay

theorem packInv_start (s : State) (h : 1 ≤ s.cap .pay) : PackInv s [] ⟨s, 1, 0, 0⟩ :=
  ⟨DiffersIn.refl _ _, rfl, rfl, rfl, fun k hk => absurd hk (by simp), fun _ _ => rfl, h⟩

/-- A payload bit of a byte just written. -/
theorem payBit_memWrite (s : State) (q : Nat) (v : Byte) (k : Nat) (hq : 1 ≤ q) :
    (s.memWrite .pay q v).payBit k = if k / 8 = q - 1 then v.getLsbD (7 - k % 8) else s.payBit k := by
  unfold State.payBit
  rw [State.memRead_memWrite]
  by_cases h : k / 8 = q - 1
  · rw [if_pos ⟨rfl, by omega⟩, if_pos h]; rfl
  · rw [if_neg (by omega), if_neg h]

/-- One bit (rule R191). -/
theorem packBit_spec {s : State} {bits : List Bool} {c : PackCtx} (h : PackInv s bits c) (bit : Bool) :
    (1 + (bits.length + 1) / 8 ≤ s.cap .pay → ∃ d, packBit c bit = .done d ∧ PackInv s (bits ++ [bit]) d) ∧
    (s.cap .pay < 1 + (bits.length + 1) / 8 →
      ∃ v, packBit c bit = .raised .sinkUnavailable 1 v ∧ DiffersIn .pay s v) := by
  have hq := h.q
  have hn := h.nacc
  have hfits := h.fits
  have hl : (bits ++ [bit]).length = bits.length + 1 := by simp
  have hval : bitsValue (bits.drop (8 * (bits.length / 8)) ++ [bit]) = 2 * c.acc + bit.toNat := by
    rw [bitsValue_concat, h.acc]
  unfold packBit
  by_cases h8 : c.nacc + 1 = 8
  · rw [if_pos h8]
    have hd : (bits.length + 1) / 8 = bits.length / 8 + 1 := by omega
    have hm : (bits.length + 1) % 8 = 0 := by omega
    unfold packByte
    rw [h.diff.cap]
    by_cases hfit : c.q + 1 > s.cap .pay
    · rw [if_pos hfit]
      exact ⟨fun _ => by omega, fun _ => ⟨c.st, rfl, h.diff⟩⟩
    · rw [if_neg hfit]
      refine ⟨fun _ => ⟨_, rfl, ?_⟩, fun _ => by omega⟩
      have hdrop : (bits.drop (8 * (bits.length / 8)) ++ [bit]).length = 8 := by simp; omega
      refine ⟨h.diff.trans (differsIn_memWrite _ _ _ _), by show c.q + 1 = _; rw [hl, hd, hq]; omega,
        by rw [hl, hm], ?_,
        fun k hk => ?_, fun a ha => ?_, by show c.q + 1 ≤ _; omega⟩
      · rw [hl, hd, List.drop_eq_nil_of_le (by rw [hl]; omega)]; rfl
      · rw [hl, hd] at hk
        show (c.st.memWrite .pay c.q _).payBit k = _
        rw [payBit_memWrite _ _ _ _ (by omega)]
        by_cases hk8 : k / 8 = c.q - 1
        · rw [if_pos hk8, BitVec.getLsbD_ofNat, ← hval]
          have hpos : k - 8 * (bits.length / 8) < (bits.drop (8 * (bits.length / 8)) ++ [bit]).length := by omega
          have := testBit_bitsValue _ _ hpos
          rw [hdrop] at this
          rw [show 7 - k % 8 = 8 - 1 - (k - 8 * (bits.length / 8)) by omega, this]
          simp only [show 8 - 1 - (k - 8 * (bits.length / 8)) < 8 by omega, decide_true, Bool.true_and]
          rw [← List.drop_append_of_le_length (by omega)]
          simp only [List.getD_eq_getElem?_getD, List.getElem?_drop]
          rw [show 8 * (bits.length / 8) + (k - 8 * (bits.length / 8)) = k by omega]
        · rw [if_neg hk8, h.written k (by omega)]
          simp only [List.getD_eq_getElem?_getD]
          rw [List.getElem?_append_left (by omega)]
      · show (c.st.memWrite .pay c.q _).memRead .pay a = _
        rw [State.memRead_memWrite, if_neg (by have : c.q + 1 = _ := rfl; simp only at ha; omega)]
        exact h.other a (by simp only at ha; omega)
  · rw [if_neg h8]
    have hd : (bits.length + 1) / 8 = bits.length / 8 := by omega
    have hm : (bits.length + 1) % 8 = bits.length % 8 + 1 := by omega
    refine ⟨fun _ => ⟨_, rfl, ?_⟩, fun _ => by omega⟩
    refine ⟨h.diff, by rw [hl, hd]; exact hq, by rw [hl, hm, ← hn], ?_, fun k hk => ?_, h.other, hfits⟩
    · show 2 * c.acc + bit.toNat = _
      rw [hl, hd, List.drop_append_of_le_length (by omega), hval]
    · rw [hl, hd] at hk
      show c.st.payBit k = _
      rw [h.written k hk]
      simp only [List.getD_eq_getElem?_getD]
      rw [List.getElem?_append_left (by omega)]

/-- The bits of a codeword (rule R191). -/
theorem packBits_spec {s : State} (cw : List Bool) {bits : List Bool} {c : PackCtx} (h : PackInv s bits c) :
    (1 + (bits.length + cw.length) / 8 ≤ s.cap .pay → ∃ d, packBits cw c = .done d ∧ PackInv s (bits ++ cw) d) ∧
    (s.cap .pay < 1 + (bits.length + cw.length) / 8 →
      ∃ v, packBits cw c = .raised .sinkUnavailable 1 v ∧ DiffersIn .pay s v) := by
  induction cw generalizing bits c with
  | nil => exact ⟨fun _ => ⟨c, rfl, by simpa using h⟩, fun hc => absurd hc (by have := h.fits; have := h.q; simp; omega)⟩
  | cons bit rest ih =>
    obtain ⟨h1, h2⟩ := packBit_spec h bit
    have hl : (bit :: rest).length = rest.length + 1 := rfl
    rw [hl]
    by_cases hfit : 1 + (bits.length + 1) / 8 ≤ s.cap .pay
    · obtain ⟨d, hd, hinv⟩ := h1 hfit
      obtain ⟨h3, h4⟩ := ih hinv
      have hl2 : (bits ++ [bit]).length = bits.length + 1 := by simp
      rw [hl2] at h3 h4
      simp only [packBits, hd, andThen_done]
      refine ⟨fun hc => ?_, fun hc => h4 (by omega)⟩
      obtain ⟨e, he, hi⟩ := h3 (by omega)
      exact ⟨e, he, by simpa using hi⟩
    · obtain ⟨v, hv, hdv⟩ := h2 (by omega)
      simp only [packBits, hv, andThen_raised]
      refine ⟨fun hc => by omega, fun _ => ⟨v, rfl, hdv⟩⟩

/-- The codewords of `n` input bytes from offset `i`. -/
def bitsFrom (s : State) (i n : Nat) : List Bool := (List.range' i n).flatMap fun j => s.codeAt (s.memRead .src j)

theorem bitsFrom_succ (s : State) (i n : Nat) :
    bitsFrom s i (n + 1) = s.codeAt (s.memRead .src i) ++ bitsFrom s (i + 1) n := by
  simp [bitsFrom, List.range'_succ]

theorem inputBits_eq (s : State) (n : Nat) : s.inputBits n = bitsFrom s 0 n := by
  simp [State.inputBits, bitsFrom, List.range_eq_range']

/-- The `n` input bytes from offset `i`, all with a codeword (rule R191). -/
theorem packInput_spec {s : State} (n i : Nat) {bits : List Bool} {c : PackCtx} (h : PackInv s bits c)
    (hcoded : ∀ j, i ≤ j → j < i + n → s.codeAt (s.memRead .src j) ≠ []) :
    (1 + (bits.length + (bitsFrom s i n).length) / 8 ≤ s.cap .pay →
      ∃ d, packInput n i c = .done d ∧ PackInv s (bits ++ bitsFrom s i n) d) ∧
    (s.cap .pay < 1 + (bits.length + (bitsFrom s i n).length) / 8 →
      ∃ v, packInput n i c = .raised .sinkUnavailable 1 v ∧ DiffersIn .pay s v) := by
  induction n generalizing i bits c with
  | zero => exact ⟨fun _ => ⟨c, rfl, by simpa [bitsFrom] using h⟩,
      fun hc => absurd hc (by have := h.fits; have := h.q; simp [bitsFrom]; omega)⟩
  | succ n ih =>
    have hcw := hcoded i (Nat.le_refl i) (by omega)
    have he : c.st.codeAt (c.st.memRead .src i) = s.codeAt (s.memRead .src i) := by
      rw [h.diff.memRead (by decide), h.diff.codeAt]
    have hlen : (s.codeAt (s.memRead .src i)).length ≠ 0 := fun h0 => hcw (List.length_eq_zero_iff.1 h0)
    rw [bitsFrom_succ]
    simp only [packInput, he, hlen, if_false, List.length_append]
    obtain ⟨h1, h2⟩ := packBits_spec (s.codeAt (s.memRead .src i)) h
    by_cases hfit : 1 + (bits.length + (s.codeAt (s.memRead .src i)).length) / 8 ≤ s.cap .pay
    · obtain ⟨d, hd, hinv⟩ := h1 hfit
      obtain ⟨h3, h4⟩ := ih (i + 1) hinv fun j hj hj2 => hcoded j (by omega) (by omega)
      rw [List.length_append] at h3 h4
      simp only [hd, andThen_done]
      refine ⟨fun hc => ?_, fun hc => h4 (by omega)⟩
      obtain ⟨e, he, hi⟩ := h3 (by omega)
      exact ⟨e, he, by simpa using hi⟩
    · obtain ⟨v, hv, hdv⟩ := h2 (by omega)
      simp only [hv, andThen_raised]
      refine ⟨fun hc => by omega, fun _ => ⟨v, rfl, hdv⟩⟩

/-- The input bytes from offset `i`, the one at `i + m` the first without a codeword (rule R191). -/
theorem packInput_uncoded {s : State} (n m i : Nat) {bits : List Bool} {c : PackCtx} (h : PackInv s bits c) (hmn : m < n)
    (hcoded : ∀ j, i ≤ j → j < i + m → s.codeAt (s.memRead .src j) ≠ [])
    (hun : s.codeAt (s.memRead .src (i + m)) = [])
    (hfit : 1 + (bits.length + (bitsFrom s i m).length) / 8 ≤ s.cap .pay) :
    ∃ v, packInput n i c = .raised .symbolNotCoded (i + m) v ∧ DiffersIn .pay s v := by
  induction m generalizing n i bits c with
  | zero =>
    obtain ⟨k, rfl⟩ : ∃ k, n = k + 1 := ⟨n - 1, by omega⟩
    have he : c.st.codeAt (c.st.memRead .src i) = [] := by
      rw [h.diff.memRead (by decide), h.diff.codeAt]; simpa using hun
    exact ⟨c.st, by simp [packInput, he], h.diff⟩
  | succ m ih =>
    obtain ⟨k, rfl⟩ : ∃ k, n = k + 1 := ⟨n - 1, by omega⟩
    have hcw := hcoded i (Nat.le_refl i) (by omega)
    have he : c.st.codeAt (c.st.memRead .src i) = s.codeAt (s.memRead .src i) := by
      rw [h.diff.memRead (by decide), h.diff.codeAt]
    have hlen : (s.codeAt (s.memRead .src i)).length ≠ 0 := fun h0 => hcw (List.length_eq_zero_iff.1 h0)
    rw [bitsFrom_succ, List.length_append] at hfit
    simp only [packInput, he, hlen, if_false]
    obtain ⟨d, hd, hinv⟩ := (packBits_spec (s.codeAt (s.memRead .src i)) h).1 (by omega)
    simp only [hd, andThen_done]
    rw [show i + (m + 1) = i + 1 + m by omega] at hun ⊢
    exact ih k (i + 1) hinv (by omega) (fun j hj hj2 => hcoded j (by omega) (by omega)) hun
      (by rw [List.length_append]; omega)

/-- What PACK leaves (rules R100, R101, R191): the bits, zero bits after them, and the padding count. -/
structure Packed (s : State) (bits : List Bool) (t : State) : Prop where
  diff    : ∃ u, DiffersIn .pay s u ∧ t = u.setLen .pay (1 + (bits.length + 7) / 8)
  pad     : t.memRead .pay 0 = BitVec.ofNat 8 ((8 - bits.length % 8) % 8)
  payload : ∀ k, k < 8 * ((bits.length + 7) / 8) → t.payBit k = bits.getD k false
  beyond  : ∀ a, 1 + (bits.length + 7) / 8 ≤ a → t.memRead .pay a = s.memRead .pay a

/-- The end of PACK (rule R191). -/
theorem packFlush_spec {s : State} {bits : List Bool} {c : PackCtx} (h : PackInv s bits c) :
    (1 + (bits.length + 7) / 8 ≤ s.cap .pay → ∃ t, packFlush c = .done t ∧ Packed s bits t) ∧
    (s.cap .pay < 1 + (bits.length + 7) / 8 →
      ∃ v, packFlush c = .raised .sinkUnavailable 1 v ∧ DiffersIn .pay s v) := by
  have hq := h.q
  have hn := h.nacc
  have hfits := h.fits
  unfold packFlush
  by_cases h0 : c.nacc > 0
  · rw [if_pos h0]
    have hd : (bits.length + 7) / 8 = bits.length / 8 + 1 := by omega
    unfold packByte
    rw [h.diff.cap]
    by_cases hfit : c.q + 1 > s.cap .pay
    · rw [if_pos hfit]
      exact ⟨fun _ => by omega, fun _ => ⟨c.st, rfl, h.diff⟩⟩
    · rw [if_neg hfit]
      refine ⟨fun _ => ⟨_, rfl, ?_⟩, fun _ => by omega⟩
      have hdrop : (bits.drop (8 * (bits.length / 8))).length = c.nacc := by simp; omega
      refine ⟨⟨(c.st.memWrite .pay c.q (BitVec.ofNat 8 (c.acc * 2 ^ (8 - c.nacc)))).memWrite .pay 0
          (BitVec.ofNat 8 (8 - c.nacc)), (h.diff.trans (differsIn_memWrite _ _ _ _)).trans (differsIn_memWrite _ _ _ _),
          ?_⟩, ?_, fun k hk => ?_, fun a ha => ?_⟩
      · have hlen : c.q + 1 = 1 + (bits.length + 7) / 8 := by omega
        rw [← hlen]
      · rw [State.memRead_setLen, State.memRead_memWrite, if_pos ⟨rfl, rfl⟩, hn]; congr 1; omega
      · rw [hd] at hk
        have hbit : ∀ u : State, ∀ n, (u.setLen .pay n).payBit k = u.payBit k := fun u n => by
          unfold State.payBit; rw [State.memRead_setLen]
        have hbit0 : ∀ u : State, ∀ v, (u.memWrite .pay 0 v).payBit k = u.payBit k := fun u v => by
          unfold State.payBit; rw [State.memRead_memWrite, if_neg (by omega)]
        rw [hbit, hbit0, payBit_memWrite _ _ _ _ (by omega)]
        by_cases hk8 : k / 8 = c.q - 1
        · rw [if_pos hk8, BitVec.getLsbD_ofNat, ← Nat.shiftLeft_eq, Nat.testBit_shiftLeft]
          by_cases hin : k < bits.length
          · have hpos : k - 8 * (bits.length / 8) < (bits.drop (8 * (bits.length / 8))).length := by omega
            have := testBit_bitsValue _ _ hpos
            rw [hdrop, ← h.acc] at this
            rw [show 7 - k % 8 - (8 - c.nacc) = c.nacc - 1 - (k - 8 * (bits.length / 8)) by omega, this]
            simp only [show 7 - k % 8 < 8 by omega, show 7 - k % 8 ≥ 8 - c.nacc by omega, decide_true, Bool.true_and]
            simp only [List.getD_eq_getElem?_getD, List.getElem?_drop]
            rw [show 8 * (bits.length / 8) + (k - 8 * (bits.length / 8)) = k by omega]
          · rw [List.getD_eq_default _ _ (by omega)]
            simp only [show ¬ 7 - k % 8 ≥ 8 - c.nacc by omega, decide_false, Bool.false_and, Bool.and_false]
        · rw [if_neg hk8]; exact h.written k (by omega)
      · rw [hd] at ha
        rw [State.memRead_setLen, State.memRead_memWrite, if_neg (by omega), State.memRead_memWrite, if_neg (by omega)]
        exact h.other a (by omega)
  · rw [if_neg h0]
    have hd : (bits.length + 7) / 8 = bits.length / 8 := by omega
    refine ⟨fun _ => ⟨_, rfl, ?_⟩, fun _ => by omega⟩
    refine ⟨⟨_, h.diff.trans (differsIn_memWrite _ _ _ _), by rw [hd, hq]⟩, ?_, fun k hk => ?_, fun a ha => ?_⟩
    · rw [State.memRead_setLen, State.memRead_memWrite, if_pos ⟨rfl, rfl⟩]
      rw [show (8 - bits.length % 8) % 8 = 0 by omega]
    · rw [hd] at hk
      have : ((c.st.memWrite .pay 0 0#8).setLen .pay c.q).payBit k = c.st.payBit k := by
        unfold State.payBit; rw [State.memRead_setLen, State.memRead_memWrite, if_neg (by omega)]
      rw [this]; exact h.written k hk
    · rw [hd] at ha
      rw [State.memRead_setLen, State.memRead_memWrite, if_neg (by omega)]
      exact h.other a (by omega)

/-- Everything PACK's body does when the input fits `SRC` and every input byte has a codeword (rule R191). -/
theorem packBody_spec (s : State) (hsrc : s.len .src ≤ s.cap .src)
    (hcoded : ∀ j, j < s.len .src → s.codeAt (s.memRead .src j) ≠ []) :
    (1 + ((s.inputBits (s.len .src)).length + 7) / 8 ≤ s.cap .pay →
      ∃ t, packBody s = .done t ∧ Packed s (s.inputBits (s.len .src)) t) ∧
    (s.cap .pay < 1 + ((s.inputBits (s.len .src)).length + 7) / 8 →
      ∃ v, packBody s = .raised .sinkUnavailable 1 v ∧ DiffersIn .pay s v) := by
  unfold packBody
  rw [if_neg (by omega), inputBits_eq]
  by_cases h1 : 1 > s.cap .pay
  · rw [if_pos h1]
    exact ⟨fun h => by omega, fun _ => ⟨s, rfl, DiffersIn.refl _ _⟩⟩
  · rw [if_neg h1]
    obtain ⟨h2, h3⟩ := packInput_spec (s.len .src) 0 (packInv_start s (by omega)) fun j _ hj => hcoded j (by omega)
    simp only [List.length_nil, Nat.zero_add, List.nil_append] at h2 h3
    by_cases hfit : 1 + (bitsFrom s 0 (s.len .src)).length / 8 ≤ s.cap .pay
    · obtain ⟨d, hd, hinv⟩ := h2 hfit
      rw [hd, andThen_done]
      exact packFlush_spec hinv
    · obtain ⟨v, hv, hdv⟩ := h3 (by omega)
      rw [hv, andThen_raised]
      exact ⟨fun h => by omega, fun _ => ⟨v, rfl, hdv⟩⟩

/-- The input in two parts. -/
theorem packInput_add (n m i : Nat) (c : PackCtx) :
    packInput (n + m) i c = (packInput n i c).andThen (packInput m (i + n)) := by
  induction n generalizing i c with
  | zero => simp [packInput]
  | succ n ih =>
    rw [Nat.succ_add]
    simp only [packInput]
    split
    · rfl
    · rw [andThen_assoc]
      congr 1
      funext d
      rw [ih, show i + 1 + n = i + (n + 1) by omega]

/-- PACK ends with a full `PAY` when the whole bytes of some coded first input bytes outgrow it, whatever stands after
them (rule R191). -/
theorem packBody_outgrown (s : State) (hsrc : s.len .src ≤ s.cap .src) {i : Nat} (hi : i ≤ s.len .src)
    (hcoded : ∀ j, j < i → s.codeAt (s.memRead .src j) ≠ []) (hfull : s.cap .pay < 1 + (s.inputBits i).length / 8) :
    ∃ v, packBody s = .raised .sinkUnavailable 1 v ∧ DiffersIn .pay s v := by
  unfold packBody
  rw [if_neg (by omega)]
  by_cases h1 : 1 > s.cap .pay
  · rw [if_pos h1]; exact ⟨s, rfl, DiffersIn.refl _ _⟩
  · rw [if_neg h1]
    rw [inputBits_eq] at hfull
    obtain ⟨v, hv, hd⟩ := (packInput_spec i 0 (packInv_start s (by omega)) fun j _ hj => hcoded j (by omega)).2
      (by simpa using hfull)
    rw [show s.len .src = i + (s.len .src - i) by omega, packInput_add, hv]
    exact ⟨v, rfl, hd⟩

/-! ### What PACK can do in any state -/

/-- A run that keeps to `PAY`: whatever it ends in differs from `s` in the bytes of `PAY` alone, and it raises only what
PACK may raise. -/
def KeepsToPay (s : State) {α : Type} (st : α → State) (r : Run α) : Prop :=
  (∀ d, r = .done d → DiffersIn .pay s (st d)) ∧
  ∀ x info u, r = .raised x info u → DiffersIn .pay s u ∧
    ((x = .sourceUnavailable ∧ info = 0) ∨ (x = .sinkUnavailable ∧ info = 1) ∨ x = .symbolNotCoded)

theorem keepsToPay_done {s : State} {α : Type} {st : α → State} {d : α} (h : DiffersIn .pay s (st d)) :
    KeepsToPay s st (.done d) := ⟨fun e he => by cases he; exact h, fun x info u h => by cases h⟩

theorem keepsToPay_raised {s : State} {α : Type} {st : α → State} {x : HwFault} {info : Nat} {u : State}
    (h : DiffersIn .pay s u)
    (hx : (x = .sourceUnavailable ∧ info = 0) ∨ (x = .sinkUnavailable ∧ info = 1) ∨ x = .symbolNotCoded) :
    KeepsToPay s st (.raised x info u) := ⟨fun e he => (by cases he), fun y j v hv => by cases hv; exact ⟨h, hx⟩⟩

theorem KeepsToPay.andThen {s : State} {α β : Type} {st : α → State} {st2 : β → State} {r : Run α} {f : α → Run β}
    (h : KeepsToPay s st r) (hf : ∀ d, DiffersIn .pay s (st d) → KeepsToPay s st2 (f d)) :
    KeepsToPay s st2 (r.andThen f) := by
  cases r with
  | done d => exact hf d (h.1 d rfl)
  | raised x info u => obtain ⟨h1, h2⟩ := h.2 x info u rfl; exact keepsToPay_raised h1 h2

theorem keepsToPay_packByte {s : State} {c : PackCtx} (h : DiffersIn .pay s c.st) (v : Nat) :
    KeepsToPay s PackCtx.st (packByte c v) := by
  unfold packByte
  split
  · exact keepsToPay_raised h (.inr (.inl ⟨rfl, rfl⟩))
  · exact keepsToPay_done (h.trans (differsIn_memWrite _ _ _ _))

theorem keepsToPay_packBits {s : State} (cw : List Bool) {c : PackCtx} (h : DiffersIn .pay s c.st) :
    KeepsToPay s PackCtx.st (packBits cw c) := by
  induction cw generalizing c with
  | nil => exact keepsToPay_done h
  | cons b rest ih =>
    refine KeepsToPay.andThen (st := PackCtx.st) ?_ fun d hd => ih hd
    unfold packBit
    split
    · exact keepsToPay_packByte h _
    · exact keepsToPay_done h

theorem keepsToPay_packInput {s : State} (n i : Nat) {c : PackCtx} (h : DiffersIn .pay s c.st) :
    KeepsToPay s PackCtx.st (packInput n i c) := by
  induction n generalizing i c with
  | zero => exact keepsToPay_done h
  | succ n ih =>
    unfold packInput
    simp only
    split
    · exact keepsToPay_raised h (.inr (.inr rfl))
    · exact (keepsToPay_packBits _ h).andThen fun d hd => ih (i + 1) hd

/-- What PACK's body can do to the state. -/
theorem packBody_frame (s : State) :
    (∀ t, packBody s = .done t → ∃ u n, DiffersIn .pay s u ∧ t = u.setLen .pay n) ∧
    ∀ x info u, packBody s = .raised x info u → DiffersIn .pay s u ∧
      ((x = .sourceUnavailable ∧ info = 0) ∨ (x = .sinkUnavailable ∧ info = 1) ∨ x = .symbolNotCoded) := by
  unfold packBody
  split
  · exact ⟨fun t h => (by cases h), fun x info u h => by cases h; exact ⟨DiffersIn.refl _ _, .inl ⟨rfl, rfl⟩⟩⟩
  split
  · exact ⟨fun t h => (by cases h), fun x info u h => by
      cases h; exact ⟨DiffersIn.refl _ _, .inr (.inl ⟨rfl, rfl⟩)⟩⟩
  have hin := keepsToPay_packInput (s := s) (s.len .src) 0 (c := ⟨s, 1, 0, 0⟩) (DiffersIn.refl _ _)
  cases hp : packInput (s.len .src) 0 ⟨s, 1, 0, 0⟩ with
  | raised x info u =>
    rw [andThen_raised]
    exact ⟨fun t h => (by cases h), fun y j v h => by cases h; exact hin.2 x info u hp⟩
  | done c =>
    rw [andThen_done]
    have hc := hin.1 c hp
    unfold packFlush
    split
    · have hb := keepsToPay_packByte hc (c.acc * 2 ^ (8 - c.nacc))
      cases hq : packByte c (c.acc * 2 ^ (8 - c.nacc)) with
      | raised x info u =>
        rw [andThen_raised]
        exact ⟨fun t h => (by cases h), fun y j v h => by cases h; exact hb.2 x info u hq⟩
      | done d =>
        rw [andThen_done]
        exact ⟨fun t h => (by cases h; exact ⟨_, _, (hb.1 d hq).trans (differsIn_memWrite _ _ _ _), rfl⟩),
          fun x info u h => by cases h⟩
    · exact ⟨fun t h => (by cases h; exact ⟨_, _, hc.trans (differsIn_memWrite _ _ _ _), rfl⟩),
        fun x info u h => by cases h⟩

end Sys2Proof.Machine
end

