-- ==== Sys2Proof/Laws/BitUnpacker.lean ====
section
/-! SUPPORT. UNPACK (rule R201): the walk over part of a codeword, over a codeword, and over a sequence of codewords. -/

namespace Sys2Proof.Machine

/-- The loop over `n + m` bits is the loop over `n` and then over `m`. -/
theorem unpackLoop_add (n m k : Nat) (c : UnpackCtx) :
    unpackLoop (n + m) k c = (unpackLoop n k c).andThen (unpackLoop m (k + n)) := by
  induction n generalizing k c with
  | zero => simp [unpackLoop]
  | succ n ih =>
    rw [show n + 1 + m = (n + m) + 1 by omega]
    simp only [unpackLoop, andThen_assoc]
    congr 1
    funext d
    rw [ih, show k + 1 + n = k + (n + 1) by omega]

/-- No leaf of the trie has a child (rule R44). -/
def LeavesEnd (s : State) : Prop := ∀ i, (s.trieAt i).kind = .leaf → (s.trieAt i).low = none ∧ (s.trieAt i).high = none

theorem LeavesEnd.trieChild {s : State} (h : LeavesEnd s) {i : Nat} (hi : (s.trieAt i).kind = .leaf) (bit : Bool) :
    trieChild (s.trieAt i) bit = none := by
  obtain ⟨h1, h2⟩ := h i hi
  cases bit <;> simp [Machine.trieChild, h1, h2]

/-- A trie of DDES has it. -/
theorem leavesEnd_of_trieOk {s : State} (h : s.TrieOk) : LeavesEnd s := by
  obtain ⟨t, ht, -, ⟨h1, h2, -, -⟩, -⟩ := h
  intro i hi
  simp only [State.trieAt, ht] at hi ⊢
  by_cases hn : i < s.regs.trieNodes.toNat
  · have := h1 i hn
    unfold TrieRecOk at this
    rw [hi] at this
    exact this
  · rw [h2 i (by omega)] at hi; cases hi

theorem DiffersIn.trieWalk {sp : Space} {s t : State} (h : DiffersIn sp s t) (cur : Nat) (p : List Bool) :
    t.trieWalk cur p = s.trieWalk cur p := by
  induction p generalizing cur with
  | nil => rfl
  | cons b rest ih =>
    unfold State.trieWalk
    rw [h.trieAt]
    split <;> simp_all

theorem DiffersIn.payBit {s t : State} (h : DiffersIn .dst s t) (k : Nat) : t.payBit k = s.payBit k := by
  unfold State.payBit; rw [h.memRead (by decide)]

/-- A walk that ends above a leaf moves the node pointer and emits nothing. -/
theorem unpackLoop_part {s : State} (hs : LeavesEnd s) (part : List Bool) (k : Nat) (c : UnpackCtx) (n : Nat)
    (hd : DiffersIn .dst s c.st) (hbits : ∀ j (h : j < part.length), s.payBit (k + j) = part[j])
    (hw : s.trieWalk c.cur part = some n) (hn : (s.trieAt n).kind ≠ .leaf) :
    unpackLoop part.length k c = .done { c with cur := n } := by
  induction part generalizing k c with
  | nil =>
    have : c.cur = n := by simpa [State.trieWalk] using hw
    simp [unpackLoop, ← this]
  | cons b rest ih =>
    unfold State.trieWalk at hw
    cases hc : trieChild (s.trieAt c.cur) b with
    | none => simp [hc] at hw
    | some nxt =>
      simp only [hc] at hw
      have hleaf : (s.trieAt nxt).kind ≠ .leaf := by
        cases rest with
        | nil =>
          have : nxt = n := by simpa [State.trieWalk] using hw
          rw [this]; exact hn
        | cons b2 r2 =>
          intro hl
          unfold State.trieWalk at hw
          rw [hs.trieChild hl] at hw
          cases hw
      have h0 : s.payBit k = b := hbits 0 (by simp)
      have hstep : unpackBit c k = .done { c with cur := nxt } := by
        simp [unpackBit, hd.trieAt, hd.payBit, h0, hc, hleaf]
      rw [List.length_cons, unpackLoop, hstep, andThen_done]
      exact ih (k + 1) { c with cur := nxt } hd (fun j hj => by
        have := hbits (j + 1) (by simpa using hj)
        rw [show k + 1 + j = k + (j + 1) by omega, this]; rfl) hw

/-- What holds when UNPACK has emitted the bytes `out` and stands at the root. -/
structure UnpackInv (s : State) (out : List Byte) (c : UnpackCtx) : Prop where
  diff  : DiffersIn .dst s c.st
  cur   : c.cur = 0
  m     : c.m = out.length
  bytes : ∀ j (h : j < out.length), c.st.memRead .dst j = out[j]
  other : ∀ a, out.length ≤ a → c.st.memRead .dst a = s.memRead .dst a
  fits  : out.length ≤ s.cap .dst

theorem unpackInv_start (s : State) : UnpackInv s [] ⟨s, 0, 0⟩ :=
  ⟨DiffersIn.refl _ _, rfl, rfl, fun _ h => absurd h (by simp), fun _ _ => rfl, Nat.zero_le _⟩

/-- One codeword (rule R201): its byte is emitted, or there is no room for it. -/
theorem unpackLoop_codeword {s : State} (hs : LeavesEnd s) (cw : List Bool) (v : Byte) (hne : cw ≠ [])
    (hr : s.TrieRoutes cw v) (k : Nat) {out : List Byte} {c : UnpackCtx} (h : UnpackInv s out c)
    (hbits : ∀ j (h : j < cw.length), s.payBit (k + j) = cw[j]) :
    (out.length < s.cap .dst → ∃ d, unpackLoop cw.length k c = .done d ∧ UnpackInv s (out ++ [v]) d) ∧
    (s.cap .dst ≤ out.length → ∃ u, unpackLoop cw.length k c = .raised .sinkUnavailable 3 u ∧ DiffersIn .dst s u) := by
  obtain ⟨i, hw, hk, hv⟩ := hr
  obtain ⟨part, bit, rfl⟩ : ∃ part bit, cw = part ++ [bit] :=
    ⟨cw.dropLast, cw.getLast hne, (List.dropLast_append_getLast hne).symm⟩
  -- the node above the leaf
  have hsplit : ∀ (p : List Bool) (cur : Nat), s.trieWalk cur (p ++ [bit]) = some i →
      ∃ n, s.trieWalk cur p = some n ∧ trieChild (s.trieAt n) bit = some i := by
    intro p
    induction p with
    | nil =>
      intro cur hc
      refine ⟨cur, rfl, ?_⟩
      simp only [List.nil_append, State.trieWalk] at hc
      cases ht : trieChild (s.trieAt cur) bit with
      | none => simp [ht] at hc
      | some x => simpa [ht] using hc
    | cons b r ih =>
      intro cur hc
      simp only [List.cons_append, State.trieWalk] at hc ⊢
      cases ht : trieChild (s.trieAt cur) b with
      | none => simp [ht] at hc
      | some x => simp only [ht] at hc ⊢; exact ih x hc
  obtain ⟨n, hwn, hcn⟩ := hsplit part 0 hw
  have hnl : (s.trieAt n).kind ≠ .leaf := fun hl => by rw [hs.trieChild hl] at hcn; cases hcn
  have hpart := unpackLoop_part hs part k c n h.diff (fun j hj => by
    have := hbits j (by simp; omega)
    rw [this, List.getElem_append_left hj]) (by rw [h.cur]; exact hwn) hnl
  have hlast : s.payBit (k + part.length) = bit := by
    have := hbits part.length (by simp)
    simpa using this
  have hloop : unpackLoop (part ++ [bit]).length k c = unpackEmit { c with cur := n } v := by
    rw [List.length_append, unpackLoop_add, hpart, andThen_done]
    have hb : unpackBit { c with cur := n } (k + part.length) = unpackEmit { c with cur := n } v := by
      simp [unpackBit, h.diff.trieAt, h.diff.payBit, hlast, hcn, hk, hv]
    simp only [List.length_singleton, unpackLoop, hb]
    cases unpackEmit { c with cur := n } v <;> rfl
  rw [hloop]
  unfold unpackEmit
  simp only [h.diff.cap, h.m]
  constructor
  · intro hfit
    rw [if_neg (by omega)]
    refine ⟨_, rfl, h.diff.trans (differsIn_memWrite _ _ _ _), rfl, by simp, fun j hj => ?_, fun a ha => ?_, by simp; omega⟩
    · rw [State.memRead_memWrite]
      by_cases he : j = out.length
      · subst he; simp
      · have hj2 : j < out.length := by simp at hj; omega
        rw [if_neg (by omega), h.bytes j hj2, List.getElem_append_left hj2]
    · rw [List.length_append, List.length_singleton] at ha
      rw [State.memRead_memWrite, if_neg (by omega)]
      exact h.other a (by omega)
  · intro hfull
    rw [if_pos (by omega)]
    exact ⟨c.st, rfl, h.diff⟩

/-- A sequence of codewords from payload bit `k` (rule R201). -/
theorem unpackLoop_codewords {s : State} (hs : LeavesEnd s) (ms : Entries) (hne : ∀ e ∈ ms, e.2 ≠ [])
    (hr : ∀ e ∈ ms, s.TrieRoutes e.2 e.1) (k : Nat) {out : List Byte} {c : UnpackCtx} (h : UnpackInv s out c)
    (hbits : ∀ j (h : j < (ms.flatMap Prod.snd).length), s.payBit (k + j) = (ms.flatMap Prod.snd)[j]) :
    (out.length + ms.length ≤ s.cap .dst →
      ∃ d, unpackLoop (ms.flatMap Prod.snd).length k c = .done d ∧ UnpackInv s (out ++ ms.map Prod.fst) d) ∧
    (s.cap .dst < out.length + ms.length →
      ∃ u, unpackLoop (ms.flatMap Prod.snd).length k c = .raised .sinkUnavailable 3 u ∧ DiffersIn .dst s u) := by
  induction ms generalizing k out c with
  | nil => exact ⟨fun _ => ⟨c, rfl, by simpa using h⟩, fun hc => absurd hc (by have := h.fits; simp; omega)⟩
  | cons e rest ih =>
    have hlen : ((e :: rest).flatMap Prod.snd).length = e.2.length + (rest.flatMap Prod.snd).length := by simp
    obtain ⟨h1, h2⟩ := unpackLoop_codeword hs e.2 e.1 (hne e (by simp)) (hr e (by simp)) k h fun j hj => by
      have := hbits j (by rw [hlen]; omega)
      rw [this]
      simp only [List.flatMap_cons]
      rw [List.getElem_append_left hj]
    rw [hlen, unpackLoop_add]
    by_cases hroom : out.length < s.cap .dst
    · obtain ⟨d, hd, hinv⟩ := h1 hroom
      rw [hd, andThen_done]
      obtain ⟨h3, h4⟩ := ih (fun e he => hne e (List.mem_cons_of_mem _ he)) (fun e he => hr e (List.mem_cons_of_mem _ he))
        (k + e.2.length) hinv fun j hj => by
          have := hbits (e.2.length + j) (by rw [hlen]; omega)
          rw [Nat.add_assoc, this]
          simp only [List.flatMap_cons]
          rw [List.getElem_append_right (by omega)]
          simp
      simp only [List.length_append, List.length_cons, List.length_nil] at h3 h4 ⊢
      refine ⟨fun hc => ?_, fun hc => h4 (by omega)⟩
      obtain ⟨f, hf, hi⟩ := h3 (by omega)
      exact ⟨f, hf, by simpa using hi⟩
    · obtain ⟨u, hu, hdu⟩ := h2 (by omega)
      rw [hu, andThen_raised]
      simp only [List.length_cons]
      exact ⟨fun hc => by omega, fun _ => ⟨u, rfl, hdu⟩⟩

/-- A fault in the loop's first bits is a fault of the loop. -/
theorem unpackLoop_raised {n k : Nat} {c : UnpackCtx} {x : HwFault} {info : Nat} {u : State}
    (h : unpackLoop n k c = .raised x info u) {m : Nat} (hm : n ≤ m) : unpackLoop m k c = .raised x info u := by
  obtain ⟨d, rfl⟩ : ∃ d, m = n + d := ⟨m - n, by omega⟩
  rw [unpackLoop_add, h, andThen_raised]

/-- What the body's loop can do to the state: other bytes of `DST`, whether it ends or raises. -/
theorem unpackLoop_frame {s : State} (n k : Nat) {c : UnpackCtx} (h : DiffersIn .dst s c.st) :
    (∀ d, unpackLoop n k c = .done d → DiffersIn .dst s d.st) ∧
    ∀ x info u, unpackLoop n k c = .raised x info u →
      DiffersIn .dst s u ∧ (x = .noBranch ∨ (x = .sinkUnavailable ∧ info = 3)) := by
  induction n generalizing k c with
  | zero =>
    refine ⟨fun d hd => ?_, fun x info u hr => by cases hr⟩
    have : c = d := by simpa [unpackLoop] using hd
    rw [← this]; exact h
  | succ n ih =>
    simp only [unpackLoop]
    cases hb : unpackBit c k with
    | done d =>
      rw [andThen_done]
      refine ih (k + 1) ?_
      unfold unpackBit at hb
      split at hb
      · cases hb
      · split at hb
        · unfold unpackEmit at hb
          split at hb
          · cases hb
          · cases hb; exact h.trans (differsIn_memWrite _ _ _ _)
        · cases hb; exact h
    | raised x info u =>
      rw [andThen_raised]
      refine ⟨fun d hd => (by cases hd), fun y j v hv => ?_⟩
      obtain ⟨rfl, rfl, rfl⟩ : x = y ∧ info = j ∧ u = v := by simpa using hv
      unfold unpackBit at hb
      split at hb
      · cases hb; exact ⟨h, .inl rfl⟩
      · split at hb
        · unfold unpackEmit at hb
          split at hb
          · cases hb; exact ⟨h, .inr ⟨rfl, rfl⟩⟩
          · cases hb
        · cases hb

/-- What UNPACK's body can do to the state. -/
theorem unpackBody_frame (s : State) :
    (∀ t, unpackBody s = .done t → ∃ u n, DiffersIn .dst s u ∧ t = u.setLen .dst n) ∧
    ∀ x info u, unpackBody s = .raised x info u → DiffersIn .dst s u ∧
      ((x = .sourceUnavailable ∧ info = 1) ∨ x = .badPadding ∨ x = .noBranch ∨ (x = .sinkUnavailable ∧ info = 3) ∨
        x = .incompleteCodeword) := by
  unfold unpackBody
  split
  · exact ⟨fun t h => (by cases h), fun x info u h => by cases h; exact ⟨DiffersIn.refl _ _, .inl ⟨rfl, rfl⟩⟩⟩
  split
  · exact ⟨fun t h => (by cases h; exact ⟨s, 0, DiffersIn.refl _ _, rfl⟩), fun x info u h => by cases h⟩
  split
  · exact ⟨fun t h => (by cases h; exact ⟨s, 0, DiffersIn.refl _ _, rfl⟩), fun x info u h => by cases h⟩
  simp only
  split
  · exact ⟨fun t h => (by cases h), fun x info u h => by cases h; exact ⟨DiffersIn.refl _ _, .inr (.inl rfl)⟩⟩
  obtain ⟨h1, h2⟩ := unpackLoop_frame (8 * (s.len .pay - 1) - (s.memRead .pay 0).toNat) 0
    (c := ⟨s, 0, 0⟩) (DiffersIn.refl .dst s)
  cases hl : unpackLoop (8 * (s.len .pay - 1) - (s.memRead .pay 0).toNat) 0 ⟨s, 0, 0⟩ with
  | done d =>
    rw [andThen_done]
    split
    · exact ⟨fun t h => (by cases h), fun x info u h => by
        cases h; exact ⟨h1 d hl, .inr (.inr (.inr (.inr rfl)))⟩⟩
    · exact ⟨fun t h => (by cases h; exact ⟨d.st, d.m, h1 d hl, rfl⟩), fun x info u h => by cases h⟩
  | raised x info u =>
    rw [andThen_raised]
    refine ⟨fun t h => (by cases h), fun y j v h => ?_⟩
    obtain ⟨rfl, rfl, rfl⟩ : x = y ∧ info = j ∧ u = v := by simpa using h
    obtain ⟨h3, h4⟩ := h2 x info u hl
    exact ⟨h3, by rcases h4 with h4 | h4 <;> simp [h4]⟩

end Sys2Proof.Machine
end

