-- ==== Sys2Proof/Laws/Queue.lean ====
section
/-! SUPPORT. The order of the keys and the priority queue (rules R131 to R134). -/

namespace Sys2Proof.Machine

theorem keyLess_iff (x y : PqKey) :
    keyLess x y = true ↔ x.freq.toNat < y.freq.toNat ∨ (x.freq.toNat = y.freq.toNat ∧ x.index < y.index) := by
  simp [keyLess]

theorem keyLess_irrefl (x : PqKey) : keyLess x x = false := by simp [keyLess]

theorem keyLess_trans {x y z : PqKey} (h : keyLess x y = true) (k : keyLess y z = true) : keyLess x z = true := by
  rw [keyLess_iff] at *; omega

theorem keyLess_total {x y : PqKey} (h : x ≠ y) : keyLess x y = true ∨ keyLess y x = true := by
  rw [keyLess_iff, keyLess_iff]
  by_contra hc
  refine h ?_
  obtain ⟨xf, xi⟩ := x; obtain ⟨yf, yi⟩ := y
  have h1 : xf = yf := BitVec.eq_of_toNat_eq (by simp only at hc; omega)
  have h2 : xi = yi := by
    rcases Nat.lt_trichotomy xi yi with h | h | h
    · exact absurd (.inl (.inr ⟨by rw [h1], h⟩)) hc
    · exact h
    · exact absurd (.inr (.inr ⟨by rw [h1], h⟩)) hc
  rw [h1, h2]

theorem keyLess_of_not {x y : PqKey} (hne : x ≠ y) (h : ¬ keyLess x y = true) : keyLess y x = true :=
  (keyLess_total hne).resolve_left h

/-- The keys of a queue rise strictly. -/
abbrev Rising (q : List PqKey) : Prop := q.Pairwise fun x y => keyLess x y = true

theorem pqInsert_perm (x : PqKey) (q : List PqKey) : (pqInsert x q).Perm (x :: q) := by
  induction q with
  | nil => exact .refl _
  | cons y rest ih =>
    unfold pqInsert
    split
    · exact .refl _
    · exact (List.Perm.cons y ih).trans (.swap x y rest)

@[simp] theorem length_pqInsert (x : PqKey) (q : List PqKey) : (pqInsert x q).length = q.length + 1 := by
  simpa using (pqInsert_perm x q).length_eq

@[simp] theorem mem_pqInsert {x y : PqKey} {q : List PqKey} : y ∈ pqInsert x q ↔ y = x ∨ y ∈ q := by
  simpa using (pqInsert_perm x q).mem_iff (a := y)

/-- A key not yet in the queue enters it at its place. -/
theorem rising_pqInsert {x : PqKey} {q : List PqKey} (hx : x ∉ q) (h : Rising q) : Rising (pqInsert x q) := by
  induction q with
  | nil => simp [Rising, pqInsert]
  | cons y rest ih =>
    rw [Rising, List.pairwise_cons] at h
    unfold pqInsert
    split
    · next hlt =>
      refine List.pairwise_cons.2 ⟨fun z hz => ?_, List.pairwise_cons.2 h⟩
      rcases List.mem_cons.1 hz with rfl | hz
      · exact hlt
      · exact keyLess_trans hlt (h.1 z hz)
    · next hlt =>
      refine List.pairwise_cons.2 ⟨fun z hz => ?_, ih (fun hm => hx (List.mem_cons_of_mem _ hm)) h.2⟩
      rcases mem_pqInsert.1 hz with rfl | hz
      · exact keyLess_of_not (fun he => hx (by simp [he])) hlt
      · exact h.1 z hz

/-- Two rising queues with the same keys are the same list. -/
theorem rising_ext {p q : List PqKey} (hp : Rising p) (hq : Rising q) (h : p.Perm q) : p = q :=
  h.eq_of_pairwise (fun x y _ _ hxy hyx => absurd (keyLess_trans hxy hyx) (by simp [keyLess_irrefl])) hp hq

/-- The queue of distinct keys: rising, and a permutation of them. -/
theorem foldr_pqInsert {keys : List PqKey} (h : keys.Nodup) :
    Rising (keys.foldr pqInsert []) ∧ (keys.foldr pqInsert []).Perm keys := by
  induction keys with
  | nil => exact ⟨List.Pairwise.nil, .refl _⟩
  | cons x rest ih =>
    obtain ⟨hx, hn⟩ := List.nodup_cons.1 h
    obtain ⟨h1, h2⟩ := ih hn
    exact ⟨rising_pqInsert (fun hm => hx (h2.mem_iff.1 hm)) h1, (pqInsert_perm _ _).trans (.cons _ h2)⟩

/-- The least key of a rising queue, and the rest. -/
theorem pqExtractMin_spec {q rest : List PqKey} {x : PqKey} (h : Rising q) (he : pqExtractMin q = some (x, rest)) :
    q = x :: rest ∧ (∀ y ∈ rest, keyLess x y = true) ∧ Rising rest := by
  cases q with
  | nil => cases he
  | cons y r =>
    obtain ⟨rfl, rfl⟩ : y = x ∧ r = rest := by simpa [pqExtractMin] using he
    exact ⟨rfl, List.pairwise_cons.1 h⟩

end Sys2Proof.Machine
end

