-- ==== Sys2Proof/Laws/TreeBuilder.lean ====
section
/-! SUPPORT. BUILD (rules R135 to R139): what the leaves' loop leaves, what one merge does, and how the three cases end. -/

namespace Sys2Proof.Machine

/-! ### The leaves -/

/-- The key of a byte value's leaf. -/
def leafKey (s : State) (b : Byte) : PqKey := ⟨s.freqAt b, b.toNat⟩

/-- The byte values with a nonzero count, in rising order. -/
def counted (s : State) : List Byte := allBytes.filter fun b => s.freqAt b != 0#32

theorem length_counted (s : State) : (counted s).length = s.distinctBytes := rfl

theorem mem_counted {s : State} {b : Byte} : b ∈ counted s ↔ s.freqAt b ≠ 0#32 := by
  simp [counted, mem_allBytes]

theorem leafRec_ne_absent (b : Byte) (f : Word) : leafRec b f ≠ absentRec := by
  intro h; have := congrArg TreeRec.kind h; simp [leafRec, absentRec] at this

theorem internalRec_ne_absent (f : Word) (l h : Nat) : internalRec f l h ≠ absentRec := by
  intro e; have := congrArg TreeRec.kind e; simp [internalRec, absentRec] at this

/-- The leaves' loop over a list of distinct byte values that the queue does not hold yet. -/
theorem foldl_addLeaf (s : State) (bs : List Byte) (c : BuildCtx) (hb : bs.Nodup) (hw : TableOk absentRec Config.treeN c.tree)
    (hr : Rising c.pq) (hd : ∀ b ∈ bs, leafKey s b ∉ c.pq) :
    let d := bs.foldl (addLeaf s) c
    TableOk absentRec Config.treeN d.tree ∧ Rising d.pq ∧ d.made = c.made ∧
    d.pq.Perm ((bs.filter fun b => s.freqAt b != 0#32).map (leafKey s) ++ c.pq) ∧
    (∀ b : Byte, entryAt absentRec d.tree b.toNat =
      if b ∈ bs ∧ s.freqAt b ≠ 0#32 then leafRec b (s.freqAt b) else entryAt absentRec c.tree b.toNat) ∧
    ∀ i, 256 ≤ i → entryAt absentRec d.tree i = entryAt absentRec c.tree i := by
  induction bs generalizing c with
  | nil => exact ⟨hw, hr, rfl, .refl _, by simp, fun _ _ => rfl⟩
  | cons x rest ih =>
    obtain ⟨hx, hn⟩ := List.nodup_cons.1 hb
    simp only [List.foldl_cons]
    by_cases hf : s.freqAt x = 0#32
    · have he : addLeaf s c x = c := by simp [addLeaf, hf]
      rw [he]
      obtain ⟨h1, h2, h3, h4, h5, h6⟩ := ih c hn hw hr fun b hm => hd b (List.mem_cons_of_mem _ hm)
      refine ⟨h1, h2, h3, by simpa [hf] using h4, fun b => ?_, h6⟩
      rw [h5]
      by_cases hbx : b = x
      · subst hbx; simp [hf]
      · simp [hbx]
    · have he : addLeaf s c x =
          { c with tree := writeTree c.tree x.toNat (leafRec x (s.freqAt x)), pq := pqInsert (leafKey s x) c.pq } := by
        simp [addLeaf, hf, leafKey]
      rw [he]
      have hxlt : x.toNat < Config.treeN := Nat.lt_trans x.isLt (by decide)
      obtain ⟨h1, h2, h3, h4, h5, h6⟩ :=
        ih { c with tree := writeTree c.tree x.toNat (leafRec x (s.freqAt x)), pq := pqInsert (leafKey s x) c.pq } hn
          (tableOk_setEntry hw hxlt (leafRec x (s.freqAt x))) (rising_pqInsert (hd x (by simp)) hr) fun b hm hin => by
            rcases mem_pqInsert.1 hin with h | h
            · have : b = x := BitVec.eq_of_toNat_eq (congrArg PqKey.index h)
              exact hx (this ▸ hm)
            · exact hd b (List.mem_cons_of_mem _ hm) h
      refine ⟨h1, h2, h3, ?_, fun b => ?_, fun i hi => ?_⟩
      · refine h4.trans ?_
        rw [List.filter_cons, if_pos (by simpa using hf), List.map_cons, List.cons_append]
        exact (List.Perm.append_left _ (pqInsert_perm _ _)).trans List.perm_middle
      · rw [h5]
        simp only [writeTree, entryAt_setEntry hw.1]
        by_cases hbx : b = x
        · subst hbx; simp [hf, hx]
        · have : b.toNat ≠ x.toNat := fun he => hbx (BitVec.eq_of_toNat_eq he)
          simp [hbx, this]
      · rw [h6 i hi]
        have := x.isLt
        simp only [writeTree, entryAt_setEntry hw.1, show i ≠ x.toNat by omega, if_false]

/-- What the leaves' loop of BUILD leaves: the leaves and nothing else in the arena, their keys in the queue. -/
theorem addLeaves_spec (s : State) :
    TableOk absentRec Config.treeN (addLeaves s).tree ∧ Rising (addLeaves s).pq ∧ (addLeaves s).made = 0 ∧
    (addLeaves s).pq.Perm ((counted s).map (leafKey s)) ∧
    (∀ b : Byte, entryAt absentRec (addLeaves s).tree b.toNat =
      if s.freqAt b = 0#32 then absentRec else leafRec b (s.freqAt b)) ∧
    ∀ i, 256 ≤ i → entryAt absentRec (addLeaves s).tree i = absentRec := by
  obtain ⟨h1, h2, h3, h4, h5, h6⟩ :=
    foldl_addLeaf s allBytes ⟨[], [], 0⟩ nodup_allBytes (tableOk_nil _ _) List.Pairwise.nil (by simp)
  refine ⟨h1, h2, h3, h4.trans (by simp [counted]), fun b => ?_, h6⟩
  refine (h5 b).trans ?_
  by_cases hf : s.freqAt b = 0#32 <;> simp [hf, mem_allBytes]

theorem length_addLeaves (s : State) : (addLeaves s).pq.length = s.distinctBytes := by
  rw [(addLeaves_spec s).2.2.2.1.length_eq, List.length_map, length_counted]

/-! ### The merges -/

/-- One merge (rule R138): the two least keys leave the queue and their node enters it. -/
theorem mergeOnce_eq {c : BuildCtx} {x y : PqKey} {rest : List PqKey} (h : c.pq = x :: y :: rest) :
    mergeOnce c =
      { tree := writeTree c.tree (internalIndex c.made) (internalRec (x.freq + y.freq) x.index y.index)
        pq := pqInsert ⟨x.freq + y.freq, internalIndex c.made⟩ rest
        made := c.made + 1 } := by
  simp [mergeOnce, h, pqExtractMin]

/-- What every merge keeps, the loop keeps. -/
theorem mergeLoop_keeps {P : BuildCtx → Prop}
    (hstep : ∀ c x y rest, P c → c.pq = x :: y :: rest → P (mergeOnce c)) (n : Nat) {c : BuildCtx} (h : P c) :
    P (mergeLoop n c) := by
  induction n generalizing c with
  | zero => exact h
  | succ n ih =>
    unfold mergeLoop
    split
    · next hl =>
      match hq : c.pq with
      | [] => simp [hq] at hl
      | [_] => simp [hq] at hl
      | x :: y :: rest => exact ih (hstep c x y rest h hq)
    · exact h

/-- The loop runs until one key is left (rule R138: `n` − 1 passes). -/
theorem length_mergeLoop (n : Nat) {c : BuildCtx} (h1 : 1 ≤ c.pq.length) (hn : c.pq.length ≤ n + 1) :
    (mergeLoop n c).pq.length = 1 ∧ (mergeLoop n c).made = c.made + (c.pq.length - 1) := by
  induction n generalizing c with
  | zero => exact ⟨by simp only [mergeLoop]; omega, by simp only [mergeLoop]; omega⟩
  | succ n ih =>
    unfold mergeLoop
    split
    · next hl =>
      match hq : c.pq with
      | [] => simp [hq] at hl
      | [_] => simp [hq] at hl
      | x :: y :: rest =>
        have hlen : (mergeOnce c).pq.length = c.pq.length - 1 := by simp [mergeOnce_eq hq, hq]
        obtain ⟨h2, h3⟩ := ih (c := mergeOnce c) (by omega) (by omega)
        refine ⟨h2, ?_⟩
        rw [h3, hlen, mergeOnce_eq hq, hq]
        simp only [List.length_cons]
        omega
    · exact ⟨by omega, by omega⟩

/-- The three ways BUILD's tree comes about (rules R136, R137, R138). -/
theorem buildTree_cases (c : BuildCtx) :
    (c.pq = [] ∧ buildTree c = (c, none)) ∨
    (∃ x, c.pq = [x] ∧ buildTree c =
      ({ tree := writeTree (writeTree c.tree placeholderIndex placeholderRec) (internalIndex 0)
           (internalRec x.freq x.index placeholderIndex), pq := [], made := 1 }, some (internalIndex 0))) ∨
    (∃ x, 2 ≤ c.pq.length ∧ (mergeLoop c.pq.length c).pq = [x] ∧
      buildTree c = ({ mergeLoop c.pq.length c with pq := [] }, some x.index)) := by
  match hq : c.pq with
  | [] => exact .inl ⟨rfl, by simp [buildTree, hq]⟩
  | [x] => exact .inr (.inl ⟨x, rfl, by simp [buildTree, hq, pqExtractMin]⟩)
  | x :: y :: rest =>
    refine .inr (.inr ?_)
    have hl := (length_mergeLoop (x :: y :: rest).length (c := c) (by simp [hq]) (by simp [hq])).1
    obtain ⟨z, hz⟩ := List.length_eq_one_iff.1 hl
    refine ⟨z, by simp, hz, ?_⟩
    unfold buildTree
    simp only [List.length_cons] at hz
    simp [hq, hz, pqExtractMin]

/-- The state BUILD ends in (rule R135). -/
def State.built (s : State) : State :=
  let s1 := (s.setFlag .tree false).setFlag .code false
  let built := buildTree (addLeaves s)
  let s2 := { s1 with tree := .known built.1.tree, pq := built.1.pq, freq := .unspecified s.draws,
                      draws := s.draws + 1 }
  ((s2.setTreeRoot built.2).setFlag .freq false).setFlag .tree true

/-- BUILD raises nothing of its own. -/
theorem buildBody_eq (s : State) : buildBody s = .done s.built := rfl

theorem State.treeAt_built (s : State) (i : Nat) :
    s.built.treeAt i = entryAt absentRec (buildTree (addLeaves s)).1.tree i := rfl

theorem State.pq_built (s : State) : s.built.pq = [] := by
  show (buildTree (addLeaves s)).1.pq = []
  rcases buildTree_cases (addLeaves s) with ⟨h1, h⟩ | ⟨x, -, h⟩ | ⟨x, -, -, h⟩ <;> rw [h]
  exact h1

theorem State.built_frame (s : State) :
    s.built.code = s.code ∧ s.built.trie = s.trie ∧ (∀ sp, s.built.buf sp = s.buf sp) ∧ s.built.params = s.params ∧
    s.built.script = s.script ∧ s.built.returned = s.returned ∧
    s.built.regs = { s.regs with treeRoot := rootWord (buildTree (addLeaves s)).2, status := s.built.regs.status } :=
  ⟨rfl, rfl, fun sp => by cases sp <;> rfl, rfl, rfl, rfl, rfl⟩

theorem State.flag_built (s : State) (f : ValidFlag) :
    s.built.flag f = match f with | .freq => false | .tree => true | .code => false | .trie => s.flag .trie := by
  have h : s.built.regs.status =
      withBit (withBit (withBit (withBit s.regs.status 1 false) 2 false) 0 false) 1 true := rfl
  unfold State.flag
  rw [h]
  cases f <;> simp only [getLsbD_withBit, flagBit] <;> simp

end Sys2Proof.Machine
end

