-- ==== Sys2Proof/Laws/Merge.lean ====
section
/-! SUPPORT. The merge loop of BUILD (rules R138, R139): what holds of the arena and the queue after every pass. -/

namespace Sys2Proof.Machine

/-- `State.Waiting`, of an arena given as a function. -/
def WaitingIn (tr : Nat → TreeRec) (k i : Nat) : Prop :=
  ((i < 256 ∧ (tr i).kind = .leaf) ∨ (256 ≤ i ∧ i < 256 + k)) ∧
    ∀ j, j < k → (tr (256 + j)).low ≠ some i ∧ (tr (256 + j)).high ≠ some i

theorem State.waiting_iff (s : State) (k i : Nat) : s.Waiting k i ↔ WaitingIn s.treeAt k i := Iff.rfl

/-- The key of a node of an arena given as a function. -/
def keyIn (tr : Nat → TreeRec) (i : Nat) : PqKey := ⟨(tr i).freq, i⟩

theorem WaitingIn.lt {tr : Nat → TreeRec} {k i : Nat} (h : WaitingIn tr k i) : i < 256 + k := by
  rcases h.1 with h | h <;> omega

/-- Waiting depends on the records below `256 + k` only. -/
theorem waitingIn_congr {tr tr2 : Nat → TreeRec} {k i : Nat} (h : ∀ j, j < 256 + k → tr2 j = tr j) :
    WaitingIn tr2 k i ↔ WaitingIn tr k i := by
  unfold WaitingIn
  constructor
  · rintro ⟨h1, h2⟩
    refine ⟨h1.imp_left fun a => ?_, fun j hj => ?_⟩
    · rwa [h i (by omega)] at a
    · have := h2 j hj; rwa [h _ (by omega)] at this
  · rintro ⟨h1, h2⟩
    refine ⟨h1.imp_left fun a => ?_, fun j hj => ?_⟩
    · rwa [h i (by omega)]
    · have := h2 j hj; rwa [h _ (by omega)]

/-- Node `256 + k` is made from the two least keys that wait before pass `k`. -/
def MadeFromLeast (tr : Nat → TreeRec) (k : Nat) : Prop :=
  ∃ a c, tr (256 + k) = internalRec ((tr a).freq + (tr c).freq) a c ∧ WaitingIn tr k a ∧ WaitingIn tr k c ∧
    keyLess (keyIn tr a) (keyIn tr c) = true ∧
    ∀ x, WaitingIn tr k x → x = a ∨ x = c ∨ keyLess (keyIn tr c) (keyIn tr x) = true

theorem madeFromLeast_congr {tr tr2 : Nat → TreeRec} {k : Nat} (h : ∀ j, j < 256 + k + 1 → tr2 j = tr j)
    (hm : MadeFromLeast tr k) : MadeFromLeast tr2 k := by
  obtain ⟨a, c, h1, h2, h3, h4, h5⟩ := hm
  have hw : ∀ i, WaitingIn tr2 k i ↔ WaitingIn tr k i := fun i => waitingIn_congr fun j hj => h j (by omega)
  have hk : ∀ i, WaitingIn tr k i → keyIn tr2 i = keyIn tr i := fun i hi => by
    have := hi.lt; unfold keyIn; rw [h i (by omega)]
  refine ⟨a, c, ?_, (hw a).2 h2, (hw c).2 h3, by rw [hk a h2, hk c h3]; exact h4, fun x hx => ?_⟩
  · have ha := h2.lt; have hc := h3.lt
    rw [h _ (by omega), h1, h a (by omega), h c (by omega)]
  · have hx' := (hw x).1 hx
    rw [hk c h3, hk x hx']; exact h5 x hx'

/-- What holds after `k` passes of a merge loop that began with `n` keys. -/
structure MergeInv (s : State) (n k : Nat) (c : BuildCtx) : Prop where
  table  : TableOk absentRec Config.treeN c.tree
  made   : c.made = k
  count  : k + c.pq.length = n
  rising : Rising c.pq
  leaves : ∀ b : Byte, entryAt absentRec c.tree b.toNat = if s.freqAt b = 0#32 then absentRec else leafRec b (s.freqAt b)
  beyond : ∀ i, 256 + k ≤ i → entryAt absentRec c.tree i = absentRec
  keys   : ∀ x ∈ c.pq, x = keyIn (entryAt absentRec c.tree) x.index
  holds  : ∀ i, (∃ x ∈ c.pq, x.index = i) ↔ WaitingIn (entryAt absentRec c.tree) k i
  nodes  : ∀ j, j < k → MadeFromLeast (entryAt absentRec c.tree) j

theorem mergeInv_addLeaves (s : State) : MergeInv s s.distinctBytes 0 (addLeaves s) := by
  obtain ⟨h1, h2, h3, h4, h5, h6⟩ := addLeaves_spec s
  have hmem : ∀ x, x ∈ (addLeaves s).pq ↔ ∃ b, s.freqAt b ≠ 0#32 ∧ x = leafKey s b := fun x => by
    rw [h4.mem_iff, List.mem_map]
    exact ⟨fun ⟨b, hb, e⟩ => ⟨b, mem_counted.1 hb, e.symm⟩, fun ⟨b, hb, e⟩ => ⟨b, mem_counted.2 hb, e.symm⟩⟩
  refine ⟨h1, h3, by simp [length_addLeaves], h2, h5, fun i hi => h6 i hi, fun x hx => ?_, fun i => ?_,
    fun j hj => absurd hj (Nat.not_lt_zero j)⟩
  · obtain ⟨b, hb, rfl⟩ := (hmem x).1 hx
    simp [keyIn, leafKey, h5, hb, leafRec]
  · constructor
    · rintro ⟨x, hx, rfl⟩
      obtain ⟨b, hb, rfl⟩ := (hmem x).1 hx
      exact ⟨.inl ⟨b.isLt, by simp [leafKey, h5, hb, leafRec]⟩, fun j hj => absurd hj (Nat.not_lt_zero j)⟩
    · rintro ⟨⟨hi, hk⟩ | hi, -⟩
      · have hb : (BitVec.ofNat 8 i).toNat = i := by rw [BitVec.toNat_ofNat]; omega
        have := h5 (BitVec.ofNat 8 i)
        rw [hb] at this
        refine ⟨leafKey s (BitVec.ofNat 8 i), (hmem _).2 ⟨_, fun h0 => ?_, rfl⟩, hb⟩
        rw [this, if_pos h0] at hk
        simp [absentRec] at hk
      · omega

/-- Two keys of the queue with one index are one key. -/
theorem MergeInv.eq_of_index {s : State} {n k : Nat} {c : BuildCtx} (h : MergeInv s n k c) {x y : PqKey}
    (hx : x ∈ c.pq) (hy : y ∈ c.pq) (he : x.index = y.index) : x = y := by
  rw [h.keys x hx, h.keys y hy, he]

/-- One pass of the loop (rules R138, R139). -/
theorem MergeInv.mergeOnce {s : State} {n k : Nat} {c : BuildCtx} (h : MergeInv s n k c) (hn : n ≤ 256) {x y : PqKey}
    {rest : List PqKey} (hq : c.pq = x :: y :: rest) : MergeInv s n (k + 1) (mergeOnce c) := by
  have hlen := h.count
  rw [hq] at hlen
  simp only [List.length_cons] at hlen
  have hxm : x ∈ c.pq := by simp [hq]
  have hym : y ∈ c.pq := by simp [hq]
  have hr := h.rising
  rw [hq, Rising, List.pairwise_cons, List.pairwise_cons] at hr
  obtain ⟨hx, hy, hrest⟩ := hr
  have hxy : keyLess x y = true := hx y (by simp)
  have hwx := (h.holds x.index).1 ⟨x, hxm, rfl⟩
  have hwy := (h.holds y.index).1 ⟨y, hym, rfl⟩
  have hxlt := hwx.lt
  have hylt := hwy.lt
  rw [mergeOnce_eq hq, h.made]
  have hi : internalIndex k = 256 + k := rfl
  have hlt : 256 + k < Config.treeN := by show 256 + k < 512; omega
  have hset : ∀ i, entryAt absentRec (writeTree c.tree (internalIndex k) (internalRec (x.freq + y.freq) x.index y.index)) i
      = if i = 256 + k then internalRec (x.freq + y.freq) x.index y.index else entryAt absentRec c.tree i := fun i =>
    entryAt_setEntry h.table.1 _ i _
  have hold : ∀ i, i < 256 + k →
      entryAt absentRec (writeTree c.tree (internalIndex k) (internalRec (x.freq + y.freq) x.index y.index)) i =
        entryAt absentRec c.tree i := fun i hi => by rw [hset, if_neg (by omega)]
  generalize htr : writeTree c.tree (internalIndex k) (internalRec (x.freq + y.freq) x.index y.index) = t at hset hold
  have hfx : (entryAt absentRec c.tree x.index).freq = x.freq := by
    have := congrArg PqKey.freq (h.keys x hxm); exact this.symm
  have hfy : (entryAt absentRec c.tree y.index).freq = y.freq := by
    have := congrArg PqKey.freq (h.keys y hym); exact this.symm
  have hidx : ∀ z ∈ rest, z.index ≠ x.index ∧ z.index ≠ y.index := fun z hz => by
    have hzm : z ∈ c.pq := by simp [hq, hz]
    constructor
    · intro e
      have := h.eq_of_index hzm hxm e
      subst this
      exact absurd (hx z (by simp [hz])) (by simp [keyLess_irrefl])
    · intro e
      have := h.eq_of_index hzm hym e
      subst this
      exact absurd (hy z hz) (by simp [keyLess_irrefl])
  have hnew : (⟨x.freq + y.freq, internalIndex k⟩ : PqKey) ∉ rest := fun hm => by
    have := (h.holds (256 + k)).1 ⟨⟨x.freq + y.freq, internalIndex k⟩, by rw [hq]; simp [hm], rfl⟩
    exact absurd this.lt (by omega)
  refine ⟨?_, rfl, by simp; omega, rising_pqInsert hnew hrest, fun b => ?_, fun i hi => ?_, fun z hz => ?_, fun i => ?_,
    fun j hj => ?_⟩
  · have hok : TableOk absentRec Config.treeN t := htr ▸ tableOk_setEntry h.table hlt _
    exact htr.symm ▸ hok
  · have := b.isLt
    exact (hold _ (by omega)).trans (h.leaves b)
  · show entryAt absentRec t i = _
    rw [hset, if_neg (by omega)]; exact h.beyond i (by omega)
  · rcases mem_pqInsert.1 hz with rfl | hz
    · simp only [keyIn, hi]
      rw [hset, if_pos rfl]; rfl
    · have hzm : z ∈ c.pq := by simp [hq, hz]
      have hzlt := ((h.holds z.index).1 ⟨z, hzm, rfl⟩).lt
      have := h.keys z hzm
      unfold keyIn at this ⊢
      rw [hold _ hzlt]; exact this
  · -- the keys held are those of the nodes waiting
    have hlow : (entryAt absentRec t (256 + k)).low = some x.index := by rw [hset, if_pos rfl]; rfl
    have hhigh : (entryAt absentRec t (256 + k)).high = some y.index := by rw [hset, if_pos rfl]; rfl
    have hcong : ∀ i, WaitingIn (entryAt absentRec t) k i ↔ WaitingIn (entryAt absentRec c.tree) k i := fun i =>
      waitingIn_congr hold
    constructor
    · rintro ⟨z, hz, rfl⟩
      rcases mem_pqInsert.1 hz with rfl | hzr
      · refine ⟨.inr ⟨Nat.le_add_right _ _, by show 256 + k < _; omega⟩, fun j hj => ?_⟩
        simp only [hi]
        by_cases hjk : j = k
        · subst hjk; rw [hlow, hhigh]; simp; omega
        · obtain ⟨a, b, e, ha, hb, -, -⟩ := h.nodes j (by omega)
          have ha := ha.lt; have hb := hb.lt
          rw [hold _ (by omega), e]
          simp [internalRec]; omega
      · have hzm : z ∈ c.pq := by simp [hq, hzr]
        have hw := (hcong z.index).2 ((h.holds z.index).1 ⟨z, hzm, rfl⟩)
        have hzlt := hw.lt
        refine ⟨hw.1.imp_right fun a => by omega, fun j hj => ?_⟩
        by_cases hjk : j = k
        · subst hjk
          obtain ⟨n1, n2⟩ := hidx z hzr
          rw [hlow, hhigh]; simp; exact ⟨fun e => n1 e.symm, fun e => n2 e.symm⟩
        · exact hw.2 j (by omega)
    · rintro ⟨h1, h2⟩
      by_cases hik : i = 256 + k
      · exact ⟨_, mem_pqInsert.2 (.inl rfl), hik.symm⟩
      · have hw : WaitingIn (entryAt absentRec t) k i := ⟨h1.imp_right fun a => by omega, fun j hj => h2 j (by omega)⟩
        obtain ⟨z, hz, rfl⟩ := (h.holds i).2 ((hcong i).1 hw)
        obtain ⟨n1, n2⟩ := h2 k (by omega)
        rw [hlow] at n1
        rw [hhigh] at n2
        rw [hq] at hz
        rcases List.mem_cons.1 hz with rfl | hz
        · exact absurd rfl n1
        rcases List.mem_cons.1 hz with rfl | hz
        · exact absurd rfl n2
        exact ⟨z, mem_pqInsert.2 (.inr hz), rfl⟩
  · show MadeFromLeast (entryAt absentRec t) j
    by_cases hjk : j = k
    · subst hjk
      have hcong : ∀ i, WaitingIn (entryAt absentRec t) j i ↔ WaitingIn (entryAt absentRec c.tree) j i := fun i =>
        waitingIn_congr hold
      have hkey : ∀ i, i < 256 + j → keyIn (entryAt absentRec t) i = keyIn (entryAt absentRec c.tree) i := fun i hi => by
        unfold keyIn; rw [hold i hi]
      refine ⟨x.index, y.index, ?_, (hcong _).2 hwx, (hcong _).2 hwy, ?_, fun i hi => ?_⟩
      · rw [hset, if_pos rfl, hold _ hxlt, hold _ hylt, hfx, hfy]
      · rw [hkey _ hxlt, hkey _ hylt, ← h.keys x hxm, ← h.keys y hym]; exact hxy
      · obtain ⟨z, hz, rfl⟩ := (h.holds i).2 ((hcong i).1 hi)
        have hzlt := hi.lt
        rw [hq] at hz
        rcases List.mem_cons.1 hz with rfl | hz
        · exact .inl rfl
        rcases List.mem_cons.1 hz with rfl | hz
        · exact .inr (.inl rfl)
        have hzm : z ∈ c.pq := by simp [hq, hz]
        rw [hkey _ hylt, hkey _ hzlt, ← h.keys y hym, ← h.keys z hzm]
        exact .inr (.inr (hy z hz))
    · exact madeFromLeast_congr (fun i hi => hold i (by omega)) (h.nodes j (by omega))

/-- After the whole loop (rule R138): one key is left and the invariant holds for `n` − 1 passes. -/
theorem mergeInv_mergeLoop (s : State) (h : 1 ≤ s.distinctBytes) :
    ∃ x, (mergeLoop (addLeaves s).pq.length (addLeaves s)).pq = [x] ∧
      MergeInv s s.distinctBytes (s.distinctBytes - 1) (mergeLoop (addLeaves s).pq.length (addLeaves s)) := by
  have hn : s.distinctBytes ≤ 256 := by
    unfold State.distinctBytes
    exact Nat.le_trans (List.length_filter_le _ _) (by simp)
  have hk : ∃ k, MergeInv s s.distinctBytes k (mergeLoop (addLeaves s).pq.length (addLeaves s)) :=
    mergeLoop_keeps (P := fun c => ∃ k, MergeInv s s.distinctBytes k c)
      (fun c x y rest ⟨k, hc⟩ hq => ⟨k + 1, hc.mergeOnce hn hq⟩) _ ⟨0, mergeInv_addLeaves s⟩
  obtain ⟨k, hk⟩ := hk
  have hl := (length_mergeLoop (addLeaves s).pq.length (c := addLeaves s) (by rw [length_addLeaves]; exact h)
    (by omega)).1
  obtain ⟨x, hx⟩ := List.length_eq_one_iff.1 hl
  have hc := hk.count
  rw [hl] at hc
  have : k = s.distinctBytes - 1 := by omega
  exact ⟨x, hx, this ▸ hk⟩

end Sys2Proof.Machine
end

