-- ==== Sys2Proof/Laws/Tree.lean ====
section
/-! SUPPORT. Trees in the arena (rules R42, R140): what the shape of a built tree says about children and paths, and that
BUILD makes such a tree. -/

namespace Sys2Proof.Machine

/-! ### Walks -/

/-- The node reached from a node along a path, in an arena given as a function. -/
def treeWalkIn (tr : Nat → TreeRec) : Nat → List Bool → Option Nat
  | cur, [] => some cur
  | cur, bit :: rest =>
    match treeChild (tr cur) bit with
    | none => none
    | some nxt => treeWalkIn tr nxt rest

theorem State.treeWalk_eq (s : State) (cur : Nat) (p : List Bool) : s.treeWalk cur p = treeWalkIn s.treeAt cur p := by
  induction p generalizing cur with
  | nil => rfl
  | cons b rest ih => unfold State.treeWalk treeWalkIn; split <;> simp_all

theorem treeWalkIn_append (tr : Nat → TreeRec) (cur : Nat) (p q : List Bool) :
    treeWalkIn tr cur (p ++ q) = (treeWalkIn tr cur p).bind fun n => treeWalkIn tr n q := by
  induction p generalizing cur with
  | nil => rfl
  | cons b rest ih =>
    simp only [List.cons_append, treeWalkIn]
    cases treeChild (tr cur) b with
    | none => rfl
    | some x => exact ih x

theorem treeWalkIn_concat (tr : Nat → TreeRec) (cur : Nat) (p : List Bool) (b : Bool) :
    treeWalkIn tr cur (p ++ [b]) = (treeWalkIn tr cur p).bind fun n => treeChild (tr n) b := by
  rw [treeWalkIn_append]
  congr 1
  funext n
  simp only [treeWalkIn]
  cases treeChild (tr n) b <;> rfl

/-! ### The shape, as facts about records -/

/-- How far a node is above the leaves at most: 0 for a node that is not internal. -/
def rank (tr : Nat → TreeRec) (i : Nat) : Nat := if (tr i).kind = .internal then i - 255 else 0

/-- What the shape of a built tree with a present root says about the arena. -/
structure TreeInv (tr : Nat → TreeRec) (root : Nat) : Prop where
  leaf     : ∀ i, (tr i).kind = .leaf → i < 256 ∧ (tr i).value = BitVec.ofNat 8 i
  ends     : ∀ i b, (tr i).kind ≠ .internal → treeChild (tr i) b = none
  internal : ∀ i, (tr i).kind = .internal → 256 ≤ i ∧ i ≤ 510 ∧
    ∀ b, ∃ c, treeChild (tr i) b = some c ∧ (tr c).kind ≠ .absent ∧ rank tr c < rank tr i
  parent   : ∀ i j b c k, treeChild (tr i) b = some k → treeChild (tr j) c = some k → i = j ∧ b = c
  noParent : ∀ i b, treeChild (tr i) b ≠ some root
  bound    : ∀ i, (tr i).kind ≠ .absent → i < 512
  root     : (tr root).kind = .internal

theorem mem_treeRefs {t : Table TreeRec} {c : Nat} : c ∈ treeRefs t ↔ ∃ e ∈ t, e.2.low = some c ∨ e.2.high = some c := by
  simp [treeRefs, List.mem_flatMap]

theorem treeRec_of_kind {t : Table TreeRec} {i : Nat} (h : (entryAt absentRec t i).kind ≠ .absent) :
    (i, entryAt absentRec t i) ∈ t := by
  unfold entryAt at h ⊢
  cases hl : lookAt t i with
  | none => rw [hl] at h; exact absurd rfl h
  | some v => exact mem_of_lookAt hl

/-- The shape gives those facts. -/
theorem treeInv_of_treeShape {t : Table TreeRec} {r : Nat} (h : TreeShape t (some r)) :
    TreeInv (entryAt absentRec t) r := by
  obtain ⟨h1, h2, h3, h4⟩ := h
  have hrec : ∀ i, (entryAt absentRec t i).kind ≠ .absent → TreeRecOk t (i, entryAt absentRec t i) := fun i hi =>
    h1 _ (treeRec_of_kind hi)
  have habs : ∀ i, (entryAt absentRec t i).kind = .absent → entryAt absentRec t i = absentRec := fun i hi => by
    unfold entryAt at hi ⊢
    cases hl : lookAt t i with
    | none => rfl
    | some v =>
      rw [hl] at hi
      have := h1 _ (mem_of_lookAt hl)
      unfold TreeRecOk at this
      simp only [Option.getD_some] at hi
      rw [hi] at this
      exact absurd this id
  have hunused : ∀ i, (entryAt absentRec t i).kind = .unused → entryAt absentRec t i = placeholderRec := fun i hi => by
    have := hrec i (by rw [hi]; decide)
    unfold TreeRecOk at this
    rw [hi] at this
    exact this.2
  have hleaf : ∀ i, (entryAt absentRec t i).kind = .leaf →
      i < 256 ∧ entryAt absentRec t i = leafRec (BitVec.ofNat 8 i) (entryAt absentRec t i).freq := fun i hi => by
    have := hrec i (by rw [hi]; decide)
    unfold TreeRecOk at this
    rw [hi] at this
    exact ⟨this.1, this.2.1⟩
  have hint : ∀ i, (entryAt absentRec t i).kind = .internal → 256 ≤ i ∧ i ≤ 510 ∧
      ∃ l h, (entryAt absentRec t i).low = some l ∧ (entryAt absentRec t i).high = some h ∧
        TreeRefOk t i l ∧ TreeRefOk t i h := fun i hi => by
    have := hrec i (by rw [hi]; decide)
    unfold TreeRecOk at this
    rw [hi] at this
    obtain ⟨k1, k2, l, h, k3, k4, k5⟩ := this
    exact ⟨k1, k2, l, h, congrArg TreeRec.low k3, congrArg TreeRec.high k3, k4, k5⟩
  have hends : ∀ i b, (entryAt absentRec t i).kind ≠ .internal → treeChild (entryAt absentRec t i) b = none :=
    fun i b hi => by
      cases hk : (entryAt absentRec t i).kind with
      | absent => rw [habs i hk]; cases b <;> rfl
      | leaf => rw [(hleaf i hk).2]; cases b <;> rfl
      | unused => rw [hunused i hk]; cases b <;> rfl
      | internal => exact absurd hk hi
  have hrank : ∀ i c, (entryAt absentRec t i).kind = .internal → TreeRefOk t i c →
      rank (entryAt absentRec t) c < rank (entryAt absentRec t) i := fun i c hi hc => by
    obtain ⟨k1, k2, -⟩ := hint i hi
    unfold rank
    rw [if_pos hi]
    split
    · next hci =>
      rcases hc.2 with hlt | rfl
      · have := (hint c hci).1; omega
      · have := (hint 511 hci).2.1; omega
    · omega
  have hmem : ∀ i b k, treeChild (entryAt absentRec t i) b = some k →
      (i, entryAt absentRec t i) ∈ t ∧ k ∈ (entryAt absentRec t i).low.toList ++ (entryAt absentRec t i).high.toList :=
    fun i b k hk => by
      have hne : (entryAt absentRec t i).kind ≠ .absent := fun ha => by
        rw [hends i b (by rw [ha]; decide)] at hk; cases hk
      refine ⟨treeRec_of_kind hne, ?_⟩
      cases b
      · exact List.mem_append.2 (.inl (by simpa [treeChild] using hk))
      · exact List.mem_append.2 (.inr (by simpa [treeChild] using hk))
  refine ⟨fun i hi => ⟨(hleaf i hi).1, by rw [(hleaf i hi).2]; rfl⟩, hends, fun i hi => ?_, fun i j b c k hi hj => ?_,
    fun i b hi => ?_, fun i hi => ?_, h4⟩
  · obtain ⟨k1, k2, l, h, k3, k4, k5, k6⟩ := hint i hi
    refine ⟨k1, k2, fun b => ?_⟩
    cases b
    · exact ⟨l, k3, k5.1, hrank i l hi k5⟩
    · exact ⟨h, k4, k6.1, hrank i h hi k6⟩
  · obtain ⟨m1, m2⟩ := hmem i b k hi
    obtain ⟨m3, m4⟩ := hmem j c k hj
    rw [treeRefs, List.nodup_flatMap] at h2
    have hij : i = j := by
      by_contra hne
      have : Std.Symm (Function.onFun List.Disjoint fun e : Nat × TreeRec => e.2.low.toList ++ e.2.high.toList) :=
        ⟨fun _ _ hxy _ hz hz2 => hxy hz2 hz⟩
      exact h2.2.forall m1 m3 (fun e => hne (congrArg Prod.fst e)) m2 m4
    subst hij
    refine ⟨rfl, ?_⟩
    have hn := h2.1 _ m1
    rw [List.nodup_append] at hn
    cases b <;> cases c
    · rfl
    · exact absurd rfl (hn.2.2 k (by simpa [treeChild] using hi) k (by simpa [treeChild] using hj))
    · exact absurd rfl (hn.2.2 k (by simpa [treeChild] using hj) k (by simpa [treeChild] using hi))
    · rfl
  · obtain ⟨m1, m2⟩ := hmem i b r hi
    have hrm : r ∈ treeRefs t := List.mem_flatMap.2 ⟨_, m1, m2⟩
    have := (h3 _ (treeRec_of_kind (i := r) (by rw [h4]; decide))).1 hrm
    exact this rfl
  · cases hk : (entryAt absentRec t i).kind with
    | absent => exact absurd hk hi
    | leaf => have := (hleaf i hk).1; omega
    | internal => have := (hint i hk).2.1; omega
    | unused =>
      have := hrec i (by rw [hk]; decide)
      unfold TreeRecOk at this
      rw [hk] at this
      have h511 : i = 511 := this.1
      omega

/-- A path from the root ends on one node only, and one node ends one path only (rule R140). -/
theorem TreeInv.unique {tr : Nat → TreeRec} {r : Nat} (h : TreeInv tr r) {q p : List Bool} {i : Nat}
    (hq : treeWalkIn tr r q = some i) (hp : treeWalkIn tr r p = some i) : q = p := by
  induction q using List.reverseRecOn generalizing p i with
  | nil =>
    have hi : r = i := by simpa [treeWalkIn] using hq
    subst hi
    cases p using List.reverseRecOn with
    | nil => rfl
    | append_singleton p c =>
      rw [treeWalkIn_concat] at hp
      cases hw : treeWalkIn tr r p with
      | none => simp [hw] at hp
      | some j => rw [hw] at hp; exact absurd hp (h.noParent j c)
  | append_singleton q b ih =>
    rw [treeWalkIn_concat] at hq
    cases hw : treeWalkIn tr r q with
    | none => simp [hw] at hq
    | some j =>
      rw [hw] at hq
      cases p using List.reverseRecOn with
      | nil =>
        have hi : r = i := by simpa [treeWalkIn] using hp
        subst hi
        exact absurd hq (h.noParent j b)
      | append_singleton p c =>
        rw [treeWalkIn_concat] at hp
        cases hw2 : treeWalkIn tr r p with
        | none => simp [hw2] at hp
        | some k =>
          rw [hw2] at hp
          obtain ⟨e1, e2⟩ := h.parent j k b c i hq hp
          subst e1
          rw [ih hw hw2, e2]

/-- A path is no longer than the root's rank, 255 at most (rule R152). -/
theorem TreeInv.length_path {tr : Nat → TreeRec} {r : Nat} (h : TreeInv tr r) {i : Nat} {q : List Bool} {j : Nat}
    (hq : treeWalkIn tr i q = some j) : rank tr j + q.length ≤ rank tr i := by
  induction q generalizing i with
  | nil =>
    have : i = j := by simpa [treeWalkIn] using hq
    simp [this]
  | cons b rest ih =>
    simp only [treeWalkIn] at hq
    cases hc : treeChild (tr i) b with
    | none => simp [hc] at hq
    | some c =>
      rw [hc] at hq
      have hi : (tr i).kind = .internal := by
        by_contra hne; rw [h.ends i b hne] at hc; cases hc
      obtain ⟨-, -, hch⟩ := h.internal i hi
      obtain ⟨c2, e, -, hlt⟩ := hch b
      rw [hc] at e
      have : c = c2 := by simpa using e
      subst this
      have := ih hq
      simp only [List.length_cons]; omega

theorem TreeInv.rank_le {tr : Nat → TreeRec} {r : Nat} (h : TreeInv tr r) (i : Nat) : rank tr i ≤ 255 := by
  unfold rank
  split
  · next hi => have := (h.internal i hi).2.1; omega
  · omega

/-- Every node on a path from a node that is not absent is not absent. -/
theorem TreeInv.present {tr : Nat → TreeRec} {r : Nat} (h : TreeInv tr r) {i : Nat} {q : List Bool} {j : Nat}
    (hi : (tr i).kind ≠ .absent) (hq : treeWalkIn tr i q = some j) : (tr j).kind ≠ .absent := by
  induction q generalizing i with
  | nil =>
    have : i = j := by simpa [treeWalkIn] using hq
    rwa [← this]
  | cons b rest ih =>
    simp only [treeWalkIn] at hq
    cases hc : treeChild (tr i) b with
    | none => simp [hc] at hq
    | some c =>
      rw [hc] at hq
      have hk : (tr i).kind = .internal := by
        by_contra hne; rw [h.ends i b hne] at hc; cases hc
      obtain ⟨-, -, hch⟩ := h.internal i hk
      obtain ⟨c2, e, hne, -⟩ := hch b
      rw [hc] at e
      have : c = c2 := by simpa using e
      subst this
      exact ih hne hq

end Sys2Proof.Machine
end

