-- ==== Sys2Proof/Laws/Build.lean ====
section
/-! SUPPORT. BUILD makes a tree of the shape of rules R42 and R140, with one leaf per byte value counted. -/

namespace Sys2Proof.Machine

/-- The listed keys of a canonical table are distinct. -/
theorem pairwise_keys {α : Type} [DecidableEq α] {d : α} {t : Table α} (h : tableWf d t = true) :
    t.Pairwise fun x y => x.1 ≠ y.1 := by
  have hr := risesFrom_of_tableWf h
  revert hr
  clear h
  generalize 0 = n
  intro hr
  induction t generalizing n with
  | nil => exact List.Pairwise.nil
  | cons x rest ih =>
    obtain ⟨k, v⟩ := x
    simp only [risesFrom, Bool.and_eq_true, decide_eq_true_eq] at hr
    refine List.pairwise_cons.2 ⟨fun y hy e => ?_, ih _ hr.2⟩
    have hlook := lookAt_of_risesFrom hr.2 (k := k) (by omega)
    have := lookAt_eq_of_mem hr.2 (k := y.1) (v := y.2) hy
    simp only at e
    rw [← e, hlook] at this
    cases this

/-- A listed entry is what its key reads as. -/
theorem entryAt_of_mem {α : Type} [DecidableEq α] {d : α} {t : Table α} (h : tableWf d t = true) {e : Nat × α}
    (he : e ∈ t) : entryAt d t e.1 = e.2 := by
  have := lookAt_eq_of_mem (risesFrom_of_tableWf h) (k := e.1) (v := e.2) he
  rw [entryAt, this]; rfl

/-- A listed entry is not what an unlisted key reads as. -/
theorem ne_of_mem {α : Type} [DecidableEq α] {d : α} {t : Table α} (h : tableWf d t = true) {e : Nat × α}
    (he : e ∈ t) : e.2 ≠ d := by
  simp only [tableWf, Bool.and_eq_true, List.all_eq_true, bne_iff_ne] at h
  exact h.2 e he

/-- The shape, from facts about records. -/
theorem treeShape_of_facts {t : Table TreeRec} {root : Nat} (hw : tableWf absentRec t = true)
    (hrec : ∀ i, entryAt absentRec t i ≠ absentRec → TreeRecOk t (i, entryAt absentRec t i))
    (hpar : ∀ i j b c k, treeChild (entryAt absentRec t i) b = some k → treeChild (entryAt absentRec t j) c = some k →
      i = j ∧ b = c)
    (hroot : ∀ i, entryAt absentRec t i ≠ absentRec →
      ((∃ j b, treeChild (entryAt absentRec t j) b = some i) ↔ root ≠ i))
    (hkind : (entryAt absentRec t root).kind = .internal) : TreeShape t (some root) := by
  have hmem : ∀ e ∈ t, ∀ c, c ∈ e.2.low.toList ++ e.2.high.toList → ∃ b, treeChild (entryAt absentRec t e.1) b = some c :=
    fun e he c hc => by
      rw [entryAt_of_mem hw he]
      rcases List.mem_append.1 hc with hc | hc
      · exact ⟨false, by simpa [treeChild] using hc⟩
      · exact ⟨true, by simpa [treeChild] using hc⟩
  refine ⟨fun e he => ?_, ?_, fun e he => ?_, hkind⟩
  · have := hrec e.1 (by rw [entryAt_of_mem hw he]; exact ne_of_mem hw he)
    rwa [entryAt_of_mem hw he] at this
  · rw [treeRefs, List.nodup_flatMap]
    refine ⟨fun x hx => ?_, (pairwise_keys hw).imp_of_mem fun {x y} hx hy hne c hcx hcy => ?_⟩
    · rw [List.nodup_append]
      refine ⟨by cases x.2.low <;> simp, by cases x.2.high <;> simp, fun a ha b hb e => ?_⟩
      subst e
      have h1 : treeChild (entryAt absentRec t x.1) false = some a := by
        rw [entryAt_of_mem hw hx]; simpa [treeChild] using ha
      have h2 : treeChild (entryAt absentRec t x.1) true = some a := by
        rw [entryAt_of_mem hw hx]; simpa [treeChild] using hb
      have := (hpar _ _ _ _ _ h1 h2).2
      cases this
    · obtain ⟨b, hb⟩ := hmem x hx c hcx
      obtain ⟨d, hd⟩ := hmem y hy c hcy
      exact hne (hpar _ _ _ _ _ hb hd).1
  · have hr := hroot e.1 (by rw [entryAt_of_mem hw he]; exact ne_of_mem hw he)
    constructor
    · intro hin
      obtain ⟨x, hx, hc⟩ := List.mem_flatMap.1 hin
      obtain ⟨b, hb⟩ := hmem x hx e.1 hc
      have := hr.1 ⟨x.1, b, hb⟩
      simpa using this
    · intro hne
      obtain ⟨j, b, hb⟩ := hr.2 (by simpa using hne)
      have hj : entryAt absentRec t j ≠ absentRec := fun ha => by
        rw [ha] at hb; cases b <;> simp [treeChild, absentRec] at hb
      have hjm : (j, entryAt absentRec t j) ∈ t := by
        cases hl : lookAt t j with
        | none => exact absurd (by simp [entryAt, hl]) hj
        | some v => simp only [entryAt, hl, Option.getD_some]; exact mem_of_lookAt hl
      refine List.mem_flatMap.2 ⟨_, hjm, ?_⟩
      cases b
      · exact List.mem_append.2 (.inl (by simpa [treeChild] using hb))
      · exact List.mem_append.2 (.inr (by simpa [treeChild] using hb))

theorem treeChild_internalRec (f : Word) (l h : Nat) (b : Bool) :
    treeChild (internalRec f l h) b = some (if b then h else l) := by cases b <;> rfl

theorem treeChild_leafRec (v : Byte) (f : Word) (b : Bool) : treeChild (leafRec v f) b = none := by cases b <;> rfl

/-- After the merge loop the arena holds one tree (rules R138, R140), its root the node made last. -/
theorem treeShape_of_mergeInv {s : State} {n : Nat} {c : BuildCtx} {x : PqKey} (hn2 : 2 ≤ n) (hn : n ≤ 256)
    (h : MergeInv s n (n - 1) c) (hq : c.pq = [x]) : x.index = 256 + (n - 2) ∧ TreeShape c.tree (some x.index) := by
  have hleaf : ∀ i, i < 256 → entryAt absentRec c.tree i =
      if s.freqAt (BitVec.ofNat 8 i) = 0#32 then absentRec else leafRec (BitVec.ofNat 8 i) (s.freqAt (BitVec.ofNat 8 i)) :=
    fun i hi => by
      have := h.leaves (BitVec.ofNat 8 i)
      rwa [show (BitVec.ofNat 8 i).toNat = i by rw [BitVec.toNat_ofNat]; omega] at this
  have hwait : ∀ i, WaitingIn (entryAt absentRec c.tree) (n - 1) i ↔ i = x.index := fun i => by
    rw [← h.holds i, hq]; simp [eq_comm]
  -- a child is a child of one of the nodes made, and waits before it
  have hchild : ∀ i b k, treeChild (entryAt absentRec c.tree i) b = some k →
      ∃ j, i = 256 + j ∧ j < n - 1 ∧ WaitingIn (entryAt absentRec c.tree) j k := fun i b k hk => by
    by_cases h1 : i < 256
    · rw [hleaf i h1] at hk
      split at hk
      · cases b <;> cases hk
      · rw [treeChild_leafRec] at hk; cases hk
    by_cases h2 : i < 256 + (n - 1)
    · obtain ⟨a, d, e, ha, hd, -, -⟩ := h.nodes (i - 256) (by omega)
      rw [show 256 + (i - 256) = i by omega] at e
      rw [e, treeChild_internalRec] at hk
      refine ⟨i - 256, by omega, by omega, ?_⟩
      cases b
      · have : a = k := by simpa using hk
        rw [← this]; exact ha
      · have : d = k := by simpa using hk
        rw [← this]; exact hd
    · rw [h.beyond i (by omega)] at hk; cases b <;> cases hk
  have hrootidx : x.index = 256 + (n - 2) := by
    refine ((hwait _).1 ⟨.inr ⟨by omega, by omega⟩, fun j hj => ?_⟩).symm
    obtain ⟨a, d, e, ha, hd, -, -⟩ := h.nodes j hj
    have ha := ha.lt; have hd := hd.lt
    rw [e]; simp [internalRec]; omega
  have hnotabs : ∀ i k, WaitingIn (entryAt absentRec c.tree) k i → k ≤ n - 1 →
      (entryAt absentRec c.tree i).kind ≠ .absent := fun i k hw hk => by
    rcases hw.1 with ⟨-, hl⟩ | ⟨h1, h2⟩
    · rw [hl]; decide
    · obtain ⟨a, d, e, -⟩ := h.nodes (i - 256) (by omega)
      rw [show 256 + (i - 256) = i by omega] at e
      rw [e]; simp [internalRec]
  refine ⟨hrootidx, treeShape_of_facts h.table.1 (fun i hi => ?_) (fun i j b d k hi hj => ?_) (fun i hi => ?_) ?_⟩
  · by_cases h1 : i < 256
    · have hf : s.freqAt (BitVec.ofNat 8 i) ≠ 0#32 := fun h0 => by rw [hleaf i h1, if_pos h0] at hi; exact hi rfl
      rw [hleaf i h1, if_neg hf]
      exact ⟨h1, rfl, hf⟩
    by_cases h2 : i < 256 + (n - 1)
    · obtain ⟨a, d, e, ha, hd, -, -⟩ := h.nodes (i - 256) (by omega)
      rw [show 256 + (i - 256) = i by omega] at e
      have k1 := ha.lt; have k2 := hd.lt
      rw [e]
      exact ⟨by show 256 ≤ i; omega, by show i ≤ 510; omega, a, d, rfl,
        ⟨hnotabs a _ ha (by omega), .inl (by show a < i; omega)⟩, hnotabs d _ hd (by omega), .inl (by show d < i; omega)⟩
    · exact absurd (h.beyond i (by omega)) hi
  · obtain ⟨i2, rfl, hi2, hwi⟩ := hchild i b k hi
    obtain ⟨j2, rfl, hj2, hwj⟩ := hchild j d k hj
    have hne : ∀ (a e : Nat) (b2 : Bool), a < e → WaitingIn (entryAt absentRec c.tree) e k →
        treeChild (entryAt absentRec c.tree (256 + a)) b2 ≠ some k := fun a e b2 hae hw hc => by
      have := hw.2 a hae
      cases b2
      · exact this.1 hc
      · exact this.2 hc
    have hij : i2 = j2 := by
      rcases Nat.lt_trichotomy i2 j2 with hlt | he | hlt
      · exact absurd hi (hne i2 j2 b hlt hwj)
      · exact he
      · exact absurd hj (hne j2 i2 d hlt hwi)
    subst hij
    refine ⟨rfl, ?_⟩
    obtain ⟨a, e, he, -, -, hlt, -⟩ := h.nodes i2 hi2
    rw [he, treeChild_internalRec] at hi hj
    have hae : a ≠ e := fun hae => by rw [hae, keyLess_irrefl] at hlt; cases hlt
    cases b <;> cases d
    · rfl
    · exact absurd (by simpa using hi.trans hj.symm) hae
    · exact absurd (by simpa using hj.trans hi.symm) hae
    · rfl
  · constructor
    · rintro ⟨j, b, hj⟩ he
      obtain ⟨j2, rfl, hj2, -⟩ := hchild j b i hj
      have := ((hwait i).2 he.symm).2 j2 hj2
      cases b
      · exact this.1 hj
      · exact this.2 hj
    · intro hne
      by_contra hno
      refine hne ((hwait i).1 ⟨?_, fun j hj => ⟨fun e => hno ⟨256 + j, false, e⟩, fun e => hno ⟨256 + j, true, e⟩⟩⟩).symm
      by_cases h1 : i < 256
      · left
        refine ⟨h1, ?_⟩
        have hf : s.freqAt (BitVec.ofNat 8 i) ≠ 0#32 := fun h0 => by rw [hleaf i h1, if_pos h0] at hi; exact hi rfl
        rw [hleaf i h1, if_neg hf]; rfl
      · right
        refine ⟨by omega, ?_⟩
        by_contra h2
        exact hi (h.beyond i (by omega))
  · rw [hrootidx]
    obtain ⟨a, d, e, -⟩ := h.nodes (n - 2) (by omega)
    rw [e]; rfl

/-- The single-symbol tree (rule R137) has the shape. -/
theorem treeShape_single {s : State} {x : PqKey} (hq : (addLeaves s).pq = [x]) :
    let t := writeTree (writeTree (addLeaves s).tree placeholderIndex placeholderRec) (internalIndex 0)
      (internalRec x.freq x.index placeholderIndex)
    TableOk absentRec Config.treeN t ∧ TreeShape t (some 256) ∧
    (∀ b : Byte, entryAt absentRec t b.toNat = if s.freqAt b = 0#32 then absentRec else leafRec b (s.freqAt b)) ∧
    entryAt absentRec t 256 = internalRec x.freq x.index 511 ∧ entryAt absentRec t 511 = placeholderRec ∧
    ∀ i, 256 ≤ i → i ≠ 256 → i ≠ 511 → entryAt absentRec t i = absentRec := by
  obtain ⟨h1, h2, -, h4, h5, h6⟩ := addLeaves_spec s
  intro t
  have hw1 : TableOk absentRec Config.treeN (writeTree (addLeaves s).tree placeholderIndex placeholderRec) :=
    tableOk_setEntry h1 (by decide) _
  have hw : TableOk absentRec Config.treeN t := tableOk_setEntry hw1 (by decide) _
  have hent : ∀ i, entryAt absentRec t i = if i = 256 then internalRec x.freq x.index 511
      else if i = 511 then placeholderRec else entryAt absentRec (addLeaves s).tree i := fun i =>
    (entryAt_setEntry hw1.1 _ i _).trans (by
      show (if i = 256 then _ else _) = _
      split
      · rfl
      · exact entryAt_setEntry h1.1 _ i _)
  -- the one key is a leaf's
  have hkey : ∃ a, s.freqAt a ≠ 0#32 ∧ x = leafKey s a ∧ ∀ b, s.freqAt b ≠ 0#32 → b = a := by
    rw [hq] at h4
    have hl := h4.length_eq
    obtain ⟨a, ha⟩ := List.length_eq_one_iff.1 (by simpa using hl.symm : (counted s).length = 1)
    rw [ha] at h4
    have hx : x = leafKey s a := by simpa using h4
    have ham : a ∈ counted s := by rw [ha]; simp
    refine ⟨a, mem_counted.1 ham, hx, fun b hb => ?_⟩
    have := mem_counted.2 hb
    rw [ha] at this; simpa using this
  obtain ⟨a, ha, hx, huniq⟩ := hkey
  have halt := a.isLt
  have hxi : x.index = a.toNat := by rw [hx]; rfl
  have hleaves : ∀ b : Byte, entryAt absentRec t b.toNat =
      if s.freqAt b = 0#32 then absentRec else leafRec b (s.freqAt b) := fun b => by
    have := b.isLt
    rw [hent, if_neg (by omega), if_neg (by omega)]; exact h5 b
  have hleaf : ∀ i, i < 256 → entryAt absentRec t i = if i = a.toNat then leafRec a (s.freqAt a) else absentRec :=
    fun i hi => by
      have hb : (BitVec.ofNat 8 i).toNat = i := by rw [BitVec.toNat_ofNat]; omega
      have := hleaves (BitVec.ofNat 8 i)
      rw [hb] at this
      rw [this]
      by_cases hia : i = a.toNat
      · have : BitVec.ofNat 8 i = a := BitVec.eq_of_toNat_eq (by rw [hb, hia])
        rw [this, if_neg ha, if_pos hia]
      · rw [if_neg hia, if_pos]
        by_contra hf
        exact hia (by rw [← huniq _ hf, hb])
  have h256 : entryAt absentRec t 256 = internalRec x.freq x.index 511 := by rw [hent, if_pos rfl]
  have h511 : entryAt absentRec t 511 = placeholderRec := by rw [hent, if_neg (by decide), if_pos rfl]
  have hbeyond : ∀ i, 256 ≤ i → i ≠ 256 → i ≠ 511 → entryAt absentRec t i = absentRec := fun i hi e1 e2 => by
    rw [hent, if_neg e1, if_neg e2]; exact h6 i hi
  have hchild : ∀ i b k, treeChild (entryAt absentRec t i) b = some k → i = 256 ∧ k = if b then 511 else a.toNat :=
    fun i b k hk => by
      by_cases e1 : i = 256
      · rw [e1, h256, treeChild_internalRec, hxi] at hk
        exact ⟨e1, by simpa using hk.symm⟩
      by_cases e2 : i = 511
      · rw [e2, h511] at hk; cases b <;> cases hk
      by_cases e3 : i < 256
      · rw [hleaf i e3] at hk
        split at hk
        · rw [treeChild_leafRec] at hk; cases hk
        · cases b <;> cases hk
      · rw [hbeyond i (by omega) e1 e2] at hk; cases b <;> cases hk
  have hra : entryAt absentRec t a.toNat = leafRec a (s.freqAt a) := by rw [hleaf _ halt, if_pos rfl]
  refine ⟨hw, treeShape_of_facts hw.1 (fun i hi => ?_) (fun i j b d k hi hj => ?_) (fun i hi => ?_) (by rw [h256]; rfl),
    hleaves, h256, h511, hbeyond⟩
  · by_cases e1 : i = 256
    · subst e1
      rw [h256]
      refine ⟨by simp, by simp, x.index, 511, ?_, ⟨?_, .inl ?_⟩, ?_, .inr rfl⟩
      · rw [h511, hxi, hra, hx]; simp [placeholderRec, leafRec, leafKey]
      · rw [hxi, hra]; simp [leafRec]
      · show x.index < 256; omega
      · rw [h511]; decide
    by_cases e2 : i = 511
    · subst e2; rw [h511]; exact ⟨rfl, rfl⟩
    by_cases e3 : i < 256
    · rw [hleaf i e3] at hi ⊢
      by_cases hia : i = a.toNat
      · rw [if_pos hia]
        refine ⟨e3, ?_, ha⟩
        have : BitVec.ofNat 8 i = a := BitVec.eq_of_toNat_eq (by rw [BitVec.toNat_ofNat]; omega)
        simp only [this]; rfl
      · rw [if_neg hia] at hi; exact absurd rfl hi
    · exact absurd (hbeyond i (by omega) e1 e2) hi
  · obtain ⟨rfl, e1⟩ := hchild i b k hi
    obtain ⟨rfl, e2⟩ := hchild j d k hj
    refine ⟨rfl, ?_⟩
    rw [e1] at e2
    cases b <;> cases d
    · rfl
    · simp at e2; omega
    · simp at e2; omega
    · rfl
  · constructor
    · rintro ⟨j, b, hj⟩ e
      obtain ⟨-, hk⟩ := hchild j b i hj
      cases b <;> simp at hk <;> omega
    · intro hne
      by_cases e2 : i = 511
      · exact ⟨256, true, by rw [h256, treeChild_internalRec, e2]; rfl⟩
      by_cases e3 : i < 256
      · refine ⟨256, false, ?_⟩
        rw [hleaf i e3] at hi
        by_cases hia : i = a.toNat
        · rw [h256, treeChild_internalRec, hxi, hia]; rfl
        · rw [if_neg hia] at hi; exact absurd rfl hi
      · exact absurd (hbeyond i (by omega) (fun e => hne e.symm) e2) hi

/-- What BUILD leaves (rules R135 to R140): one tree of the shape, its root, and a leaf for each byte value counted. -/
theorem built_spec (s : State) :
    let t := (buildTree (addLeaves s)).1.tree
    let root := (buildTree (addLeaves s)).2
    TableOk absentRec Config.treeN t ∧ TreeShape t root ∧ (root = none ↔ s.distinctBytes = 0) ∧
    (∀ b : Byte, entryAt absentRec t b.toNat = if s.freqAt b = 0#32 then absentRec else leafRec b (s.freqAt b)) ∧
    (t.filter fun e => e.2.kind == .leaf).length = s.distinctBytes := by
  obtain ⟨h1, h2, -, h4, h5, h6⟩ := addLeaves_spec s
  have hlen := length_addLeaves s
  have hn : s.distinctBytes ≤ 256 := by
    unfold State.distinctBytes
    exact Nat.le_trans (List.length_filter_le _ _) (by simp)
  -- the leaves are counted alike in every case
  have hcount : ∀ t : Table TreeRec, tableWf absentRec t = true →
      (∀ b : Byte, entryAt absentRec t b.toNat = if s.freqAt b = 0#32 then absentRec else leafRec b (s.freqAt b)) →
      (∀ i, 256 ≤ i → (entryAt absentRec t i).kind ≠ .leaf) →
      (t.filter fun e => e.2.kind == .leaf).length = s.distinctBytes := fun t hw hl hb => by
    rw [← length_counted]
    have hnodup : (t.filter fun e => e.2.kind == .leaf).Nodup :=
      ((pairwise_keys hw).imp fun hne e => hne (congrArg Prod.fst e)).filter _
    have hnodup2 : ((counted s).map fun b : Byte => (b.toNat, leafRec b (s.freqAt b))).Nodup :=
      (nodup_allBytes.filter _).map fun x y e => BitVec.eq_of_toNat_eq (congrArg Prod.fst e)
    have hp : (t.filter fun e => e.2.kind == .leaf).Perm ((counted s).map fun b : Byte => (b.toNat, leafRec b (s.freqAt b))) := by
      rw [List.perm_ext_iff_of_nodup hnodup hnodup2]
      intro e
      simp only [List.mem_filter, beq_iff_eq, List.mem_map]
      constructor
      · rintro ⟨he, hk⟩
        have hent := entryAt_of_mem hw he
        have hlt : e.1 < 256 := by
          by_contra hge
          exact hb e.1 (by omega) (by rw [hent]; exact hk)
        have hbv : (BitVec.ofNat 8 e.1).toNat = e.1 := by rw [BitVec.toNat_ofNat]; omega
        have hle := hl (BitVec.ofNat 8 e.1)
        rw [hbv, hent] at hle
        have hf : s.freqAt (BitVec.ofNat 8 e.1) ≠ 0#32 := fun h0 => by
          rw [if_pos h0] at hle; rw [hle] at hk; cases hk
        rw [if_neg hf] at hle
        exact ⟨_, mem_counted.2 hf, Prod.ext hbv hle.symm⟩
      · rintro ⟨b, hb2, rfl⟩
        have hf := mem_counted.1 hb2
        have := hl b
        rw [if_neg hf] at this
        refine ⟨?_, rfl⟩
        have hm := treeRec_of_kind (t := t) (i := b.toNat) (by rw [this]; simp [leafRec])
        rwa [this] at hm
    rw [hp.length_eq, List.length_map]
  rcases buildTree_cases (addLeaves s) with ⟨hq, hb⟩ | ⟨x, hq, hb⟩ | ⟨x, hl2, hq, hb⟩
  · rw [hb]
    have h0 : s.distinctBytes = 0 := by rw [← hlen, hq]; rfl
    have hnil : ∀ i, entryAt absentRec (addLeaves s).tree i = absentRec := fun i => by
      by_cases hi : i < 256
      · have hbv : (BitVec.ofNat 8 i).toNat = i := by rw [BitVec.toNat_ofNat]; omega
        have := h5 (BitVec.ofNat 8 i)
        rw [hbv] at this
        rw [this, if_pos]
        by_contra hf
        have := mem_counted.2 hf
        rw [List.length_eq_zero_iff.1 ((length_counted s).trans h0)] at this
        simp at this
      · exact h6 i (by omega)
    have htree : (addLeaves s).tree = [] := by
      cases ht : (addLeaves s).tree with
      | nil => rfl
      | cons e r =>
        have hm : e ∈ (addLeaves s).tree := by rw [ht]; simp
        exact absurd ((entryAt_of_mem h1.1 hm).symm.trans (hnil e.1)) (ne_of_mem h1.1 hm)
    refine ⟨h1, ?_, by simp [h0], h5, by simp [htree, h0]⟩
    simp only [htree]
    exact ⟨by simp, by simp [treeRefs], by simp, rfl⟩
  · rw [hb]
    obtain ⟨k1, k2, k3, k4, k5, k6⟩ := treeShape_single hq
    have h1' : s.distinctBytes = 1 := by rw [← hlen, hq]; rfl
    refine ⟨k1, k2, by simp [h1'], k3, hcount _ k1.1 k3 fun i hi => ?_⟩
    by_cases e1 : i = 256
    · rw [e1, k4]; simp [internalRec]
    by_cases e2 : i = 511
    · rw [e2, k5]; decide
    rw [k6 i hi e1 e2]; decide
  · rw [hb]
    obtain ⟨y, hy, hinv⟩ := mergeInv_mergeLoop s (by omega)
    rw [hq] at hy
    obtain ⟨k1, k2⟩ := treeShape_of_mergeInv (by omega) hn hinv hq
    refine ⟨hinv.table, k2, by simp; omega, hinv.leaves, hcount _ hinv.table.1 hinv.leaves fun i hi => ?_⟩
    by_cases h2 : i < 256 + (s.distinctBytes - 1)
    · obtain ⟨a, d, e, -⟩ := hinv.nodes (i - 256) (by omega)
      rw [show 256 + (i - 256) = i by omega] at e
      rw [e]; simp [internalRec]
    · rw [hinv.beyond i (by omega)]; decide

end Sys2Proof.Machine
end

