-- ==== Sys2Proof/Laws/Serialize.lean ====
section
/-! SUPPORT. DSER (rule R166) writes the blob of the table, or runs out of room. -/

namespace Sys2Proof.Machine

variable {s : State}

theorem State.memWriteAll_append (s : State) (sp : Space) (a : Nat) (vs ws : List Byte) :
    s.memWriteAll sp a (vs ++ ws) = (s.memWriteAll sp a vs).memWriteAll sp (a + vs.length) ws := by
  induction vs generalizing s a with
  | nil => simp
  | cons v rest ih =>
    simp only [List.cons_append, State.memWriteAll_cons, List.length_cons, ih]
    congr 1; omega

@[simp] theorem length_entryBytes (b : Byte) (cw : List Bool) : (entryBytes b cw).length = 5 + cw.length := by
  simp [entryBytes]; omega

/-- The bytes of the entries of a list of byte values, those without a codeword left out. -/
def entriesBytes (s : State) (bs : List Byte) : List Byte :=
  bs.flatMap fun b => if s.codeAt b = [] then [] else entryBytes b (s.codeAt b)

theorem entriesBytes_cons (s : State) (b : Byte) (bs : List Byte) :
    entriesBytes s (b :: bs) = (if s.codeAt b = [] then [] else entryBytes b (s.codeAt b)) ++ entriesBytes s bs := by
  simp [entriesBytes]

/-- DSER's loop over a list of byte values from offset `p`: it writes all their entries when they fit; otherwise it raises
SinkUnavailable with some of them written. -/
theorem dserLoop_spec (bs : List Byte) (u : State) (p : Nat) (hu : DiffersIn .dict s u) (hp : p ≤ s.cap .dict) :
    (p + (entriesBytes s bs).length ≤ s.cap .dict →
      dserLoop bs (u, p) = .done (u.memWriteAll .dict p (entriesBytes s bs), p + (entriesBytes s bs).length)) ∧
    (s.cap .dict < p + (entriesBytes s bs).length →
      ∃ v, dserLoop bs (u, p) = .raised .sinkUnavailable 2 v ∧ DiffersIn .dict s v) := by
  induction bs generalizing u p with
  | nil => exact ⟨fun _ => by simp [dserLoop, entriesBytes], fun h => absurd h (by simp [entriesBytes]; omega)⟩
  | cons b rest ih =>
    rw [entriesBytes_cons, dserLoop]
    by_cases hcw : s.codeAt b = []
    · have he : dserEntry u p b = .done (u, p) := by simp [dserEntry, hu.codeAt, hcw]
      simp only [hcw, he, andThen_done, if_true, List.nil_append]
      exact ih u p hu hp
    · have hlen : (s.codeAt b).length ≠ 0 := fun h => hcw (List.length_eq_zero_iff.1 h)
      simp only [hcw, if_false, List.length_append, length_entryBytes]
      by_cases hfit : p + 5 + (s.codeAt b).length > s.cap .dict
      · have he : dserEntry u p b = .raised .sinkUnavailable 2 u := by
          simp [dserEntry, hu.codeAt, hlen, hu.cap, hfit, spaceId]
        rw [he]
        exact ⟨fun h => by omega, fun _ => ⟨u, rfl, hu⟩⟩
      · have he : dserEntry u p b =
            .done (u.memWriteAll .dict p (entryBytes b (s.codeAt b)), p + 5 + (s.codeAt b).length) := by
          simp [dserEntry, hu.codeAt, hlen, hu.cap, hfit]
        rw [he]
        obtain ⟨h1, h2⟩ := ih (u.memWriteAll .dict p (entryBytes b (s.codeAt b))) (p + 5 + (s.codeAt b).length)
          (hu.trans (differsIn_memWriteAll _ _ _ _)) (by omega)
        simp only [andThen_done]
        constructor
        · intro h
          rw [h1 (by omega), State.memWriteAll_append, length_entryBytes]
          congr 2
          · congr 1; omega
          · omega
        · intro h; exact h2 (by omega)

/-- The blob DSER writes, byte by byte. -/
def dserBlob (s : State) : List Byte := le32Bytes s.codedBytes ++ entriesBytes s allBytes

/-- Everything DSER's body does (rule R166). -/
theorem dserBody_spec (s : State) :
    ((dserBlob s).length ≤ s.cap .dict →
      dserBody s = .done ((s.memWriteAll .dict 0 (dserBlob s)).setLen .dict (dserBlob s).length)) ∧
    (s.cap .dict < (dserBlob s).length →
      ∃ v, dserBody s = .raised .sinkUnavailable 2 v ∧ DiffersIn .dict s v) := by
  have hl : (dserBlob s).length = 4 + (entriesBytes s allBytes).length := by simp [dserBlob]
  unfold dserBody
  by_cases h4 : 4 > s.cap .dict
  · simp only [h4, if_true]
    exact ⟨fun h => by omega, fun _ => ⟨s, rfl, DiffersIn.refl _ _⟩⟩
  · simp only [h4, if_false]
    obtain ⟨h1, h2⟩ := dserLoop_spec allBytes (s.memWrite32 .dict 0 s.codedBytes) 4
      (differsIn_memWriteAll s .dict 0 _) (by omega)
    constructor
    · intro h
      rw [h1 (by omega), andThen_done, dserBlob, State.memWriteAll_append]
      simp [State.memWrite32]
    · intro h
      obtain ⟨v, hv, hd⟩ := h2 (by omega)
      exact ⟨v, by rw [hv, andThen_raised], hd⟩

theorem codeEntries_eq (s : State) :
    s.codeEntries = (allBytes.filter fun b => !(s.codeAt b).isEmpty).map fun b => (b, s.codeAt b) := by
  simp only [State.codeEntries, List.filter_map]; rfl

theorem length_codeEntries (s : State) : s.codeEntries.length = s.codedBytes := by
  rw [codeEntries_eq, List.length_map]; rfl

theorem mem_codeEntries {s : State} {e : Byte × List Bool} : e ∈ s.codeEntries ↔ s.codeAt e.1 = e.2 ∧ e.2 ≠ [] := by
  obtain ⟨b, cw⟩ := e
  simp only [codeEntries_eq, List.mem_map, List.mem_filter, mem_allBytes, true_and, Prod.mk.injEq, Bool.not_eq_true',
    List.isEmpty_eq_false_iff]
  constructor
  · rintro ⟨b2, h1, rfl, rfl⟩; exact ⟨rfl, h1⟩
  · rintro ⟨rfl, h⟩; exact ⟨b, h, rfl, rfl⟩

/-- The blob is that of the table's entries in rising order of byte value (rules R96, R97, R99). -/
theorem dserBlob_eq (s : State) : dserBlob s = blobOf s.codeEntries := by
  unfold dserBlob blobOf entriesBytes
  rw [length_codeEntries, codeEntries_eq]
  congr 1
  induction allBytes with
  | nil => rfl
  | cons b rest ih =>
    rw [List.flatMap_cons, List.filter_cons, ih]
    cases hcw : s.codeAt b <;> simp [hcw]

/-- The region of a buffer whose first bytes were just written and whose length is their number. -/
theorem region_written (s : State) (sp : Space) (vs : List Byte) (h : vs.length < 2 ^ 32) :
    ((s.memWriteAll sp 0 vs).setLen sp vs.length).region sp = vs := by
  have hlen : ((s.memWriteAll sp 0 vs).setLen sp vs.length).len sp = vs.length := by
    rw [State.len_setLen, if_pos rfl]; exact Nat.mod_eq_of_lt h
  unfold State.region
  rw [hlen]
  apply List.ext_getElem (by simp)
  intro k h1 h2
  simp only [List.getElem_map, List.getElem_range]
  rw [show ((s.memWriteAll sp 0 vs).setLen sp vs.length).memRead sp k = (s.memWriteAll sp 0 vs).memRead sp k by
    simp, State.memRead_memWriteAll]
  simp [List.getD_eq_getElem?_getD, h2]

end Sys2Proof.Machine
end

