-- ==== Sys2Proof/Laws/CodeTable.lean ====
section
/-! SUPPORT. GEN (rule R151): its walk visits every node of a built tree once and gives each leaf its path. -/

namespace Sys2Proof.Machine

variable {s : State}

/-- The nodes under a node and their paths, in the order of GEN's walk; the first argument bounds the depth. -/
def visited (tr : Nat → TreeRec) : Nat → Nat → List Bool → List (Nat × List Bool)
  | 0, _, _ => []
  | f + 1, i, p =>
    (i, p) ::
      (match treeChild (tr i) false with
        | some l => visited tr f l (p ++ [false])
        | none => []) ++
      (match treeChild (tr i) true with
        | some h => visited tr f h (p ++ [true])
        | none => [])

/-- A node visited writes its path when it is a leaf. -/
def markLeaf (s : State) (t : Table (List Bool)) (e : Nat × List Bool) : Table (List Bool) :=
  if (s.treeAt e.1).kind = .leaf then setEntry [] t (s.treeAt e.1).value.toNat e.2 else t

/-- What is visited: every node that a path leads to, with the path. -/
theorem mem_visited {tr : Nat → TreeRec} {r : Nat} (h : TreeInv tr r) (f i : Nat) (p : List Bool) (hf : rank tr i < f)
    (j : Nat) (w : List Bool) :
    (j, w) ∈ visited tr f i p ↔ ∃ q, w = p ++ q ∧ treeWalkIn tr i q = some j := by
  induction f generalizing i p with
  | zero => omega
  | succ f ih =>
    have hsub : ∀ b (l : List (Nat × List Bool)),
        (l = match treeChild (tr i) b with | some c => visited tr f c (p ++ [b]) | none => []) →
        ((j, w) ∈ l ↔ ∃ q, w = p ++ b :: q ∧ treeWalkIn tr i (b :: q) = some j) := fun b l hl => by
      simp only [treeWalkIn]
      cases hc : treeChild (tr i) b with
      | none => rw [hc] at hl; subst hl; simp
      | some c =>
        rw [hc] at hl
        subst hl
        have hi : (tr i).kind = .internal := by
          by_contra hne; rw [h.ends i b hne] at hc; cases hc
        obtain ⟨-, -, hch⟩ := h.internal i hi
        obtain ⟨c2, e, -, hlt⟩ := hch b
        rw [hc] at e
        have : c = c2 := by simpa using e
        subst this
        show (j, w) ∈ visited tr f c (p ++ [b]) ↔ _
        rw [ih c (p ++ [b]) (by omega)]
        simp
    rw [visited, List.mem_append, List.mem_cons, hsub false _ rfl, hsub true _ rfl]
    constructor
    · rintro ((he | ⟨q, h1, h2⟩) | ⟨q, h1, h2⟩)
      · obtain ⟨rfl, rfl⟩ : j = i ∧ w = p := by simpa using he
        exact ⟨[], by simp, rfl⟩
      · exact ⟨false :: q, h1, h2⟩
      · exact ⟨true :: q, h1, h2⟩
    · rintro ⟨q, h1, h2⟩
      cases q with
      | nil =>
        have hij : i = j := by simpa [treeWalkIn] using h2
        exact .inl (.inl (by rw [h1, hij]; simp))
      | cons b q =>
        cases b
        · exact .inl (.inr ⟨q, h1, h2⟩)
        · exact .inr ⟨q, h1, h2⟩

/-- No path is visited twice. -/
theorem nodup_visited {tr : Nat → TreeRec} {r : Nat} (h : TreeInv tr r) (f i : Nat) (p : List Bool) (hf : rank tr i < f) :
    ((visited tr f i p).map Prod.snd).Nodup := by
  induction f generalizing i p with
  | zero => omega
  | succ f ih =>
    have hrank : ∀ b c, treeChild (tr i) b = some c → rank tr c < f := fun b c hc => by
      have hi : (tr i).kind = .internal := by
        by_contra hne; rw [h.ends i b hne] at hc; cases hc
      obtain ⟨-, -, hch⟩ := h.internal i hi
      obtain ⟨c2, e, -, hlt⟩ := hch b
      rw [hc] at e
      have : c = c2 := by simpa using e
      subst this
      omega
    have hnd : ∀ b, ((match treeChild (tr i) b with | some c => visited tr f c (p ++ [b]) | none => []).map Prod.snd).Nodup :=
      fun b => by
        cases hc : treeChild (tr i) b with
        | none => exact List.nodup_nil
        | some c => exact ih c (p ++ [b]) (hrank b c hc)
    have hpre : ∀ b w, w ∈ (match treeChild (tr i) b with | some c => visited tr f c (p ++ [b]) | none => []).map Prod.snd →
        ∃ q, w = p ++ b :: q := fun b w hw => by
      cases hc : treeChild (tr i) b with
      | none => rw [hc] at hw; simp at hw
      | some c =>
        rw [hc] at hw
        obtain ⟨e, he, rfl⟩ := List.mem_map.1 hw
        obtain ⟨q, hq, -⟩ := (mem_visited h f c (p ++ [b]) (hrank b c hc) e.1 e.2).1 he
        exact ⟨q, by rw [hq]; simp⟩
    rw [visited, List.map_append, List.map_cons, List.nodup_append, List.nodup_cons]
    refine ⟨⟨fun hm => ?_, hnd false⟩, hnd true, fun w h1 w2 h2 e => ?_⟩
    · obtain ⟨q, hq⟩ := hpre false _ hm
      have := congrArg List.length hq
      simp at this
    · subst e
      obtain ⟨q2, hq2⟩ := hpre true w h2
      rcases List.mem_cons.1 h1 with rfl | h1
      · have := congrArg List.length hq2
        simp at this
      · obtain ⟨q, hq⟩ := hpre false w h1
        rw [hq] at hq2
        have := List.append_cancel_left hq2
        simp at this

/-- The walk takes one pop for each node visited. -/
theorem genWalk_visited {r : Nat} (h : TreeInv s.treeAt r) (f i : Nat) (p : List Bool) (hf : rank s.treeAt i < f)
    (n : Nat) (stack : List (Nat × List Bool)) (t : Table (List Bool)) :
    genWalk s ((visited s.treeAt f i p).length + n) ((i, p) :: stack) t =
      genWalk s n stack ((visited s.treeAt f i p).foldl (markLeaf s) t) := by
  induction f generalizing i p n stack t with
  | zero => omega
  | succ f ih =>
    by_cases hi : (s.treeAt i).kind = .internal
    · obtain ⟨-, -, hch⟩ := h.internal i hi
      obtain ⟨l, hl, -, hlt⟩ := hch false
      obtain ⟨hh, hhi, -, hht⟩ := hch true
      have hv : visited s.treeAt (f + 1) i p =
          (i, p) :: (visited s.treeAt f l (p ++ [false]) ++ visited s.treeAt f hh (p ++ [true])) := by
        simp [visited, hl, hhi]
      have hlow : (s.treeAt i).low = some l := hl
      have hhigh : (s.treeAt i).high = some hh := hhi
      have hmark : markLeaf s t (i, p) = t := by simp [markLeaf, hi]
      rw [hv, List.length_cons, List.length_append, List.foldl_cons, List.foldl_append, hmark,
        show (visited s.treeAt f l (p ++ [false])).length + (visited s.treeAt f hh (p ++ [true])).length + 1 + n =
          ((visited s.treeAt f l (p ++ [false])).length + ((visited s.treeAt f hh (p ++ [true])).length + n)) + 1 by omega]
      rw [genWalk]
      simp only [hi, hlow, hhigh, pushChild]
      rw [ih l (p ++ [false]) (by omega), ih hh (p ++ [true]) (by omega)]
    · have hv : visited s.treeAt (f + 1) i p = [(i, p)] := by
        simp [visited, h.ends i _ hi]
      rw [hv, List.length_singleton, Nat.add_comm 1 n, genWalk, List.foldl_cons, List.foldl_nil]
      cases hk : (s.treeAt i).kind with
      | internal => exact absurd hk hi
      | leaf => simp [markLeaf, hk]
      | absent => simp [markLeaf, hk]
      | unused => simp [markLeaf, hk]

theorem genWalk_nil (s : State) (n : Nat) (t : Table (List Bool)) : genWalk s n [] t = t := by cases n <;> rfl

/-- The nodes visited from the root are distinct, and the walk's bound is enough for them. -/
theorem length_visited {r : Nat} (h : TreeInv s.treeAt r) :
    (visited s.treeAt 256 r []).length ≤ genPops ∧ ((visited s.treeAt 256 r []).map Prod.fst).Nodup := by
  have hr : rank s.treeAt r < 256 := by have := h.rank_le r; omega
  have hnd := nodup_visited h 256 r [] hr
  have hfst : ((visited s.treeAt 256 r []).map Prod.fst).Nodup := by
    refine (List.nodup_map_iff_inj_on hnd.of_map).2 fun x hx y hy e => ?_
    obtain ⟨q, hq, hw⟩ := (mem_visited h 256 r [] hr x.1 x.2).1 hx
    obtain ⟨q2, hq2, hw2⟩ := (mem_visited h 256 r [] hr y.1 y.2).1 hy
    rw [e] at hw
    have := h.unique hw hw2
    exact Prod.ext e (by rw [hq, hq2, this])
  refine ⟨?_, hfst⟩
  have hsub : (visited s.treeAt 256 r []).map Prod.fst ⊆ List.range 512 := fun j hj => by
    obtain ⟨e, he, rfl⟩ := List.mem_map.1 hj
    obtain ⟨q, -, hw⟩ := (mem_visited h 256 r [] hr e.1 e.2).1 he
    exact List.mem_range.2 (h.bound _ (h.present (by rw [h.root]; decide) hw))
  have := (hfst.subperm hsub).length_le
  simpa [genPops, Config.treeN] using this

/-- The marks of distinct nodes: a byte value reads as the path of its leaf. -/
theorem entryAt_foldl_markLeaf {r : Nat} (h : TreeInv s.treeAt r) (vs : List (Nat × List Bool))
    (hn : (vs.map Prod.fst).Nodup) {t : Table (List Bool)} (ht : TableOk [] 256 t) (b : Byte) :
    TableOk [] 256 (vs.foldl (markLeaf s) t) ∧
    (∀ w, (b.toNat, w) ∈ vs → (s.treeAt b.toNat).kind = .leaf → entryAt [] (vs.foldl (markLeaf s) t) b.toNat = w) ∧
    ((s.treeAt b.toNat).kind ≠ .leaf ∨ b.toNat ∉ vs.map Prod.fst →
      entryAt [] (vs.foldl (markLeaf s) t) b.toNat = entryAt [] t b.toNat) := by
  induction vs generalizing t with
  | nil => exact ⟨ht, fun w hw => by simp at hw, fun _ => rfl⟩
  | cons v rest ih =>
    rw [List.map_cons, List.nodup_cons] at hn
    have hok : TableOk [] 256 (markLeaf s t v) := by
      unfold markLeaf
      split
      · exact tableOk_setEntry ht (s.treeAt v.1).value.isLt _
      · exact ht
    have hone : entryAt [] (markLeaf s t v) b.toNat =
        if (s.treeAt b.toNat).kind = .leaf ∧ v.1 = b.toNat then v.2 else entryAt [] t b.toNat := by
      unfold markLeaf
      by_cases hk : (s.treeAt v.1).kind = .leaf
      · obtain ⟨hlt, hval⟩ := h.leaf v.1 hk
        rw [if_pos hk, entryAt_setEntry ht.1, hval, BitVec.toNat_ofNat, Nat.mod_eq_of_lt (by omega)]
        by_cases he : v.1 = b.toNat
        · rw [if_pos he.symm, if_pos ⟨he ▸ hk, he⟩]
        · rw [if_neg (fun e => he e.symm), if_neg (fun e => he e.2)]
      · rw [if_neg hk, if_neg]
        rintro ⟨h1, h2⟩; rw [h2] at hk; exact hk h1
    obtain ⟨h1, h2, h3⟩ := ih hn.2 hok
    rw [List.foldl_cons]
    refine ⟨h1, fun w hw hk => ?_, fun hno => ?_⟩
    · rcases List.mem_cons.1 hw with he | hw
      · have hv1 : v.1 = b.toNat := by rw [← he]
        have hv2 : v.2 = w := by rw [← he]
        rw [h3 (.inr (hv1 ▸ hn.1)), hone, if_pos ⟨hk, hv1⟩, hv2]
      · exact h2 w hw hk
    · have : ¬ ((s.treeAt b.toNat).kind = .leaf ∧ v.1 = b.toNat) := fun ⟨k1, k2⟩ => by
        rcases hno with hno | hno
        · exact hno k1
        · exact hno (by rw [List.map_cons, ← k2]; simp)
      rw [h3 (hno.imp_right fun hm hin => hm (by rw [List.map_cons]; exact List.mem_cons_of_mem _ hin)), hone, if_neg this]

/-- The table GEN makes from a built tree (rules R150 to R152). -/
theorem genWalk_spec {r : Nat} (h : TreeInv s.treeAt r) (b : Byte) :
    TableOk [] 256 (genWalk s genPops [(r, [])] []) ∧
    (∀ w, treeWalkIn s.treeAt r w = some b.toNat → (s.treeAt b.toNat).kind = .leaf →
      entryAt [] (genWalk s genPops [(r, [])] []) b.toNat = w) ∧
    ((¬ ∃ w, treeWalkIn s.treeAt r w = some b.toNat ∧ (s.treeAt b.toNat).kind = .leaf) →
      entryAt [] (genWalk s genPops [(r, [])] []) b.toNat = []) := by
  have hr : rank s.treeAt r < 256 := by have := h.rank_le r; omega
  obtain ⟨hlen, hnd⟩ := length_visited h
  have hwalk : genWalk s genPops [(r, [])] [] = (visited s.treeAt 256 r []).foldl (markLeaf s) [] := by
    obtain ⟨d, hd⟩ : ∃ d, genPops = (visited s.treeAt 256 r []).length + d := ⟨_, (Nat.add_sub_cancel' hlen).symm⟩
    rw [hd, genWalk_visited h 256 r [] hr, genWalk_nil]
  rw [hwalk]
  obtain ⟨h1, h2, h3⟩ := entryAt_foldl_markLeaf h _ hnd (tableOk_nil [] 256) b
  refine ⟨h1, fun w hw hk => h2 w ((mem_visited h 256 r [] hr _ _).2 ⟨w, rfl, hw⟩) hk, fun hno => ?_⟩
  refine (h3 ?_).trans rfl
  by_cases hk : (s.treeAt b.toNat).kind = .leaf
  · right
    intro hm
    obtain ⟨e, he, heq⟩ := List.mem_map.1 hm
    obtain ⟨q, -, hw⟩ := (mem_visited h 256 r [] hr e.1 e.2).1 he
    exact hno ⟨q, by rw [← heq]; exact hw, by rw [← heq] at hk; rw [← heq]; exact hk⟩
  · exact .inl hk

/-- Leaves reached from the root: the path of the leaf of `b`. -/
def LeafPath (tr : Nat → TreeRec) (r : Nat) (b : Byte) (w : List Bool) : Prop :=
  treeWalkIn tr r w = some b.toNat ∧ (tr b.toNat).kind = .leaf

/-- The same said through values, as `State.TreeRoutes` says it. -/
theorem treeRoutes_iff {r : Nat} (h : TreeInv s.treeAt r) (w : List Bool) (b : Byte) :
    s.TreeRoutes r w b ↔ LeafPath s.treeAt r b w := by
  unfold State.TreeRoutes LeafPath
  rw [State.treeWalk_eq]
  constructor
  · rintro ⟨i, h1, h2, h3⟩
    obtain ⟨hlt, hval⟩ := h.leaf i h2
    have : b.toNat = i := by rw [← h3, hval, BitVec.toNat_ofNat]; omega
    rw [this]; exact ⟨h1, h2⟩
  · rintro ⟨h1, h2⟩
    refine ⟨b.toNat, h1, h2, ?_⟩
    rw [(h.leaf _ h2).2]
    simp

theorem LeafPath.ne_nil {tr : Nat → TreeRec} {r : Nat} {b : Byte} {w : List Bool} (h : TreeInv tr r)
    (hw : LeafPath tr r b w) : w ≠ [] := by
  rintro rfl
  have : r = b.toNat := by simpa [treeWalkIn] using hw.1
  have hk := hw.2
  rw [← this, h.root] at hk
  cases hk

/-- A codeword is the path of a leaf, and no path of a leaf begins another (rule R153). -/
theorem LeafPath.prefix_eq {tr : Nat → TreeRec} {r : Nat} {b c : Byte} {v w : List Bool} (h : TreeInv tr r)
    (hv : LeafPath tr r b v) (hw : LeafPath tr r c w) (hp : v <+: w) : b = c := by
  obtain ⟨q, rfl⟩ := hp
  have hw1 := hw.1
  rw [treeWalkIn_append, hv.1] at hw1
  cases q with
  | nil =>
    have : b.toNat = c.toNat := by simpa [treeWalkIn] using hw1
    exact BitVec.eq_of_toNat_eq this
  | cons x q =>
    have : treeChild (tr b.toNat) x = none := h.ends _ _ (by rw [hv.2]; decide)
    simp [treeWalkIn, this] at hw1

theorem LeafPath.length_le {tr : Nat → TreeRec} {r : Nat} {b : Byte} {w : List Bool} (h : TreeInv tr r)
    (hw : LeafPath tr r b w) : w.length ≤ 255 := by
  have h1 := h.length_path hw.1
  have h2 := h.rank_le r
  omega

/-- A table whose codewords are the leaves' paths is a CodeTable (rules R150, R153). -/
theorem validTable_of_leafPaths {t : State} {tr : Nat → TreeRec} {r : Nat} (h : TreeInv tr r)
    (hc : ∀ b, t.codeAt b ≠ [] → LeafPath tr r b (t.codeAt b)) : ValidTable t.codeEntries := by
  have hmem : ∀ e ∈ t.codeEntries, LeafPath tr r e.1 e.2 := fun e he => by
    obtain ⟨h1, h2⟩ := mem_codeEntries.1 he
    rw [← h1]; exact hc e.1 (by rw [h1]; exact h2)
  have hkeys : (t.codeEntries.map Prod.fst).Nodup := by
    rw [codeEntries_eq, List.map_map]
    have : (Prod.fst ∘ fun b : Byte => (b, t.codeAt b)) = id := rfl
    rw [this, List.map_id]
    exact nodup_allBytes.filter _
  refine ⟨hkeys, fun e he => ⟨?_, LeafPath.length_le h (hmem e he)⟩, ?_⟩
  · exact List.length_pos_iff.2 (LeafPath.ne_nil h (hmem e he))
  · have hp : t.codeEntries.Pairwise fun x y => x.1 ≠ y.1 := List.pairwise_map.1 hkeys
    refine hp.imp_of_mem fun {x y} hx hy hne => ⟨fun hpre => ?_, fun hpre => ?_⟩
    · exact hne (LeafPath.prefix_eq h (hmem x hx) (hmem y hy) hpre)
    · exact hne (LeafPath.prefix_eq h (hmem y hy) (hmem x hx) hpre).symm

/-- The state GEN ends in (rule R151). -/
def State.generated (s : State) : State :=
  { s.setFlag .code false with
    code := .known (if rootPresent s.regs.treeRoot then genWalk s genPops [(treeRootIndex s.regs.treeRoot, [])] []
      else []) }.setFlag .code true

/-- GEN raises nothing of its own. -/
theorem genBody_eq (s : State) : genBody s = .done s.generated := rfl

theorem State.generated_frame (s : State) :
    s.generated.freq = s.freq ∧ s.generated.tree = s.tree ∧ s.generated.trie = s.trie ∧ s.generated.pq = s.pq ∧
    (∀ sp, s.generated.buf sp = s.buf sp) ∧ s.generated.params = s.params ∧ s.generated.draws = s.draws ∧
    s.generated.script = s.script ∧ s.generated.returned = s.returned ∧
    s.generated.regs = { s.regs with status := s.generated.regs.status } ∧
    (∀ f, s.generated.flag f = if f = .code then true else s.flag f) ∧
    ∀ i, 4 ≤ i → s.generated.regs.status.getLsbD i = s.regs.status.getLsbD i := by
  have h : s.generated.regs.status = withBit (withBit s.regs.status 2 false) 2 true := rfl
  refine ⟨rfl, rfl, rfl, rfl, fun sp => by cases sp <;> rfl, rfl, rfl, rfl, rfl, rfl, fun f => ?_, fun i hi => ?_⟩
  · unfold State.flag
    rw [h]
    cases f <;> simp only [getLsbD_withBit, flagBit] <;> simp
  · rw [h]
    simp only [getLsbD_withBit]
    rw [if_neg (by omega), if_neg (by omega)]

/-- The codewords GEN leaves for a built tree with a present root: the paths of the leaves (rules R150 to R152). -/
theorem State.codeAt_generated {r : Nat} (h : TreeInv s.treeAt r) (hp : rootPresent s.regs.treeRoot = true)
    (hi : treeRootIndex s.regs.treeRoot = r) (b : Byte) :
    (∀ w, LeafPath s.treeAt r b w → s.generated.codeAt b = w) ∧
    ((¬ ∃ w, LeafPath s.treeAt r b w) → s.generated.codeAt b = []) := by
  obtain ⟨-, h2, h3⟩ := genWalk_spec h b
  have hc : s.generated.codeAt b = entryAt [] (genWalk s genPops [(r, [])] []) b.toNat := by
    show entryAt [] (if rootPresent s.regs.treeRoot then _ else _) _ = _
    rw [if_pos hp, hi]
  exact ⟨fun w hw => hc.trans (h2 w hw.1 hw.2), fun hno => hc.trans (h3 hno)⟩

/-- Of an absent root, the empty table (rule R151). -/
theorem State.codeAt_generated_absent (h : rootPresent s.regs.treeRoot = false) (b : Byte) : s.generated.codeAt b = [] := by
  show entryAt [] (if rootPresent s.regs.treeRoot then _ else _) _ = _
  rw [if_neg (by rw [h]; decide)]; rfl

end Sys2Proof.Machine
end

