-- ==== Sys2Proof/Laws/PerInstr.lean ====
section
/-! SUPPORT. Statements made once per command. `RowMatch`: a command's word, whatever its operand, matches the row of the
opcode map that carries its mnemonic (rule R94). -/

namespace Sys2Proof.Laws

/-- Masking away the operand of a format B word leaves its opcode. -/
theorem wordB_masked (op : BitVec 8) (b : Byte) : Machine.wordB op b &&& 0xFFFF00FF#32 = Machine.wordN op := by
  apply BitVec.eq_of_getLsbD_eq
  intro i hi
  simp only [Machine.wordB, Machine.wordN, BitVec.getLsbD_and, BitVec.getLsbD_append, BitVec.getLsbD_zero]
  rcases Nat.lt_or_ge i 8 with h | h
  · have : (0xFFFF00FF#32).getLsbD i = true := by revert h; revert i; decide
    simp [h, this]
  · rcases Nat.lt_or_ge i 16 with k | k
    · have : (0xFFFF00FF#32).getLsbD i = false := by revert h k; revert i; decide
      simp [this, show ¬ i < 8 by omega]
    · simp [show ¬ i < 8 by omega, show ¬ i - 8 < 8 by omega]

/-- Masking away the operand of a format X word leaves its opcode. -/
theorem wordX_masked (op : BitVec 8) (idx : BitVec 17) :
    Machine.wordX op idx &&& 0xFE0000FF#32 = Machine.wordN op := by
  apply BitVec.eq_of_getLsbD_eq
  intro i hi
  simp only [Machine.wordX, Machine.wordN, BitVec.getLsbD_and, BitVec.getLsbD_append, BitVec.getLsbD_zero]
  rcases Nat.lt_or_ge i 8 with h | h
  · have : (0xFE0000FF#32).getLsbD i = true := by revert h; revert i; decide
    simp [h, this]
  · rcases Nat.lt_or_ge i 25 with k | k
    · have : (0xFE0000FF#32).getLsbD i = false := by revert h k; revert i; decide
      simp [this, show ¬ i < 8 by omega]
    · simp [show ¬ i < 8 by omega, show ¬ i - 8 < 17 by omega]

/-- The word of the command matches a row of the opcode map with the command's mnemonic (rule R94). -/
def RowMatch.Statement (i : Instr) : Prop :=
  ∃ r ∈ opcodeMap, r.mnemonic = i.mnemonic ∧ encode i &&& r.mask = r.pattern

theorem RowMatch.nop : RowMatch.Statement .nop := by unfold RowMatch.Statement; decide
theorem RowMatch.clr : RowMatch.Statement .clr := by unfold RowMatch.Statement; decide
theorem RowMatch.scan : RowMatch.Statement .scan := by unfold RowMatch.Statement; decide
theorem RowMatch.build : RowMatch.Statement .build := by unfold RowMatch.Statement; decide
theorem RowMatch.gen : RowMatch.Statement .gen := by unfold RowMatch.Statement; decide
theorem RowMatch.dser : RowMatch.Statement .dser := by unfold RowMatch.Statement; decide
theorem RowMatch.pack : RowMatch.Statement .pack := by unfold RowMatch.Statement; decide
theorem RowMatch.encode : RowMatch.Statement .encode := by unfold RowMatch.Statement; decide
theorem RowMatch.ddes : RowMatch.Statement .ddes := by unfold RowMatch.Statement; decide
theorem RowMatch.unpack : RowMatch.Statement .unpack := by unfold RowMatch.Statement; decide
theorem RowMatch.decode : RowMatch.Statement .decode := by unfold RowMatch.Statement; decide
theorem RowMatch.lookup (b : Byte) : RowMatch.Statement (.lookup b) :=
  ⟨⟨"LOOKUP", 0x00000030#32, 0xFFFF00FF#32⟩, by decide, rfl, wordB_masked 0x30#8 b⟩
theorem RowMatch.rdfreq (b : Byte) : RowMatch.Statement (.rdfreq b) :=
  ⟨⟨"RDFREQ", 0x00000031#32, 0xFFFF00FF#32⟩, by decide, rfl, wordB_masked 0x31#8 b⟩
theorem RowMatch.rdtree (idx : BitVec 17) : RowMatch.Statement (.rdtree idx) :=
  ⟨⟨"RDTREE", 0x00000032#32, 0xFE0000FF#32⟩, by decide, rfl, wordX_masked 0x32#8 idx⟩
theorem RowMatch.rdtrie (idx : BitVec 17) : RowMatch.Statement (.rdtrie idx) :=
  ⟨⟨"RDTRIE", 0x00000033#32, 0xFE0000FF#32⟩, by decide, rfl, wordX_masked 0x33#8 idx⟩

end Sys2Proof.Laws
end

