-- ==== Sys2Proof/Laws/Decode.lean ====
section
/-! SUPPORT. The fields of command words: what the three word formats hold, and the fields as numbers. -/

namespace Sys2Proof.Machine

theorem wordN_toNat (op : BitVec 8) : (wordN op).toNat = op.toNat := by
  simp only [wordN, BitVec.toNat_append, BitVec.toNat_ofNat]; simp

theorem wordB_toNat (op : BitVec 8) (b : Byte) : (wordB op b).toNat = op.toNat + 256 * b.toNat := by
  have := op.isLt
  simp only [wordB, BitVec.toNat_append, BitVec.toNat_ofNat]
  rw [← Nat.shiftLeft_add_eq_or_of_lt (by omega), ← Nat.shiftLeft_add_eq_or_of_lt (by have := b.isLt; simp; omega)]
  simp [Nat.shiftLeft_eq]; omega

theorem wordX_toNat (op : BitVec 8) (idx : BitVec 17) : (wordX op idx).toNat = op.toNat + 256 * idx.toNat := by
  have := op.isLt
  simp only [wordX, BitVec.toNat_append, BitVec.toNat_ofNat]
  rw [← Nat.shiftLeft_add_eq_or_of_lt (by omega), ← Nat.shiftLeft_add_eq_or_of_lt (by have := idx.isLt; simp; omega)]
  simp [Nat.shiftLeft_eq]; omega

theorem opcodeField_toNat (w : Word) : (opcodeField w).toNat = w.toNat % 2 ^ 8 := by
  simp [opcodeField, BitVec.extractLsb'_toNat]

theorem byteOperand_toNat (w : Word) : (byteOperand w).toNat = w.toNat / 2 ^ 8 % 2 ^ 8 := by
  simp [byteOperand, BitVec.extractLsb'_toNat, Nat.shiftRight_eq_div_pow]

theorem indexOperand_toNat (w : Word) : (indexOperand w).toNat = w.toNat / 2 ^ 8 % 2 ^ 17 := by
  simp [indexOperand, BitVec.extractLsb'_toNat, Nat.shiftRight_eq_div_pow]

theorem zeroFieldN_iff (w : Word) : zeroFieldN w = true ↔ w.toNat < 2 ^ 8 := by
  have := w.isLt
  simp only [zeroFieldN, beq_iff_eq, ← BitVec.toNat_inj, BitVec.extractLsb'_toNat, BitVec.toNat_ofNat,
    Nat.shiftRight_eq_div_pow]
  omega

theorem zeroFieldB_iff (w : Word) : zeroFieldB w = true ↔ w.toNat < 2 ^ 16 := by
  have := w.isLt
  simp only [zeroFieldB, beq_iff_eq, ← BitVec.toNat_inj, BitVec.extractLsb'_toNat, BitVec.toNat_ofNat,
    Nat.shiftRight_eq_div_pow]
  omega

theorem zeroFieldX_iff (w : Word) : zeroFieldX w = true ↔ w.toNat < 2 ^ 25 := by
  have := w.isLt
  simp only [zeroFieldX, beq_iff_eq, ← BitVec.toNat_inj, BitVec.extractLsb'_toNat, BitVec.toNat_ofNat,
    Nat.shiftRight_eq_div_pow]
  omega

/-! ### Reading back what a format writes -/

@[simp] theorem opcodeField_wordN (op : BitVec 8) : opcodeField (wordN op) = op := by
  have := op.isLt
  apply BitVec.eq_of_toNat_eq; rw [opcodeField_toNat, wordN_toNat]; omega

@[simp] theorem opcodeField_wordB (op : BitVec 8) (b : Byte) : opcodeField (wordB op b) = op := by
  have := op.isLt
  apply BitVec.eq_of_toNat_eq; rw [opcodeField_toNat, wordB_toNat]; omega

@[simp] theorem opcodeField_wordX (op : BitVec 8) (idx : BitVec 17) : opcodeField (wordX op idx) = op := by
  have := op.isLt
  apply BitVec.eq_of_toNat_eq; rw [opcodeField_toNat, wordX_toNat]; omega

@[simp] theorem byteOperand_wordB (op : BitVec 8) (b : Byte) : byteOperand (wordB op b) = b := by
  have := op.isLt; have := b.isLt
  apply BitVec.eq_of_toNat_eq; rw [byteOperand_toNat, wordB_toNat]; omega

@[simp] theorem indexOperand_wordX (op : BitVec 8) (idx : BitVec 17) : indexOperand (wordX op idx) = idx := by
  have := op.isLt; have := idx.isLt
  apply BitVec.eq_of_toNat_eq; rw [indexOperand_toNat, wordX_toNat]; omega

@[simp] theorem zeroFieldN_wordN (op : BitVec 8) : zeroFieldN (wordN op) = true := by
  have := op.isLt
  rw [zeroFieldN_iff, wordN_toNat]; omega

@[simp] theorem zeroFieldB_wordB (op : BitVec 8) (b : Byte) : zeroFieldB (wordB op b) = true := by
  have := op.isLt; have := b.isLt
  rw [zeroFieldB_iff, wordB_toNat]; omega

@[simp] theorem zeroFieldX_wordX (op : BitVec 8) (idx : BitVec 17) : zeroFieldX (wordX op idx) = true := by
  have := op.isLt; have := idx.isLt
  rw [zeroFieldX_iff, wordX_toNat]; omega

/-! ### Rebuilding a word from its fields -/

theorem wordN_of_fields {w : Word} (h : zeroFieldN w = true) : wordN (opcodeField w) = w := by
  rw [zeroFieldN_iff] at h
  apply BitVec.eq_of_toNat_eq; rw [wordN_toNat, opcodeField_toNat]; omega

theorem wordB_of_fields {w : Word} (h : zeroFieldB w = true) : wordB (opcodeField w) (byteOperand w) = w := by
  rw [zeroFieldB_iff] at h
  apply BitVec.eq_of_toNat_eq; rw [wordB_toNat, opcodeField_toNat, byteOperand_toNat]; omega

theorem wordX_of_fields {w : Word} (h : zeroFieldX w = true) : wordX (opcodeField w) (indexOperand w) = w := by
  rw [zeroFieldX_iff] at h
  apply BitVec.eq_of_toNat_eq; rw [wordX_toNat, opcodeField_toNat, indexOperand_toNat]; omega

end Sys2Proof.Machine
end

