-- ==== Sys2Proof/Laws/Trie.lean ====
section
/-! SUPPORT. The trie under construction (rules R171, R172): the paths that lead somewhere, the order of their records,
and what one new record and one mark change. -/

namespace Sys2Proof.Machine

/-! ### Walks -/

/-- The node reached from a node along a path, in an arena given as a function. -/
def walkIn (tr : Nat → TrieRec) : Nat → List Bool → Option Nat
  | cur, [] => some cur
  | cur, bit :: rest =>
    match trieChild (tr cur) bit with
    | none => none
    | some nxt => walkIn tr nxt rest

theorem State.trieWalk_eq (s : State) (cur : Nat) (p : List Bool) : s.trieWalk cur p = walkIn s.trieAt cur p := by
  induction p generalizing cur with
  | nil => rfl
  | cons b rest ih => unfold State.trieWalk walkIn; split <;> simp_all

theorem walkIn_append (tr : Nat → TrieRec) (cur : Nat) (p q : List Bool) :
    walkIn tr cur (p ++ q) = (walkIn tr cur p).bind fun n => walkIn tr n q := by
  induction p generalizing cur with
  | nil => rfl
  | cons b rest ih =>
    simp only [List.cons_append, walkIn]
    cases trieChild (tr cur) b with
    | none => rfl
    | some x => exact ih x

theorem walkIn_concat (tr : Nat → TrieRec) (cur : Nat) (p : List Bool) (b : Bool) :
    walkIn tr cur (p ++ [b]) = (walkIn tr cur p).bind fun n => trieChild (tr n) b := by
  rw [walkIn_append]
  congr 1
  funext n
  simp only [walkIn]
  cases trieChild (tr n) b <;> rfl

/-- Part of a path that leads somewhere leads somewhere. -/
theorem walkIn_prefix {tr : Nat → TrieRec} {cur : Nat} {p q : List Bool} {i : Nat} (h : walkIn tr cur q = some i)
    (hp : p <+: q) : ∃ j, walkIn tr cur p = some j := by
  obtain ⟨r, rfl⟩ := hp
  rw [walkIn_append] at h
  cases hw : walkIn tr cur p with
  | none => simp [hw] at h
  | some j => exact ⟨j, rfl⟩

/-! ### The order of first need (rule R172) -/

@[simp] theorem addNew_nil (ps : List (List Bool)) : addNew ps [] = ps := rfl

theorem addNew_append (ps qs rs : List (List Bool)) :
    addNew ps (qs ++ rs) = addNew (addNew ps qs) rs := List.foldl_append

theorem addNew_singleton (ps : List (List Bool)) (q : List Bool) :
    addNew ps [q] = if q ∈ ps then ps else ps ++ [q] := rfl

theorem mem_addNew {ps qs : List (List Bool)} {x : List Bool} : x ∈ addNew ps qs ↔ x ∈ ps ∨ x ∈ qs := by
  induction qs using List.reverseRecOn with
  | nil => simp
  | append_singleton r q ih =>
    rw [addNew_append, addNew_singleton]
    split
    · next hq =>
      rw [ih, List.mem_append, List.mem_singleton, ← or_assoc]
      exact (or_iff_left_of_imp (by rintro rfl; exact ih.1 hq)).symm
    · rw [List.mem_append, ih, List.mem_append, or_assoc]

/-- The paths walked so far, in the order of first need: those of the entries, then those of the codeword under way. -/
def pathsWalked (es : Entries) (p : List Bool) : List (List Bool) := addNew [] ((es.flatMap fun e => e.2.inits) ++ p.inits)

/-- One more bit of the codeword under way. -/
theorem pathsWalked_concat (es : Entries) (p : List Bool) (b : Bool) :
    pathsWalked es (p ++ [b]) =
      if p ++ [b] ∈ pathsWalked es p then pathsWalked es p else pathsWalked es p ++ [p ++ [b]] := by
  have h : (p ++ [b]).inits = p.inits ++ [p ++ [b]] := by simp [List.inits_append]
  rw [pathsWalked, h, ← List.append_assoc, addNew_append, addNew_singleton]
  rfl

/-- A codeword that is whole is an entry's. -/
theorem pathsWalked_entry (es : Entries) (bv : Byte) (p : List Bool) :
    pathsWalked (es ++ [(bv, p)]) [] = pathsWalked es p := by
  have h : pathsWalked (es ++ [(bv, p)]) [] = addNew (pathsWalked es p) [[]] := by
    simp [pathsWalked, List.flatMap_append, addNew_append]
  rw [h, addNew_singleton, if_pos]
  rw [pathsWalked, mem_addNew]
  simp

/-- Between entries the paths walked are those of rule R172. -/
theorem pathsWalked_nil {es : Entries} (h : es ≠ []) : pathsWalked es [] = pathsByNeed es := by
  obtain ⟨e, r, rfl⟩ := List.exists_cons_of_ne_nil h
  have h : pathsWalked (e :: r) [] = addNew (pathsByNeed (e :: r)) [[]] := by
    simp only [pathsWalked, pathsByNeed, addNew_append]; rfl
  rw [h, addNew_singleton, if_pos]
  rw [pathsByNeed, mem_addNew]
  simp

/-! ### The invariant of the construction -/

/-- What holds of the trie when the entries `es` are in it and the node pointer stands at `cur`, reached along `p`. -/
structure TrieInv (t : TrieCtx) (es : Entries) (p : List Bool) (cur : Nat) : Prop where
  table  : tableWf absentTrieRec t.trie = true
  beyond : ∀ i, t.nodes ≤ i → t.recAt i = absentTrieRec
  here   : walkIn t.recAt 0 p = some cur
  paths  : ∀ q, (∃ i, walkIn t.recAt 0 q = some i) ↔ q <+: p ∨ ∃ e ∈ es, q <+: e.2
  leaf   : ∀ q i, walkIn t.recAt 0 q = some i → ((t.recAt i).kind = .leaf ↔ ∃ e ∈ es, e.2 = q)
  value  : ∀ e ∈ es, ∃ i, walkIn t.recAt 0 e.2 = some i ∧ (t.recAt i).value = e.1
  unique : ∀ q r i, walkIn t.recAt 0 q = some i → walkIn t.recAt 0 r = some i → q = r
  all    : ∀ i, i < t.nodes ↔ ∃ q, walkIn t.recAt 0 q = some i
  shape  : ∀ i, i < t.nodes →
    ((t.recAt i).kind = .leaf ∧ (t.recAt i).low = none ∧ (t.recAt i).high = none) ∨
    ((t.recAt i).kind = .internal ∧ (t.recAt i).value = 0#8 ∧
      (i = cur ∨ (t.recAt i).low ≠ none ∨ (t.recAt i).high ≠ none))
  rises  : ∀ i b c, trieChild (t.recAt i) b = some c → i < c ∧ c < t.nodes
  order  : ∀ q i, walkIn t.recAt 0 q = some i ↔ (pathsWalked es p)[i]? = some q

/-- The records are those of the paths walked (rule R172). -/
theorem TrieInv.nodes_eq {t : TrieCtx} {es : Entries} {p : List Bool} {cur : Nat} (h : TrieInv t es p cur) :
    t.nodes = (pathsWalked es p).length := by
  have hiff : ∀ i, i < t.nodes ↔ i < (pathsWalked es p).length := fun i => by
    rw [h.all i, exists_congr fun q => h.order q i, ← Option.isSome_iff_exists]
    simp
  have h1 := hiff t.nodes
  have h2 := hiff (pathsWalked es p).length
  omega

theorem TrieInv.cur_lt {t : TrieCtx} {es : Entries} {p : List Bool} {cur : Nat} (h : TrieInv t es p cur) :
    cur < t.nodes := (h.all cur).2 ⟨p, h.here⟩

theorem TrieInv.root_lt {t : TrieCtx} {es : Entries} {p : List Bool} {cur : Nat} (h : TrieInv t es p cur) :
    0 < t.nodes := (h.all 0).2 ⟨[], rfl⟩

theorem recAt_writeRec {t : TrieCtx} (h : tableWf absentTrieRec t.trie = true) (i j : Nat) (r : TrieRec) :
    (t.writeRec i r).recAt j = if j = i then r else t.recAt j := entryAt_setEntry h i j r

theorem recAt_newNode {t : TrieCtx} (h : tableWf absentTrieRec t.trie = true) (j : Nat) :
    t.newNode.recAt j = if j = t.nodes then newTrieNode else t.recAt j := entryAt_setEntry h t.nodes j newTrieNode

@[simp] theorem nodes_newNode (t : TrieCtx) : t.newNode.nodes = t.nodes + 1 := rfl

@[simp] theorem nodes_writeRec (t : TrieCtx) (i : Nat) (r : TrieRec) : (t.writeRec i r).nodes = t.nodes := rfl

theorem wf_newNode {t : TrieCtx} (h : tableWf absentTrieRec t.trie = true) : tableWf absentTrieRec t.newNode.trie = true :=
  tableWf_setEntry h t.nodes newTrieNode

theorem wf_writeRec {t : TrieCtx} (h : tableWf absentTrieRec t.trie = true) (i : Nat) (r : TrieRec) :
    tableWf absentTrieRec (t.writeRec i r).trie = true := tableWf_setEntry h i r

/-- The root alone (rule R172). -/
theorem trieInv_root : TrieInv (TrieCtx.newNode ⟨[], 0⟩) [] [] 0 := by
  have hrec : ∀ j, (TrieCtx.newNode ⟨[], 0⟩).recAt j = if j = 0 then newTrieNode else absentTrieRec := fun j =>
    recAt_newNode (t := ⟨[], 0⟩) rfl j
  have hchild : ∀ i b, trieChild ((TrieCtx.newNode ⟨[], 0⟩).recAt i) b = none := fun i b => by
    rw [hrec]; split <;> cases b <;> rfl
  have hwalk : ∀ q i, walkIn (TrieCtx.newNode ⟨[], 0⟩).recAt 0 q = some i → q = [] ∧ i = 0 := fun q i h => by
    cases q with
    | nil => exact ⟨rfl, by simpa [walkIn] using h.symm⟩
    | cons b r => simp [walkIn, hchild] at h
  refine ⟨by decide, fun i hi => ?_, rfl, fun q => ?_, fun q i h => ?_, by simp, fun q r i h1 h2 => ?_, fun i => ?_,
    fun i hi => ?_, fun i b c h => ?_, fun q i => ?_⟩
  · rw [hrec, if_neg (by simp at hi; omega)]
  · constructor
    · rintro ⟨i, hi⟩; rw [(hwalk q i hi).1]; exact .inl (List.prefix_refl _)
    · rintro (h | ⟨e, he, -⟩)
      · rw [List.prefix_nil.1 h]; exact ⟨0, rfl⟩
      · simp at he
  · obtain ⟨-, rfl⟩ := hwalk q i h
    rw [hrec]; simp [newTrieNode]
  · rw [(hwalk q i h1).1, (hwalk r i h2).1]
  · constructor
    · intro hi; exact ⟨[], by simp [walkIn]; simp at hi; omega⟩
    · rintro ⟨q, hq⟩; rw [(hwalk q i hq).2]; simp
  · have : i = 0 := by simp at hi; omega
    subst this
    exact .inr ⟨by rw [hrec]; rfl, by rw [hrec]; rfl, .inl rfl⟩
  · rw [hchild] at h; cases h
  · show _ ↔ ([[]] : List (List Bool))[i]? = some q
    constructor
    · intro hw
      obtain ⟨rfl, rfl⟩ := hwalk q i hw
      rfl
    · intro hw
      cases i with
      | zero => cases hw; rfl
      | succ i => simp at hw

/-- Following a child that exists (rule R171). -/
theorem TrieInv.follow {t : TrieCtx} {es : Entries} {p : List Bool} {cur nxt : Nat} {b : Bool} (h : TrieInv t es p cur)
    (hc : trieChild (t.recAt cur) b = some nxt) : TrieInv t es (p ++ [b]) nxt := by
  have hhere : walkIn t.recAt 0 (p ++ [b]) = some nxt := by rw [walkIn_concat, h.here]; exact hc
  refine ⟨h.table, h.beyond, hhere, fun q => ?_, h.leaf, h.value, h.unique, h.all, fun i hi => ?_, h.rises, ?_⟩
  · constructor
    · intro hw
      rcases (h.paths q).1 hw with hp | he
      · exact .inl (hp.trans (List.prefix_append _ _))
      · exact .inr he
    · rintro (hp | he)
      · exact walkIn_prefix hhere hp
      · exact (h.paths q).2 (.inr he)
  · rcases h.shape i hi with hs | ⟨h1, h2, h3⟩
    · exact .inl hs
    · refine .inr ⟨h1, h2, ?_⟩
      rcases h3 with rfl | h3
      · right
        cases b
        · left; simp [trieChild] at hc; simp [hc]
        · right; simp [trieChild] at hc; simp [hc]
      · exact .inr h3
  · rw [pathsWalked_concat, if_pos (List.mem_of_getElem? ((h.order _ _).1 hhere))]
    exact h.order

theorem trieChild_setTrieChild (r : TrieRec) (b b2 : Bool) (i : Nat) :
    trieChild (setTrieChild r b i) b2 = if b2 = b then some i else trieChild r b2 := by
  cases b <;> cases b2 <;> rfl

/-- A new child (rules R171, R172). -/
theorem TrieInv.grow {t : TrieCtx} {es : Entries} {p : List Bool} {cur : Nat} {b : Bool} (h : TrieInv t es p cur)
    (hc : trieChild (t.recAt cur) b = none) (hnl : (t.recAt cur).kind ≠ .leaf) :
    TrieInv (t.growChild cur b) es (p ++ [b]) t.nodes ∧ (t.growChild cur b).nodes = t.nodes + 1 := by
  have hcur := h.cur_lt
  have hnodes : (t.growChild cur b).nodes = t.nodes + 1 := rfl
  have hwf1 := wf_newNode h.table
  have hrec : ∀ j, (t.growChild cur b).recAt j =
      if j = cur then setTrieChild (t.recAt cur) b t.nodes else if j = t.nodes then newTrieNode else t.recAt j := fun j => by
    unfold TrieCtx.growChild
    rw [recAt_writeRec hwf1, recAt_newNode h.table, recAt_newNode h.table, if_neg (by omega : cur ≠ t.nodes)]
  have hnew : (t.growChild cur b).recAt t.nodes = newTrieNode := by rw [hrec, if_neg (by omega), if_pos rfl]
  have hother : ∀ j, j ≠ cur → j ≠ t.nodes → (t.growChild cur b).recAt j = t.recAt j := fun j h1 h2 => by
    rw [hrec, if_neg h1, if_neg h2]
  have hkind : ∀ j, j ≠ t.nodes → ((t.growChild cur b).recAt j).kind = (t.recAt j).kind ∧
      ((t.growChild cur b).recAt j).value = (t.recAt j).value := fun j hj => by
    rw [hrec]
    by_cases hjc : j = cur
    · subst hjc; rw [if_pos rfl]; cases b <;> exact ⟨rfl, rfl⟩
    · rw [if_neg hjc, if_neg hj]; exact ⟨rfl, rfl⟩
  have hchildnew : ∀ b2, trieChild ((t.growChild cur b).recAt t.nodes) b2 = none := fun b2 => by
    rw [hnew]; cases b2 <;> rfl
  have hchildcur : ∀ b2, trieChild ((t.growChild cur b).recAt cur) b2 =
      if b2 = b then some t.nodes else trieChild (t.recAt cur) b2 := fun b2 => by
    rw [hrec, if_pos rfl, trieChild_setTrieChild]
  have hpb : walkIn t.recAt 0 (p ++ [b]) = none := by rw [walkIn_concat, h.here]; exact hc
  -- what every path leads to
  have hwalk : ∀ q, walkIn (t.growChild cur b).recAt 0 q =
      if q = p ++ [b] then some t.nodes else walkIn t.recAt 0 q := fun q => by
    induction q using List.reverseRecOn with
    | nil => rw [if_neg (by simp)]; rfl
    | append_singleton q b2 ih =>
      rw [walkIn_concat, walkIn_concat, ih]
      by_cases hqp : q = p ++ [b]
      · subst hqp
        rw [if_pos rfl, if_neg (by intro e; have := congrArg List.length e; simp at this), hpb]
        exact hchildnew b2
      · rw [if_neg hqp]
        cases hw : walkIn t.recAt 0 q with
        | none =>
          rw [if_neg]
          · rfl
          · intro e
            have := (List.append_inj' e rfl).1
            rw [this, h.here] at hw; cases hw
        | some c =>
          have hclt : c < t.nodes := (h.all c).2 ⟨q, hw⟩
          show trieChild ((t.growChild cur b).recAt c) b2 = _
          by_cases hcc : c = cur
          · have hqp2 : q = p := h.unique q p c hw (by rw [hcc]; exact h.here)
            subst hcc; subst hqp2
            rw [hchildcur]
            by_cases hb : b2 = b
            · subst hb; simp
            · rw [if_neg hb, if_neg (by simpa using hb)]; rfl
          · rw [hother c hcc (by omega), if_neg]
            · rfl
            · intro e
              have hq := (List.append_inj' e rfl).1
              rw [hq, h.here] at hw
              exact hcc (by simpa using hw.symm)
  have hne : ∀ q i, walkIn t.recAt 0 q = some i → q ≠ p ++ [b] := fun q i hw e => by rw [e, hpb] at hw; cases hw
  have hkeep : ∀ q i, walkIn t.recAt 0 q = some i → walkIn (t.growChild cur b).recAt 0 q = some i := fun q i hw => by
    rw [hwalk, if_neg (hne q i hw)]; exact hw
  have hback : ∀ q i, walkIn (t.growChild cur b).recAt 0 q = some i →
      (q = p ++ [b] ∧ i = t.nodes) ∨ (walkIn t.recAt 0 q = some i ∧ i < t.nodes) := fun q i hw => by
    rw [hwalk] at hw
    split at hw
    · next e => exact .inl ⟨e, by simpa using hw.symm⟩
    · exact .inr ⟨hw, (h.all i).2 ⟨q, hw⟩⟩
  have hnotcode : ∀ e ∈ es, ¬ p ++ [b] <+: e.2 := fun e he hp => by
    obtain ⟨i, hi⟩ := (h.paths (p ++ [b])).2 (.inr ⟨e, he, hp⟩)
    rw [hpb] at hi; cases hi
  refine ⟨⟨wf_writeRec hwf1 _ _, fun i hi => ?_, by rw [hwalk, if_pos rfl], fun q => ?_, fun q i hw => ?_,
    fun e he => ?_, fun q r i h1 h2 => ?_, fun i => ?_, fun i hi => ?_, fun i b2 c hch => ?_, fun q i => ?_⟩, hnodes⟩
  · rw [hnodes] at hi
    rw [hother i (by omega) (by omega)]; exact h.beyond i (by omega)
  · constructor
    · rintro ⟨i, hi⟩
      rcases hback q i hi with ⟨rfl, -⟩ | ⟨hw, -⟩
      · exact .inl (List.prefix_refl _)
      · rcases (h.paths q).1 ⟨i, hw⟩ with hp | he
        · exact .inl (hp.trans (List.prefix_append _ _))
        · exact .inr he
    · rintro (hp | he)
      · rcases List.prefix_concat_iff.1 hp with rfl | hp
        · exact ⟨t.nodes, by rw [hwalk, if_pos rfl]⟩
        · obtain ⟨i, hi⟩ := (h.paths q).2 (.inl hp)
          exact ⟨i, hkeep q i hi⟩
      · obtain ⟨i, hi⟩ := (h.paths q).2 (.inr he)
        exact ⟨i, hkeep q i hi⟩
  · rcases hback q i hw with ⟨rfl, rfl⟩ | ⟨hw, hlt⟩
    · rw [hnew]
      constructor
      · intro hk; cases hk
      · rintro ⟨e, he, heq⟩; exact absurd (heq ▸ List.prefix_refl _) (hnotcode e he)
    · rw [(hkind i (by omega)).1]; exact h.leaf q i hw
  · obtain ⟨i, hi, hv⟩ := h.value e he
    have hlt : i < t.nodes := (h.all i).2 ⟨_, hi⟩
    exact ⟨i, hkeep _ i hi, by rw [(hkind i (by omega)).2]; exact hv⟩
  · rcases hback q i h1 with ⟨rfl, rfl⟩ | ⟨h1, hl1⟩
    · rcases hback r _ h2 with ⟨rfl, -⟩ | ⟨-, hl2⟩
      · rfl
      · omega
    · rcases hback r i h2 with ⟨-, rfl⟩ | ⟨h2, -⟩
      · omega
      · exact h.unique q r i h1 h2
  · rw [hnodes]
    constructor
    · intro hi
      by_cases he : i = t.nodes
      · exact ⟨p ++ [b], by rw [hwalk, if_pos rfl, he]⟩
      · obtain ⟨q, hq⟩ := (h.all i).1 (by omega)
        exact ⟨q, hkeep q i hq⟩
    · rintro ⟨q, hq⟩
      rcases hback q i hq with ⟨-, rfl⟩ | ⟨-, hl⟩ <;> omega
  · rw [hnodes] at hi
    by_cases he : i = t.nodes
    · subst he; rw [hnew]; exact .inr ⟨rfl, rfl, .inl rfl⟩
    · by_cases hic : i = cur
      · subst hic
        refine .inr ⟨?_, ?_, .inr ?_⟩
        · rw [(hkind i he).1]
          rcases h.shape i (by omega) with hs | hs
          · exact absurd hs.1 hnl
          · exact hs.1
        · rw [(hkind i he).2]
          rcases h.shape i (by omega) with hs | hs
          · exact absurd hs.1 hnl
          · exact hs.2.1
        · rw [hrec, if_pos rfl]
          cases b
          · left; simp [setTrieChild]
          · right; simp [setTrieChild]
      · rw [hother i hic he]
        rcases h.shape i (by omega) with hs | ⟨h1, h2, h3⟩
        · exact .inl hs
        · exact .inr ⟨h1, h2, .inr (h3.resolve_left hic)⟩
  · rw [hnodes]
    by_cases hic : i = cur
    · subst hic
      rw [hchildcur] at hch
      split at hch
      · have : t.nodes = c := by simpa using hch
        omega
      · have := h.rises i b2 c hch; omega
    · by_cases he : i = t.nodes
      · subst he; rw [hchildnew] at hch; cases hch
      · rw [hother i hic he] at hch
        have := h.rises i b2 c hch; omega
  · have hnew : p ++ [b] ∉ pathsWalked es p := fun hm => by
      obtain ⟨j, hj⟩ := List.mem_iff_getElem?.1 hm
      rw [← h.order, hpb] at hj; cases hj
    rw [pathsWalked_concat, if_neg hnew, hwalk]
    split
    · next e =>
      subst e
      constructor
      · intro hi; cases hi; rw [h.nodes_eq]; simp
      · intro hi
        rcases Nat.lt_trichotomy i (pathsWalked es p).length with hl | hl | hl
        · rw [List.getElem?_append_left hl] at hi
          exact absurd (List.mem_of_getElem? hi) hnew
        · rw [h.nodes_eq, hl]
        · rw [List.getElem?_eq_none (by simp; omega)] at hi; cases hi
    · next e =>
      rw [h.order]
      by_cases hl : i < (pathsWalked es p).length
      · rw [List.getElem?_append_left hl]
      · rw [List.getElem?_append_right (by omega), List.getElem?_eq_none (by omega)]
        constructor
        · intro hi; cases hi
        · intro hi
          have := List.mem_of_getElem? hi
          simp at this
          exact absurd this e

/-- Walks look at children only. -/
theorem walkIn_congr {tr tr2 : Nat → TrieRec} (h : ∀ i b, trieChild (tr2 i) b = trieChild (tr i) b) (cur : Nat)
    (q : List Bool) : walkIn tr2 cur q = walkIn tr cur q := by
  induction q generalizing cur with
  | nil => rfl
  | cons b r ih => unfold walkIn; rw [h]; split <;> simp_all

/-- The mark of a leaf (rule R171): the codeword just walked joins the entries. -/
theorem TrieInv.mark {t : TrieCtx} {es : Entries} {p : List Bool} {cur : Nat} (h : TrieInv t es p cur) (bv : Byte)
    (hk : (t.recAt cur).kind ≠ .leaf) (hl : (t.recAt cur).low = none) (hh : (t.recAt cur).high = none) :
    TrieInv (t.writeRec cur { t.recAt cur with kind := .leaf, value := bv }) (es ++ [(bv, p)]) [] 0 := by
  have hcur := h.cur_lt
  have hrec : ∀ j, (t.writeRec cur { t.recAt cur with kind := .leaf, value := bv }).recAt j =
      if j = cur then { t.recAt cur with kind := .leaf, value := bv } else t.recAt j := fun j => recAt_writeRec h.table cur j _
  have hchild : ∀ i b, trieChild ((t.writeRec cur { t.recAt cur with kind := .leaf, value := bv }).recAt i) b =
      trieChild (t.recAt i) b := fun i b => by
    rw [hrec]; split
    · next e => subst e; cases b <;> rfl
    · rfl
  have hwalk := walkIn_congr hchild
  refine ⟨wf_writeRec h.table _ _, fun i hi => ?_, rfl, fun q => ?_, fun q i hw => ?_, fun e he => ?_,
    fun q r i h1 h2 => ?_, fun i => ?_, fun i hi => ?_, fun i b c hch => ?_, fun q i => ?_⟩
  · rw [hrec, if_neg (by simp at hi; omega)]; exact h.beyond i hi
  · rw [hwalk, h.paths]
    constructor
    · rintro (hp | ⟨e, he, hq⟩)
      · exact .inr ⟨(bv, p), by simp, hp⟩
      · exact .inr ⟨e, by simp [he], hq⟩
    · rintro (hp | ⟨e, he, hq⟩)
      · rw [List.prefix_nil.1 hp]; exact .inl (List.nil_prefix)
      · rcases List.mem_append.1 he with he | he
        · exact .inr ⟨e, he, hq⟩
        · simp at he; subst he; exact .inl hq
  · rw [hwalk] at hw
    rw [hrec]
    by_cases hic : i = cur
    · subst hic
      have : q = p := h.unique q p i hw h.here
      subst this
      simp
    · rw [if_neg hic, h.leaf q i hw]
      constructor
      · rintro ⟨e, he, hq⟩; exact ⟨e, by simp [he], hq⟩
      · rintro ⟨e, he, hq⟩
        rcases List.mem_append.1 he with he | he
        · exact ⟨e, he, hq⟩
        · simp at he; subst he
          have : q = p := hq.symm
          subst this
          rw [h.here] at hw
          exact absurd (by simpa using hw.symm) hic
  · rcases List.mem_append.1 he with he | he
    · obtain ⟨i, hi, hv⟩ := h.value e he
      refine ⟨i, by rw [hwalk]; exact hi, ?_⟩
      have hic : i ≠ cur := fun e2 => hk ((h.leaf e.2 cur (e2 ▸ hi)).2 ⟨e, he, rfl⟩)
      rw [hrec, if_neg hic]; exact hv
    · simp at he; subst he
      exact ⟨cur, by rw [hwalk]; exact h.here, by rw [hrec, if_pos rfl]⟩
  · rw [hwalk] at h1 h2; exact h.unique q r i h1 h2
  · rw [nodes_writeRec, h.all i]
    simp only [hwalk]
  · rw [nodes_writeRec] at hi
    rw [hrec]
    by_cases hic : i = cur
    · rw [if_pos hic]; exact .inl ⟨rfl, hl, hh⟩
    · rw [if_neg hic]
      rcases h.shape i hi with hs | ⟨h1, h2, h3⟩
      · exact .inl hs
      · exact .inr ⟨h1, h2, .inr (h3.resolve_left hic)⟩
  · rw [hchild] at hch; exact h.rises i b c hch
  · rw [hwalk, pathsWalked_entry]; exact h.order q i

end Sys2Proof.Machine
end

