-- ==== Sys2Proof/Laws/Dictionary.lean ====
section
/-! SUPPORT. DDES (rules R171 to R173): what a run of characters, an entry and the whole loop do, accepted or not. -/

namespace Sys2Proof.Machine

/-! ### Bytes in a buffer -/

/-- The bytes at rising offsets from `a` are these. -/
def BytesAt (s : State) (sp : Space) (a : Nat) (vs : List Byte) : Prop :=
  ∀ j (h : j < vs.length), s.memRead sp (a + j) = vs[j]

theorem bytesAt_nil (s : State) (sp : Space) (a : Nat) : BytesAt s sp a [] := fun j h => absurd h (by simp)

theorem bytesAt_cons {s : State} {sp : Space} {a : Nat} {v : Byte} {vs : List Byte} :
    BytesAt s sp a (v :: vs) ↔ s.memRead sp a = v ∧ BytesAt s sp (a + 1) vs := by
  constructor
  · intro h
    refine ⟨h 0 (by simp), fun j hj => ?_⟩
    have := h (j + 1) (by simpa using hj)
    rw [show a + 1 + j = a + (j + 1) by omega, this]; rfl
  · rintro ⟨h1, h2⟩ j hj
    cases j with
    | zero => exact h1
    | succ j =>
      have := h2 j (by simpa using hj)
      rw [show a + (j + 1) = a + 1 + j by omega, this]; rfl

theorem bytesAt_append {s : State} {sp : Space} {a : Nat} {vs ws : List Byte} :
    BytesAt s sp a (vs ++ ws) ↔ BytesAt s sp a vs ∧ BytesAt s sp (a + vs.length) ws := by
  induction vs generalizing a with
  | nil => simp [bytesAt_nil]
  | cons v r ih =>
    rw [List.cons_append, bytesAt_cons, ih, bytesAt_cons, and_assoc, List.length_cons,
      show a + 1 + r.length = a + (r.length + 1) by omega]

/-- The valid region of a buffer, as bytes at offset 0. -/
theorem region_eq_iff {s : State} {sp : Space} {vs : List Byte} :
    s.region sp = vs ↔ s.len sp = vs.length ∧ BytesAt s sp 0 vs := by
  constructor
  · rintro rfl
    refine ⟨(length_region s sp).symm, fun j hj => ?_⟩
    simp [State.region]
  · rintro ⟨h1, h2⟩
    apply List.ext_getElem (by rw [length_region, h1])
    intro k hk1 hk2
    have := h2 k hk2
    simpa [State.region] using this

theorem charOf_injective {a b : Bool} (h : charOf a = charOf b) : a = b := by
  cases a <;> cases b <;> first | rfl | exact absurd h (by decide)

/-- A four-byte number in a buffer (rule R66). -/
theorem bytesAt_le32 {s : State} {sp : Space} {a v : Nat} (h : v < 2 ^ 32) :
    BytesAt s sp a (le32Bytes v) ↔ s.memRead32 sp a = v := by
  constructor
  · intro hb
    have h0 := hb 0 (by simp); have h1 := hb 1 (by simp); have h2 := hb 2 (by simp); have h3 := hb 3 (by simp)
    unfold State.memRead32
    rw [show a = a + 0 from rfl, h0, h1, h2, h3]
    exact le32_le32Bytes h
  · intro hv
    subst hv
    unfold State.memRead32
    rw [le32Bytes_le32]
    simp only [bytesAt_cons, and_true, bytesAt_nil]

/-- The characters of a codeword at an offset. -/
abbrev CharsAt (s : State) (a : Nat) (cw : List Bool) : Prop := BytesAt s .dict a (cw.map charOf)

theorem charsAt_cons {s : State} {a : Nat} {b : Bool} {cw : List Bool} :
    CharsAt s a (b :: cw) ↔ s.memRead .dict a = charOf b ∧ CharsAt s (a + 1) cw := bytesAt_cons

/-! ### The characters -/

/-- The bits of a codeword follow a path along which no codeword ends before. -/
def PathFree (es : Entries) (p r : List Bool) : Prop := ∀ q, q <+: r → q ≠ r → ∀ e ∈ es, e.2 ≠ p ++ q

theorem pathFree_cons {es : Entries} {p r : List Bool} {b : Bool} :
    PathFree es p (b :: r) ↔ (∀ e ∈ es, e.2 ≠ p) ∧ PathFree es (p ++ [b]) r := by
  constructor
  · intro h
    refine ⟨fun e he => ?_, fun q hq hne e he => ?_⟩
    · have := h [] (List.nil_prefix) (by simp) e he; simpa using this
    · have := h (b :: q) (List.cons_prefix_cons.2 ⟨rfl, hq⟩) (by simpa using hne) e he
      simpa using this
  · rintro ⟨h1, h2⟩ q hq hne e he
    cases q with
    | nil => simpa using h1 e he
    | cons c q =>
      obtain ⟨rfl, hq2⟩ := List.cons_prefix_cons.1 hq
      have := h2 q hq2 (by simpa using hne) e he
      simpa using this

/-- One character (rule R171, checks 8 and 9): the pointer moves along its bit, or the entry is malformed. -/
theorem ddesChar_cases (s : State) (a : Nat) {t : TrieCtx} {es : Entries} {p : List Bool} {cur : Nat}
    (h : TrieInv t es p cur) :
    (∃ b n u, s.memRead .dict a = charOf b ∧ (∀ e ∈ es, e.2 ≠ p) ∧ ddesChar s a cur t = .done (n, u) ∧
      TrieInv u es (p ++ [b]) n ∧ u.nodes ≤ t.nodes + 1) ∨
    ((¬ ∃ b, s.memRead .dict a = charOf b ∧ ∀ e ∈ es, e.2 ≠ p) ∧ ddesChar s a cur t = .raised .malformedDictionary a s) := by
  have hleaf : (t.recAt cur).kind = .leaf ↔ ∃ e ∈ es, e.2 = p := h.leaf p cur h.here
  by_cases hchar : ∃ b, s.memRead .dict a = charOf b
  · obtain ⟨b, hb⟩ := hchar
    have hc : ¬ (s.memRead .dict a ≠ charOf false ∧ s.memRead .dict a ≠ charOf true) := by
      rw [hb]; cases b <;> simp
    by_cases hk : (t.recAt cur).kind = .leaf
    · refine .inr ⟨?_, by simp [ddesChar, hc, hk]⟩
      rintro ⟨-, -, hn⟩
      obtain ⟨e, he, heq⟩ := hleaf.1 hk
      exact hn e he heq
    · have hn : ∀ e ∈ es, e.2 ≠ p := fun e he heq => hk (hleaf.2 ⟨e, he, heq⟩)
      have hbit : (s.memRead .dict a == charOf true) = b := by rw [hb]; cases b <;> decide
      cases hch : trieChild (t.recAt cur) b with
      | some nxt =>
        exact .inl ⟨b, nxt, t, hb, hn, by simp only [ddesChar]; rw [if_neg hc, if_neg hk, hbit, hch], h.follow hch,
          by omega⟩
      | none =>
        obtain ⟨h1, h2⟩ := h.grow hch hk
        exact .inl ⟨b, t.nodes, t.growChild cur b, hb, hn, by
          simp only [ddesChar]; rw [if_neg hc, if_neg hk, hbit, hch], h1, by omega⟩
  · refine .inr ⟨fun ⟨b, hb, _⟩ => hchar ⟨b, hb⟩, ?_⟩
    have hc : s.memRead .dict a ≠ charOf false ∧ s.memRead .dict a ≠ charOf true :=
      ⟨fun e => hchar ⟨false, e⟩, fun e => hchar ⟨true, e⟩⟩
    simp [ddesChar, hc]

/-- A run of `n` characters (rule R171): a codeword is walked, or the entry is malformed. -/
theorem ddesChars_cases (s : State) (n a : Nat) {t : TrieCtx} {es : Entries} {p : List Bool} {cur : Nat}
    (h : TrieInv t es p cur) :
    (∃ r m u, r.length = n ∧ CharsAt s a r ∧ PathFree es p r ∧ ddesChars s n a (cur, t) = .done (m, u) ∧
      TrieInv u es (p ++ r) m ∧ u.nodes ≤ t.nodes + n) ∨
    ((¬ ∃ r, r.length = n ∧ CharsAt s a r ∧ PathFree es p r) ∧
      ∃ info, ddesChars s n a (cur, t) = .raised .malformedDictionary info s) := by
  induction n generalizing a t p cur with
  | zero =>
    refine .inl ⟨[], cur, t, rfl, bytesAt_nil _ _ _, fun q hq hne => ?_, rfl, by simpa using h, by omega⟩
    exact absurd (List.prefix_nil.1 hq) hne
  | succ n ih =>
    rcases ddesChar_cases s a h with ⟨b, m, u, hb, hn, hd, hi, hnodes⟩ | ⟨hno, hr⟩
    · rcases ih (a + 1) hi with ⟨r, m2, u2, h1, h2, h3, h4, h5, h6⟩ | ⟨hno, info, hr⟩
      · exact .inl ⟨b :: r, m2, u2, by simp [h1], charsAt_cons.2 ⟨hb, h2⟩, pathFree_cons.2 ⟨hn, h3⟩, by
          rw [ddesChars, hd, andThen_done]; exact h4, by simpa using h5, by omega⟩
      · refine .inr ⟨?_, info, by rw [ddesChars, hd, andThen_done]; exact hr⟩
        rintro ⟨r, h1, h2, h3⟩
        cases r with
        | nil => simp at h1
        | cons c r =>
          obtain ⟨hc, h2⟩ := charsAt_cons.1 h2
          have : c = b := charOf_injective (hc.symm.trans hb)
          subst this
          exact hno ⟨r, by simpa using h1, h2, (pathFree_cons.1 h3).2⟩
    · refine .inr ⟨?_, a, by rw [ddesChars, hr, andThen_raised]⟩
      rintro ⟨r, h1, h2, h3⟩
      cases r with
      | nil => simp at h1
      | cons c r => exact hno ⟨c, (charsAt_cons.1 h2).1, (pathFree_cons.1 h3).1⟩

/-- The first bad character (rule R171, checks 8 and 9): after `bits`, along which no codeword ends before, a character
of neither kind, or one behind a whole codeword, is reported at its offset. -/
theorem ddesChars_bad (s : State) (n a : Nat) {t : TrieCtx} {es : Entries} {p bits : List Bool} {cur : Nat}
    (h : TrieInv t es p cur) (hn : bits.length < n) (hchars : CharsAt s a bits) (hfree : PathFree es p bits)
    (hbad : (∀ b, s.memRead .dict (a + bits.length) ≠ charOf b) ∨ ∃ e ∈ es, e.2 = p ++ bits) :
    ddesChars s n a (cur, t) = .raised .malformedDictionary (a + bits.length) s := by
  obtain ⟨n, rfl⟩ : ∃ k, n = k + 1 := ⟨n - 1, by omega⟩
  induction bits generalizing n a t p cur with
  | nil =>
    rcases ddesChar_cases s a h with ⟨b, m, u, hb, hne, -⟩ | ⟨-, hr⟩
    · rcases hbad with hbad | ⟨e, he, heq⟩
      · exact absurd hb (hbad b)
      · exact absurd (by simpa using heq) (hne e he)
    · rw [ddesChars, hr, andThen_raised]; rfl
  | cons c bits ih =>
    obtain ⟨hc, hchars⟩ := charsAt_cons.1 hchars
    obtain ⟨hp, hfree⟩ := pathFree_cons.1 hfree
    simp only [List.length_cons] at hn
    rcases ddesChar_cases s a h with ⟨b, m, u, hb, -, hd, hi, -⟩ | ⟨hno, -⟩
    · have hcb : c = b := charOf_injective (hc.symm.trans hb)
      subst hcb
      obtain ⟨n, rfl⟩ : ∃ k, n = k + 1 := ⟨n - 1, by omega⟩
      rw [ddesChars, hd, andThen_done, List.length_cons, show a + (bits.length + 1) = a + 1 + bits.length by omega]
      refine ih (a + 1) hi hchars hfree ?_ n (by omega)
      simpa [show a + (bits.length + 1) = a + 1 + bits.length by omega] using hbad
    · exact absurd ⟨c, hc, hp⟩ hno

/-! ### An entry -/

/-- A well-laid-out entry stands at offset `p` of a blob of `n` bytes (rules R96, R97). -/
structure EntryAt (s : State) (n p : Nat) (bv : Byte) (cw : List Bool) : Prop where
  key   : s.memRead .dict p = bv
  len   : s.memRead32 .dict (p + 1) = cw.length
  pos   : 1 ≤ cw.length
  max   : cw.length ≤ Config.maxLen
  room  : p + 5 + cw.length ≤ n
  chars : CharsAt s (p + 5) cw

theorem EntryAt.unique {s : State} {n p : Nat} {bv bv2 : Byte} {cw cw2 : List Bool} (h : EntryAt s n p bv cw)
    (k : EntryAt s n p bv2 cw2) : bv = bv2 ∧ cw = cw2 := by
  refine ⟨h.key.symm.trans k.key, ?_⟩
  have hl : cw.length = cw2.length := h.len.symm.trans k.len
  apply List.ext_getElem hl
  intro j h1 h2
  have e1 := h.chars j (by simpa using h1)
  have e2 := k.chars j (by simpa using h2)
  simp only [List.getElem_map] at e1 e2
  exact charOf_injective (e1.symm.trans e2)

/-- An entry may join a table: its key is new and its codeword neither extends nor begins another. -/
def Joins (es : Entries) (bv : Byte) (cw : List Bool) : Prop :=
  bv ∉ es.map Prod.fst ∧ ∀ e ∈ es, ¬ e.2 <+: cw ∧ ¬ cw <+: e.2

/-- What the end of an entry finds (rule R171, checks 9 and 10), said of codewords. -/
theorem joins_iff {t : TrieCtx} {es : Entries} {cw : List Bool} {cur : Nat} (h : TrieInv t es cw cur)
    (hf : PathFree es [] cw) :
    (∀ e ∈ es, ¬ e.2 <+: cw ∧ ¬ cw <+: e.2) ↔
      (t.recAt cur).kind ≠ .leaf ∧ (t.recAt cur).low = none ∧ (t.recAt cur).high = none := by
  have hchild : ∀ b, trieChild (t.recAt cur) b ≠ none ↔ ∃ e ∈ es, cw ++ [b] <+: e.2 := fun b => by
    have hp := h.paths (cw ++ [b])
    rw [walkIn_concat, h.here] at hp
    constructor
    · intro hne
      obtain ⟨i, hi⟩ := Option.ne_none_iff_exists'.1 hne
      rcases hp.1 ⟨i, hi⟩ with hc | he
      · have := hc.length_le; simp at this
      · exact he
    · intro he hn
      obtain ⟨i, hi⟩ := hp.2 (.inr he)
      simp [hn] at hi
  constructor
  · intro hj
    refine ⟨fun hk => ?_, ?_, ?_⟩
    · obtain ⟨e, he, heq⟩ := (h.leaf cw cur h.here).1 hk
      exact (hj e he).1 (heq ▸ List.prefix_refl _)
    · by_contra hc
      obtain ⟨e, he, hp⟩ := (hchild false).1 hc
      exact (hj e he).2 ((List.prefix_append _ _).trans hp)
    · by_contra hc
      obtain ⟨e, he, hp⟩ := (hchild true).1 hc
      exact (hj e he).2 ((List.prefix_append _ _).trans hp)
  · rintro ⟨hk, hl, hh⟩ e he
    have hne : e.2 ≠ cw := fun heq => hk ((h.leaf cw cur h.here).2 ⟨e, he, heq⟩)
    refine ⟨fun hp => ?_, fun hp => ?_⟩
    · exact hf e.2 hp hne e he (by simp)
    · obtain ⟨r, hr⟩ := hp
      cases r with
      | nil => exact hne (by simpa using hr.symm)
      | cons b r =>
        have hc : trieChild (t.recAt cur) b ≠ none :=
          (hchild b).2 ⟨e, he, r, by rw [← hr]; simp⟩
        cases b
        · exact hc hl
        · exact hc hh

/-- One entry (rules R171, R173, checks 3 to 10): it joins the table, or DDES raises with the state as it was. -/
theorem ddesEntry_cases (s : State) {c : DdesCtx} {es : Entries} (h : TrieInv c.trie es [] 0)
    (hseen : c.seen = es.map Prod.fst) :
    (∃ bv cw u, EntryAt s (s.len .dict) c.p bv cw ∧ Joins es bv cw ∧
      ddesEntry s c = .done ⟨c.p + 5 + cw.length, c.seen ++ [bv], u⟩ ∧ TrieInv u (es ++ [(bv, cw)]) [] 0 ∧
      u.nodes ≤ c.trie.nodes + Config.maxLen) ∨
    ((¬ ∃ bv cw, EntryAt s (s.len .dict) c.p bv cw ∧ Joins es bv cw) ∧
      ∃ x info, ddesEntry s c = .raised x info s ∧ (x = .malformedDictionary ∨ x = .capacityExceeded)) := by
  unfold ddesEntry
  simp only
  by_cases h3 : s.len .dict - c.p < 5
  · rw [if_pos h3]
    exact .inr ⟨fun ⟨bv, cw, he, _⟩ => by have := he.room; omega, _, _, rfl, .inl rfl⟩
  rw [if_neg h3]
  by_cases h4 : s.memRead32 .dict (c.p + 1) = 0
  · rw [if_pos h4]
    exact .inr ⟨fun ⟨bv, cw, he, _⟩ => by have := he.len; have := he.pos; omega, _, _, rfl, .inl rfl⟩
  rw [if_neg h4]
  by_cases h5 : s.memRead32 .dict (c.p + 1) > s.len .dict - (c.p + 5)
  · rw [if_pos h5]
    exact .inr ⟨fun ⟨bv, cw, he, _⟩ => by have := he.len; have := he.room; omega, _, _, rfl, .inl rfl⟩
  rw [if_neg h5]
  by_cases h6 : s.memRead32 .dict (c.p + 1) > Config.maxLen
  · rw [if_pos h6]
    exact .inr ⟨fun ⟨bv, cw, he, _⟩ => by have := he.len; have := he.max; omega, _, _, rfl, .inr rfl⟩
  rw [if_neg h6]
  by_cases h7 : s.memRead .dict c.p ∈ c.seen
  · rw [if_pos h7]
    refine .inr ⟨?_, _, _, rfl, .inl rfl⟩
    rintro ⟨bv, cw, he, hj⟩
    rw [he.key, hseen] at h7
    exact hj.1 h7
  rw [if_neg h7]
  rcases ddesChars_cases s (s.memRead32 .dict (c.p + 1)) (c.p + 5) h with
    ⟨cw, m, u, hl, hc, hf, hd, hi, hn⟩ | ⟨hno, info, hr⟩
  · rw [hd, andThen_done]
    simp only [List.nil_append] at hi
    have hentry : EntryAt s (s.len .dict) c.p (s.memRead .dict c.p) cw :=
      ⟨rfl, hl.symm, by omega, by omega, by omega, hc⟩
    have hiff := joins_iff hi hf
    unfold ddesMark
    simp only
    by_cases hbad : (u.recAt m).kind = .leaf ∨ (u.recAt m).low ≠ none ∨ (u.recAt m).high ≠ none
    · rw [if_pos hbad, andThen_raised]
      refine .inr ⟨?_, _, _, rfl, .inl rfl⟩
      rintro ⟨bv, cw2, he, hj⟩
      obtain ⟨-, rfl⟩ := hentry.unique he
      obtain ⟨k1, k2, k3⟩ := hiff.1 hj.2
      rcases hbad with hb | hb | hb
      · exact k1 hb
      · exact hb k2
      · exact hb k3
    · rw [if_neg hbad, andThen_done]
      simp only [not_or, not_not] at hbad
      refine .inl ⟨s.memRead .dict c.p, cw, _, hentry, ⟨by rw [← hseen]; exact h7, hiff.2 hbad⟩, by rw [hl],
        hi.mark _ hbad.1 hbad.2.1 hbad.2.2, ?_⟩
      rw [nodes_writeRec]; omega
  · rw [hr, andThen_raised]
    refine .inr ⟨?_, _, _, rfl, .inl rfl⟩
    rintro ⟨bv, cw, he, hj⟩
    refine hno ⟨cw, he.len.symm, he.chars, fun q hq _ e hem heq => ?_⟩
    rw [List.nil_append] at heq
    exact (hj.2 e hem).1 (heq ▸ hq)

/-- What checks 3 to 7 let pass (rule R171): a header with a length in range, the bytes for it, and a new byte value. -/
structure HeaderOk (s : State) (c : DdesCtx) : Prop where
  room  : 5 ≤ s.len .dict - c.p
  pos   : 0 < s.memRead32 .dict (c.p + 1)
  bytes : s.memRead32 .dict (c.p + 1) ≤ s.len .dict - (c.p + 5)
  max   : s.memRead32 .dict (c.p + 1) ≤ Config.maxLen
  fresh : s.memRead .dict c.p ∉ c.seen

/-- Behind a good header an entry is its characters and its mark (rule R171). -/
theorem ddesEntry_of_headerOk {s : State} {c : DdesCtx} (h : HeaderOk s c) :
    ddesEntry s c =
      (ddesChars s (s.memRead32 .dict (c.p + 1)) (c.p + 5) (0, c.trie)).andThen fun walked =>
        (ddesMark s c.p (s.memRead .dict c.p) walked.1 walked.2).andThen fun t =>
          .done ⟨c.p + 5 + s.memRead32 .dict (c.p + 1), c.seen ++ [s.memRead .dict c.p], t⟩ := by
  have h1 := h.room; have h2 := h.pos; have h3 := h.bytes; have h4 := h.max
  unfold ddesEntry
  simp only
  rw [if_neg (by omega), if_neg (by omega), if_neg (by omega), if_neg (by omega), if_neg h.fresh]

/-- Check 10 (rule R171): a codeword that equals an earlier one or begins one is reported at the entry's offset. -/
theorem ddesEntry_notPrefixFree {s : State} {c : DdesCtx} {es : Entries} {bits : List Bool} (h : HeaderOk s c)
    (hi : TrieInv c.trie es [] 0) (hlen : bits.length = s.memRead32 .dict (c.p + 1)) (hchars : CharsAt s (c.p + 5) bits)
    (hfree : PathFree es [] bits) (hbad : ∃ e ∈ es, bits <+: e.2) :
    ddesEntry s c = .raised .malformedDictionary c.p s := by
  rw [ddesEntry_of_headerOk h, ← hlen]
  rcases ddesChars_cases s bits.length (c.p + 5) hi with ⟨r, m, u, h1, h2, -, h4, h5, -⟩ | ⟨hno, -⟩
  · have hr : r = bits := by
      apply List.ext_getElem h1
      intro j hj1 hj2
      have e1 := h2 j (by simpa using hj1)
      have e2 := hchars j (by simpa using hj2)
      simp only [List.getElem_map] at e1 e2
      exact charOf_injective (e1.symm.trans e2)
    subst hr
    rw [h4, andThen_done]
    simp only [List.nil_append] at h5
    unfold ddesMark
    simp only
    rw [if_pos, andThen_raised]
    by_contra hc
    simp only [not_or, not_not] at hc
    obtain ⟨e, he, hp⟩ := hbad
    exact ((joins_iff h5 hfree).2 hc e he).2 hp
  · exact absurd ⟨bits, rfl, hchars, hfree⟩ hno

/-! ### The loop -/

/-- Well-laid-out entries stand one after another from offset `p` to offset `p2` (rule R97). -/
def BlobAt (s : State) (n : Nat) : Nat → Entries → Nat → Prop
  | p, [], p2 => p = p2
  | p, e :: es, p2 => EntryAt s n p e.1 e.2 ∧ BlobAt s n (p + 5 + e.2.length) es p2

/-- Entries that each join the table made of those before. -/
def AllJoin : Entries → Entries → Prop
  | _, [] => True
  | es, f :: fs => Joins es f.1 f.2 ∧ AllJoin (es ++ [f]) fs

/-- The entries of a blob (rule R171): `m` more of them join the table, or DDES raises with the state as it was. -/
theorem ddesLoop_cases (s : State) (m : Nat) {c : DdesCtx} {es : Entries} (h : TrieInv c.trie es [] 0)
    (hseen : c.seen = es.map Prod.fst) :
    (∃ fs d, fs.length = m ∧ BlobAt s (s.len .dict) c.p fs d.p ∧ AllJoin es fs ∧ ddesLoop s m c = .done d ∧
      TrieInv d.trie (es ++ fs) [] 0 ∧ d.trie.nodes ≤ c.trie.nodes + m * Config.maxLen ∧
      d.seen = (es ++ fs).map Prod.fst) ∨
    ((¬ ∃ fs p2, fs.length = m ∧ BlobAt s (s.len .dict) c.p fs p2 ∧ AllJoin es fs) ∧
      ∃ x info, ddesLoop s m c = .raised x info s ∧ (x = .malformedDictionary ∨ x = .capacityExceeded)) := by
  induction m generalizing c es with
  | zero => exact .inl ⟨[], c, rfl, rfl, trivial, rfl, by simpa using h, by omega, by simpa using hseen⟩
  | succ m ih =>
    rcases ddesEntry_cases s h hseen with ⟨bv, cw, u, he, hj, hd, hi, hn⟩ | ⟨hno, x, info, hr, hx⟩
    · rcases ih (c := ⟨c.p + 5 + cw.length, c.seen ++ [bv], u⟩) hi (by simp [hseen]) with
        ⟨fs, d, h1, h2, h3, h4, h5, h6, h7⟩ | ⟨hno, x, info, hr, hx⟩
      · refine .inl ⟨(bv, cw) :: fs, d, by simp [h1], ⟨he, h2⟩, ⟨hj, h3⟩, by rw [ddesLoop, hd, andThen_done]; exact h4,
          by simpa using h5, ?_, by simpa using h7⟩
        simp only at h6
        rw [Nat.add_mul]; omega
      · refine .inr ⟨?_, x, info, by rw [ddesLoop, hd, andThen_done]; exact hr, hx⟩
        rintro ⟨fs, p2, h1, h2, h3⟩
        cases fs with
        | nil => simp at h1
        | cons f fs =>
          obtain ⟨he2, h2⟩ := h2
          obtain ⟨e1, e2⟩ := he.unique he2
          obtain ⟨h3, h4⟩ := h3
          rw [← e2] at h2
          have hf : f = (bv, cw) := by rw [e1, e2]
          rw [hf] at h4
          exact hno ⟨fs, p2, by simpa using h1, h2, h4⟩
    · refine .inr ⟨?_, x, info, by rw [ddesLoop, hr, andThen_raised], hx⟩
      rintro ⟨fs, p2, h1, h2, h3⟩
      cases fs with
      | nil => simp at h1
      | cons f fs => exact hno ⟨f.1, f.2, h2.1, h3.1⟩

/-- The loop in two parts. -/
theorem ddesLoop_add (s : State) (n m : Nat) (c : DdesCtx) :
    ddesLoop s (n + m) c = (ddesLoop s n c).andThen (ddesLoop s m) := by
  induction n generalizing c with
  | zero => simp [ddesLoop]
  | succ n ih =>
    rw [Nat.succ_add, ddesLoop, ddesLoop, andThen_assoc]
    congr 1
    funext d
    exact ih d

/-! ### Blobs and tables -/

theorem blobAt_unique {s : State} {n p p2 p3 : Nat} {fs gs : Entries} (h : BlobAt s n p fs p2) (k : BlobAt s n p gs p3)
    (hl : fs.length = gs.length) : fs = gs ∧ p2 = p3 := by
  induction fs generalizing p gs with
  | nil =>
    cases gs with
    | nil => exact ⟨rfl, h.symm.trans k⟩
    | cons => simp at hl
  | cons f fs ih =>
    cases gs with
    | nil => simp at hl
    | cons g gs =>
      obtain ⟨e1, e2⟩ := h.1.unique k.1
      have k2 := k.2
      rw [← e2] at k2
      obtain ⟨e3, e4⟩ := ih h.2 k2 (by simpa using hl)
      exact ⟨by rw [e3, Prod.ext e1 e2], e4⟩

/-- The layout of the entries' bytes, byte by byte, is that of the entries. -/
theorem blobAt_iff {s : State} {n p p2 : Nat} {fs : Entries} (hlen : ∀ e ∈ fs, 1 ≤ e.2.length ∧ e.2.length ≤ Config.maxLen)
    (hp : p2 = p + (fs.flatMap fun e => entryBytes e.1 e.2).length) (hn : p2 ≤ n) :
    BytesAt s .dict p (fs.flatMap fun e => entryBytes e.1 e.2) ↔ BlobAt s n p fs p2 := by
  induction fs generalizing p with
  | nil => simp only [List.flatMap_nil, bytesAt_nil, BlobAt, true_iff]; simpa using hp.symm
  | cons f fs ih =>
    obtain ⟨h1, h2⟩ := hlen f (by simp)
    simp only [List.flatMap_cons, List.length_append, length_entryBytes] at hp
    rw [List.flatMap_cons, bytesAt_append, length_entryBytes, BlobAt,
      ih (fun e he => hlen e (List.mem_cons_of_mem _ he)) (by omega), Nat.add_assoc p 5]
    refine and_congr_left fun _ => ?_
    unfold entryBytes
    rw [bytesAt_cons, bytesAt_append, bytesAt_le32 (Nat.lt_of_le_of_lt h2 (by decide)), length_le32Bytes,
      show p + 1 + 4 = p + 5 by omega]
    constructor
    · rintro ⟨k1, k2, k3⟩; exact ⟨k1, k2, h1, h2, by omega, k3⟩
    · intro k; exact ⟨k.key, k.len, k.chars⟩

theorem blobAt_end {s : State} {n p p2 : Nat} {fs : Entries} (h : BlobAt s n p fs p2) :
    p2 = p + (fs.flatMap fun e => entryBytes e.1 e.2).length ∧ (p ≤ n → p2 ≤ n) ∧
    ∀ e ∈ fs, 1 ≤ e.2.length ∧ e.2.length ≤ Config.maxLen := by
  induction fs generalizing p with
  | nil => exact ⟨by simpa [BlobAt] using h.symm, fun hp => by have : p = p2 := h; omega, by simp⟩
  | cons f fs ih =>
    obtain ⟨h1, h2, h3⟩ := ih h.2
    have hr := h.1.room
    refine ⟨by simp only [List.flatMap_cons, List.length_append, length_entryBytes]; omega, fun _ => h2 (by omega),
      fun e he => ?_⟩
    rcases List.mem_cons.1 he with rfl | he
    · exact ⟨h.1.pos, h.1.max⟩
    · exact h3 e he

/-- Entries that join one after another make a table with unique keys and prefix-free codewords. -/
theorem allJoin_iff {es fs : Entries} (hk : (es.map Prod.fst).Nodup) (hp : PrefixFree es) :
    AllJoin es fs ↔ ((es ++ fs).map Prod.fst).Nodup ∧ PrefixFree (es ++ fs) := by
  induction fs generalizing es with
  | nil => simp [AllJoin, hk, hp]
  | cons f fs ih =>
    have hsplit : es ++ f :: fs = (es ++ [f]) ++ fs := by simp
    rw [AllJoin, hsplit]
    have hone : Joins es f.1 f.2 ↔ ((es ++ [f]).map Prod.fst).Nodup ∧ PrefixFree (es ++ [f]) := by
      unfold Joins PrefixFree
      rw [List.map_append, List.nodup_append, List.pairwise_append]
      simp only [List.map_cons, List.map_nil, List.mem_cons, List.not_mem_nil, or_false, forall_eq]
      constructor
      · rintro ⟨a, b⟩
        exact ⟨⟨hk, by simp, fun x hx => fun e => a (e ▸ hx)⟩, hp, by simp, b⟩
      · rintro ⟨⟨-, -, a⟩, -, -, b⟩
        exact ⟨fun hm => a f.1 hm rfl, b⟩
    constructor
    · rintro ⟨h1, h2⟩
      obtain ⟨k1, k2⟩ := hone.1 h1
      exact (ih k1 k2).1 h2
    · rintro ⟨h1, h2⟩
      have k : ((es ++ [f]).map Prod.fst).Nodup ∧ PrefixFree (es ++ [f]) := by
        rw [List.map_append] at h1
        exact ⟨h1.of_append_left, (List.pairwise_append.1 h2).1⟩
      exact ⟨hone.2 k, (ih k.1 k.2).2 ⟨h1, h2⟩⟩

/-- The blob of a CodeTable in `DICT`, as a count and entries (rules R96, R97). -/
theorem region_blob_iff {s : State} {es : Entries} (h : ValidTable es) :
    s.region .dict = blobOf es ↔
      4 ≤ s.len .dict ∧ s.memRead32 .dict 0 = es.length ∧ BlobAt s (s.len .dict) 4 es (s.len .dict) := by
  have hcount : es.length ≤ 256 := by
    have := (List.Nodup.subperm h.1 (fun b _ => mem_allBytes b)).length_le
    simpa using this
  have hlen := h.2.1
  rw [region_eq_iff, blobOf, bytesAt_append, bytesAt_le32 (by omega), length_le32Bytes, List.length_append, length_le32Bytes]
  constructor
  · rintro ⟨h1, h2, h3⟩
    exact ⟨by omega, h2, (blobAt_iff hlen (by omega) (Nat.le_refl _)).1 (by simpa using h3)⟩
  · rintro ⟨h1, h2, h3⟩
    have he := (blobAt_end h3).1
    exact ⟨by omega, h2, by simpa using (blobAt_iff hlen he (Nat.le_refl _)).2 h3⟩

end Sys2Proof.Machine
end

