-- ==== Sys2Proof/Laws/Deserialize.lean ====
section
/-! SUPPORT. The whole of DDES (rules R171 to R176): which blobs it accepts and what trie it leaves. -/

namespace Sys2Proof.Machine

/-- A fault clears the valid flags, so a flag written before it does not show. -/
theorem raise_setFlag (s : State) (f : ValidFlag) (b : Bool) (x : HwFault) (info : Nat) (outs : List Space) :
    (s.setFlag f b).raise x info outs = s.raise x info outs := by
  have hst : faultStatus (s.setFlag f b).regs.status = faultStatus s.regs.status := by
    apply BitVec.eq_of_getLsbD_eq
    intro i hi
    rw [State.setFlag_regs]
    unfold faultStatus errSetBit
    simp only [getLsbD_withBit]
    cases f <;> simp only [flagBit] <;> split <;> simp_all
  unfold State.raise
  rw [hst]
  rfl

/-- A table that DDES accepts has at most 256 entries. -/
theorem length_validTable {es : Entries} (h : ValidTable es) : es.length ≤ 256 := by
  have := (List.Nodup.subperm h.1 (fun b _ => mem_allBytes b)).length_le
  simpa using this

/-- The trie DDES leaves for a table. -/
def TrieOf (es : Entries) (u : TrieCtx) : Prop :=
  (es = [] → u = ⟨[], 0⟩) ∧ (es ≠ [] → TrieInv u es [] 0 ∧ u.nodes ≤ Config.trieN)

/-- Everything DDES's body does (rules R171, R173). -/
theorem ddesBody_cases (s : State) :
    (s.cap .dict < s.len .dict ∧ ddesBody s = .raised .sourceUnavailable 2 (s.setFlag .trie false)) ∨
    (s.len .dict ≤ s.cap .dict ∧ ∃ es u, ValidTable es ∧ s.region .dict = blobOf es ∧ TrieOf es u ∧
      ddesBody s = .done (((s.setFlag .trie false).setTrie es.length u).setFlag .trie true)) ∨
    (s.len .dict ≤ s.cap .dict ∧ (¬ ∃ es, ValidTable es ∧ s.region .dict = blobOf es) ∧
      ∃ x info, ddesBody s = .raised x info (s.setFlag .trie false) ∧
        (x = .malformedDictionary ∨ x = .capacityExceeded)) := by
  unfold ddesBody
  simp only
  generalize hs1 : s.setFlag .trie false = s1
  have hlen : s1.len .dict = s.len .dict := by rw [← hs1]; simp
  have hcap : s1.cap .dict = s.cap .dict := by rw [← hs1]; simp
  have hreg : s1.region .dict = s.region .dict := by
    unfold State.region; rw [hlen]; congr 1; funext a; rw [← hs1]; simp
  rw [hcap, hlen, ← hreg]
  by_cases h1 : s.len .dict > s.cap .dict
  · rw [if_pos h1]; exact .inl ⟨h1, rfl⟩
  rw [if_neg h1]
  refine .inr ?_
  by_cases h2 : s.len .dict < 4
  · rw [if_pos h2]
    refine .inr ⟨by omega, ?_, _, _, rfl, .inl rfl⟩
    rintro ⟨es, hv, hb⟩
    have := ((region_blob_iff hv).1 hb).1
    omega
  rw [if_neg h2]
  by_cases h3 : s1.memRead32 .dict 0 > (s.len .dict - 4) / 5
  · rw [if_pos h3]
    refine .inr ⟨by omega, ?_, _, _, rfl, .inl rfl⟩
    rintro ⟨es, hv, hb⟩
    obtain ⟨-, k1, k2⟩ := (region_blob_iff hv).1 hb
    have k3 := (blobAt_end k2).1
    have k4 : 5 * es.length ≤ (es.flatMap fun e => entryBytes e.1 e.2).length := by
      clear hv hb k1 k2 k3
      induction es with
      | nil => simp
      | cons e r ih => simp only [List.flatMap_cons, List.length_append, length_entryBytes, List.length_cons]; omega
    omega
  rw [if_neg h3]
  generalize hcount : s1.memRead32 .dict 0 = count at h3
  -- a valid blob gives entries that the loop accepts
  have hvalid : ∀ es, ValidTable es → s1.region .dict = blobOf es →
      es.length = count ∧ BlobAt s1 (s1.len .dict) 4 es (s1.len .dict) ∧ AllJoin [] es := fun es hv hb => by
    obtain ⟨-, k1, k2⟩ := (region_blob_iff hv).1 hb
    exact ⟨by omega, k2, (allJoin_iff (by simp) List.Pairwise.nil).2 ⟨hv.1, hv.2.2⟩⟩
  -- and conversely
  have hback : ∀ fs, fs.length = count → BlobAt s1 (s1.len .dict) 4 fs (s1.len .dict) → AllJoin [] fs →
      ValidTable fs ∧ s1.region .dict = blobOf fs := fun fs hl hb hj => by
    obtain ⟨k1, k2⟩ := (allJoin_iff (by simp) List.Pairwise.nil).1 hj
    have hv : ValidTable fs := ⟨k1, (blobAt_end hb).2.2, k2⟩
    exact ⟨hv, (region_blob_iff hv).2 ⟨by omega, by omega, hb⟩⟩
  by_cases h0 : count = 0
  · subst h0
    simp only [ddesLoop, andThen_done]
    by_cases h4 : 4 ≠ s.len .dict
    · rw [if_pos h4]
      refine .inr ⟨by omega, ?_, _, _, rfl, .inl rfl⟩
      rintro ⟨es, hv, hb⟩
      obtain ⟨k1, k2, -⟩ := hvalid es hv hb
      rw [List.length_eq_zero_iff.1 k1] at k2
      exact h4 (by rw [← hlen]; exact k2)
    · rw [if_neg h4]
      obtain ⟨hv, hb⟩ := hback [] rfl (show 4 = s1.len .dict by omega) trivial
      exact .inl ⟨by omega, [], _, hv, hb, ⟨fun _ => rfl, fun h => absurd rfl h⟩, rfl⟩
  · have hroot : ddesRoot count = TrieCtx.newNode ⟨[], 0⟩ := by unfold ddesRoot; rw [if_pos (by omega)]
    rw [hroot]
    rcases ddesLoop_cases s1 count (c := ⟨4, [], TrieCtx.newNode ⟨[], 0⟩⟩) trieInv_root rfl with
      ⟨fs, d, k1, k2, k3, k4, k5, k6, -⟩ | ⟨hno, x, info, hr, hx⟩
    · rw [k4, andThen_done]
      by_cases h4 : d.p ≠ s.len .dict
      · rw [if_pos h4]
        refine .inr ⟨by omega, ?_, _, _, rfl, .inl rfl⟩
        rintro ⟨es, hv, hb⟩
        obtain ⟨m1, m2, -⟩ := hvalid es hv hb
        obtain ⟨-, m3⟩ := blobAt_unique k2 m2 (by omega)
        exact h4 (by omega)
      · rw [if_neg h4]
        simp only [ne_eq, not_not] at h4
        rw [h4, ← hlen] at k2
        obtain ⟨hv, hb⟩ := hback fs k1 k2 k3
        refine .inl ⟨by omega, fs, d.trie, hv, hb, ⟨fun h => ?_, fun _ => ⟨by simpa using k5, ?_⟩⟩, by rw [k1]⟩
        · rw [h] at k1; exact absurd k1.symm h0
        · have hle := length_validTable hv
          rw [k1] at hle
          have : count * Config.maxLen ≤ 256 * 255 := Nat.mul_le_mul_right 255 hle
          have hn : (TrieCtx.newNode ⟨[], 0⟩).nodes = 1 := rfl
          show _ ≤ 65281
          simp only [hn] at k6
          omega
    · rw [hr, andThen_raised]
      refine .inr ⟨by omega, ?_, x, info, rfl, hx⟩
      rintro ⟨es, hv, hb⟩
      obtain ⟨m1, m2, m3⟩ := hvalid es hv hb
      exact hno ⟨es, s1.len .dict, m1, m2, m3⟩

/-- DDES behind checks 1 and 2, over a blob that begins with the entries of a table (rule R171): the entries are in the
trie, and the loop goes on with the bytes after them. -/
theorem ddesBody_behind (s : State) {count : Nat} {es : Entries} {rest : List Byte} (hcap : s.len .dict ≤ s.cap .dict)
    (hv : ValidTable es) (hcount : count < 2 ^ 32) (hle : es.length ≤ count)
    (hreg : s.region .dict = le32Bytes count ++ (es.flatMap fun e => entryBytes e.1 e.2) ++ rest)
    (hfit : count ≤ (s.len .dict - 4) / 5) :
    ∃ d : DdesCtx, d.p = s.len .dict - rest.length ∧ d.seen = es.map Prod.fst ∧
      (0 < count → TrieInv d.trie es [] 0) ∧
      ddesBody s = (ddesLoop (s.setFlag .trie false) (count - es.length) d).andThen fun c =>
        if c.p ≠ s.len .dict then .raised .malformedDictionary c.p (s.setFlag .trie false)
        else .done (((s.setFlag .trie false).setTrie count c.trie).setFlag .trie true) := by
  unfold ddesBody
  simp only
  generalize hs1 : s.setFlag .trie false = s1
  have hlen : s1.len .dict = s.len .dict := by rw [← hs1]; simp
  have hcap1 : s1.cap .dict = s.cap .dict := by rw [← hs1]; simp
  have hreg1 : s1.region .dict = s.region .dict := by
    unfold State.region; rw [hlen]; congr 1; funext a; rw [← hs1]; simp
  obtain ⟨hl, hb⟩ := region_eq_iff.1 (hreg1.trans hreg)
  rw [bytesAt_append, bytesAt_append, bytesAt_le32 hcount] at hb
  obtain ⟨⟨hc, hb⟩, -⟩ := hb
  simp only [List.length_append, length_le32Bytes, Nat.zero_add] at hl hb
  rw [hcap1, hlen, if_neg (by omega), if_neg (by omega), hc, if_neg (by omega)]
  have hblob := (blobAt_iff (n := s1.len .dict) (p2 := s.len .dict - rest.length) hv.2.1 (by omega) (by omega)).1 hb
  by_cases h0 : count = 0
  · have hes : es = [] := List.length_eq_zero_iff.1 (by omega)
    subst hes
    refine ⟨⟨4, [], ddesRoot count⟩, ?_, rfl, fun h => by omega, by rfl⟩
    simp at hl; show 4 = _; omega
  · have hroot : ddesRoot count = TrieCtx.newNode ⟨[], 0⟩ := by unfold ddesRoot; rw [if_pos (by omega)]
    have hjoin : AllJoin [] es := (allJoin_iff (by simp) List.Pairwise.nil).2 ⟨hv.1, hv.2.2⟩
    rcases ddesLoop_cases s1 es.length (c := ⟨4, [], TrieCtx.newNode ⟨[], 0⟩⟩) trieInv_root rfl with
      ⟨fs, d, k1, k2, -, k4, k5, -, k7⟩ | ⟨hno, -⟩
    · obtain ⟨rfl, hp⟩ := blobAt_unique k2 hblob k1
      refine ⟨d, hp, by simpa using k7, fun _ => by simpa using k5, ?_⟩
      rw [hroot]
      have hsplit : ddesLoop s1 count ⟨4, [], TrieCtx.newNode ⟨[], 0⟩⟩ = ddesLoop s1 (count - fs.length) d := by
        conv => lhs; rw [show count = fs.length + (count - fs.length) by omega]
        rw [ddesLoop_add, k4, andThen_done]
      rw [hsplit]
    · exact absurd ⟨es, _, rfl, hblob, hjoin⟩ hno

/-- What the trie of a table routes (rule R176): the codewords of the table, each to its byte value, and nothing else. -/
theorem TrieInv.routes {u : TrieCtx} {es : Entries} (h : TrieInv u es [] 0) (b : Byte)
    (cw : List Bool) :
    (∃ i, walkIn u.recAt 0 cw = some i ∧ (u.recAt i).kind = .leaf ∧ (u.recAt i).value = b) ↔ (b, cw) ∈ es := by
  constructor
  · rintro ⟨i, hw, hk, hval⟩
    obtain ⟨e, he, rfl⟩ := (h.leaf cw i hw).1 hk
    obtain ⟨j, hj, hval2⟩ := h.value e he
    rw [hw] at hj
    have : i = j := by simpa using hj
    subst this
    rw [← hval, hval2]; exact he
  · intro he
    obtain ⟨i, hw, hval⟩ := h.value _ he
    exact ⟨i, hw, (h.leaf _ i hw).2 ⟨_, he, rfl⟩, hval⟩

/-- The state after a successful DDES differs in the trie, its two registers and the status. -/
theorem State.treeOf_frame (s : State) (n : Nat) (u : TrieCtx) :
    let t := ((s.setFlag .trie false).setTrie n u).setFlag .trie true
    t.freq = s.freq ∧ t.tree = s.tree ∧ t.code = s.code ∧ t.trie = .known u.trie ∧ t.pq = s.pq ∧
    (∀ sp, t.buf sp = s.buf sp) ∧ t.params = s.params ∧ t.draws = s.draws ∧ t.script = s.script ∧
    t.returned = s.returned ∧
    t.regs = { s.regs with trieRoot := rootWord (if n = 0 then none else some 0), trieNodes := BitVec.ofNat 32 u.nodes,
                           status := t.regs.status } ∧
    (∀ f, t.flag f = if f = .trie then true else s.flag f) ∧
    ∀ i, 4 ≤ i → t.regs.status.getLsbD i = s.regs.status.getLsbD i := by
  refine ⟨rfl, rfl, rfl, rfl, rfl, fun sp => by cases sp <;> rfl, rfl, rfl, rfl, rfl, rfl, fun f => ?_, fun i hi => ?_⟩
  · have h : (((s.setFlag .trie false).setTrie n u).setFlag .trie true).regs.status =
        withBit (withBit s.regs.status 3 false) 3 true := rfl
    unfold State.flag
    rw [h]
    cases f <;> simp only [getLsbD_withBit, flagBit] <;> simp
  · have h : (((s.setFlag .trie false).setTrie n u).setFlag .trie true).regs.status =
        withBit (withBit s.regs.status 3 false) 3 true := rfl
    rw [h]
    simp only [getLsbD_withBit]
    rw [if_neg (by omega), if_neg (by omega)]

/-- The trie a table leaves has the shape of rule R44. -/
theorem trieShape_of_trieInv {u : TrieCtx} {es : Entries} (h : TrieInv u es [] 0) (hne : es ≠ []) (hv : ValidTable es) :
    TrieShape u.trie u.nodes := by
  have hrecs : ∀ i, u.recAt i = entryAt absentTrieRec u.trie i := fun _ => rfl
  have hroot : (u.recAt 0).kind ≠ .leaf := fun hk => by
    obtain ⟨e, he, hq⟩ := (h.leaf [] 0 rfl).1 hk
    have := (hv.2.1 e he).1
    rw [hq] at this; simp at this
  have hrootchild : (u.recAt 0).low ≠ none ∨ (u.recAt 0).high ≠ none := by
    obtain ⟨e, r, rfl⟩ := List.exists_cons_of_ne_nil hne
    obtain ⟨i, hi, -⟩ := h.value e (by simp)
    have hl := (hv.2.1 e (by simp)).1
    cases hcw : e.2 with
    | nil => rw [hcw] at hl; simp at hl
    | cons b q =>
      rw [hcw] at hi
      cases hc : trieChild (u.recAt 0) b with
      | none => simp [walkIn, hc] at hi
      | some x =>
        cases b
        · left; simp [trieChild] at hc; simp [hc]
        · right; simp [trieChild] at hc; simp [hc]
  refine ⟨fun i hi => ?_, h.beyond, fun _ => ?_, ?_⟩
  · show TrieRecOk u.nodes i (u.recAt i)
    unfold TrieRecOk
    rcases h.shape i hi with ⟨h1, h2, h3⟩ | ⟨h1, h2, h3⟩
    · rw [h1]; exact ⟨h2, h3⟩
    · rw [h1]
      refine ⟨h2, ?_, fun j hj => h.rises i false j hj, fun j hj => h.rises i true j hj⟩
      rcases h3 with rfl | h3
      · exact hrootchild
      · exact h3
  · rcases h.shape 0 h.root_lt with hs | hs
    · exact absurd hs.1 hroot
    · exact hs.1
  · -- no record is the child of two
    have hkeys : u.trie.Pairwise fun x y => x.1 ≠ y.1 := by
      have hr := risesFrom_of_tableWf h.table
      revert hr
      generalize 0 = n
      generalize u.trie = t
      intro hr
      induction t generalizing n with
      | nil => exact List.Pairwise.nil
      | cons x rest ih =>
        obtain ⟨k, v⟩ := x
        simp only [risesFrom, Bool.and_eq_true, decide_eq_true_eq] at hr
        refine List.pairwise_cons.2 ⟨fun y hy e => ?_, ih _ hr.2⟩
        have hlook := lookAt_of_risesFrom hr.2 (k := k) (by omega)
        have := lookAt_eq_of_mem hr.2 (k := y.1) (v := y.2) hy
        simp only at e
        rw [← e, hlook] at this
        cases this
    have hent : ∀ x ∈ u.trie, u.recAt x.1 = x.2 := fun x hx => by
      have := lookAt_eq_of_mem (risesFrom_of_tableWf h.table) (k := x.1) (v := x.2) hx
      rw [hrecs, entryAt, this]; rfl
    have hin : ∀ x ∈ u.trie, ∀ c, c ∈ x.2.low.toList ++ x.2.high.toList → ∃ b, trieChild (u.recAt x.1) b = some c :=
      fun x hx c hc => by
        rcases List.mem_append.1 hc with hc | hc
        · exact ⟨false, by rw [hent x hx]; simpa [trieChild] using hc⟩
        · exact ⟨true, by rw [hent x hx]; simpa [trieChild] using hc⟩
    -- a child names its parent and its bit
    have hparent : ∀ i j b c k, trieChild (u.recAt i) b = some k → trieChild (u.recAt j) c = some k → i = j ∧ b = c :=
      fun i j b c k hi hj => by
        have hil : i < u.nodes := by have := h.rises i b k hi; omega
        have hjl : j < u.nodes := by have := h.rises j c k hj; omega
        obtain ⟨q, hq⟩ := (h.all i).1 hil
        obtain ⟨r, hr⟩ := (h.all j).1 hjl
        have h1 : walkIn u.recAt 0 (q ++ [b]) = some k := by rw [walkIn_concat, hq]; exact hi
        have h2 : walkIn u.recAt 0 (r ++ [c]) = some k := by rw [walkIn_concat, hr]; exact hj
        have he := h.unique _ _ _ h1 h2
        have hbc : b = c := by
          have := congrArg List.getLast? he
          simpa using this
        have hqr : q = r := by
          have := congrArg List.dropLast he
          simpa using this
        rw [hqr] at hq
        rw [hq] at hr
        exact ⟨by simpa using hr, hbc⟩
    rw [List.nodup_flatMap]
    refine ⟨fun x hx => ?_, hkeys.imp_of_mem fun {x y} hx hy hne c hcx hcy => ?_⟩
    · rw [List.nodup_append]
      refine ⟨by cases x.2.low <;> simp, by cases x.2.high <;> simp, fun a ha b hb e => ?_⟩
      subst e
      have h1 : trieChild (u.recAt x.1) false = some a := by rw [hent x hx]; simpa [trieChild] using ha
      have h2 : trieChild (u.recAt x.1) true = some a := by rw [hent x hx]; simpa [trieChild] using hb
      have := (hparent _ _ _ _ _ h1 h2).2
      cases this
    · obtain ⟨b, hb⟩ := hin x hx c hcx
      obtain ⟨d, hd⟩ := hin y hy c hcy
      exact hne (hparent _ _ _ _ _ hb hd).1

end Sys2Proof.Machine
end

