-- ==== Sys2Proof/Laws/Command.lean ====
section
/-! SUPPORT. The commands as the dispatcher runs them, and the whole of ENCODE's pseudocode. -/

namespace Sys2Proof.Machine

variable {s t : State}

/-- The pseudocode a command runs once the dispatcher lets it (rule R215); CLR's is not run through this path. -/
def bodyOf : Instr → State → Run State
  | .nop => .done
  | .clr => fun s => .done s.clear
  | .scan => scanBody
  | .build => buildBody
  | .gen => genBody
  | .dser => dserBody
  | .pack => packBody
  | .encode => encodeBody
  | .ddes => ddesBody
  | .unpack => unpackBody
  | .decode => decodeBody
  | .lookup b => lookupBody b
  | .rdfreq b => rdfreqBody b
  | .rdtree idx => rdtreeBody idx
  | .rdtrie idx => rdtrieBody idx

/-- Every command but CLR is its body behind the dispatcher's tests, with the prerequisite and the outputs of the tables. -/
theorem exec_eq {i : Instr} (h : i ≠ .clr) (s : State) :
    exec i s = runCommand (encode i) (prerequisite i) (outputsOf i) (bodyOf i) s := by
  cases i <;> first | rfl | exact absurd rfl h

theorem admits_iff (s : State) (i : Instr) : s.admits (prerequisite i) = true ↔ s.Ready i := by
  unfold State.admits State.Ready
  cases prerequisite i <;> simp

/-- How a command other than CLR that answers got there: ignored, refused, run to its end, or ended by its fault. -/
theorem exec_cases {i : Instr} (hi : i ≠ .clr) (h : exec i s = .next t) :
    (¬ s.Ok ∧ t = s) ∨
    (s.Ok ∧ ¬ s.Ready i ∧ t = s.raise .sequenceError (encode i).toNat []) ∨
    (s.Ok ∧ s.Ready i ∧ bodyOf i s = .done t) ∨
    (s.Ok ∧ s.Ready i ∧ ∃ x info u, bodyOf i s = .raised x info u ∧ t = u.raise x info (outputsOf i)) := by
  rw [exec_eq hi] at h
  rcases runCommand_cases h with h | ⟨h1, h2, h3⟩ | ⟨h1, h2, h3⟩ | ⟨h1, h2, h3⟩
  · exact .inl h
  · exact .inr (.inl ⟨h1, fun hr => (by rw [(admits_iff s i).2 hr] at h2; cases h2), h3⟩)
  · exact .inr (.inr (.inl ⟨h1, (admits_iff s i).1 h2, h3⟩))
  · exact .inr (.inr (.inr ⟨h1, (admits_iff s i).1 h2, h3⟩))

/-- A command the dispatcher lets run is its body (rule R215). -/
theorem exec_ready {i : Instr} (hi : i ≠ .clr) (ho : s.Ok) (hr : s.Ready i) :
    exec i s = .next ((bodyOf i s).finish (outputsOf i)) := by
  rw [exec_eq hi]
  unfold runCommand
  rw [if_neg (by simpa using ho), if_pos ((admits_iff s i).2 hr)]

/-- A command the dispatcher lets run and that records no fault ran its body to the end. -/
theorem bodyOf_eq_done {i : Instr} (hi : i ≠ .clr) (ho : s.Ok) (hr : s.Ready i) (h : exec i s = .next t) (hk : t.Ok) :
    bodyOf i s = .done t := by
  rw [exec_ready hi ho hr] at h
  cases hb : bodyOf i s with
  | done u => rw [hb] at h; injection h with h; rw [← h]; rfl
  | raised x info u =>
    rw [hb] at h
    injection h with h
    exact absurd (h ▸ hk) (raise_err_ne_zero _ _ _ _)

/-- What the tree of BUILD says to GEN: its facts, and the root register. -/
theorem treeInv_built (s : State) :
    (s.distinctBytes = 0 ∧ rootPresent s.built.regs.treeRoot = false) ∨
    ∃ r, TreeInv s.built.treeAt r ∧ rootPresent s.built.regs.treeRoot = true ∧
      treeRootIndex s.built.regs.treeRoot = r := by
  obtain ⟨h1, h2, h3, -, -⟩ := built_spec s
  have hroot : s.built.regs.treeRoot = rootWord (buildTree (addLeaves s)).2 := rfl
  rw [hroot]
  cases hr : (buildTree (addLeaves s)).2 with
  | none => exact .inl ⟨h3.1 hr, by decide⟩
  | some r =>
    rw [hr] at h2
    have hinv := treeInv_of_treeShape h2
    have hlt : r < 512 := hinv.bound r (by rw [hinv.root]; decide)
    refine .inr ⟨r, hinv, ?_, ?_⟩
    · simp [rootPresent, rootWord]
    · unfold treeRootIndex rootWord
      rw [BitVec.extractLsb'_toNat, BitVec.toNat_or, BitVec.toNat_ofNat, BitVec.toNat_ofNat]
      rw [Nat.shiftRight_zero, Nat.or_mod_two_pow]
      have h9 : r % 2 ^ 32 % 2 ^ 9 = r := by omega
      rw [h9]
      simp

/-- A leaf of a built tree is reached from the root, and only leaves are (rule R140). -/
theorem exists_leafPath {tr : Nat → TreeRec} {r : Nat} (h : TreeInv tr r) {j : Nat} (hj : (tr j).kind ≠ .absent)
    (hpar : ∀ i, (tr i).kind ≠ .absent → i ≠ r → ∃ k b, treeChild (tr k) b = some i) :
    ∃ w, treeWalkIn tr r w = some j := by
  -- upwards from `j`: the parent has a greater rank
  have hup : ∀ n j, (tr j).kind ≠ .absent → 256 - rank tr j ≤ n → ∃ w, treeWalkIn tr r w = some j := by
    intro n
    induction n with
    | zero => intro j _ hn; have := h.rank_le j; omega
    | succ n ih =>
      intro j hj hn
      by_cases hr : j = r
      · exact ⟨[], by rw [hr]; rfl⟩
      · obtain ⟨k, b, hk⟩ := hpar j hj hr
        have hki : (tr k).kind = .internal := by
          by_contra hne; rw [h.ends k b hne] at hk; cases hk
        obtain ⟨-, -, hch⟩ := h.internal k hki
        obtain ⟨c, hc, -, hlt⟩ := hch b
        rw [hk] at hc
        have : j = c := by simpa using hc
        subst this
        obtain ⟨w, hw⟩ := ih k (by rw [hki]; decide) (by omega)
        exact ⟨w ++ [b], by rw [treeWalkIn_concat, hw]; exact hk⟩
  exact hup 256 j hj (by omega)

/-- Every record of a tree of the shape but the root has a parent. -/
theorem parent_of_treeShape {t : Table TreeRec} {r : Nat} (hw : tableWf absentRec t = true) (h : TreeShape t (some r))
    {i : Nat} (hi : (entryAt absentRec t i).kind ≠ .absent) (hne : i ≠ r) :
    ∃ k b, treeChild (entryAt absentRec t k) b = some i := by
  have hm := treeRec_of_kind hi
  have := (h.2.2.1 _ hm).2 (fun e => hne (by simpa using e.symm))
  obtain ⟨e, he, hc⟩ := mem_treeRefs.1 this
  refine ⟨e.1, !(e.2.low == some i), ?_⟩
  rw [entryAt_of_mem hw he]
  by_cases hl : e.2.low = some i
  · simp [hl, treeChild]
  · have hb : (e.2.low == some i) = false := by simpa using hl
    rw [hb]
    simpa [treeChild] using hc.resolve_left hl

/-- After SCAN, BUILD and GEN the byte values with a codeword are those of the input, and the table is a CodeTable
(rules R140, R152, R153). -/
theorem encode_table (s : State) :
    (∀ b, s.scanned.built.generated.codeAt b ≠ [] ↔ b ∈ s.region .src) ∧
    ValidTable s.scanned.built.generated.codeEntries := by
  have hcount : s.scanned.distinctBytes = 0 → ∀ b, b ∉ s.region .src := fun h0 b hb => by
    have hf := (s.freqAt_scanned_ne_zero b).2 hb
    have hm : b ∈ counted s.scanned := mem_counted.2 hf
    rw [List.length_eq_zero_iff.1 ((length_counted s.scanned).trans h0)] at hm
    simp at hm
  obtain ⟨h1, h2, h3, h4, -⟩ := built_spec s.scanned
  rcases treeInv_built s.scanned with ⟨h0, hp⟩ | ⟨r, hinv, hp, hidx⟩
  · have hcode : ∀ b, s.scanned.built.generated.codeAt b = [] := State.codeAt_generated_absent hp
    refine ⟨fun b => ⟨fun h => absurd (hcode b) h, fun h => absurd h (hcount h0 b)⟩, ?_⟩
    have : s.scanned.built.generated.codeEntries = [] := by
      rw [List.eq_nil_iff_forall_not_mem]
      intro e he
      obtain ⟨k1, k2⟩ := mem_codeEntries.1 he
      rw [hcode] at k1
      exact k2 k1.symm
    rw [this]
    exact ⟨List.nodup_nil, by simp, List.Pairwise.nil⟩
  · have hroot : (buildTree (addLeaves s.scanned)).2 = some r := by
      cases hr : (buildTree (addLeaves s.scanned)).2 with
      | none =>
        have : s.scanned.built.regs.treeRoot = rootWord none := by
          show rootWord (buildTree (addLeaves s.scanned)).2 = _
          rw [hr]
        rw [this] at hp
        exact absurd hp (by decide)
      | some r2 =>
        rw [hr] at h2
        have hinv2 := treeInv_of_treeShape h2
        by_contra hne
        have hne : r ≠ r2 := fun e => hne (by rw [e])
        obtain ⟨k, b, hk⟩ := parent_of_treeShape h1.1 h2 (i := r) (by
          show (s.scanned.built.treeAt r).kind ≠ _
          rw [hinv.root]; decide) hne
        exact hinv.noParent k b hk
    rw [hroot] at h2
    have hleaf : ∀ b : Byte, (s.scanned.built.treeAt b.toNat).kind = .leaf ↔ b ∈ s.region .src := fun b => by
      rw [← s.freqAt_scanned_ne_zero b]
      show (entryAt absentRec _ b.toNat).kind = .leaf ↔ _
      rw [h4]
      split
      · next h0 => simp [h0, absentRec]
      · next hf => simp [hf, leafRec]
    have hcode := State.codeAt_generated hinv hp hidx
    have hpath : ∀ b, (s.scanned.built.treeAt b.toNat).kind = .leaf →
        ∃ w, LeafPath s.scanned.built.treeAt r b w := fun b hb => by
      obtain ⟨w, hw⟩ := exists_leafPath hinv (j := b.toNat) (by rw [hb]; decide)
        fun i hi hne => parent_of_treeShape h1.1 h2 hi hne
      exact ⟨w, hw, hb⟩
    have hback : ∀ b, s.scanned.built.generated.codeAt b ≠ [] →
        LeafPath s.scanned.built.treeAt r b (s.scanned.built.generated.codeAt b) := fun b hb => by
      by_cases hex : ∃ w, LeafPath s.scanned.built.treeAt r b w
      · obtain ⟨w, hw⟩ := hex
        rw [(hcode b).1 w hw]; exact hw
      · exact absurd ((hcode b).2 hex) hb
    refine ⟨fun b => ⟨fun h => (hleaf b).1 (hback b h).2, fun h => ?_⟩, validTable_of_leafPaths hinv hback⟩
    obtain ⟨w, hw⟩ := hpath b ((hleaf b).2 h)
    rw [(hcode b).1 w hw]
    exact hw.ne_nil hinv

/-- ENCODE's pseudocode (rule R218) is DSER and PACK from the state that SCAN, BUILD and GEN make. -/
theorem encodeBody_eq (s : State) :
    encodeBody s = if s.len .src > s.cap .src then .raised .sourceUnavailable 0 s
      else (dserBody s.scanned.built.generated).andThen packBody := by
  unfold encodeBody
  rw [scanBody_eq]
  split
  · simp
  · rw [andThen_done, buildBody_eq, andThen_done, genBody_eq, andThen_done]

end Sys2Proof.Machine
end

