-- ==== Sys2Proof/Tests/Slice0.lean ====
section
/-! SUPPORT. Tests. Expected values come from spec/95_test_vectors.md (the vector is named) or are worked out by hand from
the encodings of spec/30_encoding.md. Last come the witnesses: for each obligation with hypotheses, a concrete state and
operands that meet all of them. -/

namespace Sys2Proof.Tests

open Sys2Proof Sys2Proof.Machine

-- One theorem at a time: each `decide +kernel` waits for the kernel, and a waiting theorem holds a thread.
set_option Elab.async false

/-! ### Well-formedness refuses ill-formed terms -/

theorem test_rawCommand_undefined_opcode : (RawCommand.mk 0x15#8 0#24).wellFormed = false := by decide
theorem test_rawCommand_formatN_zero_field : (RawCommand.mk 0x10#8 1#24).wellFormed = false := by decide
theorem test_rawCommand_formatB_zero_field : (RawCommand.mk 0x30#8 0x000100#24).wellFormed = false := by decide
theorem test_rawCommand_formatX_zero_field : (RawCommand.mk 0x32#8 0x020000#24).wellFormed = false := by decide
theorem test_rawCommand_accepts :
    (RawCommand.mk 0x10#8 0#24).wellFormed = true ∧ (RawCommand.mk 0x30#8 0x0000FF#24).wellFormed = true ∧
    (RawCommand.mk 0x32#8 0x01FFFF#24).wellFormed = true := by decide
theorem test_hostAction_undefined_offset : (HostAction.readReg 0x68 .word).wellFormed = false := by decide
theorem test_hostAction_unaligned_offset : (HostAction.writeReg 0x11 .word 0#32).wellFormed = false := by decide
theorem test_hostAction_narrow_access : (HostAction.readReg 0x04 .byte).wellFormed = false := by decide
theorem test_scriptLine_write_of_read_only : (ScriptLine.wr .dstLen 0).wellFormed = false := by decide
theorem test_scriptLine_write_of_cmd : (ScriptLine.wr .cmd 0x10).wellFormed = false := by decide
theorem test_scriptLine_value_too_large : (ScriptLine.wr .srcLen (2 ^ 32)).wellFormed = false := by decide
theorem test_scriptLine_dump_too_long : (ScriptLine.dump .dst (2 ^ 32)).wellFormed = false := by decide
theorem test_scriptLine_fill_too_long :
    (ScriptLine.fill .src (List.replicate (2 ^ 32) 0#8)).wellFormed = false := by
  simp [ScriptLine.wellFormed, -List.reduceReplicate]
theorem test_scriptLine_encodeBang_too_long :
    (ScriptLine.encodeBang (List.replicate (2 ^ 32) 0#8)).wellFormed = false := by
  simp [ScriptLine.wellFormed, -List.reduceReplicate]

/-! ### Decoding of words written out from the encodings (rules R91 to R94) -/

theorem test_decode_nop : decode 0b00000000000000000000000000000000#32 = .ok .nop := rfl
theorem test_decode_clr : decode 0b00000000000000000000000000000001#32 = .ok .clr := rfl
theorem test_decode_scan : decode 0b00000000000000000000000000010000#32 = .ok .scan := rfl
theorem test_decode_build : decode 0b00000000000000000000000000010001#32 = .ok .build := rfl
theorem test_decode_gen : decode 0b00000000000000000000000000010010#32 = .ok .gen := rfl
theorem test_decode_dser : decode 0b00000000000000000000000000010011#32 = .ok .dser := rfl
theorem test_decode_pack : decode 0b00000000000000000000000000010100#32 = .ok .pack := rfl
theorem test_decode_encode : decode 0b00000000000000000000000000011111#32 = .ok .encode := rfl
theorem test_decode_ddes : decode 0b00000000000000000000000000100000#32 = .ok .ddes := rfl
theorem test_decode_unpack : decode 0b00000000000000000000000000100001#32 = .ok .unpack := rfl
theorem test_decode_decode : decode 0b00000000000000000000000000101111#32 = .ok .decode := rfl
theorem test_decode_lookup : decode 0b00000000000000001010010100110000#32 = .ok (.lookup 0xA5#8) := rfl
theorem test_decode_rdfreq : decode 0b00000000000000000110110000110001#32 = .ok (.rdfreq 0x6C#8) := rfl
theorem test_decode_rdtree : decode 0b00000000000000010000001000110010#32 = .ok (.rdtree 258#17) := rfl
theorem test_decode_rdtrie : decode 0b00000001000000000000000100110011#32 = .ok (.rdtrie 65537#17) := rfl
theorem test_decode_undefined_opcode : decode 0x00000015#32 = .error (.undefinedOpcode 0x15#8) := rfl
theorem test_decode_nonzero_field : decode 0x02000032#32 = .error (.nonzeroField 0x32#8) := rfl

/-! ### Small states -/

/-- Bytes at offsets from `a` up. -/
def cellsFrom : Nat → List Nat → Memory
  | _, [] => []
  | a, v :: rest => (a, BitVec.ofNat 8 v) :: cellsFrom (a + 1) rest

/-- A buffer that begins with the given bytes. -/
def bytesOf (vs : List Nat) : Buffer := ⟨cellsFrom 0 vs, 0⟩

/-- "Hello" in `SRC` after reset (T-SRC-7). -/
def hello : State := { State.reset with src := bytesOf [0x48, 0x65, 0x6C, 0x6C, 0x6F]
                                        regs := { Regs.zero with srcLen := 5#32 } }

/-- A leaf with its count. -/
def leafAt (b : Nat) (freq : Nat) : Nat × TreeRec := (b, leafRec (BitVec.ofNat 8 b) (BitVec.ofNat 32 freq))

/-- The counts of "Hello" (T-SRC-7). -/
def helloCounted : State :=
  { hello with freq := .known [(0x48, 1#32), (0x65, 1#32), (0x6C, 2#32), (0x6F, 1#32)]
               regs := { hello.regs with status := 0x1#32, nsym := 4#32 } }

/-- The tree of "Hello" (T-SRC-7). -/
def helloTree : State :=
  { hello with
    tree := .known [leafAt 0x48 1, leafAt 0x65 1, leafAt 0x6C 2, leafAt 0x6F 1, (256, internalRec 2#32 0x48 0x65),
      (257, internalRec 3#32 0x6F 0x6C), (258, internalRec 5#32 256 257)]
    regs := { hello.regs with status := 0x2#32, nsym := 4#32, treeRoot := 0x80000102#32 } }

/-- The code of "Hello" (T-SRC-7). -/
def helloCode : State :=
  { helloTree with
    code := .known [(0x48, [false, false]), (0x65, [false, true]), (0x6C, [true, true]), (0x6F, [true, false])]
    regs := { helloTree.regs with status := 0x6#32 } }

/-- The dictionary and the payload of "Hello" (T-SRC-7) in `DICT` and `PAY` after reset. -/
def helloCoded : State :=
  { State.reset with
    dict := bytesOf [0x04, 0, 0, 0, 0x48, 0x02, 0, 0, 0, 0x30, 0x30, 0x65, 0x02, 0, 0, 0, 0x30, 0x31, 0x6C, 0x02, 0, 0, 0,
      0x31, 0x31, 0x6F, 0x02, 0, 0, 0, 0x31, 0x30]
    pay := bytesOf [0x06, 0x1F, 0x80]
    regs := { Regs.zero with dictLen := 32#32, payLen := 3#32 } }

/-- The trie of that dictionary (T-DDES-1). -/
def helloTrie : State :=
  { helloCoded with
    trie := .known [(0, ⟨.internal, 0#8, some 1, some 4⟩), (1, ⟨.internal, 0#8, some 2, some 3⟩),
      (2, ⟨.leaf, 0x48#8, none, none⟩), (3, ⟨.leaf, 0x65#8, none, none⟩), (4, ⟨.internal, 0#8, some 6, some 5⟩),
      (5, ⟨.leaf, 0x6C#8, none, none⟩), (6, ⟨.leaf, 0x6F#8, none, none⟩)]
    regs := { helloCoded.regs with status := 0x8#32, trieRoot := 0x80000000#32, trieNodes := 7#32 } }

/-- A fault recorded (T-UNPACK-7 and the like): IncompleteCodeword with info 7. -/
def faulted : State :=
  { hello with regs := { hello.regs with status := 0x80000000#32, err := 4#32, errinfo := 7#32 } }

/-- What the next state of a command shows. -/
def shows (i : Instr) (s : State) (p : State → Bool) : Bool :=
  match exec i s with
  | .next t => p t
  | .fault _ => false
  | .refused _ => false

/-- The first `n` bytes of a buffer, as numbers. -/
def bytesIn (s : State) (sp : Space) : List Nat := (s.region sp).map BitVec.toNat

/-! ### One step of each command -/

theorem test_nop_while_faulted : exec .nop faulted = .next faulted := rfl

/-- P3 step 6. -/
theorem test_clr_clears_the_fault :
    shows .clr faulted (fun t => t.regs == { Regs.zero with srcLen := 5#32 }) = true := by decide +kernel

/-- T-SCAN-1. -/
theorem test_scan_hello :
    shows .scan hello (fun t => t.regs == { hello.regs with status := 0x1#32, nsym := 4#32 } &&
      t.freq == helloCounted.freq) = true := by decide +kernel

/-- T-SCAN-5. -/
theorem test_scan_overlong :
    shows .scan { hello with params := { Params.largest with srcCap := 4#32 } } (fun t =>
      t.regs == { hello.regs with status := 0x80000000#32, err := 1#32 }) = true := by decide +kernel

/-- T-SCAN-2. -/
theorem test_rdfreq_hello : shows (.rdfreq 0x6C#8) helloCounted (fun t => t.regs.res0 == 2#32) = true := by
  decide +kernel

/-- T-SCAN-2: a byte value the input does not hold. -/
theorem test_rdfreq_absent : shows (.rdfreq 0x5A#8) helloCounted (fun t => t.regs.res0 == 0#32) = true := by
  decide +kernel

/-- T-SRC-7. -/
theorem test_build_hello :
    shows .build helloCounted (fun t => t.tree == helloTree.tree && t.regs == helloTree.regs) = true := by
  decide +kernel

/-- T-SRC-6, with three bytes: the single-symbol tree (rule R137). -/
theorem test_build_single :
    shows .build { helloCounted with freq := .known [(0x41, 3#32)] } (fun t =>
      t.tree == .known [leafAt 0x41 3, (256, internalRec 3#32 0x41 511), (511, placeholderRec)] &&
      t.regs.treeRoot == 0x80000100#32) = true := by decide +kernel

/-- P2 step 5. -/
theorem test_rdtree_root :
    shows (.rdtree 258#17) helloTree (fun t =>
      [t.regs.res0, t.regs.res1, t.regs.res2, t.regs.res3, t.regs.res4] == [2#32, 0#32, 5#32, 0x100#32, 0x101#32]) =
      true := by decide +kernel

/-- P2 step 8. -/
theorem test_rdtree_leaf :
    shows (.rdtree 0x6C#17) helloTree (fun t =>
      [t.regs.res0, t.regs.res1, t.regs.res2, t.regs.res3, t.regs.res4] ==
        [1#32, 0x6C#32, 2#32, 0xFFFFFFFF#32, 0xFFFFFFFF#32]) = true := by decide +kernel

/-- T-SRC-7. -/
theorem test_gen_hello :
    shows .gen helloTree (fun t => t.code == helloCode.code && t.regs == helloCode.regs) = true := by decide +kernel

/-- Rule R151, corner case (a). -/
theorem test_gen_absent_root :
    shows .gen { helloTree with regs := { helloTree.regs with treeRoot := 0#32 } } (fun t => t.code == .known []) =
      true := by decide +kernel

/-- P2 step 10. -/
theorem test_lookup_coded :
    shows (.lookup 0x6C#8) helloCode (fun t => t.regs.cwlen == 2#32 && t.regs.cwbits0 == 0xC0000000#32 &&
      t.regs.cwbits7 == 0#32) = true := by decide +kernel

/-- P2 step 11. -/
theorem test_lookup_second :
    shows (.lookup 0x6F#8) helloCode (fun t => t.regs.cwlen == 2#32 && t.regs.cwbits0 == 0x80000000#32) = true := by
  decide +kernel

/-- P2 step 13. -/
theorem test_dser_hello :
    shows .dser helloCode (fun t => t.regs.dictLen == 32#32 &&
      bytesIn t .dict == [0x04, 0, 0, 0, 0x48, 0x02, 0, 0, 0, 0x30, 0x30, 0x65, 0x02, 0, 0, 0, 0x30, 0x31, 0x6C, 0x02, 0, 0,
        0, 0x31, 0x31, 0x6F, 0x02, 0, 0, 0, 0x31, 0x30]) = true := by decide +kernel

/-- T-SRC-7's dictionary needs 32 bytes. -/
theorem test_dser_does_not_fit :
    shows .dser { helloCode with params := { Params.largest with dictCap := 31#32 } } (fun t =>
      t.regs.err == 2#32 && t.regs.errinfo == 2#32 && t.regs.dictLen == 0#32) = true := by decide +kernel

/-- P2 step 12. -/
theorem test_pack_hello :
    shows .pack helloCode (fun t => bytesIn t .pay == [0x06, 0x1F, 0x80]) = true := by decide +kernel

/-- P5 step 8. -/
theorem test_pack_uncoded :
    shows .pack { helloCode with src := bytesOf [0x48, 0x7A, 0, 0, 0] } (fun t => t.regs.err == 7#32 &&
      t.regs.errinfo == 1#32 && t.regs.payLen == 0#32 && t.regs.status == 0x80000000#32) = true := by decide +kernel

/-- P1 step 3. -/
theorem test_encode_hello :
    shows .encode hello (fun t => t.regs.status == 0x6#32 && t.regs.treeRoot == 0x80000102#32 &&
      t.regs.dictLen == 32#32 && bytesIn t .pay == [0x06, 0x1F, 0x80]) = true := by decide +kernel

/-- T-SRC-4. -/
theorem test_encode_empty :
    shows .encode { hello with regs := Regs.zero } (fun t => t.regs.status == 0x6#32 && t.regs.treeRoot == 0#32 &&
      bytesIn t .dict == [0, 0, 0, 0] && bytesIn t .pay == [0]) = true := by decide +kernel

/-- T-DDES-1. -/
theorem test_ddes_hello :
    shows .ddes helloCoded (fun t => t.trie == helloTrie.trie && t.regs == helloTrie.regs) = true := by decide +kernel

/-- P3 step 3, through DDES: the byte value 41 twice. -/
theorem test_ddes_duplicate_key :
    shows .ddes { helloCoded with
        dict := bytesOf [2, 0, 0, 0, 0x41, 1, 0, 0, 0, 0x30, 0x41, 1, 0, 0, 0, 0x31]
        regs := { helloCoded.regs with dictLen := 16#32 } } (fun t =>
      t.regs.err == 3#32 && t.regs.errinfo == 10#32 && t.regs.status == 0x80000000#32) = true := by decide +kernel

/-- T-DDES-1. -/
theorem test_rdtrie_internal :
    shows (.rdtrie 4#17) helloTrie (fun t =>
      [t.regs.res0, t.regs.res1, t.regs.res2, t.regs.res3, t.regs.res4] == [2#32, 0#32, 0#32, 6#32, 5#32]) = true := by
  decide +kernel

/-- Rule R175: an index at `TRIE_NODES` reads as ABSENT. -/
theorem test_rdtrie_beyond :
    shows (.rdtrie 7#17) helloTrie (fun t =>
      [t.regs.res0, t.regs.res1, t.regs.res2, t.regs.res3, t.regs.res4] ==
        [0#32, 0#32, 0#32, 0xFFFFFFFF#32, 0xFFFFFFFF#32]) = true := by decide +kernel

/-- T-UNPACK-1. -/
theorem test_unpack_hello :
    shows .unpack helloTrie (fun t => bytesIn t .dst == [0x48, 0x65, 0x6C, 0x6C, 0x6F]) = true := by decide +kernel

/-- P4 step 8. -/
theorem test_unpack_truncated :
    shows .unpack { helloTrie with pay := bytesOf [0x01, 0x1F], regs := { helloTrie.regs with payLen := 2#32 } } (fun t =>
      t.regs.err == 4#32 && t.regs.errinfo == 7#32 && t.regs.dstLen == 0#32) = true := by decide +kernel

/-- P1 step 7. -/
theorem test_decode_restores_hello :
    shows .decode helloCoded (fun t => t.regs.status == 0x8#32 && t.regs.trieNodes == 7#32 &&
      bytesIn t .dst == [0x48, 0x65, 0x6C, 0x6C, 0x6F]) = true := by decide +kernel

/-- P3 step 3. -/
theorem test_decode_malformed :
    shows .decode { helloCoded with
        dict := bytesOf [2, 0, 0, 0, 0x41, 1, 0, 0, 0, 0x30, 0x41, 1, 0, 0, 0, 0x31]
        regs := { helloCoded.regs with dictLen := 16#32 } } (fun t =>
      t.regs.err == 3#32 && t.regs.errinfo == 10#32 && t.regs.dstLen == 0#32) = true := by decide +kernel

/-! ### The host interface -/

/-- T-SCAN-7: a command word through the step, with its prerequisite missing. -/
theorem test_step_sequence_error :
    step (hello.withFetchWord 32 0x00006C30) = .next (hello.raise .sequenceError 0x00006C30 []) := by rfl

theorem test_decodeTableWord : decodeTableWord 32 0x00006C31 = some (.rdfreq 0x6C#8) := rfl

/-- Rule R107: the pseudo-line of a whole encode. -/
theorem test_encodeBang_actions :
    scriptActions [.encodeBang [0x48#8, 0x69#8]] =
      [.writeBuf .src 0 0x48#8, .writeBuf .src 1 0x69#8, .writeReg 0x10 .word 2#32, .writeReg 0x00 .word 0x1F#32] := rfl

/-! ### Witnesses

Each theorem shows a state and operands that meet all hypotheses of the obligation it names, clause by clause where the
statement has several. -/

/-- What `shows` finds, as a next state. -/
theorem exists_next {i : Instr} {s : State} {p : State → Bool} (h : shows i s p = true) :
    ∃ t, exec i s = .next t ∧ p t = true := by
  unfold shows at h
  split at h
  · exact ⟨_, ‹_›, h⟩
  · exact absurd h (by decide)
  · exact absurd h (by decide)

/-- A tree of two leaves. -/
def abTree : Table TreeRec := [leafAt 0x41 1, leafAt 0x42 1, (256, internalRec 2#32 0x41 0x42)]

/-- A trie of two leaves. -/
def abTrie : Table TrieRec :=
  [(0, ⟨.internal, 0#8, some 1, some 2⟩), (1, ⟨.leaf, 0x41#8, none, none⟩), (2, ⟨.leaf, 0x42#8, none, none⟩)]

/-- A state with the input "AB", its tree, its code, the blob, the payload and the trie: every flag but `FREQ_VALID`. -/
def ab : State :=
  { State.reset with
    src := bytesOf [0x41, 0x42]
    dict := bytesOf [2, 0, 0, 0, 0x41, 1, 0, 0, 0, 0x30, 0x42, 1, 0, 0, 0, 0x31]
    pay := bytesOf [0x06, 0x40]
    tree := .known abTree
    code := .known [(0x41, [false]), (0x42, [true])]
    trie := .known abTrie
    regs := { Regs.zero with status := 0xE#32, srcLen := 2#32, dictLen := 16#32, payLen := 2#32, nsym := 2#32,
                             treeRoot := 0x80000100#32, trieRoot := 0x80000000#32, trieNodes := 3#32 } }

/-- The counts of "AB". -/
def abCounted : State :=
  { ab with freq := .known [(0x41, 1#32), (0x42, 1#32)], regs := { ab.regs with status := 0x1#32 } }

/-- `ab` with other capacities. -/
def capped (dict pay dst : Nat) (s : State) : State :=
  { s with params := ⟨100#32, BitVec.ofNat 32 pay, BitVec.ofNat 32 dict, BitVec.ofNat 32 dst⟩ }

/-- `ab` with other bytes in `PAY`. -/
def withPay (vs : List Nat) (s : State) : State :=
  { s with pay := bytesOf vs, regs := { s.regs with payLen := BitVec.ofNat 32 vs.length } }

/-- `ab` with other bytes in `DICT`. -/
def withDict (vs : List Nat) (s : State) : State :=
  { s with dict := bytesOf vs, regs := { s.regs with dictLen := BitVec.ofNat 32 vs.length } }

/-- A trie whose node 1 lacks the child on 1: "00" is A and "1" is B (T-UNPACK-19). -/
def gap : State :=
  { ab with
    trie := .known [(0, ⟨.internal, 0#8, some 1, some 3⟩), (1, ⟨.internal, 0#8, some 2, none⟩),
      (2, ⟨.leaf, 0x41#8, none, none⟩), (3, ⟨.leaf, 0x42#8, none, none⟩)]
    regs := { ab.regs with trieNodes := 4#32 } }

theorem ab_treeShape : TreeShape abTree (some 256) := by
  refine ⟨?_, by decide, by decide, rfl⟩
  intro e he
  simp only [abTree, List.mem_cons, List.not_mem_nil, or_false] at he
  rcases he with rfl | rfl | rfl
  · exact ⟨by decide, by decide, by decide⟩
  · exact ⟨by decide, by decide, by decide⟩
  · exact ⟨by decide, by decide, 0x41, 0x42, by decide, by decide, by decide⟩

theorem ab_treeOk : ab.TreeOk := ⟨abTree, some 256, rfl, by decide, ab_treeShape, by decide, by decide⟩

theorem ab_trieOk : ab.TrieOk := by
  refine ⟨abTrie, rfl, by decide, ⟨fun i hi => ?_, fun i hi => ?_, fun _ => rfl, by decide⟩, by decide⟩
  · have hi : i < 3 := hi
    obtain rfl | rfl | rfl : i = 0 ∨ i = 1 ∨ i = 2 := by omega
    · exact ⟨rfl, .inl (by decide), fun j h => by cases h; decide, fun j h => by cases h; decide⟩
    · exact ⟨rfl, rfl⟩
    · exact ⟨rfl, rfl⟩
  · have hi : 3 ≤ i := hi
    simp [entryAt, abTrie, lookAt, show i ≠ 0 by omega, show i ≠ 1 by omega, show i ≠ 2 by omega]

theorem gap_trieOk : gap.TrieOk := by
  refine ⟨_, rfl, by decide, ⟨fun i hi => ?_, fun i hi => ?_, fun _ => rfl, by decide⟩, by decide⟩
  · have hi : i < 4 := hi
    obtain rfl | rfl | rfl | rfl : i = 0 ∨ i = 1 ∨ i = 2 ∨ i = 3 := by omega
    · exact ⟨rfl, .inl (by decide), fun j h => by cases h; decide, fun j h => by cases h; decide⟩
    · exact ⟨rfl, .inl (by decide), fun j h => by cases h; decide, fun j h => by cases h⟩
    · exact ⟨rfl, rfl⟩
    · exact ⟨rfl, rfl⟩
  · have hi : 4 ≤ i := hi
    simp [entryAt, lookAt, show i ≠ 0 by omega, show i ≠ 1 by omega, show i ≠ 2 by omega, show i ≠ 3 by omega]

theorem ab_storageOk : ab.StorageOk := by
  refine ⟨fun sp => ?_, trivial, by show TableOk _ _ _; decide, by show TableOk _ _ _; decide, by show TableOk _ _ _; decide⟩
  cases sp <;> decide +kernel

theorem ab_faultFlagsOk : ab.FaultFlagsOk := by
  refine ⟨by decide, by decide, by decide, fun h => absurd rfl h, fun i h1 h2 => ?_⟩
  interval_cases i <;> rfl

theorem ab_regsOk : ab.RegsOk :=
  ⟨by decide, ⟨some 256, fun i h => by cases h; decide, by decide⟩, by decide, by decide, by decide, by decide⟩

theorem ab_structuresOk : ab.StructuresOk :=
  ⟨rfl, by decide, by show ∀ e ∈ _, _; decide, fun h => absurd h (by decide), fun _ => ab_treeOk,
    fun _ => ⟨by decide, ⟨_, rfl⟩, by decide +kernel, by decide +kernel⟩, fun _ => ab_trieOk⟩

theorem ab_inv : ab.Inv := ⟨ab_storageOk, ab_faultFlagsOk, ab_regsOk, ab_structuresOk⟩

theorem witness_DecodedWordIsReencoded : decode 0x01FFFF32#32 = .ok (.rdtree 0x1FFFF#17) := rfl

theorem witness_DecodeFollowsOpcodeMap :
    decode 0x0000FF31#32 = .ok (.rdfreq 0xFF#8) ∧
    decode 0x01FFFF33#32 = .ok (.rdtrie 0x1FFFF#17) ∧ ∃ r ∈ opcodeMap, 0x01FFFF33#32 &&& r.mask = r.pattern :=
  ⟨rfl, rfl, by decide⟩

theorem witness_UndefinedWordRaisesIllegalCommand :
    hello.Ok ∧ (∀ r ∈ opcodeMap, 0x00000015#32 &&& r.mask ≠ r.pattern) ∧
    ∀ r ∈ opcodeMap, 0x02000032#32 &&& r.mask ≠ r.pattern := by decide

theorem witness_StepRunsTheDecodedCommand :
    ∃ s : State, s.script = [.writeReg 0x00 .word 0x10#32] ∧ decode 0x10#32 = .ok .scan :=
  ⟨{ hello with script := [.writeReg 0x00 .word 0x10#32] }, rfl, rfl⟩

theorem witness_StepWaitsForTheHost : hello.script = [] := rfl

theorem witness_HostReadDeliversTheRegister :
    ∃ s : State, s.script = [.readReg (regOffset .cwbits7) .word] :=
  ⟨{ hello with script := [.readReg 0x64 .word] }, rfl⟩

theorem witness_HostWriteReachesOnlyLengths :
    ∃ s : State, Reg.dictLen ≠ .cmd ∧ s.script = [.writeReg (regOffset .dictLen) .word 9#32] :=
  ⟨{ hello with script := [.writeReg 0x18 .word 9#32] }, by decide, rfl⟩

theorem witness_UndefinedRegisterAccessIsRefused :
    (0x68 % 4 ≠ 0 ∨ 0x68 ≤ 0x68) ∧ (0x01 % 4 ≠ 0 ∨ 0x68 ≤ 0x01) ∧ AccessWidth.half ≠ .word ∧
    (0x64 % 4 = 0 ∧ 0x64 < 0x68) := by decide

theorem witness_HostByteIsStoredAndReadBack :
    0 < hello.cap .src ∧ hello.cap .src - 1 < hello.cap .src ∧ hello.cap .src ≤ 0xFFFFFFFF := by decide

theorem witness_FourByteWriteReadsBack :
    0xFFFFFFFF < 2 ^ 32 ∧ 3 < 4 ∧ (Space.src ≠ .pay ∨ 8 < 7 ∨ 7 + 4 ≤ 8) ∧ (Space.pay ≠ .pay ∨ 6 < 7 ∨ 7 + 4 ≤ 6) ∧
    (Space.pay ≠ .pay ∨ 11 < 7 ∨ 7 + 4 ≤ 11) := by decide

theorem witness_RaiseRecordsTheFault : Space.dict ∈ [Space.dict, .pay] ∧ Space.src ∉ [Space.dict, .pay] := by decide

theorem witness_RecordedFaultIsSticky :
    (¬ faulted.Ok ∧ 0x10#32 ≠ 0x00000001#32 ∧ 4 < faulted.cap .dst) ∧
    ∃ s t : State, ¬ s.Ok ∧ step s = .next t ∧ (∀ rest, s.script ≠ .writeReg 0x00 .word 0x00000001#32 :: rest) ∧
      ∀ rest, s.script ≠ .reset :: rest :=
  ⟨by decide, { faulted with script := [.writeReg 0x00 .word 0x10#32] }, faulted, by decide, rfl, by simp, by simp⟩

theorem witness_MissingPrerequisiteRaisesSequenceError :
    prerequisite (.rdtrie 4#17) = some .trie ∧ hello.Ok ∧ hello.flag .trie = false := by decide

/-- `PAY_LEN` is 2 and `PAY_CAP` 1: for UNPACK, and for DECODE behind a good dictionary. -/
theorem witness_OverlongInputRaisesSourceUnavailable :
    (firstInputOf .unpack = some .pay ∧ (capped 16 1 2 ab).Ok ∧ (capped 16 1 2 ab).Ready .unpack ∧
      (capped 16 1 2 ab).cap .pay < (capped 16 1 2 ab).len .pay) ∧
    ∃ t, (capped 16 1 2 ab).Ok ∧ exec .ddes (capped 16 1 2 ab) = .next t ∧ t.Ok ∧
      (capped 16 1 2 ab).cap .pay < (capped 16 1 2 ab).len .pay := by
  refine ⟨⟨rfl, rfl, fun f h => by cases h; rfl, by decide⟩, ?_⟩
  obtain ⟨t, h, k⟩ := exists_next (i := .ddes) (s := capped 16 1 2 ab) (p := fun t => decide t.Ok) (by decide +kernel)
  exact ⟨t, rfl, h, by simpa using k, by decide⟩

theorem witness_CommandsRaiseOnlyTheirFaults :
    (∃ t, (capped 16 1 2 ab).Ok ∧ exec .encode (capped 16 1 2 ab) = .next t ∧ ¬ t.Ok) ∧
    (HwFault.sequenceError, none) ∈ faultsOf .build ∧ ∀ i, decode 0x000000FF#32 ≠ .ok i := by
  refine ⟨?_, by decide, fun i => by simp [decode, opcodeField]⟩
  obtain ⟨t, h, k⟩ := exists_next (i := .encode) (s := capped 16 1 2 ab) (p := fun t => decide ¬ t.Ok) (by decide +kernel)
  exact ⟨t, rfl, h, by simpa using k⟩

/-- A fault of the command itself, and one of the dispatcher. -/
theorem witness_FaultedCommandKeepsTheRest :
    (∃ t, (capped 15 1 2 ab).Ok ∧ (capped 15 1 2 ab).Ready .dser ∧ Space.dict ∈ outputsOf .dser ∧
      Space.pay ∉ outputsOf .dser ∧ exec .dser (capped 15 1 2 ab) = .next t ∧ ¬ t.Ok) ∧
    ∃ t, hello.Ok ∧ ¬ hello.Ready .dser ∧ exec .dser hello = .next t ∧ ¬ t.Ok := by
  constructor
  · obtain ⟨t, h, k⟩ := exists_next (i := .dser) (s := capped 15 1 2 ab) (p := fun t => decide ¬ t.Ok) (by decide +kernel)
    exact ⟨t, rfl, fun f h => by cases h; rfl, by decide, by decide, h, by simpa using k⟩
  · obtain ⟨t, h, k⟩ := exists_next (i := .dser) (s := hello) (p := fun t => decide ¬ t.Ok) (by decide +kernel)
    exact ⟨t, rfl, fun h => absurd (h .code rfl) (by decide), h, by simpa using k⟩

theorem witness_ScanCountsEveryByte : hello.Ok ∧ hello.len .src ≤ hello.cap .src := by decide

/-- "Hello" and "olleH". -/
theorem witness_ScanIgnoresInputOrder :
    ∃ s2 t1 t2 : State, hello.Ok ∧ s2.Ok ∧ hello.len .src ≤ hello.cap .src ∧ s2.len .src ≤ s2.cap .src ∧
      (hello.region .src).Perm (s2.region .src) ∧ exec .scan hello = .next t1 ∧ exec .scan s2 = .next t2 :=
  ⟨{ hello with src := bytesOf [0x6F, 0x6C, 0x6C, 0x65, 0x48] }, _, _, by decide, by decide, by decide, by decide,
    by decide +kernel, rfl, rfl⟩

theorem witness_RdfreqReturnsTheCount :
    (abCounted.Ok ∧ abCounted.flag .freq = true) ∧ (hello.Ok ∧ hello.flag .freq = false) ∧
    ∃ s, hello.Ok ∧ exec .scan hello = .next s ∧ s.Ok ∧ 0x5A#8 ∉ hello.region .src :=
  ⟨by decide, by decide, _, by decide, rfl, by decide +kernel, by decide +kernel⟩

theorem witness_ClrClearsAllButLengths : Instr.scan ≠ .clr ∧ ¬ faulted.Ok := by decide

theorem witness_QueueYieldsTheLeastKey :
    keyLess ⟨1#32, 2⟩ ⟨1#32, 3⟩ = true ∧ keyLess ⟨1#32, 3⟩ ⟨2#32, 0⟩ = true ∧
    [PqKey.mk 1#32 3, ⟨1#32, 2⟩].Nodup ∧ [PqKey.mk 1#32 3, ⟨1#32, 2⟩].Perm [⟨1#32, 2⟩, ⟨1#32, 3⟩] ∧
    pqExtractMin ([PqKey.mk 1#32 3, ⟨1#32, 2⟩].foldr pqInsert []) = some (⟨1#32, 2⟩, [⟨1#32, 3⟩]) := by decide

theorem witness_BuildOfNoSymbols :
    ∃ s : State, s.Ok ∧ s.flag .freq = true ∧ ∀ b, s.freqAt b = 0#32 :=
  ⟨{ abCounted with freq := .known [] }, by decide, by decide, fun _ => rfl⟩

theorem witness_BuildOfOneSymbol :
    ∃ s : State, s.Ok ∧ s.flag .freq = true ∧ ∀ b, s.freqAt b ≠ 0#32 ↔ b = 0x41#8 :=
  ⟨{ abCounted with freq := .known [(0x41, 3#32)] }, by decide, by decide, by decide +kernel⟩

theorem witness_BuildMergesTwoLeastKeys :
    abCounted.Ok ∧ abCounted.flag .freq = true ∧ 2 = abCounted.distinctBytes ∧ 2 ≤ 2 := by decide +kernel

/-- The root's record has children, a leaf's has none. -/
theorem witness_RdtreeReturnsTheRecord :
    (ab.Ok ∧ ab.flag .tree = true ∧ (ab.treeAt 256).low = some 0x41 ∧ (ab.treeAt 256).high = some 0x42 ∧
      (ab.treeAt 0x41).low = none ∧ (ab.treeAt 0x41).high = none) ∧ (hello.Ok ∧ hello.flag .tree = false) := by decide

theorem witness_GenAssignsThePathOfEveryLeaf :
    ab.Ok ∧ ab.flag .tree = true ∧ ab.TreeOk ∧ 256 < 512 ∧ ab.regs.treeRoot = rootWord (some 256) :=
  ⟨rfl, rfl, ab_treeOk, by decide, by decide⟩

theorem witness_GenOfAnAbsentRoot :
    ∃ s : State, s.Ok ∧ s.flag .tree = true ∧ s.regs.treeRoot.getLsbD 31 = false :=
  ⟨{ ab with regs := { ab.regs with treeRoot := 0#32 } }, by decide, by decide, by decide⟩

theorem witness_GeneratedCodeIsPrefixFree :
    ∃ t, ab.Ok ∧ ab.flag .tree = true ∧ ab.TreeOk ∧ exec .gen ab = .next t :=
  ⟨_, rfl, rfl, ab_treeOk, rfl⟩

theorem witness_LookupReturnsTheCodeword :
    ab.Ok ∧ ab.flag .code = true ∧ 255 < 256 ∧ (0 < (ab.codeAt 0x42#8).length ∧ ¬ 1 < (ab.codeAt 0x42#8).length) := by
  decide

/-- The blob of 16 bytes just fits. -/
theorem witness_DserWritesTheBlob :
    (capped 16 1 2 ab).Ok ∧ (capped 16 1 2 ab).flag .code = true ∧
    (blobOf (capped 16 1 2 ab).codeEntries).length = (capped 16 1 2 ab).cap .dict := by decide +kernel

/-- The blob of 16 bytes just does not fit. -/
theorem witness_DserRaisesWhenTheBlobDoesNotFit :
    (capped 15 1 2 ab).Ok ∧ (capped 15 1 2 ab).flag .code = true ∧
    (capped 15 1 2 ab).cap .dict < (blobOf (capped 15 1 2 ab).codeEntries).length := by decide +kernel

/-- The table of `ab`, as entries. -/
def abEntries : Entries := [(0x41#8, [false]), (0x42#8, [true])]

/-- The example of rule R171: the records of the "Hello" blob, and (T-DDES-2) of its entries in reverse order. -/
theorem test_paths_by_need :
    pathsByNeed [(0x48#8, [false, false]), (0x65#8, [false, true]), (0x6C#8, [true, true]), (0x6F#8, [true, false])] =
      [[], [false], [false, false], [false, true], [true], [true, true], [true, false]] ∧
    pathsByNeed [(0x6F#8, [true, false]), (0x6C#8, [true, true]), (0x65#8, [false, true]), (0x48#8, [false, false])] =
      [[], [true], [true, false], [true, true], [false], [false, true], [false, false]] := by decide

/-- The first record, the last, and the first index beyond them. -/
theorem witness_DdesRoutesEveryCodeword :
    (ab.Ok ∧ ab.len .dict ≤ ab.cap .dict ∧ ValidTable abEntries ∧ ab.region .dict = blobOf abEntries ∧ abEntries ≠ [] ∧
      (pathsByNeed abEntries)[0]? = some [] ∧ (pathsByNeed abEntries)[2]? = some [true] ∧
      (pathsByNeed abEntries).length ≤ 3) ∧
    ∃ s : State, s.Ok ∧ s.len .dict ≤ s.cap .dict ∧ ValidTable [] ∧ s.region .dict = blobOf [] :=
  ⟨by decide +kernel, withDict [0, 0, 0, 0] ab, by decide +kernel⟩

theorem witness_DdesAcceptsExactlyCodeTables : ab.Ok ∧ ab.len .dict ≤ ab.cap .dict := by decide

/-- Three bytes; and two entries declared where the bytes support one. -/
theorem witness_TruncatedBlobIsMalformed :
    (∃ s : State, s.Ok ∧ s.len .dict ≤ s.cap .dict ∧ s.len .dict < 4) ∧
    ∃ s : State, s.Ok ∧ s.len .dict ≤ s.cap .dict ∧ (s.len .dict - 4) / 5 < s.memRead32 .dict 0 :=
  ⟨⟨withDict [1, 0, 0] ab, by decide +kernel⟩, ⟨withDict [2, 0, 0, 0, 0x41, 1, 0, 0, 0, 0x30] ab, by decide +kernel⟩⟩

/-- A blob whose first bytes are a count and the entries of a table, behind checks 1 and 2, with bytes after them. -/
def TableThenBytes (s : State) (count : Nat) (es : Entries) (rest : List Byte) : Prop :=
  s.Ok ∧ s.len .dict ≤ s.cap .dict ∧ ValidTable es ∧ count < 2 ^ 32 ∧
  s.region .dict = le32Bytes count ++ (es.flatMap fun e => entryBytes e.1 e.2) ++ rest ∧
  count ≤ (s.len .dict - 4) / 5

/-- Four bytes left for a header; a length of 0; a length one above the bytes left; a length of 256; a byte value seen
before. -/
theorem witness_BadEntryHeaderIsReported :
    (∃ s rest, TableThenBytes s 2 [(0x41#8, [false])] rest ∧ 1 < 2 ∧ rest.length < 5) ∧
    (∃ s rest, TableThenBytes s 1 [] rest ∧ 0 < 1 ∧ 5 ≤ rest.length ∧ s.memRead32 .dict 5 = 0) ∧
    (∃ s rest, TableThenBytes s 1 [] rest ∧ 0 < 1 ∧ 5 ≤ rest.length ∧ rest.length - 5 < s.memRead32 .dict 5) ∧
    (∃ s rest, TableThenBytes s 1 [] rest ∧ 0 < 1 ∧ 5 ≤ rest.length ∧ 255 < s.memRead32 .dict 5 ∧
      s.memRead32 .dict 5 ≤ rest.length - 5) ∧
    ∃ s rest, TableThenBytes s 2 [(0x41#8, [false])] rest ∧ 1 < 2 ∧ 5 ≤ rest.length ∧ 0 < s.memRead32 .dict 11 ∧
      s.memRead32 .dict 11 ≤ 255 ∧ s.memRead32 .dict 11 ≤ rest.length - 5 ∧
      s.memRead .dict 10 ∈ [(0x41#8, [false])].map Prod.fst := by
  refine ⟨⟨withDict [2, 0, 0, 0, 0x41, 1, 0, 0, 0, 0x30, 0x42, 1, 0, 0] ab, [0x42#8, 1#8, 0#8, 0#8], ?_⟩,
    ⟨withDict [1, 0, 0, 0, 0x41, 0, 0, 0, 0] ab, [0x41#8, 0#8, 0#8, 0#8, 0#8], ?_⟩,
    ⟨withDict [1, 0, 0, 0, 0x41, 1, 0, 0, 0] ab, [0x41#8, 1#8, 0#8, 0#8, 0#8], ?_⟩,
    ⟨withDict ([1, 0, 0, 0, 0x41, 0, 1, 0, 0] ++ List.replicate 256 0x30) ab,
      [0x41#8, 0#8, 1#8, 0#8, 0#8] ++ List.replicate 256 0x30#8, ?_⟩,
    ⟨withDict [2, 0, 0, 0, 0x41, 1, 0, 0, 0, 0x30, 0x41, 1, 0, 0, 0, 0x31] ab, [0x41#8, 1#8, 0#8, 0#8, 0#8, 0x31#8], ?_⟩⟩
  all_goals (unfold TableThenBytes; decide +kernel)

/-- Behind the table's entries a header passes checks 3 to 7, and some first bits of its codeword are read with no
codeword of the table a proper prefix of them; `p` is the entry's offset. -/
def HeaderThenBits (s : State) (p : Nat) (es : Entries) (rest : List Byte) (bits : List Bool) : Prop :=
  p = s.len .dict - rest.length ∧ 5 ≤ rest.length ∧ 0 < s.memRead32 .dict (p + 1) ∧ s.memRead32 .dict (p + 1) ≤ 255 ∧
  s.memRead32 .dict (p + 1) ≤ rest.length - 5 ∧ s.memRead .dict p ∉ es.map Prod.fst ∧
  bits.length ≤ s.memRead32 .dict (p + 1) ∧
  (∀ j (h : j < bits.length), s.memRead .dict (p + 5 + j) = if bits[j] then 0x31#8 else 0x30#8) ∧
  ∀ e ∈ es, e.2 <+: bits → e.2 = bits

/-- The first character is '2'; the last one is; a third character after the codeword "0" of A; the codeword "0" again;
"0" before an earlier "01"; a byte after the one entry; a byte after an `entry_count` of 0. -/
theorem witness_BadCodewordOrSpareBytesAreReported :
    (∃ s rest, TableThenBytes s 1 [] rest ∧ 0 < 1 ∧ HeaderThenBits s 4 [] rest [] ∧ 0 < s.memRead32 .dict 5 ∧
      s.memRead .dict 9 ≠ 0x30#8 ∧ s.memRead .dict 9 ≠ 0x31#8) ∧
    (∃ s rest, TableThenBytes s 1 [] rest ∧ 0 < 1 ∧ HeaderThenBits s 4 [] rest [true] ∧ 1 < s.memRead32 .dict 5 ∧
      s.memRead .dict 10 ≠ 0x30#8 ∧ s.memRead .dict 10 ≠ 0x31#8) ∧
    (∃ s rest, TableThenBytes s 2 [(0x41#8, [false])] rest ∧ 1 < 2 ∧
      HeaderThenBits s 10 [(0x41#8, [false])] rest [false] ∧ 1 < s.memRead32 .dict 11 ∧
      ∃ e ∈ [(0x41#8, [false])], e.2 = [false]) ∧
    (∃ s rest, TableThenBytes s 2 [(0x41#8, [false])] rest ∧ 1 < 2 ∧
      HeaderThenBits s 10 [(0x41#8, [false])] rest [false] ∧ 1 = s.memRead32 .dict 11 ∧
      ∃ e ∈ [(0x41#8, [false])], [false] <+: e.2) ∧
    (∃ s rest, TableThenBytes s 2 [(0x41#8, [false, true])] rest ∧ 1 < 2 ∧
      HeaderThenBits s 11 [(0x41#8, [false, true])] rest [false] ∧ 1 = s.memRead32 .dict 12 ∧
      ∃ e ∈ [(0x41#8, [false, true])], [false] <+: e.2) ∧
    (∃ s rest, TableThenBytes s 1 [(0x41#8, [false])] rest ∧ rest ≠ []) ∧
    ∃ s rest, TableThenBytes s 0 [] rest ∧ rest ≠ [] := by
  refine ⟨⟨withDict [1, 0, 0, 0, 0x41, 1, 0, 0, 0, 0x32] ab, [0x41#8, 1#8, 0#8, 0#8, 0#8, 0x32#8], ?_⟩,
    ⟨withDict [1, 0, 0, 0, 0x41, 2, 0, 0, 0, 0x31, 0x32] ab, [0x41#8, 2#8, 0#8, 0#8, 0#8, 0x31#8, 0x32#8], ?_⟩,
    ⟨withDict [2, 0, 0, 0, 0x41, 1, 0, 0, 0, 0x30, 0x42, 2, 0, 0, 0, 0x30, 0x31] ab,
      [0x42#8, 2#8, 0#8, 0#8, 0#8, 0x30#8, 0x31#8], ?_⟩,
    ⟨withDict [2, 0, 0, 0, 0x41, 1, 0, 0, 0, 0x30, 0x42, 1, 0, 0, 0, 0x30] ab,
      [0x42#8, 1#8, 0#8, 0#8, 0#8, 0x30#8], ?_⟩,
    ⟨withDict [2, 0, 0, 0, 0x41, 2, 0, 0, 0, 0x30, 0x31, 0x42, 1, 0, 0, 0, 0x30] ab,
      [0x42#8, 1#8, 0#8, 0#8, 0#8, 0x30#8], ?_⟩,
    ⟨withDict [1, 0, 0, 0, 0x41, 1, 0, 0, 0, 0x30, 0x30] ab, [0x30#8], ?_⟩,
    ⟨withDict [0, 0, 0, 0, 0x30] ab, [0x30#8], ?_⟩⟩
  all_goals (unfold TableThenBytes; try unfold HeaderThenBits); decide +kernel

/-- An index below and one at `TRIE_NODES`. -/
theorem witness_RdtrieReturnsTheRecord :
    (ab.Ok ∧ ab.flag .trie = true ∧ ¬ ab.regs.trieNodes.toNat ≤ 2 ∧ ab.regs.trieNodes.toNat ≤ 3 ∧
      (ab.trieAt 0).low = some 1 ∧ (ab.trieAt 0).high = some 2 ∧ (ab.trieAt 1).low = none ∧ (ab.trieAt 1).high = none) ∧
    (hello.Ok ∧ hello.flag .trie = false) := by decide

theorem ab_allCoded : AllCoded ab := by
  intro i hi
  have hi : i < 2 := hi
  obtain rfl | rfl : i = 0 ∨ i = 1 := by omega
  · decide
  · decide

theorem hello_allCoded : AllCoded helloCode := by
  intro i hi
  have hi : i < 5 := hi
  obtain rfl | rfl | rfl | rfl | rfl : i = 0 ∨ i = 1 ∨ i = 2 ∨ i = 3 ∨ i = 4 := by omega
  all_goals decide

theorem witness_PackConcatenatesTheCodewords :
    helloCode.Ok ∧ helloCode.flag .code = true ∧ helloCode.len .src ≤ helloCode.cap .src ∧ AllCoded helloCode ∧
    1 + ((helloCode.inputBits (helloCode.len .src)).length + 7) / 8 ≤ helloCode.cap .pay ∧
    ∃ k, (helloCode.inputBits (helloCode.len .src)).length ≤ k ∧
      k < 8 * (((helloCode.inputBits (helloCode.len .src)).length + 7) / 8) :=
  ⟨rfl, rfl, by decide, hello_allCoded, by decide +kernel, 15, by decide +kernel⟩

/-- Eight bits of A fill the byte that `PAY` does not have, before the uncoded z; and two bits need two bytes of `PAY`,
where there is one. -/
theorem witness_PackRaisesWhenThePayloadDoesNotFit :
    (∃ s : State, s.Ok ∧ s.flag .code = true ∧ s.len .src ≤ s.cap .src ∧ 1 ≤ s.len .src ∧
      (∀ j, j < 1 → s.codeAt (s.memRead .src j) ≠ []) ∧ s.cap .pay < 1 + (s.inputBits 1).length / 8 ∧
      s.codeAt (s.memRead .src 1) = []) ∧
    (capped 16 1 2 ab).Ok ∧ (capped 16 1 2 ab).flag .code = true ∧
    (capped 16 1 2 ab).len .src ≤ (capped 16 1 2 ab).cap .src ∧ AllCoded (capped 16 1 2 ab) ∧
    (capped 16 1 2 ab).cap .pay <
      1 + (((capped 16 1 2 ab).inputBits ((capped 16 1 2 ab).len .src)).length + 7) / 8 :=
  ⟨⟨capped 16 1 2 { ab with src := bytesOf [0x41, 0x7A], code := .known [(0x41, List.replicate 8 true)] },
      by decide +kernel⟩, rfl, rfl, by decide, ab_allCoded, by decide +kernel⟩

theorem witness_PackStopsAtTheFirstUncodedByte :
    ∃ s : State, s.Ok ∧ s.flag .code = true ∧ s.len .src ≤ s.cap .src ∧ 1 < s.len .src ∧
      s.codeAt (s.memRead .src 1) = [] ∧ (∀ j, j < 1 → s.codeAt (s.memRead .src j) ≠ []) ∧
      1 + (s.inputBits 1).length / 8 ≤ s.cap .pay :=
  ⟨{ ab with src := bytesOf [0x41, 0x7A] }, by decide +kernel⟩

theorem ab_routes : ∀ e ∈ abEntries, ab.TrieRoutes e.2 e.1 := by
  intro e he
  simp only [abEntries, List.mem_cons, List.not_mem_nil, or_false] at he
  rcases he with rfl | rfl
  · exact ⟨1, by decide⟩
  · exact ⟨2, by decide⟩

theorem witness_UnpackEmitsEveryCodewordsByte :
    ab.Ok ∧ ab.flag .trie = true ∧ ab.TrieOk ∧ ab.len .pay ≤ ab.cap .pay ∧ 2 ≤ ab.len .pay ∧
    (ab.memRead .pay 0).toNat ≤ 7 ∧ (∀ e ∈ abEntries, ab.TrieRoutes e.2 e.1) ∧
    ab.payloadBits = abEntries.flatMap Prod.snd ∧ abEntries.length ≤ ab.cap .dst :=
  ⟨rfl, rfl, ab_trieOk, by decide, by decide, by decide +kernel, ab_routes, by decide +kernel, by decide⟩

/-- An absent root; a payload of one byte; a `PAY_LEN` above `PAY_CAP`. -/
theorem witness_UnpackOfNothingIsNoFault :
    (∃ s : State, s.Ok ∧ s.flag .trie = true ∧ s.regs.trieRoot.getLsbD 31 = false ∧ s.len .pay ≤ s.cap .pay) ∧
    (∃ s : State, s.Ok ∧ s.flag .trie = true ∧ s.len .pay ≤ 1 ∧ s.len .pay ≤ s.cap .pay) ∧
    ∃ s : State, s.Ok ∧ s.flag .trie = true ∧ s.regs.trieRoot.getLsbD 31 = false ∧ s.cap .pay < s.len .pay :=
  ⟨⟨{ ab with regs := { ab.regs with trieRoot := 0#32 } }, by decide⟩, ⟨withPay [9] ab, by decide⟩,
    ⟨capped 16 1 2 { ab with regs := { ab.regs with trieRoot := 0#32 } }, by decide⟩⟩

/-- The premises common to the clauses of `UnpackReportsABadPayload`. -/
def BadPayloadPremises (s : State) (ms : Entries) (part rest : List Bool) (cur : Nat) : Prop :=
  s.Ok ∧ s.flag .trie = true ∧ s.TrieOk ∧ s.regs.trieNodes ≠ 0#32 ∧ s.len .pay ≤ s.cap .pay ∧ 2 ≤ s.len .pay ∧
  (∀ e ∈ ms, s.TrieRoutes e.2 e.1) ∧ s.payloadBits = ms.flatMap Prod.snd ++ part ++ rest ∧
  s.trieWalk 0 part = some cur ∧ (s.trieAt cur).kind = .internal

theorem gap_routes (s : State) (h : s.trie = gap.trie) : ∀ e ∈ [(0x42#8, [true])], s.TrieRoutes e.2 e.1 := by
  intro e he
  simp only [List.mem_cons, List.not_mem_nil, or_false] at he
  subst he
  exact ⟨3, by simp only [State.trieWalk, State.trieAt, h]; decide, by simp only [State.trieAt, h]; decide,
    by simp only [State.trieAt, h]; decide⟩

/-- Padding 8; B and a lone 0; B, 0 and a 1 that leads nowhere; B with no room in `DST`. -/
theorem witness_UnpackReportsABadPayload :
    (∃ s, BadPayloadPremises s [] [] [] 0 ∧ 7 < (s.memRead .pay 0).toNat) ∧
    (∃ s, BadPayloadPremises s [(0x42#8, [true])] [false] [] 1 ∧ (s.memRead .pay 0).toNat ≤ 7 ∧ 1 ≤ s.cap .dst) ∧
    (∃ s, BadPayloadPremises s [(0x42#8, [true])] [false] [true] 1 ∧ (s.memRead .pay 0).toNat ≤ 7 ∧
      1 ≤ s.cap .dst ∧ trieChild (s.trieAt 1) true = none) ∧
    ∃ s, BadPayloadPremises s [(0x42#8, [true])] [] [] 0 ∧ (s.memRead .pay 0).toNat ≤ 7 ∧ s.cap .dst < 1 := by
  refine ⟨⟨withPay [8, 0x40] gap, ⟨rfl, rfl, gap_trieOk, ?_, ?_, ?_, ?_, ?_⟩, ?_⟩,
    ⟨withPay [6, 0x80] gap, ⟨rfl, rfl, gap_trieOk, ?_, ?_, ?_, gap_routes _ rfl, ?_⟩, ?_⟩,
    ⟨withPay [5, 0xA0] gap, ⟨rfl, rfl, gap_trieOk, ?_, ?_, ?_, gap_routes _ rfl, ?_⟩, ?_⟩,
    ⟨capped 16 2 0 (withPay [7, 0x80] gap), ⟨rfl, rfl, gap_trieOk, ?_, ?_, ?_, gap_routes _ rfl, ?_⟩, ?_⟩⟩
  all_goals first | decide +kernel | simp

/-- Commands that succeed one after another, and what holds of the state they end in, as a Bool. -/
def runsShow : List Instr → State → (State → Bool) → Bool
  | [], s, p => p s
  | i :: rest, s, p => shows i s fun u => decide u.Ok && runsShow rest u p

theorem runsTo_of_runsShow {is : List Instr} {s : State} {p : State → Bool} (h : runsShow is s p = true) :
    ∃ t, RunsTo is s t ∧ p t = true := by
  induction is generalizing s with
  | nil => exact ⟨s, rfl, h⟩
  | cons i rest ih =>
    obtain ⟨u, hu, k⟩ := exists_next h
    simp only [Bool.and_eq_true, decide_eq_true_eq] at k
    obtain ⟨t, ht, hp⟩ := ih k.2
    exact ⟨t, ⟨u, hu, k.1, ht⟩, hp⟩

/-- Commands that succeed one after another, and one behind them that faults. -/
theorem faults_of_runsShow {is : List Instr} {i : Instr} {s : State}
    (h : runsShow is s (fun u => shows i u fun t => decide ¬ t.Ok) = true) :
    ∃ u t, RunsTo is s u ∧ exec i u = .next t ∧ ¬ t.Ok := by
  obtain ⟨u, hu, k⟩ := runsTo_of_runsShow h
  obtain ⟨t, ht, hf⟩ := exists_next k
  exact ⟨u, t, hu, ht, by simpa using hf⟩

/-- All five succeed; SCAN, DSER and PACK fault in turn; DDES succeeds; DDES faults. -/
theorem witness_EncodeIsTheFiveCommands :
    (∃ t, ab.Ok ∧ RunsTo [.scan, .build, .gen, .dser, .pack] ab t) ∧
    (∃ s t : State, s.Ok ∧ exec .scan s = .next t ∧ ¬ t.Ok) ∧
    (∃ u t, (capped 15 2 2 ab).Ok ∧ RunsTo [.scan, .build, .gen] (capped 15 2 2 ab) u ∧ exec .dser u = .next t ∧ ¬ t.Ok) ∧
    (∃ u t, (capped 16 1 2 ab).Ok ∧ RunsTo [.scan, .build, .gen, .dser] (capped 16 1 2 ab) u ∧ exec .pack u = .next t ∧
      ¬ t.Ok) ∧
    (∃ t, ab.Ok ∧ exec .ddes ab = .next t ∧ t.Ok) ∧
    ∃ t, (withDict [1, 0, 0] ab).Ok ∧ exec .ddes (withDict [1, 0, 0] ab) = .next t ∧ ¬ t.Ok := by
  refine ⟨?_, ?_, ?_, ?_, ?_, ?_⟩
  · obtain ⟨t, h, -⟩ := runsTo_of_runsShow (is := [.scan, .build, .gen, .dser, .pack]) (s := ab) (p := fun _ => true)
      (by decide +kernel)
    exact ⟨t, rfl, h⟩
  · obtain ⟨u, t, hu, h⟩ := faults_of_runsShow (is := []) (i := .scan)
      (s := { ab with regs := { ab.regs with srcLen := 101#32 }, params := ⟨100#32, 2#32, 16#32, 2#32⟩ })
      (by decide +kernel)
    exact ⟨u, t, by rw [show u = _ from hu]; rfl, h⟩
  · obtain ⟨u, t, h⟩ := faults_of_runsShow (is := [.scan, .build, .gen]) (i := .dser) (s := capped 15 2 2 ab)
      (by decide +kernel)
    exact ⟨u, t, rfl, h⟩
  · obtain ⟨u, t, h⟩ := faults_of_runsShow (is := [.scan, .build, .gen, .dser]) (i := .pack) (s := capped 16 1 2 ab)
      (by decide +kernel)
    exact ⟨u, t, rfl, h⟩
  · obtain ⟨t, h, k⟩ := exists_next (i := .ddes) (s := ab) (p := fun t => decide t.Ok) (by decide +kernel)
    exact ⟨t, rfl, h, by simpa using k⟩
  · obtain ⟨t, h, k⟩ := exists_next (i := .ddes) (s := withDict [1, 0, 0] ab) (p := fun t => decide ¬ t.Ok)
      (by decide +kernel)
    exact ⟨t, rfl, h, by simpa using k⟩

theorem witness_EncodeCompletesWithinCapacity :
    hello.Ok ∧ hello.len .src ≤ hello.cap .src ∧ 66564 ≤ hello.cap .dict ∧
    1 + (255 * hello.len .src + 7) / 8 ≤ hello.cap .pay := by decide

/-- An empty dictionary, a payload of one byte, and a payload of two codewords. -/
theorem witness_DecodeRestoresThePackedBytes :
    (∃ s : State, s.Ok ∧ s.len .dict ≤ s.cap .dict ∧ s.len .pay ≤ s.cap .pay ∧ ValidTable [] ∧
      s.region .dict = blobOf [] ∧ 0 ≤ s.cap .dst) ∧
    (∃ s : State, s.Ok ∧ s.len .dict ≤ s.cap .dict ∧ s.len .pay ≤ s.cap .pay ∧ ValidTable abEntries ∧
      s.region .dict = blobOf abEntries ∧ s.len .pay ≤ 1 ∧ 0 ≤ s.cap .dst) ∧
    (ab.Ok ∧ ab.len .dict ≤ ab.cap .dict ∧ ab.len .pay ≤ ab.cap .pay ∧ ValidTable abEntries ∧
      ab.region .dict = blobOf abEntries ∧ 2 ≤ ab.len .pay ∧ (ab.memRead .pay 0).toNat ≤ 7 ∧
      ab.payloadBits = abEntries.flatMap Prod.snd ∧ abEntries.length ≤ ab.cap .dst) :=
  ⟨⟨withDict [0, 0, 0, 0] ab, by decide +kernel⟩, ⟨withPay [0] ab, by decide +kernel⟩, by decide +kernel⟩

theorem witness_EncodeThenDecodeReturnsTheInput :
    ∃ t, ab.Ok ∧ exec .encode ab = .next t ∧ t.Ok ∧ ab.len .src ≤ ab.cap .dst := by
  obtain ⟨t, h, k⟩ := exists_next (i := .encode) (s := ab) (p := fun t => decide t.Ok) (by decide +kernel)
  exact ⟨t, rfl, h, by simpa using k, by decide⟩

/-- A register LOOKUP does not write, and a command that faults. -/
theorem witness_ResultsChangeOnlyByReadback :
    (∃ t, exec (.lookup 0x41#8) ab = .next t ∧ Reg.res0 ∈ resultRegs ∧ Reg.res0 ∉ resultsWrittenBy (.lookup 0x41#8)) ∧
    ∃ t, exec (.lookup 0x41#8) hello = .next t ∧ (Instr.lookup 0x41#8 ≠ .clr) ∧ ¬ t.Ok :=
  ⟨⟨_, rfl, by decide, by decide⟩, ⟨_, rfl, by decide, by decide +kernel⟩⟩

theorem witness_CommandsWriteOnlyTheirOutputs :
    ∃ t, exec .unpack ab = .next t ∧ Space.pay ∉ outputsOf .unpack := ⟨_, rfl, by decide⟩

/-- A success and a fault. -/
theorem witness_FlagsFollowTheTable :
    (∃ t, ab.Ok ∧ exec .scan ab = .next t ∧ t.Ok) ∧ ∃ t, hello.Ok ∧ exec .gen hello = .next t ∧ ¬ t.Ok := by
  constructor
  · obtain ⟨t, h, k⟩ := exists_next (i := .scan) (s := ab) (p := fun t => decide t.Ok) (by decide +kernel)
    exact ⟨t, rfl, h, by simpa using k⟩
  · exact ⟨_, rfl, rfl, by decide +kernel⟩

theorem witness_StepKeepsStorageCanonical :
    ∃ t, (ab.withFetchWord 32 0x10).StorageOk ∧ step (ab.withFetchWord 32 0x10) = .next t := ⟨_, ab_storageOk, rfl⟩

theorem witness_StepKeepsFaultFlagsConsistent :
    ∃ t, (ab.withFetchWord 32 0x10).FaultFlagsOk ∧ step (ab.withFetchWord 32 0x10) = .next t :=
  ⟨_, ab_faultFlagsOk, rfl⟩

/-- The next action is the write of SCAN's word. -/
theorem witness_StepKeepsTheInvariant :
    ∃ t, (ab.withFetchWord 32 0x10).Inv ∧ step (ab.withFetchWord 32 0x10) = .next t := ⟨_, ab_inv, rfl⟩

end Sys2Proof.Tests
end

/-! PROOFS. spec/00_scope.md: four-byte accesses (rule R15), and no command stops the machine (rule R13). -/

namespace Sys2Proof.Machine

/-! ### Four-byte accesses -/

/-- The bytes of a number in rising order are its digits to base 256, the least significant first (rule R15). -/
theorem toNat_getElem_le32Bytes (v : Nat) {k : Nat} (hk : k < 4) :
    ((le32Bytes v)[k]'hk).toNat = v / 256 ^ k % 256 := by
  interval_cases k <;> simp [le32Bytes, Nat.shiftRight_eq_div_pow]

/-- Bytes written at rising offsets stand there (rule R67). -/
theorem bytesAt_memWriteAll (s : State) (sp : Space) (a : Nat) (vs : List Byte) :
    BytesAt (s.memWriteAll sp a vs) sp a vs := by
  intro j hj
  simp [State.memRead_memWriteAll, hj]

/-- A write of several bytes leaves every byte outside its span and every other buffer (rule R67). -/
theorem memRead_memWriteAll_outside (s : State) {sp sp2 : Space} {a c : Nat} {vs : List Byte}
    (h : sp2 ≠ sp ∨ c < a ∨ a + vs.length ≤ c) : (s.memWriteAll sp a vs).memRead sp2 c = s.memRead sp2 c := by
  rw [State.memRead_memWriteAll]
  split
  · next hin =>
    have hbeyond : vs.length ≤ c - a := by
      rcases h with hsp | hlow | hhigh
      · exact absurd hin.1 hsp
      · omega
      · omega
    rw [List.getD_eq_default _ _ hbeyond]
  · rfl

/-- Settles O13: the four bytes written stand at their offsets, they are the number's bytes, and the rest is kept. -/
theorem fourByteWriteReadsBack : Obligations.FourByteWriteReadsBack := by
  intro s sp a v hv
  have hbytes : BytesAt (s.memWrite32 sp a v) sp a (le32Bytes v) := bytesAt_memWriteAll s sp a _
  refine ⟨(bytesAt_le32 hv).1 hbytes, fun k hk => ?_, fun sp2 c h => memRead_memWriteAll_outside s h⟩
  rw [hbytes k hk, toNat_getElem_le32Bytes v hk]

/-! ### Commands end -/

/-- Settles O8: CLR answers the cleared state, and every other command goes through the dispatcher, which never stops
the machine. -/
theorem everyCommandEnds : Obligations.EveryCommandEnds := by
  intro i s
  by_cases hi : i = .clr
  · subst hi
    exact ⟨s.clear, rfl⟩
  · rw [exec_eq hi]
    exact runCommand_next _ _ _ _ s

end Sys2Proof.Machine

/-! PROOFS. spec/10_state.md: where a command's pseudocode can end, and what a step has to keep for a property of states
to be an invariant. -/

namespace Sys2Proof.Machine

variable {s t : State}

/-! ### The states a run can end in -/

/-- Wherever a part of a command's pseudocode ends, with a result or at a `raise`, the state there has a property. -/
def Run.Ends {α : Type} (P : State → Prop) (st : α → State) : Run α → Prop
  | .done a => P (st a)
  | .raised _ _ u => P u

@[simp] theorem ends_done {α : Type} {P : State → Prop} {st : α → State} {a : α} :
    (Run.done a).Ends P st ↔ P (st a) := Iff.rfl

@[simp] theorem ends_raised {α : Type} {P : State → Prop} {st : α → State} {x : HwFault} {info : Nat} {u : State} :
    (Run.raised x info u : Run α).Ends P st ↔ P u := Iff.rfl

theorem Run.Ends.mono {α : Type} {P Q : State → Prop} {st : α → State} {r : Run α} (h : r.Ends P st)
    (hpq : ∀ u, P u → Q u) : r.Ends Q st := by
  cases r with
  | done a => exact hpq _ h
  | raised x info u => exact hpq _ h

theorem Run.Ends.and {α : Type} {P Q : State → Prop} {st : α → State} {r : Run α} (h : r.Ends P st) (k : r.Ends Q st) :
    r.Ends (fun u => P u ∧ Q u) st := by
  cases r with
  | done a => exact ⟨h, k⟩
  | raised x info u => exact ⟨h, k⟩

/-- Statements run in the order written: the second part starts in a state the first left. -/
theorem Run.Ends.andThen {α β : Type} {P : State → Prop} {st : α → State} {st2 : β → State} {r : Run α}
    {f : α → Run β} (h : r.Ends P st) (hf : ∀ a, P (st a) → (f a).Ends P st2) : (r.andThen f).Ends P st2 := by
  cases r with
  | done a => exact hf a h
  | raised x info u => exact h

theorem ends_scanBody {P : State → Prop} (h : P s) (hd : P s.scanned) : (scanBody s).Ends P id := by
  rw [scanBody_eq]
  split
  · exact h
  · exact hd

/-- DDES ends with its flag cleared, or with the trie of a table and its flag set (rule R171). -/
theorem ends_ddesBody {P : State → Prop} (h : P (s.setFlag .trie false))
    (hd : ∀ es u, ValidTable es → TrieOf es u →
      P (((s.setFlag .trie false).setTrie es.length u).setFlag .trie true)) : (ddesBody s).Ends P id := by
  rcases ddesBody_cases s with ⟨-, hb⟩ | ⟨-, es, u, hv, -, ht, hb⟩ | ⟨-, -, x, info, hb, -⟩
  · rw [hb]; exact h
  · rw [hb]; exact hd es u hv ht
  · rw [hb]; exact h

/-- ENCODE ends before its first write, in DSER or in PACK (rule R218). -/
theorem ends_encodeBody {P : State → Prop} (h : P s) (hg : P s.scanned.built.generated)
    (hdser : ∀ u, P u → (dserBody u).Ends P id) (hpack : ∀ u, P u → (packBody u).Ends P id) :
    (encodeBody s).Ends P id := by
  rw [encodeBody_eq]
  split
  · exact h
  · exact (hdser _ hg).andThen hpack

/-! ### Invariants of a step -/

/-- What the parts of a step have to keep of a property, one by one: the bodies of the commands, a fault (rule R236), CLR
(rule R217), and what the host can do (rules R22, R78, R261). -/
structure KeptByActions (P : State → Prop) : Prop where
  body    : ∀ {s} i, i ≠ .clr → P s → s.Ok → s.Ready i → (bodyOf i s).Ends P id
  raise   : ∀ {s} x info outs, P s → P (s.raise x info outs)
  clear   : ∀ {s}, P s → P s.clear
  reset   : ∀ {s}, P s → P s.hardReset
  script  : ∀ {s} rest, P s → P { s with script := rest }
  regs    : ∀ {s} r v, P s → P { s with regs := hostWrite r v s.regs }
  deliver : ∀ {s} v, P s → P (s.deliver v)
  write   : ∀ {s} sp off v, off < s.cap sp → P s → P (s.memWrite sp off v)

theorem KeptByActions.exec {P : State → Prop} (k : KeptByActions P) {i : Instr} (hs : P s)
    (h : exec i s = .next t) : P t := by
  by_cases hi : i = .clr
  · subst hi
    cases h
    exact k.clear hs
  · rcases exec_cases hi h with ⟨-, rfl⟩ | ⟨-, -, rfl⟩ | ⟨ho, hr, hb⟩ | ⟨ho, hr, x, info, u, hb, rfl⟩
    · exact hs
    · exact k.raise _ _ _ hs
    · have he := k.body i hi hs ho hr
      rw [hb] at he
      exact he
    · have he := k.body i hi hs ho hr
      rw [hb] at he
      exact k.raise _ _ _ he

/-- An illegal word is ignored or recorded as a fault (rules R95, R215). -/
theorem rejectWord_cases {w : Word} (h : rejectWord w s = .next t) :
    t = s ∨ t = s.raise .illegalCommand w.toNat [] := by
  unfold rejectWord at h
  split at h
  · exact .inl (by simpa using h.symm)
  · exact .inr (by simpa using h.symm)

theorem KeptByActions.commandWrite {P : State → Prop} (k : KeptByActions P) {w : Word} (hs : P s)
    (h : commandWrite w s = .next t) : P t := by
  unfold Machine.commandWrite at h
  split at h
  · exact k.exec hs h
  · rcases rejectWord_cases h with rfl | rfl
    · exact hs
    · exact k.raise _ _ _ hs

/-- Everything an action of the host that does not stop the machine can do. -/
theorem perform_cases {a : HostAction} (h : perform a s = .next t) :
    (∃ w, commandWrite w s = .next t) ∨ (∃ r v, t = { s with regs := hostWrite r v s.regs }) ∨
    (∃ v, t = s.deliver v) ∨ (∃ sp off v, off < s.cap sp ∧ t = s.memWrite sp off v) ∨ t = s.hardReset := by
  cases a with
  | writeReg off width v =>
    simp only [perform] at h
    split at h
    · next r _ =>
      unfold regWrite at h
      split at h
      · exact .inl ⟨v, h⟩
      · exact .inr (.inl ⟨r, v, by simpa using h.symm⟩)
    · cases h
  | readReg off width =>
    simp only [perform] at h
    split at h
    · exact .inr (.inr (.inl ⟨_, by simpa using h.symm⟩))
    · cases h
  | writeBuf sp off v =>
    simp only [perform] at h
    split at h
    · exact .inr (.inr (.inr (.inl ⟨sp, off, v, ‹_›, by simpa using h.symm⟩)))
    · cases h
  | readBuf sp off =>
    simp only [perform] at h
    split at h
    · exact .inr (.inr (.inl ⟨_, by simpa using h.symm⟩))
    · cases h
  | reset => exact .inr (.inr (.inr (.inr (by simpa [perform] using h.symm))))

/-- A property that every part of a step keeps is kept by the step. -/
theorem KeptByActions.step {P : State → Prop} (k : KeptByActions P) (hs : P s) (h : step s = .next t) : P t := by
  unfold Machine.step nextAction at h
  split at h
  · cases h
    exact hs
  · next a rest _ =>
    have hrest := k.script rest hs
    rcases perform_cases h with ⟨w, hw⟩ | ⟨r, v, rfl⟩ | ⟨v, rfl⟩ | ⟨sp, off, v, hlt, rfl⟩ | rfl
    · exact k.commandWrite hrest hw
    · exact k.regs r v hrest
    · exact k.deliver v hrest
    · exact k.write sp off v hlt hrest
    · exact k.reset hrest

end Sys2Proof.Machine

/-! PROOFS. spec/10_state.md: the registers and memories a command's pseudocode leaves alone (rules R21, R25, R74). -/

namespace Sys2Proof.Machine

variable {s t : State}

/-! ### States that agree but for some registers -/

/-- Every register but the listed ones reads as before, the bits of `STATUS` that hold no valid flag are as before, and
so is the host's side. -/
structure Keeps (ws : List Reg) (s t : State) : Prop where
  reg    : ∀ r, r ∉ ws → t.regValue r = s.regValue r
  status : SameOtherStatus s t
  host   : SameHostSide s t

theorem Keeps.refl (ws : List Reg) (s : State) : Keeps ws s s := ⟨fun _ _ => rfl, fun _ _ => rfl, rfl, rfl, rfl⟩

theorem Keeps.trans {ws : List Reg} {u : State} (h : Keeps ws s t) (k : Keeps ws t u) : Keeps ws s u :=
  ⟨fun r hr => (k.reg r hr).trans (h.reg r hr), fun i hi => (k.status i hi).trans (h.status i hi),
    k.host.1.trans h.host.1, k.host.2.1.trans h.host.2.1, k.host.2.2.trans h.host.2.2⟩

theorem Keeps.mono {ws vs : List Reg} (h : Keeps ws s t) (hsub : ws ⊆ vs) : Keeps vs s t :=
  ⟨fun r hr => h.reg r fun hm => hr (hsub hm), h.status, h.host⟩

theorem regValue_congr (h : t.regs = s.regs) (r : Reg) : t.regValue r = s.regValue r := by
  cases r <;> simp [State.regValue, h]

theorem keeps_of_regs_eq {ws : List Reg} (h : t.regs = s.regs) (hh : SameHostSide s t) : Keeps ws s t :=
  ⟨fun r _ => regValue_congr h r, fun i _ => by rw [h], hh⟩

theorem keeps_memories {ws : List Reg} (s : State) (freq : Contents (Table Word)) (tree : Contents (Table TreeRec))
    (code : Contents (Table (List Bool))) (pq : List PqKey) (draws : Nat) :
    Keeps ws s { s with freq := freq, tree := tree, code := code, pq := pq, draws := draws } :=
  keeps_of_regs_eq rfl ⟨rfl, rfl, rfl⟩

/-- A write of a valid flag leaves the other bits of `STATUS`. -/
theorem getLsbD_withBit_flagBit (w : Word) (f : ValidFlag) (b : Bool) {i : Nat} (hi : 4 ≤ i) :
    (withBit w (flagBit f) b).getLsbD i = w.getLsbD i := by
  have hne : i ≠ flagBit f := by cases f <;> simp only [flagBit] <;> omega
  rw [getLsbD_withBit, if_neg fun h => hne h.1]

theorem keeps_setFlag (s : State) (f : ValidFlag) (b : Bool) : Keeps [.status] s (s.setFlag f b) := by
  refine ⟨fun r hr => ?_, fun i hi => getLsbD_withBit_flagBit _ f b hi, rfl, rfl, rfl⟩
  revert hr
  cases r <;> simp [State.regValue]

theorem keeps_setNsym (s : State) (n : Nat) : Keeps [.nsym] s (s.setNsym n) := by
  refine ⟨fun r hr => ?_, fun i _ => rfl, rfl, rfl, rfl⟩
  revert hr
  cases r <;> simp [State.regValue]

theorem keeps_setTreeRoot (s : State) (r : Option Nat) : Keeps [.treeRoot] s (s.setTreeRoot r) := by
  refine ⟨fun r hr => ?_, fun i _ => rfl, rfl, rfl, rfl⟩
  revert hr
  cases r <;> simp [State.regValue]

theorem keeps_setTrie (s : State) (n : Nat) (u : TrieCtx) : Keeps [.trieRoot, .trieNodes] s (s.setTrie n u) := by
  refine ⟨fun r hr => ?_, fun i _ => rfl, rfl, rfl, rfl⟩
  revert hr
  cases r <;> simp [State.regValue]

/-- The length register of a buffer. -/
def lenReg : Space → Reg
  | .src => .srcLen
  | .pay => .payLen
  | .dict => .dictLen
  | .dst => .dstLen

theorem keeps_setLen (s : State) (sp : Space) (n : Nat) : Keeps [lenReg sp] s (s.setLen sp n) := by
  refine ⟨fun r hr => ?_, fun i _ => by cases sp <;> rfl, by simp, by simp, by simp⟩
  revert hr
  cases sp <;> cases r <;> simp [State.regValue, State.setLen, lenReg]

theorem DiffersIn.keeps {sp : Space} (h : DiffersIn sp s t) (ws : List Reg) : Keeps ws s t :=
  keeps_of_regs_eq h.regs ⟨h.params, h.script, h.returned⟩

/-! ### Commands that fill a buffer -/

/-- Nothing but a buffer and its length register has changed. -/
structure Fills (sp : Space) (s t : State) : Prop where
  keeps    : Keeps [lenReg sp] s t
  memories : SameMemories s t

theorem DiffersIn.fills {sp : Space} (h : DiffersIn sp s t) : Fills sp s t :=
  ⟨h.keeps _, h.freq, h.tree, h.code, h.trie, h.pq⟩

theorem DiffersIn.fills_setLen {sp : Space} (h : DiffersIn sp s t) (n : Nat) : Fills sp s (t.setLen sp n) :=
  ⟨(h.keeps _).trans (keeps_setLen t sp n), by simp [SameMemories, h.freq, h.tree, h.code, h.trie, h.pq]⟩

theorem ends_dserBody (s : State) : (dserBody s).Ends (Fills .dict s) id := by
  by_cases hfit : (dserBlob s).length ≤ s.cap .dict
  · rw [(dserBody_spec s).1 hfit]
    exact (differsIn_memWriteAll s .dict 0 _).fills_setLen _
  · obtain ⟨v, hv, hd⟩ := (dserBody_spec s).2 (by omega)
    rw [hv]
    exact hd.fills

theorem ends_packBody (s : State) : (packBody s).Ends (Fills .pay s) id := by
  obtain ⟨hd, hr⟩ := packBody_frame s
  cases hb : packBody s with
  | done t =>
    obtain ⟨u, n, hu, rfl⟩ := hd t hb
    exact hu.fills_setLen n
  | raised x info u => exact (hr x info u hb).1.fills

theorem ends_unpackBody (s : State) : (unpackBody s).Ends (Fills .dst s) id := by
  obtain ⟨hd, hr⟩ := unpackBody_frame s
  cases hb : unpackBody s with
  | done t =>
    obtain ⟨u, n, hu, rfl⟩ := hd t hb
    exact hu.fills_setLen n
  | raised x info u => exact (hr x info u hb).1.fills

/-! ### The registers a command's pseudocode writes -/

/-- The registers the pseudocode of a command may write, `raise` apart. CLR, which is not run through a body, may write
all of them. -/
def writtenRegs : Instr → List Reg
  | .nop => []
  | .clr => allRegs
  | .scan => [.status, .nsym]
  | .build => [.status, .treeRoot]
  | .gen => [.status]
  | .dser => [.dictLen]
  | .pack => [.payLen]
  | .encode => [.status, .nsym, .treeRoot, .dictLen, .payLen]
  | .ddes => [.status, .trieRoot, .trieNodes]
  | .unpack => [.dstLen]
  | .decode => [.status, .trieRoot, .trieNodes, .dstLen]
  | .lookup b => resultsWrittenBy (.lookup b)
  | .rdfreq b => resultsWrittenBy (.rdfreq b)
  | .rdtree idx => resultsWrittenBy (.rdtree idx)
  | .rdtrie idx => resultsWrittenBy (.rdtrie idx)

theorem keeps_scanned (s : State) : Keeps [.status, .nsym] s s.scanned := by
  have hflag : ∀ u f b, Keeps [.status, .nsym] u (u.setFlag f b) := fun u f b => (keeps_setFlag u f b).mono (by simp)
  have hcleared := ((hflag s .freq false).trans (hflag _ .tree false)).trans (hflag _ .code false)
  exact ((hcleared.trans (keeps_memories _ _ _ _ _ _)).trans ((keeps_setNsym _ _).mono (by simp))).trans
    (hflag _ .freq true)

theorem keeps_built (s : State) : Keeps [.status, .treeRoot] s s.built := by
  have hflag : ∀ u f b, Keeps [.status, .treeRoot] u (u.setFlag f b) := fun u f b => (keeps_setFlag u f b).mono (by simp)
  have hcleared := (hflag s .tree false).trans (hflag _ .code false)
  exact (((hcleared.trans (keeps_memories _ _ _ _ _ _)).trans ((keeps_setTreeRoot _ _).mono (by simp))).trans
    (hflag _ .freq false)).trans (hflag _ .tree true)

theorem keeps_generated (s : State) : Keeps [.status] s s.generated :=
  ((keeps_setFlag s .code false).trans (keeps_memories _ _ _ _ _ _)).trans (keeps_setFlag _ .code true)

theorem ends_ddesBody_keeps (s : State) : (ddesBody s).Ends (Keeps [.status, .trieRoot, .trieNodes] s) id := by
  have hflag : ∀ u f b, Keeps [.status, .trieRoot, .trieNodes] u (u.setFlag f b) := fun u f b =>
    (keeps_setFlag u f b).mono (by simp)
  exact ends_ddesBody (hflag s .trie false) fun es u _ _ =>
    ((hflag s .trie false).trans ((keeps_setTrie _ _ _).mono (by simp))).trans (hflag _ .trie true)

theorem keeps_showTreeRec (s : State) (r : TreeRec) : Keeps [.res0, .res1, .res2, .res3, .res4] s (s.showTreeRec r) := by
  refine ⟨fun q hq => ?_, fun i _ => rfl, rfl, rfl, rfl⟩
  revert hq
  cases q <;> simp [State.regValue, State.showTreeRec]

theorem keeps_showTrieRec (s : State) (r : TrieRec) : Keeps [.res0, .res1, .res2, .res3, .res4] s (s.showTrieRec r) := by
  refine ⟨fun q hq => ?_, fun i _ => rfl, rfl, rfl, rfl⟩
  revert hq
  cases q <;> simp [State.regValue, State.showTrieRec]

theorem keeps_showCodeword (s : State) (cw : List Bool) :
    Keeps [.cwlen, .cwbits0, .cwbits1, .cwbits2, .cwbits3, .cwbits4, .cwbits5, .cwbits6, .cwbits7] s
      (s.showCodeword cw) := by
  refine ⟨fun q hq => ?_, fun i _ => rfl, rfl, rfl, rfl⟩
  revert hq
  cases q <;> simp [State.regValue, State.showCodeword]

theorem keeps_rdfreq (s : State) (v : Word) : Keeps [.res0] s { s with regs := { s.regs with res0 := v } } := by
  refine ⟨fun q hq => ?_, fun i _ => rfl, rfl, rfl, rfl⟩
  revert hq
  cases q <;> simp [State.regValue]

/-- Wherever a command's pseudocode ends, only the registers it may write have changed. -/
theorem ends_bodyOf_keeps {i : Instr} (hi : i ≠ .clr) (s : State) : (bodyOf i s).Ends (Keeps (writtenRegs i) s) id := by
  cases i with
  | nop => exact Keeps.refl _ s
  | clr => exact absurd rfl hi
  | scan => exact ends_scanBody (Keeps.refl _ s) (keeps_scanned s)
  | build => exact keeps_built s
  | gen => exact keeps_generated s
  | dser => exact (ends_dserBody s).mono fun u hu => hu.keeps
  | pack => exact (ends_packBody s).mono fun u hu => hu.keeps
  | encode =>
    refine ends_encodeBody (Keeps.refl _ s) ?_ (fun u hu => ?_) fun u hu => ?_
    · exact (((keeps_scanned s).mono (by simp [writtenRegs])).trans ((keeps_built _).mono (by simp [writtenRegs]))).trans
        ((keeps_generated _).mono (by simp [writtenRegs]))
    · exact (ends_dserBody u).mono fun v hv => hu.trans (hv.keeps.mono (by simp [writtenRegs, lenReg]))
    · exact (ends_packBody u).mono fun v hv => hu.trans (hv.keeps.mono (by simp [writtenRegs, lenReg]))
  | ddes => exact ends_ddesBody_keeps s
  | unpack => exact (ends_unpackBody s).mono fun u hu => hu.keeps
  | decode =>
    refine ((ends_ddesBody_keeps s).mono fun u hu => hu.mono (by simp [writtenRegs])).andThen fun u hu => ?_
    exact (ends_unpackBody u).mono fun v hv => Keeps.trans hu (hv.keeps.mono (by simp [writtenRegs, lenReg]))
  | lookup b => exact keeps_showCodeword s _
  | rdfreq b => exact keeps_rdfreq s _
  | rdtree idx => exact keeps_showTreeRec s _
  | rdtrie idx => exact keeps_showTrieRec s _

theorem err_not_mem_writtenRegs {i : Instr} (hi : i ≠ .clr) : Reg.err ∉ writtenRegs i ∧ Reg.errinfo ∉ writtenRegs i := by
  cases i <;> simp_all [writtenRegs, resultsWrittenBy]

/-- A result register that a command's pseudocode writes is one of the command's own (rules R37 to R39). -/
theorem resultRegs_written {i : Instr} {r : Reg} (hr : r ∈ resultRegs) (hw : r ∈ writtenRegs i) :
    r ∈ resultsWrittenBy i := by
  cases i with
  | clr => exact hr
  | lookup b => exact hw
  | rdfreq b => exact hw
  | rdtree idx => exact hw
  | rdtrie idx => exact hw
  | _ => revert r; decide

/-- The readback commands raise nothing of their own. -/
theorem resultsWrittenBy_of_raised {i : Instr} {x : HwFault} {info : Nat} {u : State}
    (h : bodyOf i s = .raised x info u) : resultsWrittenBy i = [] := by
  cases i with
  | clr => cases h
  | lookup b => cases h
  | rdfreq b => cases h
  | rdtree idx => cases h
  | rdtrie idx => cases h
  | _ => rfl

/-- A fault leaves every register but the three it records itself in and the four lengths (rule R236). -/
theorem regValue_raise (s : State) (x : HwFault) (info : Nat) (outs : List Space) {r : Reg}
    (hr : r ∉ [Reg.status, .err, .errinfo, .srcLen, .payLen, .dictLen, .dstLen]) :
    (s.raise x info outs).regValue r = s.regValue r := by
  refine (regValue_congr (s := { s with regs := _ }) (raise_spec s x info outs).1 r).trans ?_
  revert hr
  cases r <;> simp [State.regValue]

theorem regValue_raise_of_mem_resultRegs (s : State) (x : HwFault) (info : Nat) (outs : List Space) {r : Reg}
    (hr : r ∈ resultRegs) : (s.raise x info outs).regValue r = s.regValue r :=
  regValue_raise s x info outs (by revert r; decide)

/-- Settles O53: a body writes no other result register than its command's own, a fault writes none, and no command with
a fault of its own has any. -/
theorem resultsChangeOnlyByReadback : Obligations.ResultsChangeOnlyByReadback := by
  intro i s t h
  by_cases hi : i = .clr
  · subst hi
    exact ⟨fun r hr hn => absurd hr hn, fun hn => absurd rfl hn⟩
  rcases exec_cases hi h with ⟨-, rfl⟩ | ⟨-, -, rfl⟩ | ⟨ho, -, hb⟩ | ⟨-, -, x, info, u, hb, rfl⟩
  · exact ⟨fun _ _ _ => rfl, fun _ _ _ _ => rfl⟩
  · exact ⟨fun r hr _ => regValue_raise_of_mem_resultRegs s _ _ _ hr,
      fun _ _ r hr => regValue_raise_of_mem_resultRegs s _ _ _ hr⟩
  · have hk := ends_bodyOf_keeps hi s
    rw [hb, ends_done] at hk
    have herr : t.regs.err = s.regs.err := hk.reg .err (err_not_mem_writtenRegs hi).1
    refine ⟨fun r hr hn => hk.reg r fun hw => hn (resultRegs_written hr hw), fun _ hfault => ?_⟩
    rcases hfault with hs | ht
    · exact absurd ho hs
    · exact absurd (herr.trans ho) ht
  · have hk := ends_bodyOf_keeps hi s
    rw [hb, ends_raised] at hk
    have hnone := resultsWrittenBy_of_raised hb
    have hall : ∀ r ∈ resultRegs, (u.raise x info (outputsOf i)).regValue r = s.regValue r := fun r hr =>
      (regValue_raise_of_mem_resultRegs u _ _ _ hr).trans
        (hk.reg r fun hw => by simpa [hnone] using resultRegs_written hr hw)
    exact ⟨fun r hr _ => hall r hr, fun _ _ r hr => hall r hr⟩

end Sys2Proof.Machine

/-! PROOFS. spec/10_state.md: `ERR`, `ERRINFO` and `STATUS` stay consistent (rules R25, R27, R28, R236). -/

namespace Sys2Proof.Machine

variable {s t : State}

/-! ### Registers that CLR or reset has cleared -/

/-- Every register but the three lengths the host writes is 0 (rules R49, R217). -/
def ClearedRegs (g : Regs) : Prop :=
  g = { Regs.zero with srcLen := g.srcLen, payLen := g.payLen, dictLen := g.dictLen }

theorem clearedRegs_zero : ClearedRegs Regs.zero := rfl

theorem clearedRegs_clear (s : State) : ClearedRegs s.clear.regs := rfl

theorem ClearedRegs.flag (h : ClearedRegs s.regs) (f : ValidFlag) : s.flag f = false := by
  rw [State.flag, h]
  exact BitVec.getLsbD_zero

theorem ClearedRegs.faultFlagsOk (h : ClearedRegs s.regs) : s.FaultFlagsOk := by
  have hstatus : ∀ i, s.regs.status.getLsbD i = false := fun i => by
    rw [h]
    exact BitVec.getLsbD_zero
  have herr : s.regs.err = 0#32 := by rw [h]; rfl
  have hinfo : s.regs.errinfo = 0#32 := by rw [h]; rfl
  refine ⟨by simp [State.errSet, hstatus, herr], by simp [herr], fun _ => hinfo, fun hn => absurd herr hn,
    fun i _ _ => hstatus i⟩

/-! ### The parts of a step -/

theorem State.FaultFlagsOk.reserved (h : s.FaultFlagsOk) : ∀ i, 4 ≤ i → i < 31 → s.regs.status.getLsbD i = false := by
  obtain ⟨-, -, -, -, hres⟩ := h
  exact hres

/-- A fault is recorded whole (rule R236). -/
theorem State.FaultFlagsOk.raise (h : s.FaultFlagsOk) (x : HwFault) (info : Nat) (outs : List Space) :
    (s.raise x info outs).FaultFlagsOk := by
  refine ⟨⟨fun _ => raise_err_ne_zero s x info outs, fun _ => raise_errSet s x info outs⟩, ?_,
    fun hok => absurd hok (raise_err_ne_zero s x info outs), fun _ => raise_flag s x info outs, fun i h4 h31 => ?_⟩
  · rw [raise_err]
    exact faultCode_le x
  · rw [raise_status, reserved_faultStatus _ h4 h31]
    exact h.reserved i h4 h31

/-- With no fault recorded the three agree as long as `ERR`, `ERRINFO` and the upper bits of `STATUS` are kept. -/
theorem State.FaultFlagsOk.keeps {ws : List Reg} (h : s.FaultFlagsOk) (ho : s.Ok) (k : Keeps ws s t)
    (herr : Reg.err ∉ ws) (hinfo : Reg.errinfo ∉ ws) : t.FaultFlagsOk := by
  obtain ⟨hset, hle, hnone, -, hres⟩ := h
  have e1 : t.regs.err = s.regs.err := k.reg .err herr
  have e2 : t.regs.errinfo = s.regs.errinfo := k.reg .errinfo hinfo
  have e3 : t.errSet = s.errSet := k.status errSetBit (by decide)
  refine ⟨by rw [e1, e3]; exact hset, by rw [e1]; exact hle, fun _ => e2.trans (hnone ho),
    fun hn => absurd (e1.trans ho) hn, fun i h4 h31 => ?_⟩
  rw [k.status i h4]
  exact hres i h4 h31

theorem faultFlagsOk_keptByActions : KeptByActions State.FaultFlagsOk where
  body i hi h ho _ := by
    obtain ⟨herr, hinfo⟩ := err_not_mem_writtenRegs hi
    exact (ends_bodyOf_keeps hi _).mono fun u k => h.keeps ho k herr hinfo
  raise x info outs h := h.raise x info outs
  clear _ := (clearedRegs_clear _).faultFlagsOk
  reset _ := ClearedRegs.faultFlagsOk clearedRegs_zero
  script rest h := h
  regs r v h := by cases r <;> exact h
  deliver v h := h
  write sp off v _ h := by cases sp <;> exact h

/-- Settles O58: the bodies of the commands write none of the three but the valid flags, and faults, CLR and reset write
all three together. -/
theorem stepKeepsFaultFlagsConsistent : Obligations.StepKeepsFaultFlagsConsistent :=
  fun _ _ h hstep => faultFlagsOk_keptByActions.step h hstep

end Sys2Proof.Machine

/-! PROOFS. spec/10_state.md: storage stays canonical and inside its bounds (rules R40 to R44, R60, R68). -/

namespace Sys2Proof.Machine

variable {s t : State}

/-! ### Buffers -/

/-- Every byte PACK writes lies below the capacity it has tested (rules R68, R191). -/
def PayWritable (u : State) : Prop := u.BuffersOk ∧ 1 ≤ u.cap .pay

theorem PayWritable.memWrite (h : PayWritable s) {a : Nat} (ha : a < s.cap .pay) (v : Byte) :
    PayWritable (s.memWrite .pay a v) := ⟨h.1.memWrite ha v, by rw [State.cap_memWrite]; exact h.2⟩

theorem State.BuffersOk.setLen (h : s.BuffersOk) (sp : Space) (n : Nat) : (s.setLen sp n).BuffersOk :=
  h.congr (by simp) (by simp)

theorem PayWritable.setLen (h : PayWritable s) (sp : Space) (n : Nat) : PayWritable (s.setLen sp n) :=
  ⟨h.1.setLen sp n, by rw [State.cap_setLen]; exact h.2⟩

theorem ends_packByte {c : PackCtx} (h : PayWritable c.st) (v : Nat) :
    (packByte c v).Ends PayWritable PackCtx.st := by
  unfold packByte
  split
  · exact h
  · exact h.memWrite (by omega) _

theorem ends_packBits (cw : List Bool) {c : PackCtx} (h : PayWritable c.st) :
    (packBits cw c).Ends PayWritable PackCtx.st := by
  induction cw generalizing c with
  | nil => exact h
  | cons bit rest ih =>
    refine Run.Ends.andThen (st := PackCtx.st) ?_ fun d hd => ih hd
    unfold packBit
    split
    · exact ends_packByte h _
    · exact h

theorem ends_packInput (n i : Nat) {c : PackCtx} (h : PayWritable c.st) :
    (packInput n i c).Ends PayWritable PackCtx.st := by
  induction n generalizing i c with
  | zero => exact h
  | succ n ih =>
    simp only [packInput]
    split
    · exact h
    · exact (ends_packBits _ h).andThen fun d hd => ih (i + 1) hd

theorem ends_packFlush {c : PackCtx} (h : PayWritable c.st) : (packFlush c).Ends PayWritable id := by
  unfold packFlush
  split
  · exact (ends_packByte h _).andThen fun d hd => (hd.memWrite hd.2 _).setLen _ _
  · exact (h.memWrite h.2 _).setLen _ _

theorem ends_packBody_buffersOk (h : s.BuffersOk) : (packBody s).Ends State.BuffersOk id := by
  unfold packBody
  split
  · exact h
  split
  · exact h
  have hs : PayWritable s := ⟨h, by omega⟩
  exact ((ends_packInput (s.len .src) 0 hs).andThen fun d hd => ends_packFlush hd).mono fun u hu => hu.1

theorem ends_dserEntry (h : s.BuffersOk) (p : Nat) (b : Byte) :
    (dserEntry s p b).Ends State.BuffersOk Prod.fst := by
  simp only [dserEntry]
  split
  · exact h
  split
  · exact h
  · simp only [ends_done]
    exact h.memWriteAll (entryBytes b (s.codeAt b)) (by rw [length_entryBytes]; omega)

theorem ends_dserLoop (bs : List Byte) {c : State × Nat} (h : c.1.BuffersOk) :
    (dserLoop bs c).Ends State.BuffersOk Prod.fst := by
  induction bs generalizing c with
  | nil => exact h
  | cons b rest ih => exact (ends_dserEntry h c.2 b).andThen fun d hd => ih hd

theorem ends_dserBody_buffersOk (h : s.BuffersOk) : (dserBody s).Ends State.BuffersOk id := by
  unfold dserBody
  split
  · exact h
  · have hcount : (s.memWrite32 .dict 0 s.codedBytes).BuffersOk :=
      h.memWriteAll _ (by rw [length_le32Bytes]; omega)
    exact (ends_dserLoop allBytes (c := (_, 4)) hcount).andThen fun c hc => hc.setLen _ _

theorem ends_unpackBit {c : UnpackCtx} (h : c.st.BuffersOk) (k : Nat) :
    (unpackBit c k).Ends State.BuffersOk UnpackCtx.st := by
  unfold unpackBit
  split
  · exact h
  split
  · unfold unpackEmit
    split
    · exact h
    · exact h.memWrite (by omega) _
  · exact h

theorem ends_unpackLoop (n k : Nat) {c : UnpackCtx} (h : c.st.BuffersOk) :
    (unpackLoop n k c).Ends State.BuffersOk UnpackCtx.st := by
  induction n generalizing k c with
  | zero => exact h
  | succ n ih => exact (ends_unpackBit h k).andThen fun d hd => ih (k + 1) hd

theorem ends_unpackBody_buffersOk (h : s.BuffersOk) : (unpackBody s).Ends State.BuffersOk id := by
  unfold unpackBody
  split
  · exact h
  split
  · exact h.setLen _ _
  split
  · exact h.setLen _ _
  simp only
  split
  · exact h
  refine (ends_unpackLoop _ 0 (c := ⟨s, 0, 0⟩) h).andThen fun c hc => ?_
  split
  · exact hc
  · exact hc.setLen _ _

/-! ### The internal memories -/

/-- The walk of GEN writes entries of byte values only, whatever the arena holds (rule R43). -/
theorem tableOk_genWalk (s : State) (n : Nat) (stack : List (Nat × List Bool)) {t : Table (List Bool)}
    (h : TableOk [] 256 t) : TableOk [] 256 (genWalk s n stack t) := by
  induction n generalizing stack t with
  | zero => exact h
  | succ n ih =>
    cases stack with
    | nil => exact h
    | cons e stack =>
      obtain ⟨i, path⟩ := e
      simp only [genWalk]
      split
      · exact ih _ (tableOk_setEntry h (s.treeAt i).value.isLt path)
      · exact ih _ h
      · exact ih _ h
      · exact ih _ h

/-- The trie DDES leaves lies inside the arena (rules R44, R172). -/
theorem TrieOf.tableOk {es : Entries} {u : TrieCtx} (h : TrieOf es u) : TableOk absentTrieRec Config.trieN u.trie := by
  by_cases hes : es = []
  · rw [h.1 hes]
    exact tableOk_nil _ _
  · obtain ⟨hinv, hle⟩ := h.2 hes
    refine ⟨hinv.table, fun e he => ?_⟩
    by_contra hge
    have habsent : u.recAt e.1 = absentTrieRec := hinv.beyond e.1 (by omega)
    exact ne_of_mem hinv.table he ((entryAt_of_mem hinv.table he).symm.trans habsent)

/-! ### The parts of a step -/

theorem State.StorageOk.of_sameMemories (h : s.StorageOk) (m : SameMemories s t) (hb : t.BuffersOk) : t.StorageOk := by
  obtain ⟨-, hfreq, htree, hcode, htrie⟩ := h
  obtain ⟨m1, m2, m3, m4, -⟩ := m
  exact ⟨hb, by rw [m1]; exact hfreq, by rw [m2]; exact htree, by rw [m3]; exact hcode, by rw [m4]; exact htrie⟩

/-- Unspecified memories list nothing. -/
theorem storageOk_of_unspecified {d : Nat} (hb : s.BuffersOk) (h1 : s.freq = .unspecified d)
    (h2 : s.tree = .unspecified d) (h3 : s.code = .unspecified d) (h4 : s.trie = .unspecified d) : s.StorageOk :=
  ⟨hb, by rw [h1]; trivial, by rw [h2]; trivial, by rw [h3]; trivial, by rw [h4]; trivial⟩

theorem State.StorageOk.raise (h : s.StorageOk) (x : HwFault) (info : Nat) (outs : List Space) :
    (s.raise x info outs).StorageOk := by
  obtain ⟨-, -, -, h1, h2, h3, h4, -⟩ := raise_spec s x info outs
  exact storageOk_of_unspecified (h.buffers.raise x info outs) h1 h2 h3 h4

theorem State.StorageOk.scanned (h : s.StorageOk) : s.scanned.StorageOk := by
  obtain ⟨hb, -, htree, hcode, htrie⟩ := h
  exact ⟨State.BuffersOk.congr hb (fun sp => by cases sp <;> rfl) rfl, tableOk_scanLoop s _ _ (tableOk_nil _ _), htree,
    hcode, htrie⟩

theorem State.StorageOk.built (h : s.StorageOk) : s.built.StorageOk := by
  obtain ⟨hb, -, -, hcode, htrie⟩ := h
  exact ⟨State.BuffersOk.congr hb (fun sp => by cases sp <;> rfl) rfl, trivial, (built_spec s).1, hcode, htrie⟩

theorem State.StorageOk.generated (h : s.StorageOk) : s.generated.StorageOk := by
  obtain ⟨hb, hfreq, htree, -, htrie⟩ := h
  refine ⟨State.BuffersOk.congr hb (fun sp => by cases sp <;> rfl) rfl, hfreq, htree, ?_, htrie⟩
  show TableOk [] 256 (if rootPresent s.regs.treeRoot then _ else [])
  split
  · exact tableOk_genWalk s _ _ (tableOk_nil _ _)
  · exact tableOk_nil _ _

theorem ends_ddesBody_storageOk (h : s.StorageOk) : (ddesBody s).Ends State.StorageOk id := by
  obtain ⟨hb, hfreq, htree, hcode, htrie⟩ := h
  have hbuf : ∀ u : State, (∀ sp, u.buf sp = s.buf sp) → u.params = s.params → u.BuffersOk := fun u =>
    State.BuffersOk.congr hb
  exact ends_ddesBody ⟨hbuf _ (by simp) rfl, hfreq, htree, hcode, htrie⟩ fun es u _ ht =>
    ⟨hbuf _ (by simp) rfl, hfreq, htree, hcode, ht.tableOk⟩

theorem ends_dserBody_storageOk (h : s.StorageOk) : (dserBody s).Ends State.StorageOk id :=
  ((ends_dserBody s).and (ends_dserBody_buffersOk h.buffers)).mono fun _ hu => h.of_sameMemories hu.1.memories hu.2

theorem ends_packBody_storageOk (h : s.StorageOk) : (packBody s).Ends State.StorageOk id :=
  ((ends_packBody s).and (ends_packBody_buffersOk h.buffers)).mono fun _ hu => h.of_sameMemories hu.1.memories hu.2

theorem ends_unpackBody_storageOk (h : s.StorageOk) : (unpackBody s).Ends State.StorageOk id :=
  ((ends_unpackBody s).and (ends_unpackBody_buffersOk h.buffers)).mono fun _ hu => h.of_sameMemories hu.1.memories hu.2

/-- Wherever a command's pseudocode ends, storage is canonical, and it needs no flag for that. -/
theorem ends_bodyOf_storageOk {i : Instr} (hi : i ≠ .clr) (h : s.StorageOk) :
    (bodyOf i s).Ends State.StorageOk id := by
  cases i with
  | nop => exact h
  | clr => exact absurd rfl hi
  | scan => exact ends_scanBody h h.scanned
  | build => exact h.built
  | gen => exact h.generated
  | dser => exact ends_dserBody_storageOk h
  | pack => exact ends_packBody_storageOk h
  | encode =>
    exact ends_encodeBody h h.scanned.built.generated (fun _ => ends_dserBody_storageOk)
      fun _ => ends_packBody_storageOk
  | ddes => exact ends_ddesBody_storageOk h
  | unpack => exact ends_unpackBody_storageOk h
  | decode => exact (ends_ddesBody_storageOk h).andThen fun _ hu => ends_unpackBody_storageOk hu
  | lookup b => exact h
  | rdfreq b => exact h
  | rdtree idx => exact h
  | rdtrie idx => exact h

theorem storageOk_keptByActions : KeptByActions State.StorageOk where
  body i hi h _ _ := ends_bodyOf_storageOk hi h
  raise x info outs h := h.raise x info outs
  clear h := storageOk_of_unspecified h.buffers.clear rfl rfl rfl rfl
  reset _ := storageOk_of_unspecified (State.buffersOk_hardReset _) rfl rfl rfl rfl
  script rest h := h
  regs r v h := h
  deliver v h := h
  write sp off v hlt h := h.of_sameMemories (by simp [SameMemories]) (h.buffers.memWrite hlt v)

/-- Settles O57: every byte written has been tested against its capacity, and every record written has an index of its
arena. -/
theorem stepKeepsStorageCanonical : Obligations.StepKeepsStorageCanonical :=
  fun _ _ h hstep => storageOk_keptByActions.step h hstep

end Sys2Proof.Machine

/-! PROOFS. spec/10_state.md: the registers' forms, and the structures that stand behind valid flags (rules R25, R33 to
R36, R140, R152, R153, R172). -/

namespace Sys2Proof.Machine

variable {s t : State}

/-! ### What the two properties depend on -/

/-- The registers' part of the invariant is about these. -/
def formRegs : List Reg := [.nsym, .treeRoot, .trieRoot, .trieNodes, .cwlen, .cwbits7]

/-- Behind the valid flags stand the memories, the capacities and these registers. -/
def structureRegs : List Reg := [.status, .nsym, .treeRoot, .trieRoot, .trieNodes]

theorem State.RegsOk.congr (h : s.RegsOk) (hr : ∀ r ∈ formRegs, t.regValue r = s.regValue r) : t.RegsOk := by
  have e1 : t.regs.nsym = s.regs.nsym := hr .nsym (by decide)
  have e2 : t.regs.treeRoot = s.regs.treeRoot := hr .treeRoot (by decide)
  have e3 : t.regs.trieRoot = s.regs.trieRoot := hr .trieRoot (by decide)
  have e4 : t.regs.trieNodes = s.regs.trieNodes := hr .trieNodes (by decide)
  have e5 : t.regs.cwlen = s.regs.cwlen := hr .cwlen (by decide)
  have e6 : t.regs.cwbits7 = s.regs.cwbits7 := hr .cwbits7 (by decide)
  unfold State.RegsOk
  rw [e1, e2, e3, e4, e5, e6]
  exact h

theorem State.StructuresOk.congr (h : s.StructuresOk) (m : SameMemories s t) (hp : t.params = s.params)
    (hr : ∀ r ∈ structureRegs, t.regValue r = s.regValue r) : t.StructuresOk := by
  obtain ⟨m1, m2, m3, m4, m5⟩ := m
  have e1 : t.regs.status = s.regs.status := hr .status (by decide)
  have e2 : t.regs.nsym = s.regs.nsym := hr .nsym (by decide)
  have e3 : t.regs.treeRoot = s.regs.treeRoot := hr .treeRoot (by decide)
  have e4 : t.regs.trieRoot = s.regs.trieRoot := hr .trieRoot (by decide)
  have e5 : t.regs.trieNodes = s.regs.trieNodes := hr .trieNodes (by decide)
  have ht : t = { t with
      freq := s.freq, tree := s.tree, code := s.code, trie := s.trie, pq := s.pq, params := s.params
      regs := { t.regs with status := s.regs.status, nsym := s.regs.nsym, treeRoot := s.regs.treeRoot,
                            trieRoot := s.regs.trieRoot, trieNodes := s.regs.trieNodes } } := by
    rw [← m1, ← m2, ← m3, ← m4, ← m5, ← hp, ← e1, ← e2, ← e3, ← e4, ← e5]
  rw [ht]
  exact h

/-- The registers' forms and the structures behind the valid flags: the part of the invariant whose proofs need one
another. -/
def State.ShapesOk (s : State) : Prop := s.RegsOk ∧ s.StructuresOk

theorem State.ShapesOk.fills {sp : Space} (h : s.ShapesOk) (k : Fills sp s t) : t.ShapesOk := by
  obtain ⟨hregs, hstr⟩ := h
  have hform : ∀ r ∈ formRegs, r ∉ [lenReg sp] := by cases sp <;> decide
  have hreg : ∀ r ∈ structureRegs, r ∉ [lenReg sp] := by cases sp <;> decide
  exact ⟨hregs.congr fun r hr => k.keeps.reg r (hform r hr),
    hstr.congr k.memories k.keeps.host.1 fun r hr => k.keeps.reg r (hreg r hr)⟩

/-! ### Nothing valid -/

/-- With no flag set and nothing in `CODE` nothing has to be shown of the memories. -/
theorem structuresOk_of_forgotten {d : Nat} (hpq : s.pq = []) (hp : s.params.Legal) (hc : s.code = .unspecified d)
    (hf : ∀ f, s.flag f = false) : s.StructuresOk :=
  ⟨hpq, hp, by rw [hc]; trivial, by simp [hf], by simp [hf], by simp [hf], by simp [hf]⟩

theorem ClearedRegs.regsOk (h : ClearedRegs s.regs) : s.RegsOk := by
  unfold State.RegsOk
  rw [h]
  exact ⟨Nat.zero_le _, ⟨none, by simp, rfl⟩, .inl rfl, Nat.zero_le _, Nat.zero_le _, BitVec.getLsbD_zero⟩

theorem State.ShapesOk.raise (h : s.ShapesOk) (x : HwFault) (info : Nat) (outs : List Space) :
    (s.raise x info outs).ShapesOk := by
  obtain ⟨hregs, -, hp, -⟩ := h
  obtain ⟨-, -, -, -, -, hcode, -, hpq, hparams, -⟩ := raise_spec s x info outs
  exact ⟨hregs.congr fun r hr => regValue_raise s x info outs (by revert r; decide),
    structuresOk_of_forgotten hpq (by rw [hparams]; exact hp) hcode (raise_flag s x info outs)⟩

theorem ClearedRegs.shapesOk {d : Nat} (h : ClearedRegs s.regs) (hpq : s.pq = []) (hp : s.params.Legal)
    (hc : s.code = .unspecified d) : s.ShapesOk := ⟨h.regsOk, structuresOk_of_forgotten hpq hp hc h.flag⟩

/-! ### SCAN -/

theorem State.RegsOk.scanned (h : s.RegsOk) : s.scanned.RegsOk := by
  obtain ⟨-, hroot, htrie, hnodes, hlen, hbits⟩ := h
  exact ⟨by rw [State.nsym_scanned]; exact State.distinctBytes_le _, hroot, htrie, hnodes, hlen, hbits⟩

theorem State.StructuresOk.scanned (h : s.StructuresOk) : s.scanned.StructuresOk := by
  obtain ⟨hpq, hp, hlen, -, -, -, htrie⟩ := h
  refine ⟨hpq, hp, hlen, fun _ => ⟨⟨_, rfl⟩, s.nsym_scanned⟩, fun hf => ?_, fun hf => ?_, fun hf => htrie ?_⟩
  · rw [State.flag_scanned] at hf
    cases hf
  · rw [State.flag_scanned] at hf
    cases hf
  · rw [State.flag_scanned] at hf
    exact hf

/-! ### BUILD -/

theorem root_lt_of_treeShape {t : Table TreeRec} {root : Option Nat} (h : TreeShape t root) {r : Nat}
    (hr : root = some r) : r < Config.treeN := by
  subst hr
  have hinv := treeInv_of_treeShape h
  exact hinv.bound r (by rw [hinv.root]; decide)

theorem State.RegsOk.built (h : s.RegsOk) : s.built.RegsOk := by
  obtain ⟨hnsym, -, htrie, hnodes, hlen, hbits⟩ := h
  obtain ⟨-, hshape, -⟩ := built_spec s
  exact ⟨hnsym, ⟨(buildTree (addLeaves s)).2, fun _ => root_lt_of_treeShape hshape, rfl⟩, htrie, hnodes, hlen, hbits⟩

/-- BUILD leaves a tree, and `NSYM` counts its leaves because it counted the byte values before (rules R33, R140). -/
theorem treeOk_built (h : s.regs.nsym.toNat = s.distinctBytes) : s.built.TreeOk := by
  obtain ⟨htable, hshape, -, -, hcount⟩ := built_spec s
  exact ⟨_, _, rfl, htable.1, hshape, rfl, h.trans hcount.symm⟩

theorem State.StructuresOk.built (h : s.StructuresOk) (hf : s.flag .freq = true) : s.built.StructuresOk := by
  obtain ⟨-, hp, hlen, hfreq, -, -, htrie⟩ := h
  refine ⟨s.pq_built, hp, hlen, fun hf => ?_, fun _ => treeOk_built (hfreq hf).2, fun hf => ?_, fun hf => htrie ?_⟩
  · rw [State.flag_built] at hf
    cases hf
  · rw [State.flag_built] at hf
    cases hf
  · rw [State.flag_built] at hf
    exact hf

/-! ### GEN -/

theorem rootPresent_rootWord (r : Nat) : rootPresent (rootWord (some r)) = true := by
  simp [rootPresent, rootWord]

theorem treeRootIndex_rootWord {r : Nat} (h : r < 512) : treeRootIndex (rootWord (some r)) = r := by
  unfold treeRootIndex rootWord
  rw [BitVec.extractLsb'_toNat, BitVec.toNat_or, BitVec.toNat_ofNat, BitVec.toNat_ofNat, Nat.shiftRight_zero,
    Nat.or_mod_two_pow, show r % 2 ^ 32 % 2 ^ 9 = r by omega]
  simp

/-- The tree behind `TREE_VALID`: an empty arena with an absent root, or a tree whose root the register names and in which
every other record has a parent. -/
theorem State.TreeOk.cases (h : s.TreeOk) :
    (rootPresent s.regs.treeRoot = false ∧ ∀ i, s.treeAt i = absentRec) ∨
    ∃ r, TreeInv s.treeAt r ∧ rootPresent s.regs.treeRoot = true ∧ treeRootIndex s.regs.treeRoot = r ∧
      ∀ i, (s.treeAt i).kind ≠ .absent → i ≠ r → ∃ k b, treeChild (s.treeAt k) b = some i := by
  obtain ⟨t, root, ht, hw, hshape, hroot, -⟩ := h
  have hat : s.treeAt = entryAt absentRec t := by funext i; simp only [State.treeAt, ht]
  rw [hroot, hat]
  cases root with
  | none =>
    have hnil : t = [] := hshape.2.2.2
    exact .inl ⟨by decide, fun i => by rw [hnil]; rfl⟩
  | some r =>
    exact .inr ⟨r, treeInv_of_treeShape hshape, rootPresent_rootWord r,
      treeRootIndex_rootWord (root_lt_of_treeShape hshape rfl), fun i => parent_of_treeShape hw hshape⟩

theorem codeEntries_eq_nil (h : ∀ b, s.codeAt b = []) : s.codeEntries = [] := by
  rw [List.eq_nil_iff_forall_not_mem]
  intro e he
  obtain ⟨hcode, hne⟩ := mem_codeEntries.1 he
  exact hne (hcode.symm.trans (h e.1))

theorem validTable_nil : ValidTable [] := ⟨List.nodup_nil, by simp, List.Pairwise.nil⟩

/-- The code GEN leaves for the tree behind `TREE_VALID`: a CodeTable of the tree's leaves, its codewords of at most 255
bits (rules R150, R152, R153). -/
theorem State.TreeOk.generated (h : s.TreeOk) :
    ValidTable s.generated.codeEntries ∧ (∀ b, s.generated.codeAt b ≠ [] ↔ (s.treeAt b.toNat).kind = .leaf) ∧
    ∀ b, (s.generated.codeAt b).length ≤ Config.maxLen := by
  rcases h.cases with ⟨hp, habs⟩ | ⟨r, hinv, hp, hidx, hpar⟩
  · have hcode := State.codeAt_generated_absent hp
    refine ⟨by rw [codeEntries_eq_nil hcode]; exact validTable_nil, fun b => ?_, fun b => by rw [hcode]; simp⟩
    rw [hcode, habs]
    simp [absentRec]
  · have hcode := State.codeAt_generated hinv hp hidx
    have hback : ∀ b, s.generated.codeAt b ≠ [] → LeafPath s.treeAt r b (s.generated.codeAt b) := fun b hb => by
      by_cases hex : ∃ w, LeafPath s.treeAt r b w
      · obtain ⟨w, hw⟩ := hex
        rw [(hcode b).1 w hw]
        exact hw
      · exact absurd ((hcode b).2 hex) hb
    refine ⟨validTable_of_leafPaths hinv hback, fun b => ⟨fun hb => (hback b hb).2, fun hk => ?_⟩, fun b => ?_⟩
    · obtain ⟨w, hw⟩ := exists_leafPath hinv (j := b.toNat) (by rw [hk]; decide) hpar
      rw [(hcode b).1 w ⟨hw, hk⟩]
      exact LeafPath.ne_nil hinv ⟨hw, hk⟩
    · by_cases hb : s.generated.codeAt b = []
      · simp [hb]
      · exact (hback b hb).length_le hinv

/-- What holds of every codeword read holds of every codeword listed. -/
theorem length_le_of_length_codeAt_le {u : Table (List Bool)} {n : Nat} (hu : s.code = .known u) (hok : TableOk [] 256 u)
    (h : ∀ b, (s.codeAt b).length ≤ n) : ∀ e ∈ u, e.2.length ≤ n := by
  intro e he
  have hlt := hok.2 e he
  have hcode : s.codeAt (BitVec.ofNat 8 e.1) = e.2 := by
    simp only [State.codeAt, hu]
    rw [show (BitVec.ofNat 8 e.1).toNat = e.1 by rw [BitVec.toNat_ofNat]; omega]
    exact entryAt_of_mem hok.1 he
  rw [← hcode]
  exact h _

theorem State.RegsOk.generated (h : s.RegsOk) : s.generated.RegsOk :=
  h.congr fun r hr => (keeps_generated s).reg r (by revert r; decide)

theorem State.StructuresOk.generated (h : s.StructuresOk) (hf : s.flag .tree = true) : s.generated.StructuresOk := by
  obtain ⟨hpq, hp, -, hfreq, htree, -, htrie⟩ := h
  obtain ⟨-, -, -, -, -, -, -, -, -, -, hflag, -⟩ := s.generated_frame
  obtain ⟨hvalid, hleaf, hlen⟩ := (htree hf).generated
  refine ⟨hpq, hp, length_le_of_length_codeAt_le rfl ?_ hlen, fun k => hfreq ?_, fun _ => htree hf,
    fun _ => ⟨?_, ⟨_, rfl⟩, hvalid, hleaf⟩, fun k => htrie ?_⟩
  · split
    · exact tableOk_genWalk s _ _ (tableOk_nil _ _)
    · exact tableOk_nil _ _
  · rw [hflag] at k
    exact k
  · rw [hflag]
    exact hf
  · rw [hflag] at k
    exact k

/-! ### DDES -/

theorem State.StructuresOk.clearTrieFlag (h : s.StructuresOk) : (s.setFlag .trie false).StructuresOk := by
  obtain ⟨hpq, hp, hlen, hfreq, htree, hcode, -⟩ := h
  have hflag : ∀ f, f ≠ .trie → (s.setFlag .trie false).flag f = s.flag f := fun f hf => by simp [hf]
  refine ⟨hpq, hp, hlen, fun k => hfreq ?_, fun k => htree ?_, fun k => ?_, fun k => ?_⟩
  · rwa [hflag _ (by decide)] at k
  · rwa [hflag _ (by decide)] at k
  · rw [hflag _ (by decide)] at k ⊢
    exact hcode k
  · simp at k

theorem TrieOf.nodes_le {es : Entries} {u : TrieCtx} (h : TrieOf es u) : u.nodes ≤ Config.trieN := by
  by_cases hes : es = []
  · rw [h.1 hes]
    exact Nat.zero_le _
  · exact (h.2 hes).2

theorem TrieOf.nodes_eq_zero_iff {es : Entries} {u : TrieCtx} (h : TrieOf es u) : u.nodes = 0 ↔ es.length = 0 := by
  rw [List.length_eq_zero_iff]
  refine ⟨fun h0 => ?_, fun hes => by rw [h.1 hes]⟩
  by_contra hes
  have := (h.2 hes).1.root_lt
  omega

theorem TrieOf.shape {es : Entries} {u : TrieCtx} (h : TrieOf es u) (hv : ValidTable es) :
    TrieShape u.trie u.nodes := by
  by_cases hes : es = []
  · rw [h.1 hes]
    exact ⟨fun i hi => absurd hi (Nat.not_lt_zero i), fun _ _ => rfl, fun h0 => absurd h0 (Nat.lt_irrefl 0), List.nodup_nil⟩
  · exact trieShape_of_trieInv (h.2 hes).1 hes hv

/-- The state DDES ends in when it accepts a table. -/
def State.trieSet (s : State) (n : Nat) (u : TrieCtx) : State :=
  ((s.setFlag .trie false).setTrie n u).setFlag .trie true

theorem TrieOf.toNat_trieNodes {es : Entries} {u : TrieCtx} (h : TrieOf es u) :
    (s.trieSet es.length u).regs.trieNodes.toNat = u.nodes := by
  show (BitVec.ofNat 32 u.nodes).toNat = _
  have : u.nodes ≤ 65281 := h.nodes_le
  rw [BitVec.toNat_ofNat]
  omega

theorem State.RegsOk.trieSet {es : Entries} {u : TrieCtx} (h : s.RegsOk) (ht : TrieOf es u) :
    (s.trieSet es.length u).RegsOk := by
  obtain ⟨hnsym, hroot, -, -, hlen, hbits⟩ := h
  refine ⟨hnsym, hroot, ?_, by rw [ht.toNat_trieNodes]; exact ht.nodes_le, hlen, hbits⟩
  have hword : (s.trieSet es.length u).regs.trieRoot = rootWord (if es.length = 0 then none else some 0) := rfl
  rw [hword]
  split
  · exact .inl rfl
  · exact .inr rfl

theorem TrieOf.trieOk {es : Entries} {u : TrieCtx} (h : TrieOf es u) (hv : ValidTable es) :
    (s.trieSet es.length u).TrieOk := by
  have hn := h.toNat_trieNodes (s := s)
  refine ⟨u.trie, rfl, h.tableOk.1, by rw [hn]; exact h.shape hv, ?_⟩
  show rootWord (if es.length = 0 then none else some 0) = _
  simp only [hn, h.nodes_eq_zero_iff]

theorem State.StructuresOk.trieSet {es : Entries} {u : TrieCtx} (h : s.StructuresOk) (hv : ValidTable es)
    (ht : TrieOf es u) : (s.trieSet es.length u).StructuresOk := by
  obtain ⟨hpq, hp, hlen, hfreq, htree, hcode, -⟩ := h
  have hflag : ∀ f, f ≠ .trie → (s.trieSet es.length u).flag f = s.flag f := fun f hf => by
    simp [State.trieSet, hf]
  refine ⟨hpq, hp, hlen, fun k => hfreq ?_, fun k => htree ?_, fun k => ?_, fun _ => ht.trieOk hv⟩
  · rwa [hflag _ (by decide)] at k
  · rwa [hflag _ (by decide)] at k
  · rw [hflag _ (by decide)] at k ⊢
    exact hcode k

theorem State.ShapesOk.ends_ddesBody (h : s.ShapesOk) : (ddesBody s).Ends State.ShapesOk id := by
  obtain ⟨hregs, hstr⟩ := h
  refine Machine.ends_ddesBody ⟨?_, hstr.clearTrieFlag⟩ fun es u hv ht => ⟨hregs.trieSet ht, hstr.trieSet hv ht⟩
  exact hregs.congr fun r hr => (keeps_setFlag s .trie false).reg r (by revert r; decide)

/-! ### The readback commands -/

/-- No codeword `CODE` can hold is longer than 255 bits (rule R9). -/
theorem length_codeAt_le (h : s.code.Holds fun u => ∀ e ∈ u, e.2.length ≤ Config.maxLen) (b : Byte) :
    (s.codeAt b).length ≤ Config.maxLen := by
  unfold State.codeAt
  cases hc : s.code with
  | unspecified d => exact List.length_take_le _ _
  | known u =>
    rw [hc] at h
    simp only [entryAt]
    cases hl : lookAt u b.toNat with
    | none => exact Nat.zero_le _
    | some cw => exact h _ (mem_of_lookAt hl)

/-- Bit 0 of `CWBITS7` stands for codeword bit 255, which no codeword has (rules R39, R103). -/
theorem getLsbD_zero_cwbitsWord {cw : List Bool} (h : cw.length ≤ Config.maxLen) : (cwbitsWord cw 7).getLsbD 0 = false := by
  have hlen : cw.length ≤ 255 := h
  rw [cwbitsWord, BitVec.getLsbD_ofFnLE]
  simp [hlen]

theorem State.RegsOk.showCodeword {cw : List Bool} (h : s.RegsOk) (hcw : cw.length ≤ Config.maxLen) :
    (s.showCodeword cw).RegsOk := by
  obtain ⟨hnsym, hroot, htrie, hnodes, -, -⟩ := h
  refine ⟨hnsym, hroot, htrie, hnodes, ?_, getLsbD_zero_cwbitsWord hcw⟩
  show (BitVec.ofNat 32 cw.length).toNat ≤ _
  rw [BitVec.toNat_ofNat]
  exact (Nat.mod_le _ _).trans hcw

/-! ### The parts of a step -/

theorem State.ShapesOk.scanned (h : s.ShapesOk) : s.scanned.ShapesOk := ⟨h.1.scanned, h.2.scanned⟩

theorem State.ShapesOk.built (h : s.ShapesOk) (hf : s.flag .freq = true) : s.built.ShapesOk := ⟨h.1.built, h.2.built hf⟩

theorem State.ShapesOk.generated (h : s.ShapesOk) (hf : s.flag .tree = true) : s.generated.ShapesOk :=
  ⟨h.1.generated, h.2.generated hf⟩

theorem ends_dserBody_shapesOk (h : s.ShapesOk) : (dserBody s).Ends State.ShapesOk id :=
  (ends_dserBody s).mono fun _ => h.fills

theorem ends_packBody_shapesOk (h : s.ShapesOk) : (packBody s).Ends State.ShapesOk id :=
  (ends_packBody s).mono fun _ => h.fills

theorem ends_unpackBody_shapesOk (h : s.ShapesOk) : (unpackBody s).Ends State.ShapesOk id :=
  (ends_unpackBody s).mono fun _ => h.fills

/-- Wherever the pseudocode of a command whose prerequisite holds ends, the shapes are right. -/
theorem ends_bodyOf_shapesOk {i : Instr} (hi : i ≠ .clr) (h : s.ShapesOk) (hr : s.Ready i) :
    (bodyOf i s).Ends State.ShapesOk id := by
  cases i with
  | nop => exact h
  | clr => exact absurd rfl hi
  | scan => exact ends_scanBody h h.scanned
  | build => exact h.built (hr .freq rfl)
  | gen => exact h.generated (hr .tree rfl)
  | dser => exact ends_dserBody_shapesOk h
  | pack => exact ends_packBody_shapesOk h
  | encode =>
    have hbuilt := h.scanned.built (State.flag_scanned s .freq)
    exact ends_encodeBody h (hbuilt.generated (State.flag_built _ .tree)) (fun _ => ends_dserBody_shapesOk)
      fun _ => ends_packBody_shapesOk
  | ddes => exact h.ends_ddesBody
  | unpack => exact ends_unpackBody_shapesOk h
  | decode => exact h.ends_ddesBody.andThen fun _ hu => ends_unpackBody_shapesOk hu
  | lookup b =>
    obtain ⟨hregs, hstr⟩ := h
    have ⟨_, _, hlen, _⟩ := hstr
    exact ⟨hregs.showCodeword (length_codeAt_le hlen b), hstr⟩
  | rdfreq b => exact h
  | rdtree idx => exact h
  | rdtrie idx => exact h

/-- The parts of a step keep the whole invariant (rules R25 to R45). -/
theorem inv_keptByActions : KeptByActions State.Inv where
  body i hi h ho hr := by
    obtain ⟨hsto, hflags, hshapes⟩ := h
    exact ((storageOk_keptByActions.body i hi hsto ho hr).and ((faultFlagsOk_keptByActions.body i hi hflags ho hr).and
      (ends_bodyOf_shapesOk hi hshapes hr)))
  raise x info outs h := by
    obtain ⟨hsto, hflags, hshapes⟩ := h
    exact ⟨hsto.raise x info outs, hflags.raise x info outs, State.ShapesOk.raise hshapes x info outs⟩
  clear h := by
    obtain ⟨hsto, hflags, -, -, hp, -⟩ := h
    exact ⟨storageOk_keptByActions.clear hsto, faultFlagsOk_keptByActions.clear hflags,
      (clearedRegs_clear _).shapesOk rfl hp rfl⟩
  reset h := by
    obtain ⟨hsto, hflags, -, -, hp, -⟩ := h
    exact ⟨storageOk_keptByActions.reset hsto, faultFlagsOk_keptByActions.reset hflags,
      ClearedRegs.shapesOk clearedRegs_zero rfl hp rfl⟩
  script rest h := h
  regs r v h := by cases r <;> exact h
  deliver v h := h
  write sp off v hlt h := by
    obtain ⟨hsto, hflags, hshapes⟩ := h
    exact ⟨storageOk_keptByActions.write sp off v hlt hsto, faultFlagsOk_keptByActions.write sp off v hlt hflags,
      State.ShapesOk.fills hshapes (differsIn_memWrite _ sp off v).fills⟩

/-- Settles O59: a flag is set only behind the structure its command has just made, and every other part of a step either
keeps what the flags speak of or clears the flags. -/
theorem stepKeepsTheInvariant : Obligations.StepKeepsTheInvariant :=
  fun _ _ h hstep => inv_keptByActions.step h hstep

/-- Settles O56: after reset nothing is stored, every register is 0 and no flag is set. -/
theorem invariantAfterReset : Obligations.InvariantAfterReset :=
  ⟨storageOk_of_unspecified State.buffersOk_reset rfl rfl rfl rfl, ClearedRegs.faultFlagsOk clearedRegs_zero,
    ClearedRegs.shapesOk (d := 0) clearedRegs_zero rfl (by decide) rfl⟩

end Sys2Proof.Machine

/-! PROOFS. spec/10_state.md: the register window and a step on a host action (rules R21, R22, R26, R29 to R31, R49). -/

namespace Sys2Proof.Machine

variable {s t : State}

/-! ### The window -/

/-- The table has a register at each of its own offsets, and it is that register (rule R21). -/
@[simp] theorem regAt_regOffset (r : Reg) : regAt (regOffset r) = some r := by cases r <;> rfl

/-- The registers stand at the multiples of 4 below 0x68 (rule R21). -/
theorem exists_regOffset_iff {off : Nat} : (∃ r, regOffset r = off) ↔ off % 4 = 0 ∧ off < 0x68 := by
  constructor
  · rintro ⟨r, rfl⟩
    cases r <;> decide
  · rintro ⟨hmod, hlt⟩
    have hall : ∀ k < 26, ∃ r ∈ allRegs, regOffset r = 4 * k := by decide
    obtain ⟨r, -, hr⟩ := hall (off / 4) (by omega)
    exact ⟨r, by omega⟩

theorem regAt_eq_none {off : Nat} (h : off % 4 ≠ 0 ∨ 0x68 ≤ off) : regAt off = none := by
  refine List.find?_eq_none.2 fun r _ hr => ?_
  have hoff := exists_regOffset_iff.1 ⟨r, eq_of_beq hr⟩
  omega

/-- A whole-word access at a register's offset reaches that register (rule R22). -/
@[simp] theorem accessedReg_regOffset (r : Reg) : accessedReg (regOffset r) .word = .ok r := by simp [accessedReg]

theorem accessedReg_undefined {off : Nat} (h : off % 4 ≠ 0 ∨ 0x68 ≤ off) :
    accessedReg off .word = .error (.undefinedRegister off) := by simp [accessedReg, regAt_eq_none h]

theorem accessedReg_narrow {width : AccessWidth} (h : width ≠ .word) (off : Nat) :
    accessedReg off width = .error (.narrowRegisterAccess off) := by simp [accessedReg, h]

/-! ### Accesses to the window -/

theorem perform_readReg (s : State) (r : Reg) :
    perform (.readReg (regOffset r) .word) s = .next (s.deliver (s.regValue r)) := by simp [perform]

theorem perform_writeReg (s : State) (r : Reg) (v : Word) :
    perform (.writeReg (regOffset r) .word v) s = regWrite r v s := by simp [perform]

theorem regWrite_of_ne_cmd {r : Reg} (h : r ≠ .cmd) (v : Word) (s : State) :
    regWrite r v s = .next { s with regs := hostWrite r v s.regs } := by simp [regWrite, h]

/-- A write of any word to `CMD` leads to a next state (rules R13, R95, R215). -/
theorem commandWrite_next (w : Word) (s : State) : ∃ t, commandWrite w s = .next t := by
  unfold commandWrite
  split
  · next i _ => exact everyCommandEnds i s
  · unfold rejectWord
    split <;> exact ⟨_, rfl⟩

theorem regWrite_next (r : Reg) (v : Word) (s : State) : ∃ t, regWrite r v s = .next t := by
  by_cases hr : r = .cmd
  · subst hr
    exact commandWrite_next v s
  · exact ⟨_, regWrite_of_ne_cmd hr v s⟩

/-- A host write reads back from an `RW` length register, and no other register reads otherwise than before
(rules R21, R29 to R31). -/
theorem regValue_hostWrite (s : State) {r : Reg} (h : r ≠ .cmd) (v : Word) (q : Reg) :
    ({ s with regs := hostWrite r v s.regs } : State).regValue q =
      if q = r ∧ (r = .srcLen ∨ r = .payLen ∨ r = .dictLen) then v else s.regValue q := by
  cases r with
  | cmd => exact absurd rfl h
  | srcLen => cases q <;> rfl
  | payLen => cases q <;> rfl
  | dictLen => cases q <;> rfl
  | _ => simp [hostWrite]

theorem step_of_script {a : HostAction} {rest : List HostAction} (h : s.script = a :: rest) :
    step s = perform a { s with script := rest } := by
  unfold step nextAction
  rw [h]

/-- Settles O9: the access reaches the register, whose value is put in front of what has been returned. -/
theorem hostReadDeliversTheRegister : Obligations.HostReadDeliversTheRegister := by
  intro s r rest h
  refine ⟨?_, rfl⟩
  rw [step_of_script h, perform_readReg, regValue_congr (s := s) rfl r]
  rfl

/-- Settles O10: a write that is not to `CMD` reaches the registers alone. -/
theorem hostWriteReachesOnlyLengths : Obligations.HostWriteReachesOnlyLengths := by
  intro s r v rest hr h
  rw [step_of_script h, perform_writeReg, regWrite_of_ne_cmd hr]
  exact ⟨_, rfl, rfl, regValue_hostWrite s hr v⟩

/-- Settles O11: the table has no register at the refused offsets and one at every other. -/
theorem undefinedRegisterAccessIsRefused : Obligations.UndefinedRegisterAccessIsRefused := by
  intro s off v
  refine ⟨fun h => ?_, fun width h => ?_, fun hmod hlt => ?_⟩
  · simp [perform, accessedReg_undefined h]
  · simp [perform, accessedReg_narrow h]
  · obtain ⟨r, rfl⟩ := exists_regOffset_iff.2 ⟨hmod, hlt⟩
    exact ⟨⟨_, perform_readReg s r⟩, by rw [perform_writeReg]; exact regWrite_next r v s⟩

/-! ### A written command -/

/-- The word of a command decodes to the command (rules R90 to R94). -/
theorem decode_encode (i : Instr) : decode (encode i) = .ok i := by
  cases i <;> simp [decode, encode, rowN, rowB, rowX]

theorem perform_commandAction {w : Word} {i : Instr} (h : decode w = .ok i) (s : State) :
    perform (commandAction w) s = exec i s := by
  have hwrite : perform (commandAction w) s = commandWrite w s := perform_writeReg s .cmd w
  rw [hwrite]
  unfold commandWrite
  rw [h]

/-- Settles O6: offset 0 is `CMD`, and a written word is the command it decodes to. -/
theorem stepRunsTheDecodedCommand : Obligations.StepRunsTheDecodedCommand := by
  refine ⟨fun s w i rest hscript hw => ?_, fun s i => ?_⟩
  · rw [step_of_script hscript]
    exact perform_commandAction hw _
  · have hword : BitVec.ofNat 32 ((encode i).toNat % 2 ^ 32) = encode i := by
      rw [Nat.mod_eq_of_lt (encode i).isLt, BitVec.ofNat_toNat, BitVec.setWidth_eq]
    have hscript : (s.withFetchWord 32 (encode i).toNat).script = commandAction (encode i) :: s.script := by
      rw [State.withFetchWord, hword]
    rw [step_of_script hscript]
    exact perform_commandAction (decode_encode i) _

/-- Settles O14: reset writes 0 to every register, and the flags are bits of one. -/
theorem resetReadsZero : Obligations.ResetReadsZero :=
  ⟨fun r => by cases r <;> rfl, fun f => by cases f <;> rfl, rfl⟩

end Sys2Proof.Machine

/-! PROOFS. spec/20_memory.md: the host's accesses to a buffer byte (rules R60, R78, R79), what commands write
(rule R74), and a capacity that is exceeded (rules R68, R219). -/

namespace Sys2Proof.Machine

variable {s t : State}

/-! ### The host's accesses to a buffer -/

theorem perform_writeBuf {sp : Space} {off : Nat} (h : off < s.cap sp) (v : Byte) :
    perform (.writeBuf sp off v) s = .next (s.memWrite sp off v) := by simp [perform, h]

theorem perform_readBuf {sp : Space} {off : Nat} (h : off < s.cap sp) :
    perform (.readBuf sp off) s = .next (s.deliver ((s.memRead sp off).setWidth 32)) := by simp [perform, h]

theorem perform_beyond_capacity {sp : Space} {off : Nat} (h : s.cap sp ≤ off) (v : Byte) :
    perform (.writeBuf sp off v) s = .fault (.noSuchByte sp off) ∧
      perform (.readBuf sp off) s = .fault (.noSuchByte sp off) := by simp [perform, Nat.not_lt.2 h]

theorem State.memRead_memWrite_self (s : State) (sp : Space) (off : Nat) (v : Byte) :
    (s.memWrite sp off v).memRead sp off = v := by simp [State.memRead_memWrite]

/-- Settles O12: an access below the capacity is one write or one read of the memory, and at or above it there is no
byte. -/
theorem hostByteIsStoredAndReadBack : Obligations.HostByteIsStoredAndReadBack := by
  intro s sp off v
  refine ⟨fun hlt => ?_, fun hle => perform_beyond_capacity hle v⟩
  refine ⟨_, perform_writeBuf hlt v, s.memRead_memWrite_self sp off v, fun sp2 a hne => ?_, s.memWrite_regs sp off v,
    by simp [SameMemories], by simp [SameHostSide], ?_⟩
  · rw [State.memRead_memWrite, if_neg hne]
  · rw [perform_readBuf (by rwa [State.cap_memWrite]), State.memRead_memWrite_self]
    rfl

/-! ### The buffers a command's pseudocode writes -/

/-- Every buffer that is not listed is as before. -/
def SameBuffersOutside (outs : List Space) (s t : State) : Prop := ∀ sp, sp ∉ outs → t.buf sp = s.buf sp

theorem SameBuffersOutside.sameBytes {outs : List Space} (h : SameBuffersOutside outs s t) {sp : Space}
    (hsp : sp ∉ outs) : SameBytes s t sp := fun a => by rw [State.memRead, State.memRead, h sp hsp]

theorem SameBuffersOutside.trans {outs : List Space} {u : State} (h : SameBuffersOutside outs s t)
    (k : SameBuffersOutside outs t u) : SameBuffersOutside outs s u := fun sp hsp => (k sp hsp).trans (h sp hsp)

theorem SameBuffersOutside.mono {outs more : List Space} (h : SameBuffersOutside outs s t) (hsub : outs ⊆ more) :
    SameBuffersOutside more s t := fun sp hsp => h sp fun hm => hsp (hsub hm)

theorem sameBuffersOutside_of_buf_eq {outs : List Space} (h : ∀ sp, t.buf sp = s.buf sp) :
    SameBuffersOutside outs s t := fun sp _ => h sp

theorem DiffersIn.sameBuffersOutside {sp : Space} (h : DiffersIn sp s t) : SameBuffersOutside [sp] s t :=
  fun sp2 hne => h.others sp2 (by simpa using hne)

/-- A run that fills a buffer and ends in a write of its length register leaves the other buffers. -/
theorem ends_sameBuffersOutside_of_differsIn {sp : Space} {r : Run State}
    (hd : ∀ t, r = .done t → ∃ u n, DiffersIn sp s u ∧ t = u.setLen sp n)
    (hr : ∀ x info u, r = .raised x info u → DiffersIn sp s u) : r.Ends (SameBuffersOutside [sp] s) id := by
  cases r with
  | done t =>
    obtain ⟨u, n, hu, rfl⟩ := hd t rfl
    exact hu.sameBuffersOutside.trans (sameBuffersOutside_of_buf_eq (u.buf_setLen sp n))
  | raised x info u => exact (hr x info u rfl).sameBuffersOutside

theorem ends_dserBody_sameBuffersOutside (s : State) : (dserBody s).Ends (SameBuffersOutside [.dict] s) id := by
  obtain ⟨hfits, hfull⟩ := dserBody_spec s
  rcases Nat.lt_or_ge (s.cap .dict) (dserBlob s).length with hlt | hle
  · obtain ⟨v, hv, hdiff⟩ := hfull hlt
    rw [hv]
    exact hdiff.sameBuffersOutside
  · rw [hfits hle]
    exact (differsIn_memWriteAll s .dict 0 _).sameBuffersOutside.trans
      (sameBuffersOutside_of_buf_eq (State.buf_setLen _ _ _))

theorem ends_packBody_sameBuffersOutside (s : State) : (packBody s).Ends (SameBuffersOutside [.pay] s) id := by
  obtain ⟨hd, hr⟩ := packBody_frame s
  exact ends_sameBuffersOutside_of_differsIn hd fun x info u h => (hr x info u h).1

theorem ends_unpackBody_sameBuffersOutside (s : State) : (unpackBody s).Ends (SameBuffersOutside [.dst] s) id := by
  obtain ⟨hd, hr⟩ := unpackBody_frame s
  exact ends_sameBuffersOutside_of_differsIn hd fun x info u h => (hr x info u h).1

theorem buf_scanned (s : State) (sp : Space) : s.scanned.buf sp = s.buf sp := by cases sp <;> rfl

theorem buf_built (s : State) (sp : Space) : s.built.buf sp = s.buf sp := by cases sp <;> rfl

theorem buf_generated (s : State) (sp : Space) : s.generated.buf sp = s.buf sp := by cases sp <;> rfl

theorem ends_ddesBody_buf (s : State) : (ddesBody s).Ends (fun u => ∀ sp, u.buf sp = s.buf sp) id :=
  ends_ddesBody (by simp) fun _ _ _ _ => by simp

/-- Wherever a command's pseudocode ends, it has written its outputs only (rule R74). -/
theorem ends_bodyOf_sameBuffersOutside {i : Instr} (hi : i ≠ .clr) (s : State) :
    (bodyOf i s).Ends (SameBuffersOutside (outputsOf i) s) id := by
  have hrefl : ∀ outs, SameBuffersOutside outs s s := fun _ => sameBuffersOutside_of_buf_eq fun _ => rfl
  cases i with
  | nop => exact hrefl _
  | clr => exact absurd rfl hi
  | scan => exact ends_scanBody (hrefl _) (sameBuffersOutside_of_buf_eq (buf_scanned s))
  | build => exact sameBuffersOutside_of_buf_eq (buf_built s)
  | gen => exact sameBuffersOutside_of_buf_eq (buf_generated s)
  | dser => exact ends_dserBody_sameBuffersOutside s
  | pack => exact ends_packBody_sameBuffersOutside s
  | encode =>
    refine ends_encodeBody (hrefl _) ?_ (fun u hu => ?_) fun u hu => ?_
    · exact sameBuffersOutside_of_buf_eq fun sp => by rw [buf_generated, buf_built, buf_scanned]
    · exact (ends_dserBody_sameBuffersOutside u).mono fun v hv => hu.trans (hv.mono (by simp [outputsOf]))
    · exact (ends_packBody_sameBuffersOutside u).mono fun v hv => hu.trans (hv.mono (by simp [outputsOf]))
  | ddes => exact (ends_ddesBody_buf s).mono fun _ => sameBuffersOutside_of_buf_eq
  | unpack => exact ends_unpackBody_sameBuffersOutside s
  | decode =>
    refine ((ends_ddesBody_buf s).mono fun u => sameBuffersOutside_of_buf_eq).andThen fun u hu => ?_
    exact (ends_unpackBody_sameBuffersOutside u).mono fun v hv => SameBuffersOutside.trans hu hv
  | lookup b => exact sameBuffersOutside_of_buf_eq (State.buf_showCodeword s _)
  | rdfreq b => exact sameBuffersOutside_of_buf_eq fun sp => by cases sp <;> rfl
  | rdtree idx => exact sameBuffersOutside_of_buf_eq (State.buf_showTreeRec s _)
  | rdtrie idx => exact sameBuffersOutside_of_buf_eq (State.buf_showTrieRec s _)

/-- A fault forgets the listed outputs alone (rule R236). -/
theorem sameBuffersOutside_raise (s : State) (x : HwFault) (info : Nat) (outs : List Space) :
    SameBuffersOutside outs s (s.raise x info outs) := by
  obtain ⟨-, hbuf, -⟩ := raise_spec s x info outs
  intro sp hsp
  rw [hbuf, if_neg hsp]

theorem sameHostSide_raise (s : State) (x : HwFault) (info : Nat) (outs : List Space) :
    SameHostSide s (s.raise x info outs) := by
  obtain ⟨-, -, -, -, -, -, -, -, hparams, -, hscript, hreturned⟩ := raise_spec s x info outs
  exact ⟨hparams, hscript, hreturned⟩

theorem SameHostSide.trans {u : State} (h : SameHostSide s t) (k : SameHostSide t u) : SameHostSide s u := by
  obtain ⟨hparams, hscript, hreturned⟩ := h
  obtain ⟨kparams, kscript, kreturned⟩ := k
  exact ⟨kparams.trans hparams, kscript.trans hscript, kreturned.trans hreturned⟩

/-- A command leaves every buffer but its outputs, and the host's side (rules R74, R236). -/
theorem exec_frame {i : Instr} (h : exec i s = .next t) : SameBuffersOutside (outputsOf i) s t ∧ SameHostSide s t := by
  by_cases hi : i = .clr
  · subst hi
    cases h
    exact ⟨sameBuffersOutside_of_buf_eq s.buf_clear, rfl, rfl, rfl⟩
  have hbody := (ends_bodyOf_sameBuffersOutside hi s).and (ends_bodyOf_keeps hi s)
  rcases exec_cases hi h with ⟨-, rfl⟩ | ⟨-, -, rfl⟩ | ⟨-, -, hb⟩ | ⟨-, -, x, info, u, hb, rfl⟩
  · exact ⟨sameBuffersOutside_of_buf_eq fun _ => rfl, rfl, rfl, rfl⟩
  · exact ⟨(sameBuffersOutside_raise s _ _ []).mono (List.nil_subset _), sameHostSide_raise s _ _ _⟩
  · rw [hb] at hbody
    exact ⟨hbody.1, hbody.2.host⟩
  · rw [hb] at hbody
    exact ⟨hbody.1.trans (sameBuffersOutside_raise u x info _), hbody.2.host.trans (sameHostSide_raise u x info _)⟩

/-- Settles O54: wherever a body ends, and in a fault, the buffers that are not outputs and the host's side are kept. -/
theorem commandsWriteOnlyTheirOutputs : Obligations.CommandsWriteOnlyTheirOutputs := by
  intro i s t h
  obtain ⟨hbuf, hhost⟩ := exec_frame h
  exact ⟨fun _ hsp => hbuf.sameBytes hsp, hhost⟩

/-! ### An output that does not fit -/

theorem ready_of_flag {i : Instr} {f : ValidFlag} (hi : prerequisite i = some f) (hf : s.flag f = true) : s.Ready i := by
  intro g hg
  rw [hi] at hg
  cases hg
  exact hf

/-- A body that raises with nothing but one of its outputs written answers the fault of the state before it
(rule R239). -/
theorem exec_of_raised {i : Instr} (hi : i ≠ .clr) (ho : s.Ok) (hr : s.Ready i) {x : HwFault} {info : Nat} {sp : Space}
    (hsp : sp ∈ outputsOf i) (hb : ∃ v, bodyOf i s = .raised x info v ∧ DiffersIn sp s v) :
    exec i s = .next (s.raise x info (outputsOf i)) := by
  obtain ⟨v, hv, hdiff⟩ := hb
  rw [exec_ready hi ho hr, hv, finish_raised, raise_eq_of_differsIn hdiff x info hsp]

/-- Settles O37: the blob of DSER's loop is that of the table, and a loop that runs out of room has written `DICT`
alone. -/
theorem dserRaisesWhenTheBlobDoesNotFit : Obligations.DserRaisesWhenTheBlobDoesNotFit := by
  intro s ho hf hlong
  rw [← dserBlob_eq] at hlong
  exact exec_of_raised (i := .dser) (by decide) ho (ready_of_flag rfl hf) (List.mem_singleton_self _)
    ((dserBody_spec s).2 hlong)

/-- Settles O44: PACK runs out of room inside the coded first bytes, whatever follows them, or by the end of the whole
coded input. -/
theorem packRaisesWhenThePayloadDoesNotFit : Obligations.PackRaisesWhenThePayloadDoesNotFit := by
  intro s ho hf hsrc hfull
  have hbody : ∃ v, packBody s = .raised .sinkUnavailable 1 v ∧ DiffersIn .pay s v := by
    rcases hfull with ⟨i, hi, hcoded, hlong⟩ | ⟨hcoded, hlong⟩
    · exact packBody_outgrown s hsrc hi hcoded hlong
    · exact (packBody_spec s hsrc hcoded).2 hlong
  exact exec_of_raised (i := .pack) (by decide) ho (ready_of_flag rfl hf) (List.mem_singleton_self _) hbody

/-! ### A payload that fits -/

theorem State.cap_lt (s : State) (sp : Space) : s.cap sp < 2 ^ 32 := by cases sp <;> exact BitVec.isLt _

namespace Packed

variable {bits : List Bool}

theorem len_pay (h : Packed s bits t) (hfit : 1 + (bits.length + 7) / 8 ≤ s.cap .pay) :
    t.len .pay = 1 + (bits.length + 7) / 8 := by
  obtain ⟨u, -, rfl⟩ := h.diff
  rw [State.len_setLen, if_pos rfl]
  exact Nat.mod_eq_of_lt (Nat.lt_of_le_of_lt hfit (s.cap_lt .pay))

theorem toNat_pad (h : Packed s bits t) : (t.memRead .pay 0).toNat = (8 - bits.length % 8) % 8 := by
  rw [h.pad, BitVec.toNat_ofNat]
  omega

/-- The bits that are not padding are those packed: the padding count is what the last byte has left (rule R100). -/
theorem payloadBits_eq (h : Packed s bits t) (hfit : 1 + (bits.length + 7) / 8 ≤ s.cap .pay) : t.payloadBits = bits := by
  have hcount : t.payloadBitCount = bits.length := by
    rw [State.payloadBitCount, h.len_pay hfit, h.toNat_pad]
    omega
  unfold State.payloadBits
  rw [hcount]
  refine List.ext_getElem (by simp) fun k hk hk2 => ?_
  rw [List.getElem_map, List.getElem_range, h.payload k (by omega), List.getD_eq_getElem _ _ hk2]

theorem payBit_padding (h : Packed s bits t) {k : Nat} (hk : bits.length ≤ k) (hlt : k < 8 * ((bits.length + 7) / 8)) :
    t.payBit k = false := by rw [h.payload k hlt, List.getD_eq_default _ _ hk]

/-- Nothing but `PAY` and its length has changed. -/
theorem frame (h : Packed s bits t) : SameBuffersBut .pay s t ∧ t.regs = { s.regs with payLen := t.regs.payLen } ∧
    SameMemories s t ∧ SameHostSide s t := by
  obtain ⟨u, hu, rfl⟩ := h.diff
  have hfills := hu.fills_setLen (1 + (bits.length + 7) / 8)
  refine ⟨fun sp hne a => ?_, ?_, hfills.memories, hfills.keeps.host⟩
  · rw [State.memRead_setLen, hu.memRead hne]
  · rw [← hu.regs]
    rfl

end Packed

/-- Settles O43: the body leaves the bits of the input packed, and what is packed gives each clause. -/
theorem packConcatenatesTheCodewords : Obligations.PackConcatenatesTheCodewords := by
  intro s ho hf hsrc hcoded bits hfit
  obtain ⟨t, hb, hpacked⟩ := (packBody_spec s hsrc hcoded).1 hfit
  have hexec : exec .pack s = .next t := by
    rw [exec_ready (i := .pack) (by decide) ho (ready_of_flag rfl hf), bodyOf, hb, finish_done]
  have hlen := hpacked.len_pay hfit
  refine ⟨t, hexec, hlen, hpacked.toNat_pad, hpacked.payloadBits_eq hfit, fun k => hpacked.payBit_padding,
    fun a ha => hpacked.beyond a (by rwa [hlen] at ha), hpacked.frame⟩

/-! ### An input that is too long -/

theorem packBody_overlong (h : s.cap .src < s.len .src) : packBody s = .raised .sourceUnavailable 0 s := if_pos h

theorem unpackBody_overlong (h : s.cap .pay < s.len .pay) : unpackBody s = .raised .sourceUnavailable 1 s := if_pos h

/-- DDES has cleared its flag before it looks at the length (rule R171). -/
theorem ddesBody_overlong (h : s.cap .dict < s.len .dict) :
    ddesBody s = .raised .sourceUnavailable 2 (s.setFlag .trie false) := by
  rcases ddesBody_cases s with ⟨-, hb⟩ | ⟨hle, -⟩ | ⟨hle, -⟩
  · exact hb
  · omega
  · omega

/-- A command's first test is of its first input, before it has written more than a flag (rules R68, R237). -/
theorem finish_bodyOf_overlong {i : Instr} {sp : Space} (hi : firstInputOf i = some sp) (h : s.cap sp < s.len sp)
    (outs : List Space) : (bodyOf i s).finish outs = s.raise .sourceUnavailable (spaceId sp) outs := by
  cases i with
  | scan => cases hi; rw [bodyOf, scanBody_eq, if_pos h]; rfl
  | pack => cases hi; rw [bodyOf, packBody_overlong h]; rfl
  | encode => cases hi; rw [bodyOf, encodeBody_eq, if_pos h]; rfl
  | ddes => cases hi; rw [bodyOf, ddesBody_overlong h]; exact raise_setFlag s _ _ _ _ _
  | decode => cases hi; rw [bodyOf, decodeBody, ddesBody_overlong h]; exact raise_setFlag s _ _ _ _ _
  | unpack => cases hi; rw [bodyOf, unpackBody_overlong h]; rfl
  | _ => cases hi

/-- DDES leaves the length and the capacity of `PAY` to the UNPACK part of DECODE (rule R219). -/
theorem len_cap_pay_of_ddesBody (h : ddesBody s = .done t) : t.len .pay = s.len .pay ∧ t.cap .pay = s.cap .pay := by
  have hk := ends_ddesBody_keeps s
  rw [h, ends_done] at hk
  obtain ⟨hparams, -⟩ := hk.host
  exact ⟨congrArg BitVec.toNat (hk.reg .payLen (by decide)), congrArg (fun p => p.payCap.toNat) hparams⟩

/-- Settles O19: the first test of a body is of its first input's length, and DECODE is DDES and then UNPACK. -/
theorem overlongInputRaisesSourceUnavailable : Obligations.OverlongInputRaisesSourceUnavailable := by
  refine ⟨fun i sp s hi ho hr hlong => ?_, fun s t ho hddes hok hlong => ?_⟩
  · have hclr : i ≠ .clr := by rintro rfl; cases hi
    rw [exec_ready hclr ho hr, finish_bodyOf_overlong hi hlong]
  · have hready : ∀ i, prerequisite i = none → s.Ready i := fun i hi f hf => by rw [hi] at hf; cases hf
    have hb : ddesBody s = .done t := bodyOf_eq_done (i := .ddes) (by decide) ho (hready _ rfl) hddes hok
    obtain ⟨hlen, hcap⟩ := len_cap_pay_of_ddesBody hb
    rw [exec_ready (i := .decode) (by decide) ho (hready _ rfl), bodyOf, decodeBody, hb, andThen_done,
      unpackBody_overlong (by omega)]
    rfl

end Sys2Proof.Machine

/-! PROOFS. spec/30_encoding.md: the decoder, the encoder and the opcode map (rules R90 to R95), and the commands whose
outputs are written out in that chapter: LOOKUP's left-aligned bits (rule R103), DSER's blob (rules R96 to R99) and the
script lines ENCODE! and DECODE! (rule R107). -/

namespace Sys2Proof.Machine

variable {s t : State}

/-! ### The round trips -/

/-- Settles O1: each format's fields read back what was written to them. -/
theorem decodeOfEncodedCommand : Obligations.DecodeOfEncodedCommand := decode_encode

/-- A row of format N admits a word only when nothing but the opcode is set, so the opcode is the whole word
(rule R91). -/
theorem encode_of_rowN {w : Word} {i j : Instr} (h : rowN w j = .ok i) (hj : encode j = wordN (opcodeField w)) :
    encode i = w := by
  unfold rowN at h
  split at h
  · next hz => cases h; rw [hj, wordN_of_fields hz]
  · cases h

theorem encode_of_rowB {w : Word} {i : Instr} {f : Byte → Instr} (h : rowB w f = .ok i)
    (hf : ∀ b, encode (f b) = wordB (opcodeField w) b) : encode i = w := by
  unfold rowB at h
  split at h
  · next hz => cases h; rw [hf, wordB_of_fields hz]
  · cases h

theorem encode_of_rowX {w : Word} {i : Instr} {f : BitVec 17 → Instr} (h : rowX w f = .ok i)
    (hf : ∀ idx, encode (f idx) = wordX (opcodeField w) idx) : encode i = w := by
  unfold rowX at h
  split at h
  · next hz => cases h; rw [hf, wordX_of_fields hz]
  · cases h

/-- A word that decodes is the word of its command (rules R90 to R94). -/
theorem encode_of_decode {w : Word} {i : Instr} (h : decode w = .ok i) : encode i = w := by
  simp only [decode] at h
  iterate 11
    rcases ite_eq_iff.1 h with ⟨hop, hrow⟩ | ⟨-, h⟩
    · exact encode_of_rowN hrow (by rw [hop]; rfl)
  iterate 2
    rcases ite_eq_iff.1 h with ⟨hop, hrow⟩ | ⟨-, h⟩
    · exact encode_of_rowB hrow fun b => by rw [hop]; rfl
  iterate 2
    rcases ite_eq_iff.1 h with ⟨hop, hrow⟩ | ⟨-, h⟩
    · exact encode_of_rowX hrow fun idx => by rw [hop]; rfl
  cases h

/-- Settles O2: each row of the decoder admits only words whose fields make up the whole word. -/
theorem decodedWordIsReencoded : Obligations.DecodedWordIsReencoded := fun _ _ => encode_of_decode

/-- Settles O5: each word is the encoder's word of its command. -/
theorem writtenOutWordsDecode : Obligations.WrittenOutWordsDecode :=
  ⟨decode_encode .nop, decode_encode .scan, decode_encode .build, decode_encode .gen, decode_encode .dser,
    decode_encode .pack, decode_encode .unpack, decode_encode (.lookup 0x6C#8), decode_encode (.rdfreq 0x6C#8),
    decode_encode (.rdtree 257#17), decode_encode (.rdtrie 4#17)⟩

/-! ### The opcode map -/

/-- A command's word matches the row of its mnemonic (rule R94). -/
theorem rowMatch (i : Instr) : Laws.RowMatch.Statement i := by
  cases i with
  | nop => exact Laws.RowMatch.nop
  | clr => exact Laws.RowMatch.clr
  | scan => exact Laws.RowMatch.scan
  | build => exact Laws.RowMatch.build
  | gen => exact Laws.RowMatch.gen
  | dser => exact Laws.RowMatch.dser
  | pack => exact Laws.RowMatch.pack
  | encode => exact Laws.RowMatch.encode
  | ddes => exact Laws.RowMatch.ddes
  | unpack => exact Laws.RowMatch.unpack
  | decode => exact Laws.RowMatch.decode
  | lookup b => exact Laws.RowMatch.lookup b
  | rdfreq b => exact Laws.RowMatch.rdfreq b
  | rdtree idx => exact Laws.RowMatch.rdtree idx
  | rdtrie idx => exact Laws.RowMatch.rdtrie idx

/-- A word and the pattern it matches agree in every field that the mask covers (rule R94). -/
theorem extractLsb'_eq_of_masked {w m p : Word} (h : w &&& m = p) {a n : Nat}
    (hm : m.extractLsb' a n = BitVec.allOnes n) : w.extractLsb' a n = p.extractLsb' a n := by
  rw [← h, BitVec.extractLsb'_and, hm, BitVec.and_allOnes]

/-- The word of an opcode alone has no bit set in the zero fields of the other formats. -/
theorem zeroFields_wordN (op : BitVec 8) : zeroFieldB (wordN op) = true ∧ zeroFieldX (wordN op) = true := by
  rw [zeroFieldB_iff, zeroFieldX_iff, wordN_toNat]
  omega

/-- A word that matches a row with the mask of format B is a word of that format (rules R92, R94). -/
theorem eq_wordB_of_masked {w : Word} {op : BitVec 8} (h : w &&& 0xFFFF00FF#32 = wordN op) :
    w = wordB op (byteOperand w) := by
  have hop : opcodeField w = op := (extractLsb'_eq_of_masked h (by decide)).trans (opcodeField_wordN op)
  have hzero : zeroFieldB w = true := by
    rw [zeroFieldB, extractLsb'_eq_of_masked h (by decide)]
    exact (zeroFields_wordN op).1
  rw [← hop, wordB_of_fields hzero]

/-- A word that matches a row with the mask of format X is a word of that format (rules R93, R94). -/
theorem eq_wordX_of_masked {w : Word} {op : BitVec 8} (h : w &&& 0xFE0000FF#32 = wordN op) :
    w = wordX op (indexOperand w) := by
  have hop : opcodeField w = op := (extractLsb'_eq_of_masked h (by decide)).trans (opcodeField_wordN op)
  have hzero : zeroFieldX w = true := by
    rw [zeroFieldX, extractLsb'_eq_of_masked h (by decide)]
    exact (zeroFields_wordN op).2
  rw [← hop, wordX_of_fields hzero]

/-- A word that matches a row is a command's word, and the command has the row's mnemonic (rule R94). -/
theorem exists_encode_of_matches {w : Word} {r : OpcodeRow} (hr : r ∈ opcodeMap) (hw : w &&& r.mask = r.pattern) :
    ∃ i, w = encode i ∧ i.mnemonic = r.mnemonic := by
  have hfull : ∀ {p : Word}, w &&& 0xFFFFFFFF#32 = p → w = p := fun h => BitVec.and_allOnes.symm.trans h
  simp only [opcodeMap, List.mem_cons, List.not_mem_nil, or_false] at hr
  rcases hr with rfl | rfl | rfl | rfl | rfl | rfl | rfl | rfl | rfl | rfl | rfl | rfl | rfl | rfl | rfl
  · exact ⟨.nop, hfull hw, rfl⟩
  · exact ⟨.clr, hfull hw, rfl⟩
  · exact ⟨.scan, hfull hw, rfl⟩
  · exact ⟨.build, hfull hw, rfl⟩
  · exact ⟨.gen, hfull hw, rfl⟩
  · exact ⟨.dser, hfull hw, rfl⟩
  · exact ⟨.pack, hfull hw, rfl⟩
  · exact ⟨.encode, hfull hw, rfl⟩
  · exact ⟨.ddes, hfull hw, rfl⟩
  · exact ⟨.unpack, hfull hw, rfl⟩
  · exact ⟨.decode, hfull hw, rfl⟩
  · exact ⟨.lookup (byteOperand w), eq_wordB_of_masked hw, rfl⟩
  · exact ⟨.rdfreq (byteOperand w), eq_wordB_of_masked hw, rfl⟩
  · exact ⟨.rdtree (indexOperand w), eq_wordX_of_masked hw, rfl⟩
  · exact ⟨.rdtrie (indexOperand w), eq_wordX_of_masked hw, rfl⟩

/-- A word that decodes matches the row of its command (rule R94). -/
theorem exists_row_of_decode {w : Word} {i : Instr} (h : decode w = .ok i) :
    ∃ r ∈ opcodeMap, r.mnemonic = i.mnemonic ∧ w &&& r.mask = r.pattern := by
  rw [← encode_of_decode h]
  exact rowMatch i

/-- Settles O3: a command's word matches its row, and a word that matches a row is the word of a command of that row. -/
theorem decodeFollowsOpcodeMap : Obligations.DecodeFollowsOpcodeMap := by
  intro w
  refine ⟨fun i => exists_row_of_decode, fun r hr hw => ?_, fun b h => ?_, fun idx h => ?_, rfl⟩
  · obtain ⟨i, rfl, hi⟩ := exists_encode_of_matches hr hw
    exact ⟨i, decode_encode i, hi⟩
  · have hb : byteOperand w = b := by
      rcases h with h | h <;> rw [← encode_of_decode h, encode, byteOperand_wordB]
    rw [← hb, byteOperand_toNat]
  · have hidx : indexOperand w = idx := by
      rcases h with h | h <;> rw [← encode_of_decode h, encode, indexOperand_wordX]
    rw [← hidx, indexOperand_toNat]

/-- Settles O4: a word that decodes would match a row, so the dispatcher rejects the word. -/
theorem undefinedWordRaisesIllegalCommand : Obligations.UndefinedWordRaisesIllegalCommand := by
  intro w s hrows ho
  unfold commandWrite
  cases hw : decode w with
  | ok i =>
    obtain ⟨r, hr, -, hmatch⟩ := exists_row_of_decode hw
    exact absurd hmatch (hrows r hr)
  | error e => exact if_neg (not_not.2 ho)

/-! ### LOOKUP -/

/-- Bit 31 − k of `CWBITS<j>` is codeword bit 32 j + k, and 0 beyond the codeword's end (rule R103). -/
theorem getLsbD_cwbitsWord (cw : List Bool) (j : Nat) {k : Nat} (hk : k < 32) :
    (cwbitsWord cw j).getLsbD (31 - k) = cw.getD (32 * j + k) false := by
  rw [cwbitsWord, BitVec.getLsbD_ofFnLE, dif_pos (by omega)]
  show cw.getD (32 * j + (31 - (31 - k))) false = _
  congr 2
  omega

theorem cwbitsReg_showCodeword (s : State) (cw : List Bool) {j : Nat} (hj : j < 8) :
    cwbitsReg (s.showCodeword cw).regs j = cwbitsWord cw j := by interval_cases j <;> rfl

/-- Settles O35: the eight registers hold the codeword in pieces of 32 bits, the first bit in the highest place. -/
theorem lookupReturnsTheCodeword : Obligations.LookupReturnsTheCodeword := by
  intro b s ho hf
  refine ⟨s.showCodeword (s.codeAt b), exec_ready (i := .lookup b) (by simp) ho (ready_of_flag rfl hf), rfl,
    fun i hi => ?_, rfl⟩
  rw [cwbitsReg_showCodeword _ _ (by omega), getLsbD_cwbitsWord _ _ (Nat.mod_lt _ (by omega)), Nat.div_add_mod]
  split
  · next hlt => exact List.getD_eq_getElem _ _ hlt
  · next hge => exact List.getD_eq_default _ _ (Nat.not_lt.1 hge)

/-! ### DSER -/

/-- Settles O36: what DSER's loop leaves in `DICT` is the blob of the table, and then the length is written. -/
theorem dserWritesTheBlob : Obligations.DserWritesTheBlob := by
  intro s ho hf hfit
  rw [← dserBlob_eq] at hfit ⊢
  have hexec : exec .dser s = .next ((s.memWriteAll .dict 0 (dserBlob s)).setLen .dict (dserBlob s).length) := by
    rw [exec_ready (i := .dser) (by decide) ho (ready_of_flag rfl hf), bodyOf, (dserBody_spec s).1 hfit, finish_done]
  have hdiff := differsIn_memWriteAll s .dict 0 (dserBlob s)
  have hfills := hdiff.fills_setLen (dserBlob s).length
  refine ⟨_, hexec, region_written s .dict _ (Nat.lt_of_le_of_lt hfit (s.cap_lt .dict)), fun a ha => ?_,
    fun sp hne a => ?_, ?_, hfills.memories, hfills.keeps.host⟩
  · rw [State.memRead_setLen, memRead_memWriteAll_outside s (.inr (.inr (by omega)))]
  · rw [State.memRead_setLen, hdiff.memRead hne]
  · rw [State.setLen, hdiff.regs]

/-! ### ENCODE and DECODE as their commands in order -/

/-- The pseudocode of commands one after another, without the dispatcher's tests between them (rules R218, R219). -/
def bodies : List Instr → State → Run State
  | [] => .done
  | i :: is => fun s => (bodyOf i s).andThen (bodies is)

theorem bodies_cons (i : Instr) (is : List Instr) (s : State) :
    bodies (i :: is) s = (bodyOf i s).andThen (bodies is) := rfl

theorem andThen_done_right (r : Run State) : r.andThen .done = r := by cases r <;> rfl

theorem bodies_append (is js : List Instr) (s : State) : bodies (is ++ js) s = (bodies is s).andThen (bodies js) := by
  induction is generalizing s with
  | nil => rfl
  | cons i is ih =>
    rw [List.cons_append, bodies_cons, bodies_cons, andThen_assoc]
    exact congrArg _ (funext ih)

/-- The commands of which ENCODE is made, in order (rules R107, R218). -/
def encodeParts : List Instr := [.scan, .build, .gen, .dser, .pack]

theorem encodeBody_eq_bodies (s : State) : encodeBody s = bodies encodeParts s := by
  simp only [encodeParts, encodeBody, bodies, bodyOf, andThen_assoc, andThen_done_right]

theorem ready_of_prerequisite_none {i : Instr} (hi : prerequisite i = none) (s : State) : s.Ready i := by
  intro f hf
  rw [hi] at hf
  cases hf

theorem exec_encode (ho : s.Ok) : exec .encode s = .next ((bodies encodeParts s).finish [.dict, .pay]) := by
  rw [exec_ready (by decide) ho (ready_of_prerequisite_none rfl s), bodyOf, encodeBody_eq_bodies, outputsOf]

theorem exec_decode (ho : s.Ok) : exec .decode s = .next (((bodyOf .ddes s).andThen unpackBody).finish [.dst]) :=
  exec_ready (by decide) ho (ready_of_prerequisite_none rfl s)

/-- Where the first command has run to its end, the second one's prerequisite holds (rule R215). -/
def Feeds (i j : Instr) : Prop := ∀ s t, s.Ready i → bodyOf i s = .done t → t.Ready j

theorem feeds_scan_build : Feeds .scan .build := by
  intro s t _ h
  rw [bodyOf, scanBody_eq] at h
  split at h
  · cases h
  · cases h
    exact ready_of_flag rfl (State.flag_scanned s .freq)

theorem feeds_build_gen : Feeds .build .gen := by
  intro s t _ h
  cases h
  exact ready_of_flag rfl (State.flag_built s .tree)

theorem feeds_gen_dser : Feeds .gen .dser := by
  intro s t _ h
  rw [bodyOf, genBody_eq] at h
  cases h
  exact ready_of_flag rfl (by simp [State.generated])

/-- DSER needs the flag PACK needs, and leaves `STATUS` as it is. -/
theorem feeds_dser_pack : Feeds .dser .pack := by
  intro s t hr h
  have hends := ends_dserBody s
  rw [show dserBody s = .done t from h, ends_done] at hends
  have hstatus : t.regs.status = s.regs.status := hends.keeps.reg .status (by decide)
  have hcode : s.flag .code = true := hr .code rfl
  exact ready_of_flag rfl (by rwa [State.flag, hstatus])

theorem feeds_ddes_unpack : Feeds .ddes .unpack := by
  intro s t _ h
  rw [bodyOf] at h
  rcases ddesBody_cases s with ⟨-, hb⟩ | ⟨-, es, u, -, -, -, hb⟩ | ⟨-, -, x, info, hb, -⟩
  · rw [hb] at h; cases h
  · rw [hb] at h; cases h
    exact ready_of_flag rfl (by simp)
  · rw [hb] at h; cases h

theorem isChain_encodeParts : encodeParts.IsChain Feeds :=
  .cons_cons feeds_scan_build <| .cons_cons feeds_build_gen <| .cons_cons feeds_gen_dser <|
    .cons_cons feeds_dser_pack <| .singleton _

/-- The first part of ENCODE needs no flag. -/
theorem ready_head_encodeParts (s : State) : ∀ i ∈ encodeParts.head?, s.Ready i := by
  rintro i ⟨⟩
  exact ready_of_prerequisite_none rfl s

theorem encodeParts_spec :
    ∀ i ∈ encodeParts, i ≠ .clr ∧ (i ≠ .encode ∧ i ≠ .decode) ∧ outputsOf i ⊆ [.dict, .pay] := by decide

/-- Commands that succeed one after another have run their pseudocode in order, and the next one's prerequisite holds
where they end. -/
theorem RunsTo.bodies_eq_done {is after : List Instr} (h : RunsTo is s t) (hchain : (is ++ after).IsChain Feeds)
    (hclr : .clr ∉ is) (ho : s.Ok) (hr : ∀ i ∈ (is ++ after).head?, s.Ready i) :
    bodies is s = .done t ∧ t.Ok ∧ ∀ i ∈ after.head?, t.Ready i := by
  induction is generalizing s with
  | nil =>
    cases h
    exact ⟨rfl, ho, hr⟩
  | cons i is ih =>
    obtain ⟨u, hexec, hu, hrest⟩ := h
    obtain ⟨hfeeds, hchain⟩ := List.isChain_cons.1 hchain
    obtain ⟨hi, hclr⟩ := not_or.1 (mt List.mem_cons.2 hclr)
    have hready : s.Ready i := hr i rfl
    have hb : bodyOf i s = .done u := bodyOf_eq_done (Ne.symm hi) ho hready hexec hu
    rw [bodies_cons, hb, andThen_done]
    exact ih hrest hchain hclr hu fun j hj => hfeeds j hj s u hready hb

/-- A command's fault is the fault of the state before it: what its pseudocode has written until then does not show,
except in ENCODE and DECODE (rules R236, R239). -/
theorem raise_of_bodyOf_raised {i : Instr} {x : HwFault} {info : Nat} {u : State} {outs : List Space}
    (hb : bodyOf i s = .raised x info u) (hi : i ≠ .encode ∧ i ≠ .decode) (houts : outputsOf i ⊆ outs) :
    u.raise x info outs = s.raise x info outs := by
  cases i with
  | scan =>
    rw [bodyOf, scanBody_eq] at hb
    split at hb
    · cases hb; rfl
    · cases hb
  | dser =>
    obtain ⟨hfits, hfull⟩ := dserBody_spec s
    rcases Nat.lt_or_ge (s.cap .dict) (dserBlob s).length with hlt | hle
    · obtain ⟨v, hv, hdiff⟩ := hfull hlt
      cases hv.symm.trans hb
      exact raise_eq_of_differsIn hdiff _ _ (houts (List.mem_singleton_self _))
    · cases (hfits hle).symm.trans hb
  | pack =>
    exact raise_eq_of_differsIn ((packBody_frame s).2 x info u hb).1 x info (houts (List.mem_singleton_self _))
  | ddes =>
    rw [bodyOf] at hb
    rcases ddesBody_cases s with ⟨-, hd⟩ | ⟨-, es, v, -, -, -, hd⟩ | ⟨-, -, y, j, hd, -⟩
    · cases hd.symm.trans hb; exact raise_setFlag s _ _ _ _ _
    · cases hd.symm.trans hb
    · cases hd.symm.trans hb; exact raise_setFlag s _ _ _ _ _
  | unpack =>
    exact raise_eq_of_differsIn ((unpackBody_frame s).2 x info u hb).1 x info (houts (List.mem_singleton_self _))
  | encode => exact absurd rfl hi.1
  | decode => exact absurd rfl hi.2
  | _ => cases hb

/-- No pseudocode that runs to its end has recorded a fault. -/
theorem ok_of_bodyOf_done {i : Instr} (hi : i ≠ .clr) (ho : s.Ok) (h : bodyOf i s = .done t) : t.Ok := by
  have hends := ends_bodyOf_keeps hi s
  rw [h, ends_done] at hends
  exact (hends.reg .err (err_not_mem_writtenRegs hi).1).trans ho

/-- A command that the dispatcher lets run and that faults has raised in its pseudocode, and the fault is that of the
state before it. -/
theorem bodyOf_eq_raised {i : Instr} (hi : i ≠ .clr) (horch : i ≠ .encode ∧ i ≠ .decode) (ho : s.Ok) (hr : s.Ready i)
    (h : exec i s = .next t) (hf : ¬ t.Ok) :
    ∃ x info u, bodyOf i s = .raised x info u ∧ t = s.raise x info (outputsOf i) ∧
      ∀ outs, outputsOf i ⊆ outs → u.raise x info outs = s.raise x info outs := by
  rcases exec_cases hi h with ⟨hno, -⟩ | ⟨-, hno, -⟩ | ⟨-, -, hb⟩ | ⟨-, -, x, info, u, hb, ht⟩
  · exact absurd ho hno
  · exact absurd hr hno
  · exact absurd (ok_of_bodyOf_done hi ho hb) hf
  · have hraise : ∀ outs, outputsOf i ⊆ outs → u.raise x info outs = s.raise x info outs :=
      fun _ => raise_of_bodyOf_raised hb horch
    exact ⟨x, info, u, hb, by rw [ht, hraise _ (List.Subset.refl _)], hraise⟩

/-- Settles O49: commands that succeed one after another have run their pseudocode in order, each leaving the next one's
prerequisite flag set, so the dispatcher's tests between them change nothing; and a fault of one of them does not show
what its pseudocode wrote. -/
theorem encodeIsTheFiveCommands : Obligations.EncodeIsTheFiveCommands := by
  intro s ho
  have hddes : s.Ready .ddes := ready_of_prerequisite_none rfl s
  refine ⟨fun t h => ?_, fun before i after u t hlist h hexec hfault => ?_, fun t hexec hok => ?_,
    fun t hexec hfault => ?_⟩
  · have hclr : .clr ∉ encodeParts := fun hm => (encodeParts_spec _ hm).1 rfl
    obtain ⟨hb, -, -⟩ := h.bodies_eq_done (after := []) isChain_encodeParts hclr ho (ready_head_encodeParts s)
    rw [exec_encode ho, encodeParts, hb, finish_done]
  · have hparts : encodeParts = before ++ i :: after := hlist
    have hclr : .clr ∉ before := fun hm => (encodeParts_spec .clr (hparts ▸ List.mem_append_left _ hm)).1 rfl
    obtain ⟨hi, horch, houts⟩ := encodeParts_spec i (by simp [hparts])
    obtain ⟨hb, hu, hready⟩ :=
      h.bodies_eq_done (hparts ▸ isChain_encodeParts) hclr ho (hparts ▸ ready_head_encodeParts s)
    obtain ⟨x, info, v, hv, ht, hraise⟩ := bodyOf_eq_raised hi horch hu (hready i rfl) hexec hfault
    refine ⟨x, info, ht, ?_⟩
    rw [exec_encode ho, hparts, bodies_append, hb, andThen_done, bodies_cons, hv, andThen_raised, finish_raised,
      hraise _ houts]
  · have hb : bodyOf .ddes s = .done t := bodyOf_eq_done (by decide) ho hddes hexec hok
    have hunpack : t.Ready .unpack := feeds_ddes_unpack s t hddes hb
    rw [exec_decode ho, hb, andThen_done, exec_ready (by decide) hok hunpack]
    rfl
  · obtain ⟨x, info, u, hb, ht, hraise⟩ := bodyOf_eq_raised (by decide) (by decide) ho hddes hexec hfault
    refine ⟨x, info, ht, ?_⟩
    rw [exec_decode ho, hb, andThen_raised, finish_raised, hraise _ (List.nil_subset _)]

end Sys2Proof.Machine

/-! PROOFS. spec/40_frequency_scan.md: SCAN's counts and its frame (rules R121, R123), and RDFREQ (rule R122). -/

namespace Sys2Proof.Machine

variable {s t : State}

/-! ### SCAN -/

/-- SCAN's result, when the dispatcher runs it and the input lies within its buffer (rules R68, R121, R215). -/
theorem exec_scan (ho : s.Ok) (hlen : s.len .src ≤ s.cap .src) : exec .scan s = .next s.scanned := by
  rw [exec_ready (i := .scan) (by decide) ho (ready_of_prerequisite_none rfl s), bodyOf, scanBody_eq,
    if_neg (Nat.not_lt.2 hlen), finish_done]

/-- A SCAN that records no fault has counted (rules R121, R236). -/
theorem eq_scanned_of_exec_scan (ho : s.Ok) (h : exec .scan s = .next t) (hk : t.Ok) : t = s.scanned := by
  have hb : bodyOf .scan s = .done t := bodyOf_eq_done (by decide) ho (ready_of_prerequisite_none rfl s) h hk
  rw [bodyOf, scanBody_eq] at hb
  split at hb
  · cases hb
  · cases hb; rfl

theorem nodup_counted (s : State) : (counted s).Nodup := nodup_allBytes.filter _

theorem counted_scanned_perm (s : State) : (counted s.scanned).Perm (s.region .src).dedup := by
  refine (List.perm_ext_iff_of_nodup (nodup_counted _) (List.nodup_dedup _)).2 fun b => ?_
  rw [mem_counted, s.freqAt_scanned_ne_zero, List.mem_dedup]

/-- `NSYM` after SCAN is the number of distinct byte values of the input (rules R33, R123). -/
theorem nsym_scanned_eq (s : State) : s.scanned.regs.nsym.toNat = (s.region .src).dedup.length := by
  rw [s.nsym_scanned, ← length_counted, (counted_scanned_perm s).length_eq]

theorem flag_scanned_eq_flagAfter (s : State) (f : ValidFlag) :
    s.scanned.flag f = flagAfter .scan f (s.flag f) := by
  rw [State.flag_scanned]
  cases f <;> rfl

/-- Settles O24: the counts are those of the counting loop, `NSYM` counts the nonzero ones, and SCAN's other writes are
to the flags alone. -/
theorem scanCountsEveryByte : Obligations.ScanCountsEveryByte := by
  intro s ho hlen
  obtain ⟨htree, hcode, htrie, hpq, hbuf, hparams, -, hscript, hreturned, hregs⟩ := s.scanned_frame
  have hbytes : SameBuffers s s.scanned := fun sp =>
    (sameBuffersOutside_of_buf_eq (outs := []) hbuf).sameBytes (List.not_mem_nil (a := sp))
  exact ⟨s.scanned, exec_scan ho hlen, s.freqAt_scanned, nsym_scanned_eq s, flag_scanned_eq_flagAfter s,
    (keeps_scanned s).status, hregs, htree, hcode, htrie, hpq, hbytes, hparams, hscript, hreturned⟩

/-! ### The order of the input -/

/-- An entry at or above a table's bound is not listed. -/
theorem entryAt_of_le {α : Type} [DecidableEq α] {d : α} {n : Nat} {t : Table α} (h : TableOk d n t) {k : Nat}
    (hk : n ≤ k) : entryAt d t k = d := by
  unfold entryAt
  cases hl : lookAt t k with
  | none => rfl
  | some v => exact absurd (h.2 _ (mem_of_lookAt hl)) (Nat.not_lt.2 hk)

/-- A table of byte values is determined by its 256 entries (rule R40). -/
theorem eq_of_entryAt_byte_eq {α : Type} [DecidableEq α] {d : α} {t u : Table α} (ht : TableOk d 256 t)
    (hu : TableOk d 256 u) (h : ∀ b : Byte, entryAt d t b.toNat = entryAt d u b.toNat) : t = u := by
  refine eq_of_entryAt_eq ht.1 hu.1 fun k => ?_
  rcases Nat.lt_or_ge k 256 with hk | hk
  · have hb : (BitVec.ofNat 8 k).toNat = k := by rw [BitVec.toNat_ofNat, Nat.mod_eq_of_lt hk]
    rw [← hb]
    exact h _
  · rw [entryAt_of_le ht hk, entryAt_of_le hu hk]

/-- SCAN of inputs that hold each byte value equally often leaves equal tables. -/
theorem freq_scanned_eq_of_count_eq {s u : State} (h : ∀ b, (s.region .src).count b = (u.region .src).count b) :
    s.scanned.freq = u.scanned.freq := by
  refine congrArg Contents.known (eq_of_entryAt_byte_eq (tableOk_scanLoop s _ _ (tableOk_nil _ _))
    (tableOk_scanLoop u _ _ (tableOk_nil _ _)) fun b => BitVec.eq_of_toNat_eq ?_)
  rw [scanLoop_count, scanLoop_count, h]

/-- Settles O25: a permutation keeps the number of times each byte value occurs and the number of distinct ones. -/
theorem scanIgnoresInputOrder : Obligations.ScanIgnoresInputOrder := by
  intro s1 s2 t1 t2 ho1 ho2 hlen1 hlen2 hperm h1 h2
  cases (exec_scan ho1 hlen1).symm.trans h1
  cases (exec_scan ho2 hlen2).symm.trans h2
  refine ⟨freq_scanned_eq_of_count_eq hperm.count_eq, BitVec.eq_of_toNat_eq ?_⟩
  rw [nsym_scanned_eq, nsym_scanned_eq, hperm.dedup.length_eq]

/-! ### RDFREQ -/

/-- A command whose prerequisite flag is 0 raises SequenceError with its word (rule R215). -/
theorem exec_of_flag_false {i : Instr} {f : ValidFlag} (hi : prerequisite i = some f) (ho : s.Ok)
    (hf : s.flag f = false) : exec i s = .next (s.raise .sequenceError (encode i).toNat []) := by
  have hclr : i ≠ .clr := by rintro rfl; cases hi
  rw [exec_eq hclr, runCommand_refused ho (by rw [hi]; exact hf)]

/-- Settles O26: the word by its fields, the readback and its refusal by the dispatcher, and the count 0 by what SCAN
counts. -/
theorem rdfreqReturnsTheCount : Obligations.RdfreqReturnsTheCount := by
  intro b s
  refine ⟨wordB_toNat 0x31#8 b, fun ho hf => exec_ready (i := .rdfreq b) (by simp) ho (ready_of_flag rfl hf),
    fun ho hf => exec_of_flag_false rfl ho hf, fun s0 ho h hk hb => ?_⟩
  cases eq_scanned_of_exec_scan ho h hk
  exact not_not.1 fun hne => hb ((s0.freqAt_scanned_ne_zero b).1 hne)

end Sys2Proof.Machine

/-! PROOFS. spec/41_tree_builder.md: the priority queue (rules R131 to R134), BUILD with any number of counts
(rules R135 to R139), and RDTREE (rule R141). -/

namespace Sys2Proof.Machine

variable {s : State}

/-! ### What BUILD leaves beside the tree -/

/-- BUILD's result, when the dispatcher runs it (rules R135, R215). -/
theorem exec_build (ho : s.Ok) (hf : s.flag .freq = true) : exec .build s = .next s.built := by
  rw [exec_ready (i := .build) (by decide) ho (ready_of_flag rfl hf), bodyOf, buildBody_eq, finish_done]

theorem flag_built_eq_flagAfter (s : State) (f : ValidFlag) : s.built.flag f = flagAfter .build f (s.flag f) := by
  rw [State.flag_built]
  cases f <;> rfl

theorem buildFrame_built (s : State) : BuildFrame s s.built := by
  obtain ⟨hcode, htrie, hbuf, hparams, hscript, hreturned, hregs⟩ := s.built_frame
  have hbytes : SameBuffers s s.built := fun sp =>
    (sameBuffersOutside_of_buf_eq (outs := []) hbuf).sameBytes (List.not_mem_nil (a := sp))
  exact ⟨flag_built_eq_flagAfter s, (keeps_built s).status, hregs, hcode, htrie, s.pq_built, hbytes, hparams, hscript,
    hreturned⟩

theorem treeRoot_built (s : State) : s.built.regs.treeRoot = rootWord (buildTree (addLeaves s)).2 := rfl

/-- The leaves of the arena after BUILD, whatever the number of counts (rule R135). -/
theorem treeAt_built_byte (s : State) (b : Byte) :
    s.built.treeAt b.toNat = if s.freqAt b = 0#32 then absentRec else leafRec b (s.freqAt b) := by
  obtain ⟨-, -, -, hleaves, -⟩ := built_spec s
  exact hleaves b

/-! ### Two counts or more -/

/-- Bit 31 of a root register stands above the index (rule R34). -/
theorem rootWord_some {i : Nat} (h : i < 2 ^ 31) : rootWord (some i) = BitVec.ofNat 32 (0x80000000 + i) := by
  have hor : 2 ^ 31 ||| i = 2 ^ 31 + i := by simpa using (Nat.two_pow_add_eq_or_of_lt h 1).symm
  rw [show (0x80000000 : Nat) = 2 ^ 31 from rfl, ← hor, BitVec.ofNat_or]
  rfl

/-- With two counts or more every internal node is made from the two least keys waiting, no record stands beyond the
last of them, and that one is the root (rules R138, R139): `MergeInv` says so after the last pass of the loop. -/
theorem built_of_merges (h : 2 ≤ s.distinctBytes) :
    (∀ k, k < s.distinctBytes - 1 → MadeFromLeast s.built.treeAt k) ∧
    (∀ i, 256 + (s.distinctBytes - 1) ≤ i → s.built.treeAt i = absentRec) ∧
    s.built.regs.treeRoot = rootWord (some (256 + (s.distinctBytes - 2))) := by
  have hlen := length_addLeaves s
  obtain ⟨y, -, hinv⟩ := mergeInv_mergeLoop s (by omega)
  rcases buildTree_cases (addLeaves s) with ⟨hq, -⟩ | ⟨x, hq, -⟩ | ⟨x, -, hq, hb⟩
  · simp only [hq, List.length_nil] at hlen
    omega
  · simp only [hq, List.length_singleton] at hlen
    omega
  · have hat : s.built.treeAt = entryAt absentRec (mergeLoop (addLeaves s).pq.length (addLeaves s)).tree :=
      funext fun i => by rw [State.treeAt_built, hb]
    obtain ⟨hroot, -⟩ := treeShape_of_mergeInv h s.distinctBytes_le hinv hq
    rw [treeRoot_built, hb, hroot, hat]
    exact ⟨hinv.nodes, hinv.beyond, rfl⟩

/-- Settles O30: the leaves by the first loop of BUILD, the internal nodes and the root by the merge loop. -/
theorem buildMergesTwoLeastKeys : Obligations.BuildMergesTwoLeastKeys := by
  rintro s _ ho hf rfl h2
  obtain ⟨hmade, hbeyond, hroot⟩ := built_of_merges h2
  refine ⟨s.built, exec_build ho hf, treeAt_built_byte s, hmade, fun i hi => hbeyond i (by omega), ?_,
    buildFrame_built s⟩
  have hle := s.distinctBytes_le
  rw [hroot, rootWord_some (by omega)]
  congr 1
  omega

/-! ### The queue -/

/-- Settles O27: the queue of distinct keys is their one rising list. -/
theorem queueYieldsTheLeastKey : Obligations.QueueYieldsTheLeastKey := by
  refine ⟨keyLess_irrefl, fun _ _ _ => keyLess_trans, fun _ _ => keyLess_total, fun keys hn => ?_⟩
  obtain ⟨hrise, hperm⟩ := foldr_pqInsert hn
  refine ⟨fun keys2 hp => ?_, fun x rest hx => ?_⟩
  · obtain ⟨hrise2, hperm2⟩ := foldr_pqInsert (hp.nodup_iff.1 hn)
    exact rising_ext hrise2 hrise (hperm2.trans (hp.symm.trans hperm.symm))
  · obtain ⟨hq, hleast, -⟩ := pqExtractMin_spec hrise hx
    exact ⟨hq ▸ hperm, hleast⟩

/-! ### One count or none -/

/-- Settles O28: a built tree whose root is absent has an empty arena. -/
theorem buildOfNoSymbols : Obligations.BuildOfNoSymbols := by
  intro s ho hf hz
  have h0 : s.distinctBytes = 0 := by
    rw [← length_counted, List.length_eq_zero_iff, List.eq_nil_iff_forall_not_mem]
    exact fun b hb => mem_counted.1 hb (hz b)
  obtain ⟨-, hshape, hnone, -⟩ := built_spec s
  have hroot : (buildTree (addLeaves s)).2 = none := hnone.2 h0
  rw [hroot] at hshape
  obtain ⟨-, -, -, hnil⟩ := hshape
  refine ⟨s.built, exec_build ho hf, fun i => ?_, ?_, buildFrame_built s⟩
  · rw [State.treeAt_built, hnil]
    rfl
  · rw [treeRoot_built, hroot]
    rfl

/-- The queue of the leaves, when one byte value is counted, holds its key alone. -/
theorem pq_addLeaves_of_single {a : Byte} (h : ∀ b, s.freqAt b ≠ 0#32 ↔ b = a) : (addLeaves s).pq = [leafKey s a] := by
  obtain ⟨-, -, -, hperm, -⟩ := addLeaves_spec s
  have hcounted : (counted s).Perm [a] :=
    (List.perm_ext_iff_of_nodup (nodup_counted s) (List.nodup_singleton a)).2 fun b => by
      rw [mem_counted, h, List.mem_singleton]
  exact List.perm_singleton.1 (hperm.trans (hcounted.map _))

/-- One key in the queue makes the tree of the single-symbol case (rule R137). -/
theorem buildTree_of_single {c : BuildCtx} {x : PqKey} (hq : c.pq = [x]) :
    buildTree c =
      ({ tree := writeTree (writeTree c.tree placeholderIndex placeholderRec) (internalIndex 0)
           (internalRec x.freq x.index placeholderIndex), pq := [], made := 1 }, some (internalIndex 0)) := by
  rcases buildTree_cases c with ⟨h, -⟩ | ⟨y, h, hb⟩ | ⟨y, h, -⟩
  · simp [hq] at h
  · obtain rfl : x = y := by simpa [hq] using h
    exact hb
  · simp [hq] at h

/-- Settles O29: the queue holds the key of `a` alone, and of one key BUILD makes the tree of rule R137. -/
theorem buildOfOneSymbol : Obligations.BuildOfOneSymbol := by
  intro s a ho hf hone
  have hq := pq_addLeaves_of_single hone
  have hb := buildTree_of_single hq
  obtain ⟨-, -, -, h256, h511, hbeyond⟩ := treeShape_single hq
  have hat : ∀ i, s.built.treeAt i = entryAt absentRec (writeTree (writeTree (addLeaves s).tree placeholderIndex
      placeholderRec) (internalIndex 0) (internalRec (leafKey s a).freq (leafKey s a).index placeholderIndex)) i :=
    fun i => by rw [State.treeAt_built, hb]
  refine ⟨s.built, exec_build ho hf, ?_, (hat 511).trans h511, (hat 256).trans h256, fun i hia hi256 hi511 => ?_, ?_,
    buildFrame_built s⟩
  · rw [treeAt_built_byte, if_neg ((hone a).2 rfl)]
    rfl
  · rcases Nat.lt_or_ge i 256 with hi | hi
    · have hbyte : (BitVec.ofNat 8 i).toNat = i := by rw [BitVec.toNat_ofNat, Nat.mod_eq_of_lt hi]
      have habsent : s.freqAt (BitVec.ofNat 8 i) = 0#32 :=
        not_not.1 fun hne => hia (by rw [← (hone _).1 hne, hbyte])
      rw [← hbyte, treeAt_built_byte, if_pos habsent]
    · rw [hat]
      exact hbeyond i hi hi256 hi511
  · rw [treeRoot_built, hb]
    rfl

/-! ### RDTREE -/

/-- Settles O31: the word by its fields, the readback of one record, and the refusal by the dispatcher. -/
theorem rdtreeReturnsTheRecord : Obligations.RdtreeReturnsTheRecord := by
  intro idx s
  refine ⟨wordX_toNat 0x32#8 idx, fun ho hf => ?_, fun ho hf => exec_of_flag_false rfl ho hf⟩
  intro r
  refine ⟨s.showTreeRec r, exec_ready (i := .rdtree idx) (by simp) ho (ready_of_flag rfl hf), rfl, ?_, rfl, rfl,
    fun i hi => congrArg refWord hi, fun hi => congrArg refWord hi, fun i hi => congrArg refWord hi,
    fun hi => congrArg refWord hi⟩
  show nodeKindCode r.kind = _
  cases r.kind <;> rfl

end Sys2Proof.Machine

/-! PROOFS. spec/42_code_table.md: GEN's table of a built tree and of an absent root (rules R150 to R153), and ENCODE,
which makes such a table of any input and writes it out (rules R167, R192, R218). -/

namespace Sys2Proof.Machine

variable {s t : State}

/-! ### GEN -/

/-- GEN's result, when the dispatcher runs it (rules R151, R215). -/
theorem exec_gen (ho : s.Ok) (hf : s.flag .tree = true) : exec .gen s = .next s.generated := by
  rw [exec_ready (i := .gen) (by decide) ho (ready_of_flag rfl hf), bodyOf, genBody_eq, finish_done]

theorem flag_generated_eq_flagAfter (s : State) (f : ValidFlag) :
    s.generated.flag f = flagAfter .gen f (s.flag f) := by
  obtain ⟨-, -, -, -, -, -, -, -, -, -, hflag, -⟩ := s.generated_frame
  rw [hflag]
  cases f <;> rfl

theorem genFrame_generated (s : State) : GenFrame s s.generated := by
  obtain ⟨hfreq, htree, htrie, hpq, hbuf, hparams, -, hscript, hreturned, hregs, -, hstatus⟩ := s.generated_frame
  have hbytes : SameBuffers s s.generated := fun sp =>
    (sameBuffersOutside_of_buf_eq (outs := []) hbuf).sameBytes (List.not_mem_nil (a := sp))
  exact ⟨flag_generated_eq_flagAfter s, hstatus, hregs, hfreq, htree, htrie, hpq, hbytes, hparams, hscript, hreturned⟩

/-- The codewords GEN leaves for a built tree are the paths of its leaves, which are not empty (rules R150 to R152). -/
theorem leafPath_iff_codeAt_generated {r : Nat} (h : TreeInv s.treeAt r)
    (hp : rootPresent s.regs.treeRoot = true) (hi : treeRootIndex s.regs.treeRoot = r) (b : Byte) (path : List Bool) :
    LeafPath s.treeAt r b path ↔ s.generated.codeAt b = path ∧ path ≠ [] := by
  obtain ⟨hleaf, hnone⟩ := State.codeAt_generated h hp hi b
  constructor
  · exact fun hw => ⟨hleaf path hw, hw.ne_nil h⟩
  · rintro ⟨rfl, hne⟩
    obtain ⟨w, hw⟩ := not_not.1 (mt hnone hne)
    rwa [hleaf w hw]

/-- Settles O32: GEN's walk visits every leaf under the root with its path, and a leaf has one path. -/
theorem genAssignsThePathOfEveryLeaf : Obligations.GenAssignsThePathOfEveryLeaf := by
  intro s r ho hf hok hr hroot
  obtain ⟨-, -, hlength⟩ := hok.generated
  refine ⟨s.generated, exec_gen ho hf, fun b path => ?_, hlength, genFrame_generated s⟩
  rcases hok.cases with ⟨habsent, -⟩ | ⟨q, hinv, hpresent, hindex, -⟩
  · rw [hroot, rootPresent_rootWord] at habsent
    cases habsent
  · obtain rfl : q = r := by rw [← hindex, hroot, treeRootIndex_rootWord hr]
    rw [treeRoutes_iff hinv, leafPath_iff_codeAt_generated hinv hpresent hindex]

/-- Settles O34: a codeword is the path of a leaf, no leaf stands on the path of another, and a path of a tree in the
arena is at most 255 long. -/
theorem generatedCodeIsPrefixFree : Obligations.GeneratedCodeIsPrefixFree := by
  intro s t ho hf hok h
  cases (exec_gen ho hf).symm.trans h
  obtain ⟨hvalid, -⟩ := hok.generated
  exact hvalid

/-- Settles O33: without a root GEN walks nothing. -/
theorem genOfAnAbsentRoot : Obligations.GenOfAnAbsentRoot := fun s ho hf habsent =>
  ⟨s.generated, exec_gen ho hf, State.codeAt_generated_absent habsent, genFrame_generated s⟩

/-! ### How long a dictionary and a payload can be -/

theorem length_flatMap_le {α β : Type} {f : α → List β} {m : Nat} {l : List α} (h : ∀ a ∈ l, (f a).length ≤ m) :
    (l.flatMap f).length ≤ l.length * m := by
  rw [List.length_flatMap]
  simpa using List.sum_le_card_nsmul (l.map fun a => (f a).length) m (by simpa using h)

/-- The largest dictionary: 256 entries of 255 bits (rules R9, R96, R97, R167). -/
theorem length_blobOf_le {es : Entries} (h : ValidTable es) : (blobOf es).length ≤ 66564 := by
  have hcount := length_validTable h
  obtain ⟨-, hlen, -⟩ := h
  have hentries : (es.flatMap fun e => entryBytes e.1 e.2).length ≤ es.length * 260 := length_flatMap_le fun e he => by
    have hmax : e.2.length ≤ 255 := (hlen e he).2
    rw [length_entryBytes]
    omega
  rw [blobOf, List.length_append, length_le32Bytes]
  omega

theorem length_codeAt_le_of_validTable (h : ValidTable s.codeEntries) (b : Byte) :
    (s.codeAt b).length ≤ Config.maxLen := by
  obtain ⟨-, hlen, -⟩ := h
  by_cases hb : s.codeAt b = []
  · simp [hb]
  · exact (hlen (b, s.codeAt b) (mem_codeEntries.2 ⟨rfl, hb⟩)).2

/-- The largest payload: 255 bits for each input byte (rules R9, R192). -/
theorem length_inputBits_le (h : ValidTable s.codeEntries) (n : Nat) : (s.inputBits n).length ≤ 255 * n := by
  have hlen : (s.inputBits n).length ≤ (List.range n).length * Config.maxLen :=
    length_flatMap_le fun i _ => length_codeAt_le_of_validTable h _
  rw [List.length_range] at hlen
  exact hlen.trans_eq (Nat.mul_comm _ _)

/-! ### What is read from equal memories -/

theorem codeAt_of_code_eq (h : t.code = s.code) (b : Byte) : t.codeAt b = s.codeAt b := by
  simp only [State.codeAt, h]

theorem codeEntries_of_code_eq (h : t.code = s.code) : t.codeEntries = s.codeEntries := by
  simp only [State.codeEntries, codeAt_of_code_eq h]

theorem region_of_sameBytes {sp : Space} (hlen : t.len sp = s.len sp) (h : SameBytes s t sp) :
    t.region sp = s.region sp := by
  rw [State.region, State.region, hlen]
  exact List.map_congr_left fun a _ => h a

theorem inputBits_of_code_eq (hcode : t.code = s.code) (hsrc : SameBytes s t .src) (n : Nat) :
    t.inputBits n = s.inputBits n := by
  simp only [State.inputBits, codeAt_of_code_eq hcode, hsrc _]

theorem SameMemories.trans {u : State} (h : SameMemories s t) (k : SameMemories t u) : SameMemories s u := by
  obtain ⟨hfreq, htree, hcode, htrie, hpq⟩ := h
  obtain ⟨kfreq, ktree, kcode, ktrie, kpq⟩ := k
  exact ⟨kfreq.trans hfreq, ktree.trans htree, kcode.trans hcode, ktrie.trans htrie, kpq.trans hpq⟩

theorem SameMemories.code (h : SameMemories s t) : t.code = s.code := by
  obtain ⟨-, -, hcode, -⟩ := h
  exact hcode

/-! ### ENCODE -/

/-- DSER and PACK of a CodeTable that codes every input byte: with room for the largest dictionary and payload both
succeed (rules R167, R192). -/
theorem runsTo_dser_pack (ho : s.Ok) (hf : s.flag .code = true) (hvalid : ValidTable s.codeEntries)
    (hcoded : AllCoded s) (hsrc : s.len .src ≤ s.cap .src) (hdict : 66564 ≤ s.cap .dict)
    (hpay : 1 + (255 * s.len .src + 7) / 8 ≤ s.cap .pay) :
    ∃ t, RunsTo [.dser, .pack] s t ∧ t.region .dict = blobOf t.codeEntries ∧
      t.payloadBits = t.inputBits (t.len .src) ∧
      t.regs = { s.regs with dictLen := t.regs.dictLen, payLen := t.regs.payLen } ∧ SameMemories s t := by
  obtain ⟨u, hdser, hblob, -, hbytes, hregs, hmem, hparams, -⟩ :=
    dserWritesTheBlob s ho hf ((length_blobOf_le hvalid).trans hdict)
  have huo : u.Ok := by rw [State.Ok, hregs]; exact ho
  have huf : u.flag .code = true := by rw [State.flag, hregs]; exact hf
  have hulen : u.len .src = s.len .src := by rw [State.len, hregs]; rfl
  have hucap : ∀ sp, u.cap sp = s.cap sp := fun sp => by cases sp <;> simp only [State.cap, hparams]
  have hucoded : AllCoded u := fun i hi => by
    rw [codeAt_of_code_eq hmem.code, hbytes .src (by decide)]
    exact hcoded i (hulen ▸ hi)
  have hbits := length_inputBits_le (codeEntries_of_code_eq hmem.code ▸ hvalid : ValidTable u.codeEntries) (u.len .src)
  obtain ⟨t, hpack, -, -, hpayload, -, -, htbytes, htregs, htmem, -⟩ :=
    packConcatenatesTheCodewords u huo huf (by rw [hulen, hucap]; exact hsrc) hucoded (by rw [hucap]; omega)
  have hto : t.Ok := by rw [State.Ok, htregs]; exact huo
  have htlen : ∀ sp, sp ≠ .pay → t.len sp = u.len sp := fun sp hsp => by
    cases sp with
    | pay => exact absurd rfl hsp
    | _ => rw [State.len, htregs]; rfl
  refine ⟨t, ⟨u, hdser, huo, t, hpack, hto, rfl⟩, ?_, ?_, ?_, hmem.trans htmem⟩
  · rw [region_of_sameBytes (htlen .dict (by decide)) (htbytes .dict (by decide)), hblob,
      codeEntries_of_code_eq (hmem.trans htmem).code]
  · rw [hpayload, htlen .src (by decide), inputBits_of_code_eq htmem.code (htbytes .src (by decide))]
  · rw [htregs, hregs]

/-- The flags after SCAN, BUILD and GEN are those after ENCODE: DSER and PACK write none (rule R268). -/
theorem flag_generated_built_scanned (s : State) (f : ValidFlag) :
    s.scanned.built.generated.flag f = flagAfter .encode f (s.flag f) := by
  rw [flag_generated_eq_flagAfter, flag_built_eq_flagAfter, flag_scanned_eq_flagAfter]
  cases f <;> rfl

theorem RunsTo.append {u : State} {is js : List Instr} (h : RunsTo is s u) (k : RunsTo js u t) :
    RunsTo (is ++ js) s t := by
  induction is generalizing s with
  | nil =>
    cases h
    exact k
  | cons i is ih =>
    obtain ⟨v, hexec, hv, hrest⟩ := h
    exact ⟨v, hexec, hv, ih hrest⟩

/-- The state that SCAN, BUILD and GEN of an input within its buffer lead to one after another (rule R218). -/
theorem runsTo_scan_build_gen (ho : s.Ok) (hsrc : s.len .src ≤ s.cap .src) :
    RunsTo [.scan, .build, .gen] s s.scanned.built.generated ∧ s.scanned.built.generated.Ok := by
  have hscanned : s.scanned.Ok := ((keeps_scanned s).reg .err (by decide)).trans ho
  have hbuilt : s.scanned.built.Ok := ((keeps_built _).reg .err (by decide)).trans hscanned
  have hgenerated : s.scanned.built.generated.Ok := ((keeps_generated _).reg .err (by decide)).trans hbuilt
  exact ⟨⟨_, exec_scan ho hsrc, hscanned, _, exec_build hscanned (State.flag_scanned s .freq), hbuilt,
    _, exec_gen hbuilt (State.flag_built _ .tree), hgenerated, rfl⟩, hgenerated⟩

/-- The registers SCAN, BUILD and GEN write (rules R121, R135, R151). -/
theorem regs_generated_built_scanned (s : State) :
    s.scanned.built.generated.regs =
      { s.regs with nsym := s.scanned.built.generated.regs.nsym, treeRoot := s.scanned.built.generated.regs.treeRoot,
                    status := s.scanned.built.generated.regs.status } := rfl

theorem status_generated_built_scanned (s : State) : SameOtherStatus s s.scanned.built.generated := fun i hi =>
  ((keeps_generated _).status i hi).trans (((keeps_built _).status i hi).trans ((keeps_scanned s).status i hi))

/-- Settles O50: the table of the input's own tree codes every input byte with at most 255 bits, so each of the five
commands succeeds, and ENCODE gives the state they give. -/
theorem encodeCompletesWithinCapacity : Obligations.EncodeCompletesWithinCapacity := by
  intro s ho hsrc hdict hpay
  obtain ⟨hkeys, hvalid⟩ := encode_table s
  obtain ⟨hfirst, hgenerated⟩ := runsTo_scan_build_gen ho hsrc
  have hcoded : AllCoded s.scanned.built.generated := fun i hi =>
    (hkeys _).2 (List.mem_map_of_mem (List.mem_range.2 hi))
  obtain ⟨t, hlast, hblob, hpayload, hregs, hmem⟩ :=
    runsTo_dser_pack hgenerated (flag_generated_built_scanned s .code) hvalid hcoded hsrc hdict hpay
  obtain ⟨-, -, hcode, htrie, hpq⟩ := hmem
  obtain ⟨hfive, -⟩ := encodeIsTheFiveCommands s ho
  have hexec : exec .encode s = .next t := hfive t (hfirst.append hlast)
  obtain ⟨hbytes, hhost⟩ := commandsWriteOnlyTheirOutputs .encode s t hexec
  refine ⟨t, hexec, fun b => ?_, ?_, hblob, hpayload, fun f => ?_, fun i hi => ?_, ?_, htrie,
    hpq.trans s.scanned.pq_built, hbytes .src (by decide), hbytes .dst (by decide), hhost⟩
  · rw [codeAt_of_code_eq hcode]
    exact hkeys b
  · rw [codeEntries_of_code_eq hcode]
    exact hvalid
  · rw [State.flag, hregs]
    exact flag_generated_built_scanned s f
  · rw [hregs]
    exact status_generated_built_scanned s i hi
  · rw [hregs, regs_generated_built_scanned]

end Sys2Proof.Machine

/-! PROOFS. spec/43_dictionary_codec.md: the trie DDES leaves for a table and which blobs it accepts (rules R171 to R174,
R176), what it raises on the others check by check (rule R173), and RDTRIE (rule R175). -/

namespace Sys2Proof.Machine

variable {s : State} {es : Entries}

/-! ### DDES as the dispatcher runs it -/

theorem exec_ddes (ho : s.Ok) : exec .ddes s = .next ((ddesBody s).finish []) :=
  exec_ready (i := .ddes) (by decide) ho (ready_of_prerequisite_none rfl s)

/-- DDES has written nothing but its flag when it raises, and the fault clears every flag (rules R171, R236). -/
theorem exec_ddes_of_raised (ho : s.Ok) {x : HwFault} {info : Nat}
    (h : ddesBody s = .raised x info (s.setFlag .trie false)) : exec .ddes s = .next (s.raise x info []) := by
  rw [exec_ddes ho, h, finish_raised, raise_setFlag]

theorem exec_ddes_of_done (ho : s.Ok) {u : TrieCtx} (h : ddesBody s = .done (s.trieSet es.length u)) :
    exec .ddes s = .next (s.trieSet es.length u) := by
  rw [exec_ddes ho, h, finish_done]

/-! ### The trie of a table -/

/-- A blob is the blob of one table. -/
theorem eq_of_region_eq_blobOf {fs : Entries} (hes : ValidTable es) (hfs : ValidTable fs)
    (h : s.region .dict = blobOf es) (k : s.region .dict = blobOf fs) : es = fs := by
  obtain ⟨-, hcount, hblob⟩ := (region_blob_iff hes).1 h
  obtain ⟨-, kcount, kblob⟩ := (region_blob_iff hfs).1 k
  obtain ⟨heq, -⟩ := blobAt_unique hblob kblob (hcount.symm.trans kcount)
  exact heq

section
variable {u : TrieCtx}

/-- The trie of a table is the empty one or satisfies the invariant of the construction. -/
theorem TrieOf.cases (h : TrieOf es u) : (es = [] ∧ u = ⟨[], 0⟩) ∨ (es ≠ [] ∧ TrieInv u es [] 0) := by
  obtain ⟨hempty, hinv⟩ := h
  by_cases hes : es = []
  · exact .inl ⟨hes, hempty hes⟩
  · exact .inr ⟨hes, (hinv hes).1⟩

/-- One record for each path walked (rule R172). -/
theorem TrieOf.nodes_eq (h : TrieOf es u) : u.nodes = (pathsByNeed es).length := by
  rcases h.cases with ⟨rfl, rfl⟩ | ⟨hne, hinv⟩
  · rfl
  · rw [hinv.nodes_eq, pathsWalked_nil hne]

theorem TrieOf.beyond (h : TrieOf es u) {k : Nat} (hk : u.nodes ≤ k) : u.recAt k = absentTrieRec := by
  rcases h.cases with ⟨rfl, rfl⟩ | ⟨-, hinv⟩
  · rfl
  · exact hinv.beyond k hk

/-- A record in use that is no leaf is internal with value 0 (rule R171). -/
theorem TrieOf.internal (h : TrieOf es u) {k : Nat} (hk : k < u.nodes) (hleaf : (u.recAt k).kind ≠ .leaf) :
    (u.recAt k).kind = .internal ∧ (u.recAt k).value = 0#8 := by
  rcases h.cases with ⟨rfl, rfl⟩ | ⟨-, hinv⟩
  · exact absurd hk (Nat.not_lt_zero k)
  · rcases hinv.shape k hk with ⟨hkind, -⟩ | ⟨hkind, hvalue, -⟩
    · exact absurd hkind hleaf
    · exact ⟨hkind, hvalue⟩

@[simp] theorem State.trieAt_trieSet (s : State) (n : Nat) (u : TrieCtx) : (s.trieSet n u).trieAt = u.recAt := rfl

/-- The walk along a path ends on the record whose number is the path's place in the order of first need
(rule R172). -/
theorem TrieOf.trieWalk_iff (h : TrieOf es u) (hne : es ≠ []) (s : State) (n : Nat) (path : List Bool) (k : Nat) :
    (s.trieSet n u).trieWalk 0 path = some k ↔ (pathsByNeed es)[k]? = some path := by
  rcases h.cases with ⟨hnil, -⟩ | ⟨-, hinv⟩
  · exact absurd hnil hne
  · rw [State.trieWalk_eq, State.trieAt_trieSet, hinv.order, pathsWalked_nil hne]

/-- The trie routes what the table maps (rules R174, R176); without a root it routes nothing. -/
theorem TrieOf.trieRoutes_iff (h : TrieOf es u) (s : State) (n : Nat) (b : Byte) (cw : List Bool) :
    (s.trieSet n u).TrieRoutes cw b ↔ (b, cw) ∈ es := by
  simp only [State.TrieRoutes, State.trieWalk_eq, State.trieAt_trieSet]
  rcases h.cases with ⟨rfl, rfl⟩ | ⟨-, hinv⟩
  · constructor
    · rintro ⟨i, -, hkind, -⟩
      cases hkind
    · exact fun hmem => absurd hmem List.not_mem_nil
  · exact hinv.routes b cw

end

/-- DDES of the blob of a table ends with the table's trie (rules R171, R176). -/
theorem exec_ddes_of_table (ho : s.Ok) (hcap : s.len .dict ≤ s.cap .dict) (hv : ValidTable es)
    (hblob : s.region .dict = blobOf es) : ∃ u, TrieOf es u ∧ exec .ddes s = .next (s.trieSet es.length u) := by
  rcases ddesBody_cases s with ⟨hlong, -⟩ | ⟨-, fs, u, hfs, hblob2, htrie, hbody⟩ | ⟨-, hno, -⟩
  · omega
  · obtain rfl := eq_of_region_eq_blobOf hv hfs hblob hblob2
    exact ⟨u, htrie, exec_ddes_of_done ho hbody⟩
  · exact absurd ⟨es, hv, hblob⟩ hno

theorem flag_trieSet_eq_flagAfter (s : State) (n : Nat) (u : TrieCtx) (f : ValidFlag) :
    (s.trieSet n u).flag f = flagAfter .ddes f (s.flag f) := by
  obtain ⟨-, -, -, -, -, -, -, -, -, -, -, hflag, -⟩ := s.treeOf_frame n u
  rw [State.trieSet, hflag]
  cases f <;> rfl

theorem trieRoot_trieSet (s : State) (es : Entries) (u : TrieCtx) :
    (s.trieSet es.length u).regs.trieRoot = if es = [] then 0x00000000#32 else 0x80000000#32 := by
  cases es <;> rfl

/-- Settles O38: a blob is the blob of one table, and DDES ends with the trie of that table. -/
theorem ddesRoutesEveryCodeword : Obligations.DdesRoutesEveryCodeword := by
  intro s es ho hcap hv hblob
  obtain ⟨u, htrie, hexec⟩ := exec_ddes_of_table ho hcap hv hblob
  obtain ⟨hfreq, htree, hcode, -, hpq, hbuf, hparams, -, hscript, hreturned, hregs, -, hstatus⟩ :=
    s.treeOf_frame es.length u
  have hbytes : SameBuffers s (s.trieSet es.length u) := fun sp =>
    (sameBuffersOutside_of_buf_eq (outs := []) hbuf).sameBytes List.not_mem_nil
  exact ⟨s.trieSet es.length u, hexec, htrie.trieRoutes_iff s _, fun hne => htrie.trieWalk_iff hne s _,
    htrie.toNat_trieNodes.trans htrie.nodes_eq, fun k hk => htrie.internal (htrie.nodes_eq ▸ hk),
    fun k hk => htrie.beyond (htrie.nodes_eq ▸ hk), trieRoot_trieSet s es u, flag_trieSet_eq_flagAfter s _ u, hstatus,
    hregs, hfreq, htree, hcode, hpq, hbytes, hparams, hscript, hreturned⟩

/-- Settles O39: DDES ends with the trie of a table whose blob `DICT` holds, or at a fault where there is none. -/
theorem ddesAcceptsExactlyCodeTables : Obligations.DdesAcceptsExactlyCodeTables := by
  intro s ho hcap
  rcases ddesBody_cases s with ⟨hlong, -⟩ | ⟨-, es, u, hv, hblob, -, hbody⟩ | ⟨-, hno, x, info, hbody, -⟩
  · omega
  · have hok : (s.trieSet es.length u).Ok := ho
    exact ⟨_, exec_ddes_of_done ho hbody, fun _ => ⟨es, hv, hblob⟩, fun _ => hok⟩
  · exact ⟨_, exec_ddes_of_raised ho hbody, fun hok => absurd hok (raise_err_ne_zero s x info []),
      fun htable => absurd htable hno⟩

/-! ### A blob too short for its count -/

@[simp] theorem State.memRead32_setFlag (s : State) (f : ValidFlag) (b : Bool) (sp : Space) (a : Nat) :
    (s.setFlag f b).memRead32 sp a = s.memRead32 sp a := rfl

/-- Settles O40: both tests come before the first entry is read. -/
theorem truncatedBlobIsMalformed : Obligations.TruncatedBlobIsMalformed := by
  intro s ho hcap hshort
  refine exec_ddes_of_raised ho ?_
  simp only [ddesBody, State.len_setFlag, State.cap_setFlag, State.memRead32_setFlag]
  rw [if_neg (Nat.not_lt.2 hcap)]
  by_cases hroom : s.len .dict < 4
  · rw [if_pos hroom]
  · rw [if_neg hroom, if_pos (hshort.resolve_left hroom)]

/-! ### The header of an entry (rule R173, checks 3 to 7) -/

section
variable {c : DdesCtx}

theorem ddesEntry_of_truncated (h : s.len .dict - c.p < 5) : ddesEntry s c = .raised .malformedDictionary c.p s := by
  simp only [ddesEntry]
  rw [if_pos h]

theorem ddesEntry_of_bad_length (hroom : 5 ≤ s.len .dict - c.p)
    (h : s.memRead32 .dict (c.p + 1) = 0 ∨ s.len .dict - (c.p + 5) < s.memRead32 .dict (c.p + 1)) :
    ddesEntry s c = .raised .malformedDictionary c.p s := by
  simp only [ddesEntry]
  rw [if_neg (by omega)]
  by_cases hzero : s.memRead32 .dict (c.p + 1) = 0
  · rw [if_pos hzero]
  · rw [if_neg hzero, if_pos (h.resolve_left hzero)]

theorem ddesEntry_of_long_codeword (hroom : 5 ≤ s.len .dict - c.p)
    (hbytes : s.memRead32 .dict (c.p + 1) ≤ s.len .dict - (c.p + 5))
    (h : Config.maxLen < s.memRead32 .dict (c.p + 1)) : ddesEntry s c = .raised .capacityExceeded c.p s := by
  simp only [ddesEntry]
  rw [if_neg (by omega), if_neg (by omega), if_neg (by omega), if_pos h]

theorem ddesEntry_of_seen (hroom : 5 ≤ s.len .dict - c.p) (hpos : 0 < s.memRead32 .dict (c.p + 1))
    (hbytes : s.memRead32 .dict (c.p + 1) ≤ s.len .dict - (c.p + 5))
    (hmax : s.memRead32 .dict (c.p + 1) ≤ Config.maxLen) (h : s.memRead .dict c.p ∈ c.seen) :
    ddesEntry s c = .raised .malformedDictionary c.p s := by
  simp only [ddesEntry]
  rw [if_neg (by omega), if_neg (by omega), if_neg (by omega), if_neg (by omega), if_pos h]

end

/-! ### Behind the entries of a table -/

/-- The loop of DDES stands behind the entries `es` of a table, with `n` bytes of the blob left. -/
structure Behind (s : State) (es : Entries) (n : Nat) (d : DdesCtx) : Prop where
  p    : d.p = s.len .dict - n
  left : s.len .dict - d.p = n
  seen : d.seen = es.map Prod.fst
  trie : TrieInv d.trie es [] 0

section
variable {count : Nat} {rest : List Byte} (ho : s.Ok) (hcap : s.len .dict ≤ s.cap .dict) (hv : ValidTable es)
  (hcount : count < 2 ^ 32)
  (hreg : s.region .dict = le32Bytes count ++ (es.flatMap fun e => entryBytes e.1 e.2) ++ rest)
  (hfit : count ≤ (s.len .dict - 4) / 5)

include hreg in
theorem length_rest_add_four_le : rest.length + 4 ≤ s.len .dict := by
  rw [← length_region s .dict, hreg, List.length_append, List.length_append, length_le32Bytes]
  omega

include ho hcap hv hcount hreg hfit

/-- Where a table's entries are not all of the blob's, the fault of the next entry is DDES's. -/
theorem exists_behind (hlt : es.length < count) :
    ∃ d, Behind (s.setFlag .trie false) es rest.length d ∧ ∀ x info,
      ddesEntry (s.setFlag .trie false) d = .raised x info (s.setFlag .trie false) →
        exec .ddes s = .next (s.raise x info []) := by
  obtain ⟨d, hp, hseen, htrie, hbody⟩ := ddesBody_behind s hcap hv hcount hlt.le hreg hfit
  have hrest := length_rest_add_four_le hreg
  refine ⟨d, ⟨?_, ?_, hseen, htrie (by omega)⟩, fun x info hraised => exec_ddes_of_raised ho ?_⟩
  · rw [State.len_setFlag, hp]
  · rw [State.len_setFlag, hp]
    omega
  · obtain ⟨n, hn⟩ : ∃ n, count - es.length = n + 1 := ⟨count - es.length - 1, by omega⟩
    rw [hbody, hn, ddesLoop, hraised, andThen_raised, andThen_raised]

/-- Where they are all of them, bytes after them are reported (rule R173, check 11). -/
theorem exec_ddes_of_spare_bytes (hall : es.length = count) (hrest : rest ≠ []) :
    exec .ddes s = .next (s.raise .malformedDictionary (s.len .dict - rest.length) []) := by
  obtain ⟨d, hp, -, -, hbody⟩ := ddesBody_behind s hcap hv hcount hall.le hreg hfit
  have hlen := length_rest_add_four_le hreg
  have hpos := List.length_pos_iff.2 hrest
  refine exec_ddes_of_raised ho ?_
  rw [hbody, hall, Nat.sub_self, ddesLoop, andThen_done, if_pos (by omega), hp]

end

/-- Settles O41: behind the entries of a table DDES comes to the header of the next one, and its tests stand in the order
of the four clauses. -/
theorem badEntryHeaderIsReported : Obligations.BadEntryHeaderIsReported := by
  intro s count es rest ho hcap hv hcount hlt hreg hfit p len bv
  obtain ⟨d, ⟨hp, hleft, hseen, -⟩, hraises⟩ := exists_behind ho hcap hv hcount hreg hfit hlt
  have hdp : d.p = p := hp
  have hlen : (s.setFlag .trie false).memRead32 .dict (d.p + 1) = len := by rw [hdp, State.memRead32_setFlag]
  have hbv : (s.setFlag .trie false).memRead .dict d.p = bv := by rw [hdp, State.memRead_setFlag]
  rw [← hdp]
  refine ⟨fun hshort => hraises _ _ (ddesEntry_of_truncated (by omega)), fun hroom hbad => hraises _ _ ?_,
    fun hroom hlong hbytes => hraises _ _ ?_, fun hroom hpos hmax hbytes hmem => hraises _ _ ?_⟩
  · refine ddesEntry_of_bad_length (by omega) ?_
    rw [hlen]
    exact hbad.imp_right fun hlong => by omega
  · exact ddesEntry_of_long_codeword (by omega) (by omega) (hlen ▸ hlong)
  · exact ddesEntry_of_seen (by omega) (by omega) (by omega) (hlen ▸ hmax) (by rw [hbv, hseen]; exact hmem)

/-! ### The codeword of an entry (rule R173, checks 8 to 10) -/

theorem charOf_eq (bit : Bool) : charOf bit = if bit then 0x31#8 else 0x30#8 := rfl

theorem ne_charOf_iff {v : Byte} : (∀ bit, v ≠ charOf bit) ↔ v ≠ 0x30#8 ∧ v ≠ 0x31#8 := Bool.forall_bool

/-- Where a codeword of the table that begins the bits is all of them, no codeword ends before along their path. -/
theorem pathFree_of_begins {bits : List Bool} (h : ∀ e ∈ es, e.2 <+: bits → e.2 = bits) : PathFree es [] bits := by
  intro q hq hne e he heq
  rw [List.nil_append] at heq
  exact hne (heq.symm.trans (h e he (heq ▸ hq)))

/-- A character of neither kind, or one behind a whole codeword, is reported at its own offset (checks 8 and 9). -/
theorem ddesEntry_of_bad_character {c : DdesCtx} {bits : List Bool} (h : HeaderOk s c) (hi : TrieInv c.trie es [] 0)
    (hlen : bits.length < s.memRead32 .dict (c.p + 1)) (hchars : CharsAt s (c.p + 5) bits) (hfree : PathFree es [] bits)
    (hbad : (∀ bit, s.memRead .dict (c.p + 5 + bits.length) ≠ charOf bit) ∨ ∃ e ∈ es, e.2 = bits) :
    ddesEntry s c = .raised .malformedDictionary (c.p + 5 + bits.length) s := by
  rw [ddesEntry_of_headerOk h, ddesChars_bad s _ _ hi hlen hchars hfree hbad, andThen_raised]

/-- Settles O60: behind the entries of a table DDES reads a good header and then the characters, or there is no entry
left to read. -/
theorem badCodewordOrSpareBytesAreReported : Obligations.BadCodewordOrSpareBytesAreReported := by
  intro s count es rest ho hcap hv hcount hreg hfit p len
  refine ⟨fun hlt hroom hpos hmax hbytes hnew bits hbits hbitsAt hbegins => ?_,
    exec_ddes_of_spare_bytes ho hcap hv hcount hreg hfit⟩
  obtain ⟨d, ⟨hp, hleft, hseen, htrie⟩, hraises⟩ := exists_behind ho hcap hv hcount hreg hfit hlt
  have hdp : d.p = p := hp
  have hlen : (s.setFlag .trie false).memRead32 .dict (d.p + 1) = len := by rw [hdp, State.memRead32_setFlag]
  have hheader : HeaderOk (s.setFlag .trie false) d := by
    refine ⟨by omega, by omega, by omega, hlen ▸ hmax, ?_⟩
    rw [hseen, State.memRead_setFlag, hdp]
    exact hnew
  have hchars : CharsAt (s.setFlag .trie false) (d.p + 5) bits := fun j hj => by
    rw [List.getElem_map, charOf_eq, State.memRead_setFlag, hdp]
    exact hbitsAt j (by simpa using hj)
  have hfree := pathFree_of_begins hbegins
  rw [← hdp]
  refine ⟨fun hshort hbad => hraises _ _ ?_, fun hall hbad => hraises _ _ ?_⟩
  · exact ddesEntry_of_bad_character hheader htrie (by omega) hchars hfree (hbad.imp_left ne_charOf_iff.2)
  · exact ddesEntry_notPrefixFree hheader htrie (by omega) hchars hfree hbad

/-! ### RDTRIE -/

/-- Settles O42: the word by its fields, the readback of one record, and the refusal by the dispatcher. -/
theorem rdtrieReturnsTheRecord : Obligations.RdtrieReturnsTheRecord := by
  intro idx s
  refine ⟨wordX_toNat 0x33#8 idx, fun ho hf => ?_, fun ho hf => exec_of_flag_false rfl ho hf⟩
  intro r
  refine ⟨s.showTrieRec r, exec_ready (i := .rdtrie idx) (by simp) ho (ready_of_flag rfl hf), rfl, ?_, rfl, rfl,
    fun i hi => congrArg refWord hi, fun hi => congrArg refWord hi, fun i hi => congrArg refWord hi,
    fun hi => congrArg refWord hi⟩
  show trieKindCode r.kind = _
  cases r.kind <;> rfl

end Sys2Proof.Machine

/-! PROOFS. spec/44_bitpacker.md: the first input byte without a codeword ends PACK (rule R191). -/

namespace Sys2Proof.Machine

variable {s : State}

/-- PACK ends at the first input byte without a codeword when the whole bytes of those before it fit (rule R191). -/
theorem packBody_uncoded (hsrc : s.len .src ≤ s.cap .src) {i : Nat} (hi : i < s.len .src)
    (hun : s.codeAt (s.memRead .src i) = []) (hcoded : ∀ j, j < i → s.codeAt (s.memRead .src j) ≠ [])
    (hfit : 1 + (s.inputBits i).length / 8 ≤ s.cap .pay) :
    ∃ v, packBody s = .raised .symbolNotCoded i v ∧ DiffersIn .pay s v := by
  have hstart : PackInv s [] ⟨s, 1, 0, 0⟩ := packInv_start s (by omega)
  rw [inputBits_eq] at hfit
  obtain ⟨v, hv, hdiff⟩ := packInput_uncoded (s.len .src) i 0 hstart hi (fun j _ hj => hcoded j (by omega))
    (by rwa [Nat.zero_add]) (by simpa using hfit)
  rw [Nat.zero_add] at hv
  unfold packBody
  rw [if_neg (by omega), if_neg (by omega), hv]
  exact ⟨v, rfl, hdiff⟩

/-- Settles O45: the body raises at the first uncoded byte, having written `PAY` alone. -/
theorem packStopsAtTheFirstUncodedByte : Obligations.PackStopsAtTheFirstUncodedByte := by
  intro s i ho hf hsrc hi hun hcoded hfit
  exact exec_of_raised (i := .pack) (by decide) ho (ready_of_flag rfl hf) (List.mem_singleton_self _)
    (packBody_uncoded hsrc hi hun hcoded hfit)

end Sys2Proof.Machine

/-! PROOFS. spec/45_bitunpacker.md: UNPACK of a payload of codewords, of nothing and of a bad payload (rules R201 to
R206), and DECODE of a table's blob and a payload of its codewords (rules R205, R219). -/

namespace Sys2Proof.Machine

variable {s t : State}

/-! ### The trie UNPACK walks -/

/-- A trie of DDES has a root or no records at all (rules R35, R172). -/
theorem State.TrieOk.cases (h : s.TrieOk) :
    (s.regs.trieNodes = 0#32 ∧ ∀ i, s.trieAt i = absentTrieRec) ∨
    (rootPresent s.regs.trieRoot = true ∧ (s.trieAt 0).kind = .internal) := by
  obtain ⟨u, htrie, -, ⟨-, hbeyond, hroot, -⟩, hword⟩ := h
  have hat : s.trieAt = entryAt absentTrieRec u := funext fun i => by simp only [State.trieAt, htrie]
  rw [hat]
  by_cases hn : s.regs.trieNodes.toNat = 0
  · exact .inl ⟨BitVec.eq_of_toNat_eq hn, fun i => hbeyond i (by omega)⟩
  · rw [hword, if_neg hn]
    exact .inr ⟨rootPresent_rootWord 0, hroot (by omega)⟩

theorem State.TrieOk.root_ne_leaf (h : s.TrieOk) : (s.trieAt 0).kind ≠ .leaf := by
  rcases h.cases with ⟨-, habsent⟩ | ⟨-, hroot⟩
  · rw [habsent]
    decide
  · rw [hroot]
    decide

/-- A child is a record made later (rule R172). -/
theorem State.TrieOk.lt_trieChild (h : s.TrieOk) {i j : Nat} {bit : Bool} (hj : trieChild (s.trieAt i) bit = some j) :
    i < j := by
  obtain ⟨u, htrie, -, ⟨hrecs, hbeyond, -, -⟩, -⟩ := h
  have hat : s.trieAt i = entryAt absentTrieRec u i := by simp only [State.trieAt, htrie]
  rw [hat] at hj
  rcases Nat.lt_or_ge i s.regs.trieNodes.toNat with hi | hi
  · have hrec := hrecs i hi
    unfold TrieRecOk at hrec
    split at hrec
    · exact hrec.elim
    · obtain ⟨hlow, hhigh⟩ := hrec
      cases bit <;> simp [trieChild, hlow, hhigh] at hj
    · obtain ⟨-, -, hlow, hhigh⟩ := hrec
      cases bit
      · exact (hlow j hj).1
      · exact (hhigh j hj).1
  · rw [hbeyond i hi] at hj
    cases bit <;> cases hj

/-- No walk leads back to the root: it ends below the record it begins at. -/
theorem State.TrieOk.le_of_trieWalk (h : s.TrieOk) {i j : Nat} {path : List Bool} (hw : s.trieWalk i path = some j) :
    i + path.length ≤ j := by
  induction path generalizing i with
  | nil =>
    cases hw
    exact Nat.le_refl _
  | cons bit rest ih =>
    unfold State.trieWalk at hw
    split at hw
    · cases hw
    · next hc =>
      have hlt := h.lt_trieChild hc
      have hle := ih hw
      rw [List.length_cons]
      omega

/-- No byte value has the empty codeword (rule R150). -/
theorem State.TrieOk.ne_nil_of_trieRoutes (h : s.TrieOk) {cw : List Bool} {b : Byte} (hr : s.TrieRoutes cw b) :
    cw ≠ [] := by
  rintro rfl
  obtain ⟨i, hw, hleaf, -⟩ := hr
  cases hw
  exact h.root_ne_leaf hleaf

/-- A trie that routes a codeword has a root. -/
theorem State.TrieOk.rootPresent_of_trieRoutes (h : s.TrieOk) {cw : List Bool} {b : Byte} (hr : s.TrieRoutes cw b) :
    rootPresent s.regs.trieRoot = true := by
  rcases h.cases with ⟨-, habsent⟩ | ⟨hpresent, -⟩
  · obtain ⟨i, -, hleaf, -⟩ := hr
    rw [habsent] at hleaf
    cases hleaf
  · exact hpresent

/-! ### The payload bits UNPACK reads -/

theorem length_payloadBits (s : State) : s.payloadBits.length = s.payloadBitCount := by simp [State.payloadBits]

/-- A part of the payload, bit by bit from where it begins. -/
theorem payBit_of_payloadBits_eq {pre bits post : List Bool} (h : s.payloadBits = pre ++ bits ++ post) {j : Nat}
    (hj : j < bits.length) : s.payBit (pre.length + j) = bits[j] := by
  have hget : s.payloadBits[pre.length + j]? = some bits[j] := by
    rw [h, List.append_assoc, List.getElem?_append_right (Nat.le_add_right _ _), Nat.add_sub_cancel_left,
      List.getElem?_append_left hj, List.getElem?_eq_getElem hj]
  obtain ⟨hlt, hbit⟩ := List.getElem?_eq_some_iff.1 hget
  simpa [State.payloadBits] using hbit

/-! ### UNPACK's body around its loop -/

/-- The body comes to its loop: none of the tests before it ends it (rules R201, R203, R206). -/
structure ReachesLoop (s : State) : Prop where
  fits     : s.len .pay ≤ s.cap .pay
  root     : rootPresent s.regs.trieRoot = true
  nonempty : 2 ≤ s.len .pay
  padding  : (s.memRead .pay 0).toNat ≤ 7

/-- How the body ends behind its loop (rules R201, R204): what the context of the loop's end gives. -/
def unpackEnd (s : State) (c : UnpackCtx) : Run State :=
  if c.cur ≠ 0 then .raised .incompleteCodeword s.payloadBitCount c.st else .done (c.st.setLen .dst c.m)

theorem unpackBody_eq (h : ReachesLoop s) :
    unpackBody s = (unpackLoop s.payloadBitCount 0 ⟨s, 0, 0⟩).andThen (unpackEnd s) := by
  obtain ⟨hfits, hroot, hlen, hpad⟩ := h
  unfold unpackBody
  rw [if_neg (by omega), if_neg (by simp [hroot]), if_neg (by omega)]
  simp only
  rw [if_neg (by omega)]
  rfl

/-- A fault in the loop's first bits is the body's. -/
theorem unpackBody_of_loop_raised (h : ReachesLoop s) {n : Nat} (hn : n ≤ s.payloadBitCount) {x : HwFault} {info : Nat}
    {v : State} (hloop : unpackLoop n 0 ⟨s, 0, 0⟩ = .raised x info v) : unpackBody s = .raised x info v := by
  rw [unpackBody_eq h, unpackLoop_raised hloop hn, andThen_raised]

/-- An absent root or a payload of at most one byte ends the body before its loop (rule R203). -/
theorem unpackBody_of_nothing (hfits : s.len .pay ≤ s.cap .pay)
    (h : rootPresent s.regs.trieRoot = false ∨ s.len .pay ≤ 1) : unpackBody s = .done (s.setLen .dst 0) := by
  unfold unpackBody
  rw [if_neg (Nat.not_lt.2 hfits)]
  by_cases hroot : rootPresent s.regs.trieRoot = false
  · rw [if_pos (by simp [hroot])]
  · rw [if_neg (by simpa using hroot), if_pos (h.resolve_left hroot)]

theorem unpackBody_of_bad_padding (hfits : s.len .pay ≤ s.cap .pay) (hroot : rootPresent s.regs.trieRoot = true)
    (hlen : 2 ≤ s.len .pay) (hpad : 7 < (s.memRead .pay 0).toNat) :
    unpackBody s = .raised .badPadding (s.memRead .pay 0).toNat s := by
  unfold unpackBody
  rw [if_neg (by omega), if_neg (by simp [hroot]), if_neg (by omega)]
  exact if_pos hpad

/-! ### Codewords and what follows them -/

section
variable {ms : Entries} {rest : List Bool} (hok : s.TrieOk) (hr : ∀ e ∈ ms, s.TrieRoutes e.2 e.1)
include hok hr

/-- The loop over the codewords: their bytes are emitted, or there is no room for them (rule R201). -/
theorem unpackLoop_payload (hbits : s.payloadBits = ms.flatMap Prod.snd ++ rest) :
    (ms.length ≤ s.cap .dst → ∃ d, unpackLoop (ms.flatMap Prod.snd).length 0 ⟨s, 0, 0⟩ = .done d ∧
      UnpackInv s (ms.map Prod.fst) d) ∧
    (s.cap .dst < ms.length → ∃ v,
      unpackLoop (ms.flatMap Prod.snd).length 0 ⟨s, 0, 0⟩ = .raised .sinkUnavailable 3 v ∧ DiffersIn .dst s v) := by
  have h := unpackLoop_codewords (leavesEnd_of_trieOk hok) ms (fun e he => hok.ne_nil_of_trieRoutes (hr e he)) hr 0
    (unpackInv_start s) fun j hj => payBit_of_payloadBits_eq (pre := []) hbits hj
  simpa using h

/-- A codeword too many for `DST` ends the body (rule R201). -/
theorem unpackBody_of_full (hloop : ReachesLoop s) (hbits : s.payloadBits = ms.flatMap Prod.snd ++ rest)
    (hfull : s.cap .dst < ms.length) : ∃ v, unpackBody s = .raised .sinkUnavailable 3 v := by
  obtain ⟨-, hraised⟩ := unpackLoop_payload hok hr hbits
  obtain ⟨v, hv, -⟩ := hraised hfull
  have hcount : (ms.flatMap Prod.snd).length ≤ s.payloadBitCount := by
    rw [← length_payloadBits, hbits, List.length_append]
    exact Nat.le_add_right _ _
  exact ⟨v, unpackBody_of_loop_raised hloop hcount hv⟩

variable {part : List Bool} {cur : Nat} (hbits : s.payloadBits = ms.flatMap Prod.snd ++ part ++ rest)
  (hroom : ms.length ≤ s.cap .dst) (hw : s.trieWalk 0 part = some cur) (hcur : (s.trieAt cur).kind = .internal)
include hbits hroom hw hcur

/-- The loop over the codewords and part of another stands inside that one (rule R201). -/
theorem unpackLoop_payload_part :
    ∃ d, DiffersIn .dst s d.st ∧ d.cur = cur ∧
      unpackLoop ((ms.flatMap Prod.snd).length + part.length) 0 ⟨s, 0, 0⟩ = .done d := by
  obtain ⟨hdone, -⟩ := unpackLoop_payload hok hr (hbits.trans (List.append_assoc _ _ _))
  obtain ⟨d, hd, hinv⟩ := hdone hroom
  refine ⟨{ d with cur := cur }, hinv.diff, rfl, ?_⟩
  rw [unpackLoop_add, hd, andThen_done, Nat.zero_add]
  exact unpackLoop_part (leavesEnd_of_trieOk hok) part _ d cur hinv.diff
    (fun j hj => payBit_of_payloadBits_eq hbits hj) (by rw [hinv.cur]; exact hw) (by rw [hcur]; decide)

/-- A payload that ends inside a codeword (rule R204): the walk has left the root and does not lead back. -/
theorem unpackBody_of_incomplete (hloop : ReachesLoop s) (hpart : part ≠ []) (hrest : rest = []) :
    ∃ v, unpackBody s = .raised .incompleteCodeword s.payloadBitCount v := by
  obtain ⟨d, -, hdcur, hd⟩ := unpackLoop_payload_part hok hr hbits hroom hw hcur
  have hcount : (ms.flatMap Prod.snd).length + part.length = s.payloadBitCount := by
    rw [← length_payloadBits, hbits, hrest, List.append_nil, List.length_append]
  have hne : d.cur ≠ 0 := by
    have hle := hok.le_of_trieWalk hw
    have hpos := List.length_pos_iff.2 hpart
    omega
  refine ⟨d.st, ?_⟩
  rw [unpackBody_eq hloop, ← hcount, hd, andThen_done, unpackEnd, if_pos hne, hcount]

/-- A bit whose child is missing (rule R201). -/
theorem unpackBody_of_no_child (hloop : ReachesLoop s) {bit : Bool} {rest2 : List Bool} (hrest : rest = bit :: rest2)
    (hnone : trieChild (s.trieAt cur) bit = none) :
    ∃ v, unpackBody s = .raised .noBranch ((ms.flatMap Prod.snd).length + part.length) v := by
  obtain ⟨d, hdiff, hdcur, hd⟩ := unpackLoop_payload_part hok hr hbits hroom hw hcur
  have hcount : (ms.flatMap Prod.snd).length + part.length + (rest2.length + 1) = s.payloadBitCount := by
    rw [← length_payloadBits, hbits, hrest, List.length_append, List.length_append, List.length_cons]
  generalize hn : (ms.flatMap Prod.snd).length + part.length = n at hd hcount ⊢
  have hbit : s.payBit n = bit := by
    have hsplit : s.payloadBits = ms.flatMap Prod.snd ++ part ++ [bit] ++ rest2 := by simp [hbits, hrest]
    rw [← hn, ← List.length_append]
    exact payBit_of_payloadBits_eq hsplit (j := 0) Nat.zero_lt_one
  have hstep : unpackBit d n = .raised .noBranch n d.st := by
    simp [unpackBit, hdiff.trieAt, hdiff.payBit, hdcur, hbit, hnone]
  refine ⟨d.st, unpackBody_of_loop_raised hloop (n := n + 1) (by omega) ?_⟩
  rw [unpackLoop_add, hd, andThen_done, Nat.zero_add, unpackLoop, hstep, andThen_raised]

end

/-! ### UNPACK as the dispatcher runs it -/

theorem exec_unpack_of_done (ho : s.Ok) (hf : s.flag .trie = true) (h : unpackBody s = .done t) :
    exec .unpack s = .next t := by
  rw [exec_ready (i := .unpack) (by decide) ho (ready_of_flag rfl hf), bodyOf, h, finish_done]

/-- UNPACK has written `DST` alone when it raises (rules R201, R239). -/
theorem exec_unpack_of_raised (ho : s.Ok) (hf : s.flag .trie = true) {x : HwFault} {info : Nat} {v : State}
    (h : unpackBody s = .raised x info v) : exec .unpack s = .next (s.raise x info [.dst]) :=
  exec_of_raised (i := .unpack) (by decide) ho (ready_of_flag rfl hf) (List.mem_singleton_self _)
    ⟨v, h, ((unpackBody_frame s).2 x info v h).1⟩

/-- What an UNPACK that emits the bytes `out` leaves: them in `DST`, and everything else as it was (rule R201). -/
structure Unpacked (s : State) (out : List Byte) (t : State) : Prop where
  region   : t.region .dst = out
  beyond   : SameBytesFrom s t .dst out.length
  others   : SameBuffersBut .dst s t
  regs     : t.regs = { s.regs with dstLen := BitVec.ofNat 32 out.length }
  memories : SameMemories s t
  host     : SameHostSide s t

theorem UnpackInv.unpacked {out : List Byte} {c : UnpackCtx} (h : UnpackInv s out c) :
    Unpacked s out (c.st.setLen .dst c.m) := by
  have hfills := h.diff.fills_setLen c.m
  have hlen : (c.st.setLen .dst c.m).len .dst = out.length := by
    rw [State.len_setLen, if_pos rfl, h.m]
    exact Nat.mod_eq_of_lt (Nat.lt_of_le_of_lt h.fits (s.cap_lt .dst))
  refine ⟨region_eq_iff.2 ⟨hlen, fun j hj => ?_⟩, fun a ha => ?_, fun sp hne a => ?_, ?_, hfills.memories,
    hfills.keeps.host⟩
  · rw [State.memRead_setLen, Nat.zero_add, h.bytes j hj]
  · rw [State.memRead_setLen, h.other a ha]
  · rw [State.memRead_setLen, h.diff.memRead hne]
  · rw [State.setLen, h.diff.regs, h.m]

/-- Settles O47: the test of the length comes first, and the tests for a root and for payload bits after it. -/
theorem unpackOfNothingIsNoFault : Obligations.UnpackOfNothingIsNoFault := fun _ ho hf hnothing =>
  ⟨fun hfits => exec_unpack_of_done ho hf (unpackBody_of_nothing hfits hnothing),
    fun hlong => exec_unpack_of_raised ho hf (unpackBody_overlong hlong)⟩

/-- UNPACK of a payload of codewords (rules R200 to R202): the loop ends at the root, which no codeword ends at. -/
theorem exec_unpack_codewords {ms : Entries} (ho : s.Ok) (hf : s.flag .trie = true) (hok : s.TrieOk)
    (hfits : s.len .pay ≤ s.cap .pay) (hlen : 2 ≤ s.len .pay) (hpad : (s.memRead .pay 0).toNat ≤ 7)
    (hr : ∀ e ∈ ms, s.TrieRoutes e.2 e.1) (hbits : s.payloadBits = ms.flatMap Prod.snd)
    (hroom : ms.length ≤ s.cap .dst) : ∃ t, exec .unpack s = .next t ∧ Unpacked s (ms.map Prod.fst) t := by
  have hcount : (ms.flatMap Prod.snd).length = s.payloadBitCount := by rw [← hbits, length_payloadBits]
  have hne : ms ≠ [] := by
    rintro rfl
    rw [State.payloadBitCount] at hcount
    simp only [List.flatMap_nil, List.length_nil] at hcount
    omega
  obtain ⟨e, he⟩ := List.exists_mem_of_ne_nil ms hne
  have hloop : ReachesLoop s := ⟨hfits, hok.rootPresent_of_trieRoutes (hr e he), hlen, hpad⟩
  obtain ⟨hdone, -⟩ := unpackLoop_payload hok hr (hbits.trans (List.append_nil _).symm)
  obtain ⟨d, hd, hinv⟩ := hdone hroom
  refine ⟨d.st.setLen .dst d.m, exec_unpack_of_done ho hf ?_, hinv.unpacked⟩
  rw [unpackBody_eq hloop, ← hcount, hd, andThen_done, unpackEnd, if_neg (not_not.2 hinv.cur)]

/-- Settles O46: the loop emits a byte for each codeword. -/
theorem unpackEmitsEveryCodewordsByte : Obligations.UnpackEmitsEveryCodewordsByte := by
  intro s ms ho hf hok hfits hlen hpad hr hbits hroom
  obtain ⟨t, hexec, hregion, hbeyond, hothers, hregs, hmem, hhost⟩ :=
    exec_unpack_codewords ho hf hok hfits hlen hpad hr hbits hroom
  rw [List.length_map] at hbeyond hregs
  exact ⟨t, hexec, hregion, hbeyond, hothers, hregs, hmem, hhost⟩

/-- Settles O48: the padding is tested before the loop; the loop stops at the codeword that has no room or at the bit
that has no child, and one that ends elsewhere than at the root has ended inside a codeword. -/
theorem unpackReportsABadPayload : Obligations.UnpackReportsABadPayload := by
  intro s ms part rest cur ho hf hok hnodes hfits hlen hr hbits hw hcur
  have hroot : rootPresent s.regs.trieRoot = true := by
    rcases hok.cases with ⟨hzero, -⟩ | ⟨hpresent, -⟩
    · exact absurd hzero hnodes
    · exact hpresent
  have hloop (hpad : (s.memRead .pay 0).toNat ≤ 7) : ReachesLoop s := ⟨hfits, hroot, hlen, hpad⟩
  have hexec {x : HwFault} {info : Nat} : (∃ v, unpackBody s = .raised x info v) →
      exec .unpack s = .next (s.raise x info [.dst]) := fun ⟨_, hv⟩ => exec_unpack_of_raised ho hf hv
  exact ⟨fun hpad => hexec ⟨s, unpackBody_of_bad_padding hfits hroot hlen hpad⟩,
    fun hpad hroom hpart hrest => hexec (unpackBody_of_incomplete hok hr hbits hroom hw hcur (hloop hpad) hpart hrest),
    fun bit rest2 hpad hroom hrest hnone =>
      hexec (unpackBody_of_no_child hok hr hbits hroom hw hcur (hloop hpad) hrest hnone),
    fun hpad hfull => hexec (unpackBody_of_full hok hr (hloop hpad) (hbits.trans (List.append_assoc _ _ _)) hfull)⟩

/-! ### DECODE -/

theorem memRead_trieSet (s : State) (n : Nat) (u : TrieCtx) (sp : Space) (a : Nat) :
    (s.trieSet n u).memRead sp a = s.memRead sp a := by simp [State.trieSet]

/-- DDES leaves the payload UNPACK reads (rule R219). -/
theorem payloadBits_trieSet (s : State) (n : Nat) (u : TrieCtx) : (s.trieSet n u).payloadBits = s.payloadBits := rfl

/-- UNPACK of the trie of a table, and a payload of its codewords or nothing to unpack (rules R201, R203). -/
theorem exec_unpack_trieSet {es ms : Entries} {u : TrieCtx} (ho : s.Ok) (htrie : TrieOf es u) (hv : ValidTable es)
    (hfits : s.len .pay ≤ s.cap .pay)
    (hpay : (ms = [] ∧ (es = [] ∨ s.len .pay ≤ 1)) ∨ (2 ≤ s.len .pay ∧ (s.memRead .pay 0).toNat ≤ 7 ∧
      (∀ e ∈ ms, e ∈ es) ∧ s.payloadBits = ms.flatMap Prod.snd)) (hroom : ms.length ≤ s.cap .dst) :
    ∃ t, exec .unpack (s.trieSet es.length u) = .next t ∧ Unpacked (s.trieSet es.length u) (ms.map Prod.fst) t := by
  have hflag : (s.trieSet es.length u).flag .trie = true := flag_trieSet_eq_flagAfter s _ u .trie
  rcases hpay with ⟨rfl, hnothing⟩ | ⟨hlen, hpad, hmem, hbits⟩
  · refine ⟨_, exec_unpack_of_done ho hflag (unpackBody_of_nothing hfits ?_), (unpackInv_start _).unpacked⟩
    refine hnothing.imp_left ?_
    rintro rfl
    exact congrArg rootPresent (trieRoot_trieSet s [] u)
  · exact exec_unpack_codewords ho hflag (htrie.trieOk hv) hfits hlen hpad
      (fun e he => (htrie.trieRoutes_iff s _ e.1 e.2).2 (hmem e he))
      ((payloadBits_trieSet s _ u).trans hbits) hroom

/-- Settles O51: DDES leaves the trie of the table and the payload as it was, and DECODE is UNPACK after it. -/
theorem decodeRestoresThePackedBytes : Obligations.DecodeRestoresThePackedBytes := by
  intro s es ms ho hdict hfits hv hblob hpay hroom
  obtain ⟨u, htrie, hddes⟩ := exec_ddes_of_table ho hdict hv hblob
  obtain ⟨t, hunpack, hregion, hbeyond, hothers, hregs, ⟨hfreq, htree, hcode, -, hpq⟩, hhost⟩ :=
    exec_unpack_trieSet ho htrie hv hfits hpay hroom
  obtain ⟨-, -, hdecode, -⟩ := encodeIsTheFiveCommands s ho
  obtain ⟨-, -, -, -, -, -, -, -, -, -, -, -, hstatus⟩ := s.treeOf_frame es.length u
  rw [List.length_map] at hbeyond
  refine ⟨t, (hdecode _ hddes ho).trans hunpack, hregion, fun a ha => ?_, fun sp hne a => ?_, fun f => ?_,
    fun i hi => ?_, ?_, hfreq, htree, hcode, hpq, hhost⟩
  · rw [hbeyond a ha, memRead_trieSet]
  · rw [hothers sp hne, memRead_trieSet]
  · rw [State.flag, hregs]
    exact (flag_trieSet_eq_flagAfter s _ u f).trans (by cases f <;> rfl)
  · rw [hregs]
    exact hstatus i hi
  · rw [hregs]
    rfl

end Sys2Proof.Machine

/-! PROOFS. spec/46_control_and_orchestrators.md: the dispatcher's prerequisite test, NOP and CLR (rules R215 to R217),
and the round trip of ENCODE and DECODE (rule R220). -/

namespace Sys2Proof.Machine

variable {s t : State}

/-! ### The dispatcher, NOP and CLR -/

/-- Settles O18: the dispatcher tests the flag before it runs the command's pseudocode. -/
theorem missingPrerequisiteRaisesSequenceError : Obligations.MissingPrerequisiteRaisesSequenceError :=
  fun _ _ _ hi ho hf => exec_of_flag_false hi ho hf

/-- A command other than CLR met while a fault is recorded is ignored (rule R215). -/
theorem exec_of_not_ok {i : Instr} (hi : i ≠ .clr) (h : ¬ s.Ok) : exec i s = .next s := by
  rw [exec_eq hi, runCommand_ignored h]

/-- Settles O22: NOP is ignored while a fault is recorded, and has an empty pseudocode otherwise. -/
theorem nopDoesNothing : Obligations.NopDoesNothing := by
  refine ⟨by decide, fun s => ?_⟩
  by_cases ho : s.Ok
  · rw [exec_ready (by decide) ho (ready_of_prerequisite_none rfl s), bodyOf, finish_done]
  · exact exec_of_not_ok (by decide) ho

/-- Settles O23: CLR answers the cleared state whatever is recorded, and every other command is ignored while a fault
is. -/
theorem clrClearsAllButLengths : Obligations.ClrClearsAllButLengths :=
  ⟨by decide, fun _ _ hi h => exec_of_not_ok hi h, fun s =>
    ⟨s.clear, rfl, rfl, s.clear_regs, s.clear_pq, s.memRead_clear, ⟨s.clear_params, s.clear_script, s.clear_returned⟩,
      s.draws, s.clear_freq, s.clear_tree, s.clear_code, s.clear_trie⟩⟩

/-! ### The input as entries of the table -/

/-- The input byte by byte, each with its codeword: what PACK writes and UNPACK has to find (rules R102, R220). -/
def State.inputEntries (s : State) : Entries := (s.region .src).map fun b => (b, s.codeAt b)

theorem map_fst_inputEntries (s : State) : s.inputEntries.map Prod.fst = s.region .src := by
  rw [State.inputEntries, List.map_map]
  exact List.map_id _

theorem length_inputEntries (s : State) : s.inputEntries.length = s.len .src := by
  rw [State.inputEntries, List.length_map, length_region]

theorem flatMap_snd_inputEntries (s : State) : s.inputEntries.flatMap Prod.snd = s.inputBits (s.len .src) := by
  rw [State.inputEntries, State.region, List.map_map, List.flatMap_map, State.inputBits]
  rfl

theorem allCoded_iff : AllCoded s ↔ ∀ e ∈ s.inputEntries, e.2 ≠ [] := by
  simp [AllCoded, State.inputEntries, State.region]

theorem mem_codeEntries_of_mem_inputEntries (h : AllCoded s) : ∀ e ∈ s.inputEntries, e ∈ s.codeEntries := by
  intro e he
  have hne := allCoded_iff.1 h e he
  obtain ⟨b, -, rfl⟩ := List.mem_map.1 he
  exact mem_codeEntries.2 ⟨rfl, hne⟩

/-! ### What DSER and PACK leave for DECODE -/

/-- A DSER that runs to its end had room for its blob and has written it to `DICT` (rule R166). -/
theorem written_of_dserBody_done (h : dserBody s = .done t) :
    (blobOf s.codeEntries).length ≤ s.cap .dict ∧ t.region .dict = blobOf s.codeEntries ∧
      ∃ u n, DiffersIn .dict s u ∧ t = u.setLen .dict n := by
  obtain ⟨hfits, hfull⟩ := dserBody_spec s
  rw [dserBlob_eq] at hfits hfull
  rcases Nat.lt_or_ge (s.cap .dict) (blobOf s.codeEntries).length with hlt | hle
  · obtain ⟨v, hv, -⟩ := hfull hlt
    cases hv.symm.trans h
  · cases (hfits hle).symm.trans h
    exact ⟨hle, region_written s .dict _ (Nat.lt_of_le_of_lt hle (s.cap_lt .dict)), _, _,
      differsIn_memWriteAll s .dict 0 _, rfl⟩

/-- A PACK of a coded input that runs to its end had room for the codewords and has written them to `PAY`
(rule R191). -/
theorem packed_of_packBody_done (hsrc : s.len .src ≤ s.cap .src) (hcoded : AllCoded s) (h : packBody s = .done t) :
    1 + ((s.inputEntries.flatMap Prod.snd).length + 7) / 8 ≤ s.cap .pay ∧
      Packed s (s.inputEntries.flatMap Prod.snd) t := by
  obtain ⟨hfits, hfull⟩ := packBody_spec s hsrc hcoded
  rw [← flatMap_snd_inputEntries] at hfits hfull
  rcases Nat.lt_or_ge (s.cap .pay) (1 + ((s.inputEntries.flatMap Prod.snd).length + 7) / 8) with hlt | hle
  · obtain ⟨v, hv, -⟩ := hfull hlt
    cases hv.symm.trans h
  · obtain ⟨u, hu, hpacked⟩ := hfits hle
    cases hu.symm.trans h
    exact ⟨hle, hpacked⟩

section
variable {sp : Space} (h : DiffersIn sp s t) (n : Nat)
include h

theorem DiffersIn.cap_setLen (sp2 : Space) : (t.setLen sp n).cap sp2 = s.cap sp2 := by rw [State.cap_setLen, h.cap]

/-- What fills one buffer and writes its length leaves the valid region of every other (rule R74). -/
theorem DiffersIn.region_setLen {sp2 : Space} (hne : sp2 ≠ sp) : (t.setLen sp n).region sp2 = s.region sp2 :=
  region_of_sameBytes (by rw [State.len_setLen, if_neg hne, h.len]) fun a => by
    rw [State.memRead_setLen, h.memRead hne]

theorem DiffersIn.inputEntries_setLen (hne : .src ≠ sp) : (t.setLen sp n).inputEntries = s.inputEntries := by
  rw [State.inputEntries, h.region_setLen n hne]
  exact List.map_congr_left fun b _ => by rw [State.codeAt_setLen, h.codeAt]

end

/-- `DICT` holds the blob of a table and `PAY` the codewords of some of its entries in order, within their capacities:
what DECODE restores (rule R220). -/
structure Encoded (es ms : Entries) (t : State) : Prop where
  dict     : t.region .dict = blobOf es
  dictFits : t.len .dict ≤ t.cap .dict
  bits     : t.payloadBits = ms.flatMap Prod.snd
  pad      : (t.memRead .pay 0).toNat ≤ 7
  payLen   : t.len .pay = 1 + ((ms.flatMap Prod.snd).length + 7) / 8
  payFits  : t.len .pay ≤ t.cap .pay

/-- DSER and PACK of a coded input, where both run to their end (rules R166, R191). -/
theorem encoded_of_dser_pack (hsrc : s.len .src ≤ s.cap .src) (hcoded : AllCoded s)
    (h : (dserBody s).andThen packBody = .done t) : Encoded s.codeEntries s.inputEntries t := by
  obtain ⟨u, hdser, hpack⟩ := andThen_eq_done h
  obtain ⟨hblob, hdict, v, n, hv, rfl⟩ := written_of_dserBody_done hdser
  have hinput := hv.inputEntries_setLen n (by decide)
  have hlen : (v.setLen .dict n).len .src = s.len .src := by
    rw [← length_inputEntries, hinput, length_inputEntries]
  obtain ⟨hfit, hpacked⟩ := packed_of_packBody_done (by rw [hlen, hv.cap_setLen]; exact hsrc)
    (allCoded_iff.2 (hinput ▸ allCoded_iff.1 hcoded)) hpack
  rw [hinput] at hfit hpacked
  obtain ⟨w, hw, ht⟩ := hpacked.diff
  have htdict : t.region .dict = blobOf s.codeEntries := by rw [ht, hw.region_setLen _ (by decide), hdict]
  refine ⟨htdict, ?_, hpacked.payloadBits_eq hfit, ?_, hpacked.len_pay hfit, ?_⟩
  · rw [← length_region, htdict, ht, hw.cap_setLen, hv.cap_setLen]
    exact hblob
  · rw [hpacked.toNat_pad]
    omega
  · rw [hpacked.len_pay hfit, ht, hw.cap_setLen]
    exact hfit

/-! ### ENCODE and then DECODE -/

/-- DECODE of a table's blob and a payload of its entries' codewords gives the entries' byte values (rules R205,
R219). -/
theorem Encoded.exec_decode {es ms : Entries} (h : Encoded es ms t) (ho : t.Ok) (hv : ValidTable es)
    (hmem : ∀ e ∈ ms, e ∈ es) (hroom : ms.length ≤ t.cap .dst) :
    ∃ u, exec .decode t = .next u ∧ u.Ok ∧ u.region .dst = ms.map Prod.fst := by
  have hpay : (ms = [] ∧ (es = [] ∨ t.len .pay ≤ 1)) ∨
      (2 ≤ t.len .pay ∧ (t.memRead .pay 0).toNat ≤ 7 ∧ (∀ e ∈ ms, e ∈ es) ∧ t.payloadBits = ms.flatMap Prod.snd) := by
    have hlen := h.payLen
    rcases ms with _ | ⟨e, ms⟩
    · exact .inl ⟨rfl, .inr (by simpa using hlen.le)⟩
    · obtain ⟨-, hlength, -⟩ := hv
      obtain ⟨hpos, -⟩ := hlength e (hmem e List.mem_cons_self)
      rw [List.flatMap_cons, List.length_append] at hlen
      exact .inr ⟨by omega, h.pad, hmem, h.bits⟩
  obtain ⟨u, hexec, hregion, -, -, -, -, hregs, -⟩ :=
    decodeRestoresThePackedBytes t es ms ho h.dictFits h.payFits hv h.dict hpay hroom
  exact ⟨u, hexec, by rw [State.Ok, hregs]; exact ho, hregion⟩

/-- An ENCODE that records no fault leaves the CodeTable of the input's own tree, and the input packed with it
(rule R218). -/
theorem encoded_of_exec_encode (ho : s.Ok) (h : exec .encode s = .next t) (hk : t.Ok) :
    AllCoded s.scanned.built.generated ∧
      Encoded s.scanned.built.generated.codeEntries s.scanned.built.generated.inputEntries t := by
  have hb : encodeBody s = .done t :=
    bodyOf_eq_done (i := .encode) (by decide) ho (ready_of_prerequisite_none rfl s) h hk
  obtain ⟨hkeys, -⟩ := encode_table s
  have hcoded : AllCoded s.scanned.built.generated := fun i hi =>
    (hkeys _).2 (List.mem_map_of_mem (List.mem_range.2 hi))
  rw [encodeBody_eq] at hb
  split at hb
  · cases hb
  next hsrc => exact ⟨hcoded, encoded_of_dser_pack (Nat.not_lt.1 hsrc) hcoded hb⟩

/-- Settles O52: ENCODE leaves a CodeTable's blob and a payload of its codewords, one for each input byte, which DECODE
turns back into those bytes. -/
theorem encodeThenDecodeReturnsTheInput : Obligations.EncodeThenDecodeReturnsTheInput := by
  intro s t ho h hk hroom
  obtain ⟨-, hv⟩ := encode_table s
  obtain ⟨hcoded, hencoded⟩ := encoded_of_exec_encode ho h hk
  obtain ⟨-, hparams, -⟩ := commandsWriteOnlyTheirOutputs .encode s t h
  have hcap : t.cap .dst = s.cap .dst := by rw [State.cap, hparams]; rfl
  obtain ⟨u, hdecode, hok, hregion⟩ := hencoded.exec_decode hk hv (mem_codeEntries_of_mem_inputEntries hcoded)
    (by rw [length_inputEntries, hcap]; exact hroom)
  exact ⟨u, hdecode, hok, hregion.trans (map_fst_inputEntries _)⟩

end Sys2Proof.Machine

/-! PROOFS. spec/60_exceptions.md: which command can raise which fault (rules R231 to R233), what a fault records,
clears and leaves (rules R236, R239), how long it stays (rule R238), and waiting (rule R248). -/

namespace Sys2Proof.Machine

variable {s t u : State} {i : Instr} {x : HwFault} {info : Nat}

/-! ### The faults a command can raise -/

/-- Some row of a table like that of rule R233 stands for a fault and its info: a row with a buffer id for that id
alone, a row without one for every info. -/
def Listed (es : List (HwFault × Option Nat)) (x : HwFault) (info : Nat) : Prop :=
  ∃ o, (x, o) ∈ es ∧ ∀ n, o = some n → info = n

theorem listed_id {es : List (HwFault × Option Nat)} {n : Nat} (h : (x, some n) ∈ es) : Listed es x n :=
  ⟨some n, h, fun _ hn => Option.some.inj hn⟩

theorem listed_any {es : List (HwFault × Option Nat)} (h : (x, none) ∈ es) : Listed es x info :=
  ⟨none, h, fun _ hn => nomatch hn⟩

theorem Listed.mono {es fs : List (HwFault × Option Nat)} (h : Listed es x info) (hsub : es ⊆ fs) :
    Listed fs x info := by
  obtain ⟨o, hmem, hid⟩ := h
  exact ⟨o, hsub hmem, hid⟩

/-- The rows of a command's own faults: SequenceError is the dispatcher's (rule R215). -/
def ownFaults (i : Instr) : List (HwFault × Option Nat) := (faultsOf i).filter fun e => e.1 ≠ .sequenceError

theorem ownFaults_subset (i : Instr) : ownFaults i ⊆ faultsOf i := List.filter_subset_self _

theorem dserBody_eq_raised (h : dserBody s = .raised x info u) : x = .sinkUnavailable ∧ info = 2 := by
  obtain ⟨hfits, hfull⟩ := dserBody_spec s
  rcases Nat.lt_or_ge (s.cap .dict) (dserBlob s).length with hlt | hle
  · obtain ⟨v, hv, -⟩ := hfull hlt
    cases hv.symm.trans h
    exact ⟨rfl, rfl⟩
  · cases (hfits hle).symm.trans h

/-- With a codeword for every input byte, PACK runs out of room or raises nothing (rule R191). -/
theorem packBody_eq_raised (hsrc : s.len .src ≤ s.cap .src) (hcoded : AllCoded s)
    (h : packBody s = .raised x info u) : x = .sinkUnavailable ∧ info = 1 := by
  obtain ⟨hfits, hfull⟩ := packBody_spec s hsrc hcoded
  rcases Nat.lt_or_ge (s.cap .pay) (1 + ((s.inputBits (s.len .src)).length + 7) / 8) with hlt | hle
  · obtain ⟨v, hv, -⟩ := hfull hlt
    cases hv.symm.trans h
    exact ⟨rfl, rfl⟩
  · obtain ⟨v, hv, -⟩ := hfits hle
    cases hv.symm.trans h

/-- DSER leaves the input, its capacity and its codewords to PACK (rule R74). -/
theorem input_of_dserBody_done (h : dserBody s = .done t) (hsrc : s.len .src ≤ s.cap .src) (hcoded : AllCoded s) :
    t.len .src ≤ t.cap .src ∧ AllCoded t := by
  obtain ⟨-, -, v, n, hv, rfl⟩ := written_of_dserBody_done h
  refine ⟨?_, allCoded_iff.2 ((hv.inputEntries_setLen n (by decide)).symm ▸ allCoded_iff.1 hcoded)⟩
  rw [hv.cap_setLen, State.len_setLen, if_neg (by decide), hv.len]
  exact hsrc

/-- ENCODE does not raise SymbolNotCoded: the table GEN has just made codes every byte of the input (rules R152,
R218). -/
theorem listed_of_encodeBody_raised (h : encodeBody s = .raised x info u) : Listed (ownFaults .encode) x info := by
  have hcoded : AllCoded s.scanned.built.generated := fun j hj =>
    ((encode_table s).1 _).2 (List.mem_map_of_mem (List.mem_range.2 hj))
  rw [encodeBody_eq] at h
  split at h
  · cases h
    exact listed_id (by decide)
  next hsrc =>
    rcases andThen_eq_raised h with hdser | ⟨v, hdser, hpack⟩
    · obtain ⟨rfl, rfl⟩ := dserBody_eq_raised hdser
      exact listed_id (by decide)
    · obtain ⟨hvsrc, hvcoded⟩ := input_of_dserBody_done hdser (Nat.not_lt.1 hsrc) hcoded
      obtain ⟨rfl, rfl⟩ := packBody_eq_raised hvsrc hvcoded hpack
      exact listed_id (by decide)

theorem listed_of_ddesBody_raised (h : ddesBody s = .raised x info u) : Listed (ownFaults .ddes) x info := by
  rcases ddesBody_cases s with ⟨-, hb⟩ | ⟨-, es, v, -, -, -, hb⟩ | ⟨-, -, y, j, hb, hy⟩
  · cases hb.symm.trans h
    exact listed_id (by decide)
  · cases hb.symm.trans h
  · cases hb.symm.trans h
    rcases hy with rfl | rfl
    · exact listed_any (by decide)
    · exact listed_any (by decide)

theorem listed_of_unpackBody_raised (h : unpackBody s = .raised x info u) : Listed (ownFaults .unpack) x info := by
  rcases ((unpackBody_frame s).2 x info u h).2 with ⟨rfl, rfl⟩ | rfl | rfl | ⟨rfl, rfl⟩ | rfl
  · exact listed_id (by decide)
  · exact listed_any (by decide)
  · exact listed_any (by decide)
  · exact listed_id (by decide)
  · exact listed_any (by decide)

/-- What a command's pseudocode raises is one of the command's own rows (rule R233). -/
theorem listed_of_bodyOf_raised (h : bodyOf i s = .raised x info u) : Listed (ownFaults i) x info := by
  cases i with
  | scan =>
    rw [bodyOf, scanBody_eq] at h
    split at h
    · cases h
      exact listed_id (by decide)
    · cases h
  | dser =>
    obtain ⟨rfl, rfl⟩ := dserBody_eq_raised h
    exact listed_id (by decide)
  | pack =>
    rcases ((packBody_frame s).2 x info u h).2 with ⟨rfl, rfl⟩ | ⟨rfl, rfl⟩ | rfl
    · exact listed_id (by decide)
    · exact listed_id (by decide)
    · exact listed_any (by decide)
  | encode => exact listed_of_encodeBody_raised h
  | ddes => exact listed_of_ddesBody_raised h
  | unpack => exact listed_of_unpackBody_raised h
  | decode =>
    rcases andThen_eq_raised h with hddes | ⟨v, -, hunpack⟩
    · exact (listed_of_ddesBody_raised hddes).mono (by decide)
    · exact (listed_of_unpackBody_raised hunpack).mono (by decide)
  | _ => cases h

/-- A command that faults is refused by the dispatcher or ended by its own fault (rule R215). -/
theorem exec_cases_of_fault (ho : s.Ok) (h : exec i s = .next t) (hf : ¬ t.Ok) :
    (¬ s.Ready i ∧ t = s.raise .sequenceError (encode i).toNat []) ∨
    (s.Ready i ∧ ∃ x info u, bodyOf i s = .raised x info u ∧ t = u.raise x info (outputsOf i)) := by
  have hclr : i ≠ .clr := by
    rintro rfl
    cases h
    exact hf rfl
  rcases exec_cases hclr h with ⟨hno, -⟩ | ⟨-, hr⟩ | ⟨-, -, hb⟩ | ⟨-, hr⟩
  · exact absurd ho hno
  · exact .inl hr
  · exact absurd (ok_of_bodyOf_done hclr ho hb) hf
  · exact .inr hr

/-- The table lists SequenceError for every command with a prerequisite (rules R215, R233). -/
theorem sequenceError_mem_faultsOf {f : ValidFlag} (hi : prerequisite i = some f) :
    (.sequenceError, none) ∈ faultsOf i := by
  revert hi
  cases i <;> simp [prerequisite, faultsOf]

theorem prerequisite_of_not_ready (h : ¬ s.Ready i) : ∃ f, prerequisite i = some f := by
  cases hp : prerequisite i with
  | none => exact absurd (ready_of_prerequisite_none hp s) h
  | some f => exact ⟨f, rfl⟩

/-- The fault a state has recorded is that of a row of the table of rule R233. -/
def State.Records (t : State) (e : HwFault × Option Nat) : Prop :=
  t.regs.err = faultCode e.1 ∧ ∀ n, e.2 = some n → t.regs.errinfo = BitVec.ofNat 32 n

theorem records_raise {o : Option Nat} (h : ∀ n, o = some n → info = n) (u : State) (outs : List Space) :
    (u.raise x info outs).Records (x, o) :=
  ⟨raise_err u x info outs, fun n hn => by rw [raise_errinfo, h n hn]⟩

theorem Listed.records_raise {es : List (HwFault × Option Nat)} (h : Listed es x info) (u : State)
    (outs : List Space) : ∃ e ∈ es, (u.raise x info outs).Records e := by
  obtain ⟨o, hmem, hid⟩ := h
  exact ⟨(x, o), hmem, Machine.records_raise hid u outs⟩

/-- A command that faults records a fault the table lists for it (rule R233). -/
theorem records_of_exec (ho : s.Ok) (h : exec i s = .next t) (hf : ¬ t.Ok) : ∃ e ∈ faultsOf i, t.Records e := by
  rcases exec_cases_of_fault ho h hf with ⟨hno, rfl⟩ | ⟨-, x, info, u, hb, rfl⟩
  · obtain ⟨f, hi⟩ := prerequisite_of_not_ready hno
    exact Listed.records_raise (listed_any (sequenceError_mem_faultsOf hi)) s []
  · exact ((listed_of_bodyOf_raised hb).mono (ownFaults_subset i)).records_raise u _

/-! ### A state for each row of the table

Where a row's state has to hold bytes, it is written out and the model is run on it. -/

/-- A command met with no fault recorded ends with the fault of a row of the table of rule R233. -/
def FaultsWith (i : Instr) (s : State) (e : HwFault × Option Nat) : Prop :=
  s.Ok ∧ ∃ t, exec i s = .next t ∧ t.Records e

/-- A row of the table of rule R233 has a state in which the command raises its fault. -/
def Reachable (i : Instr) (e : HwFault × Option Nat) : Prop := ∃ s, FaultsWith i s e

theorem faultsWith_any (ho : s.Ok) {outs : List Space} (h : exec i s = .next (u.raise x info outs)) :
    FaultsWith i s (x, none) := ⟨ho, _, h, records_raise (o := none) (fun _ hn => nomatch hn) u outs⟩

theorem faultsWith_id (ho : s.Ok) {outs : List Space} (h : exec i s = .next (u.raise x info outs)) :
    FaultsWith i s (x, some info) := ⟨ho, _, h, records_raise (fun _ hn => Option.some.inj hn) u outs⟩

/-- A command the dispatcher lets run ends with what its pseudocode raises (rule R215). -/
theorem faultsWith_of_bodyOf_raised {o : Option Nat} (hi : i ≠ .clr) (ho : s.Ok) (hr : s.Ready i)
    (hb : bodyOf i s = .raised x info u) (hid : ∀ n, o = some n → info = n) : FaultsWith i s (x, o) := by
  refine ⟨ho, u.raise x info (outputsOf i), ?_, records_raise hid u _⟩
  rw [exec_ready hi ho hr, hb, finish_raised]

theorem State.Records.not_ok {e : HwFault × Option Nat} (h : t.Records e) : ¬ t.Ok := by
  obtain ⟨herr, -⟩ := h
  rw [State.Ok, herr]
  exact faultCode_ne_zero e.1

/-- The same fault with other outputs fits the same row. -/
theorem State.Records.of_outs {e : HwFault × Option Nat} {outs : List Space} (h : (u.raise x info outs).Records e)
    (more : List Space) : (u.raise x info more).Records e := by
  obtain ⟨herr, hid⟩ := h
  exact ⟨by rwa [raise_err] at herr ⊢, fun n hn => by rw [← hid n hn, raise_errinfo, raise_errinfo]⟩

/-- After reset no flag is set, so every command with a prerequisite is refused (rule R215). -/
theorem reachable_sequenceError {f : ValidFlag} (hi : prerequisite i = some f) : Reachable i (.sequenceError, none) :=
  ⟨State.reset, faultsWith_any rfl (exec_of_flag_false hi rfl (by cases f <;> rfl))⟩

/-- Every flag set, every capacity 0 and every length 1. -/
def noRoom : State :=
  { State.reset with
    params := ⟨0#32, 0#32, 0#32, 0#32⟩
    regs := { Regs.zero with status := 0xF#32, srcLen := 1#32, payLen := 1#32, dictLen := 1#32, dstLen := 1#32 } }

theorem flag_noRoom (f : ValidFlag) : noRoom.flag f = true := by cases f <;> rfl

theorem reachable_sourceUnavailable {sp : Space} (hi : firstInputOf i = some sp) :
    Reachable i (.sourceUnavailable, some (spaceId sp)) := by
  obtain ⟨hfirst, -⟩ := overlongInputRaisesSourceUnavailable
  exact ⟨noRoom, faultsWith_id rfl
    (hfirst i sp noRoom hi rfl (fun f _ => flag_noRoom f) (by cases sp <;> decide))⟩

/-- `entry_count` alone needs four bytes of `DICT` (rule R166). -/
theorem faultsWith_dser_full (ho : s.Ok) (hf : s.flag .code = true) (hcap : s.cap .dict < 4) :
    FaultsWith .dser s (.sinkUnavailable, some 2) := by
  refine faultsWith_id ho (dserRaisesWhenTheBlobDoesNotFit s ho hf ?_)
  rw [blobOf, List.length_append, length_le32Bytes]
  omega

/-- The padding count alone needs a byte of `PAY` (rule R191). -/
theorem faultsWith_pack_full (ho : s.Ok) (hf : s.flag .code = true) (hsrc : s.len .src ≤ s.cap .src)
    (hcap : s.cap .pay = 0) : FaultsWith .pack s (.sinkUnavailable, some 1) :=
  faultsWith_id ho (packRaisesWhenThePayloadDoesNotFit s ho hf hsrc
    (.inl ⟨0, Nat.zero_le _, fun _ hj => absurd hj (Nat.not_lt_zero _), by omega⟩))

/-- One input byte, and a table that codes none. -/
def uncoded : State :=
  { State.reset with code := .known [], regs := { Regs.zero with status := 0x4#32, srcLen := 1#32 } }

theorem reachable_pack : ∀ e ∈ faultsOf .pack, Reachable .pack e := by
  have hfull : Reachable .pack (.sinkUnavailable, some 1) :=
    ⟨{ noRoom with regs := { noRoom.regs with srcLen := 0#32 } }, faultsWith_pack_full rfl rfl (by decide) rfl⟩
  have huncoded : Reachable .pack (.symbolNotCoded, none) :=
    ⟨uncoded, faultsWith_any rfl (packStopsAtTheFirstUncodedByte uncoded 0 rfl rfl (by decide) (by decide) rfl
      (fun _ hj => absurd hj (Nat.not_lt_zero _)) (by decide))⟩
  simp only [faultsOf, List.forall_mem_cons, List.not_mem_nil, false_imp_iff, implies_true, and_true]
  exact ⟨reachable_sequenceError rfl, reachable_sourceUnavailable (sp := .src) rfl, hfull, huncoded⟩

/-- A fault of the first of ENCODE's commands that does not succeed is ENCODE's (rules R218, R236). -/
theorem FaultsWith.encode {before after : List Instr} {e : HwFault × Option Nat} (h : FaultsWith i u e) (ho : s.Ok)
    (hparts : encodeParts = before ++ i :: after) (hruns : RunsTo before s u) : FaultsWith .encode s e := by
  obtain ⟨-, t, hexec, hrec⟩ := h
  obtain ⟨-, hfault, -⟩ := encodeIsTheFiveCommands s ho
  obtain ⟨x, info, rfl, hencode⟩ := hfault before i after u t hparts hruns hexec hrec.not_ok
  exact ⟨ho, _, hencode, hrec.of_outs _⟩

theorem faultsWith_encode_full_dict (ho : s.Ok) (hsrc : s.len .src ≤ s.cap .src) (hcap : s.cap .dict < 4) :
    FaultsWith .encode s (.sinkUnavailable, some 2) := by
  obtain ⟨hruns, hok⟩ := runsTo_scan_build_gen ho hsrc
  exact (faultsWith_dser_full hok (flag_generated_built_scanned s .code) hcap).encode ho rfl hruns

/-- With room for the largest dictionary and none for a payload, PACK is the first of ENCODE's commands to fault. -/
theorem faultsWith_encode_full_pay (ho : s.Ok) (hsrc : s.len .src ≤ s.cap .src) (hdict : 66564 ≤ s.cap .dict)
    (hcap : s.cap .pay = 0) : FaultsWith .encode s (.sinkUnavailable, some 1) := by
  obtain ⟨hruns, hok⟩ := runsTo_scan_build_gen ho hsrc
  obtain ⟨-, hvalid⟩ := encode_table s
  have hcode := flag_generated_built_scanned s .code
  obtain ⟨v, hdser, -, -, -, hregs, -, hparams, -⟩ :=
    dserWritesTheBlob _ hok hcode ((length_blobOf_le hvalid).trans hdict)
  have hvok : v.Ok := by rw [State.Ok, hregs]; exact hok
  have hvcode : v.flag .code = true := by rw [State.flag, hregs]; exact hcode
  have hvlen : v.len .src = s.len .src := by rw [State.len, hregs]; rfl
  have hvcap : ∀ sp, v.cap sp = s.cap sp := fun sp => by cases sp <;> rw [State.cap, hparams] <;> rfl
  have hvpack := faultsWith_pack_full hvok hvcode (by rw [hvlen, hvcap]; exact hsrc) ((hvcap .pay).trans hcap)
  have hvruns : RunsTo [.scan, .build, .gen, .dser] s v := hruns.append (js := [.dser]) ⟨v, hdser, hvok, rfl⟩
  exact hvpack.encode ho rfl hvruns

/-- After reset, with other capacities: the input is empty. -/
def emptyInput (p : Params) : State := { State.reset with params := p }

theorem reachable_encode : ∀ e ∈ faultsOf .encode, Reachable .encode e := by
  simp only [faultsOf, List.forall_mem_cons, List.not_mem_nil, false_imp_iff, implies_true, and_true]
  exact ⟨reachable_sourceUnavailable (sp := .src) rfl,
    ⟨emptyInput ⟨0#32, 0#32, 0#32, 0#32⟩, faultsWith_encode_full_dict rfl (by decide) (by decide)⟩,
    ⟨emptyInput ⟨0#32, 0#32, 66564#32, 0#32⟩, faultsWith_encode_full_pay rfl (by decide) (by decide) rfl⟩⟩

/-- Bytes at the offsets from `a` up. -/
def bytesFrom : Nat → List Byte → Memory
  | _, [] => []
  | a, v :: rest => (a, v) :: bytesFrom (a + 1) rest

/-- After reset, with bytes in `DICT`, its length, bytes in `PAY` and capacities. -/
def loaded (dict : List Byte) (dictLen : Word) (pay : List Byte) (p : Params) : State :=
  { State.reset with
    dict := ⟨bytesFrom 0 dict, 0⟩
    pay := ⟨bytesFrom 0 pay, 0⟩
    params := p
    regs := { Regs.zero with dictLen := dictLen, payLen := BitVec.ofNat 32 pay.length } }

/-- One entry, its codeword of 256 bits. -/
def longCodeword : State :=
  loaded [1#8, 0#8, 0#8, 0#8, 0x41#8, 0#8, 1#8, 0#8, 0#8] 265#32 [] Params.largest

theorem reachable_ddes : ∀ e ∈ faultsOf .ddes, Reachable .ddes e := by
  have hmalformed : Reachable .ddes (.malformedDictionary, none) :=
    ⟨State.reset, faultsWith_any rfl (truncatedBlobIsMalformed _ rfl (by decide) (.inl (by decide)))⟩
  have hlong : ddesBody longCodeword = .raised .capacityExceeded 4 (longCodeword.setFlag .trie false) := rfl
  simp only [faultsOf, List.forall_mem_cons, List.not_mem_nil, false_imp_iff, implies_true, and_true]
  exact ⟨reachable_sourceUnavailable (sp := .dict) rfl, hmalformed, longCodeword,
    faultsWith_any rfl (exec_ddes_of_raised rfl hlong)⟩

/-- A dictionary of one entry, `A` with the codeword 00. -/
def oneEntry (pay : List Byte) (payCap dstCap : Word) : State :=
  loaded [1#8, 0#8, 0#8, 0#8, 0x41#8, 2#8, 0#8, 0#8, 0#8, 0x30#8, 0x30#8] 11#32 pay ⟨0#32, payCap, 11#32, dstCap⟩

/-- Its trie: the root, the node of the path 0 and the leaf of the path 00. -/
def oneEntryTrie : TrieCtx :=
  ⟨[(0, ⟨.internal, 0#8, some 1, none⟩), (1, ⟨.internal, 0#8, some 2, none⟩), (2, ⟨.leaf, 0x41#8, none, none⟩)],
    3⟩

theorem ddesBody_oneEntry (pay : List Byte) (payCap dstCap : Word) :
    ddesBody (oneEntry pay payCap dstCap) = .done ((oneEntry pay payCap dstCap).trieSet 1 oneEntryTrie) := by
  have hcap : ((oneEntry pay payCap dstCap).setFlag .trie false).cap .dict = 11 := rfl
  have hlen : ((oneEntry pay payCap dstCap).setFlag .trie false).len .dict = 11 := rfl
  have hcount : ((oneEntry pay payCap dstCap).setFlag .trie false).memRead32 .dict 0 = 1 := rfl
  have hloop : ddesLoop ((oneEntry pay payCap dstCap).setFlag .trie false) 1 ⟨4, [], ddesRoot 1⟩ =
      .done ⟨11, [0x41#8], oneEntryTrie⟩ := rfl
  simp only [ddesBody, hcap, hlen, hcount, hloop, andThen_done]
  rfl

/-- What UNPACK raises after DDES is what DECODE raises (rule R219). -/
theorem FaultsWith.decode {e : HwFault × Option Nat} (h : FaultsWith .unpack t e) (ho : s.Ok)
    (hddes : exec .ddes s = .next t) : FaultsWith .decode s e := by
  obtain ⟨hok, v, hexec, hrec⟩ := h
  obtain ⟨-, -, hdecode, -⟩ := encodeIsTheFiveCommands s ho
  exact ⟨ho, v, (hdecode t hddes hok).trans hexec, hrec⟩

/-- What DDES raises DECODE raises, whatever the payload (rule R219). -/
theorem FaultsWith.decode_of_ddes {e : HwFault × Option Nat} (h : FaultsWith .ddes s e) : FaultsWith .decode s e := by
  obtain ⟨ho, t, hexec, hrec⟩ := h
  obtain ⟨-, -, -, hfault⟩ := encodeIsTheFiveCommands s ho
  obtain ⟨x, info, rfl, hdecode⟩ := hfault t hexec hrec.not_ok
  exact ⟨ho, _, hdecode, hrec.of_outs _⟩

/-- UNPACK ends with the fault of a row in a state that a DDES which succeeds has led to. -/
def FaultsBehindDdes (e : HwFault × Option Nat) : Prop :=
  ∃ s t, s.Ok ∧ exec .ddes s = .next t ∧ FaultsWith .unpack t e

theorem faultsBehindDdes_oneEntry (pay : List Byte) (payCap dstCap : Word) {o : Option Nat}
    (hb : ∃ u, unpackBody ((oneEntry pay payCap dstCap).trieSet 1 oneEntryTrie) = .raised x info u)
    (hid : ∀ n, o = some n → info = n) : FaultsBehindDdes (x, o) := by
  obtain ⟨u, hu⟩ := hb
  have hready : ((oneEntry pay payCap dstCap).trieSet 1 oneEntryTrie).Ready .unpack :=
    ready_of_flag rfl (flag_trieSet_eq_flagAfter _ _ _ .trie)
  refine ⟨oneEntry pay payCap dstCap, _, rfl, ?_, faultsWith_of_bodyOf_raised (by decide) rfl hready hu hid⟩
  rw [exec_ddes rfl, ddesBody_oneEntry, finish_done]

/-- Each fault of UNPACK's own behind a DDES that succeeds: a payload longer than `PAY`; the padding count 8; the bit 1,
with which no codeword begins; a codeword with no room in `DST`; half a codeword. -/
theorem faultsBehindDdes_of_mem_ownFaults : ∀ e ∈ ownFaults .unpack, FaultsBehindDdes e := by
  have hrows : ownFaults .unpack = [(.sourceUnavailable, some 1), (.badPadding, none), (.noBranch, none),
      (.sinkUnavailable, some 3), (.incompleteCodeword, none)] := by decide
  rw [hrows]
  simp only [List.forall_mem_cons, List.not_mem_nil, false_imp_iff, implies_true, and_true]
  refine ⟨?_, ?_, ?_, ?_, ?_⟩
  · exact faultsBehindDdes_oneEntry [0#8] 0#32 0#32 (info := 1) ⟨_, rfl⟩ (by simp)
  · exact faultsBehindDdes_oneEntry [8#8, 0#8] 2#32 0#32 ⟨_, rfl⟩ (by simp)
  · exact faultsBehindDdes_oneEntry [7#8, 0x80#8] 2#32 0#32 ⟨_, rfl⟩ (by simp)
  · exact faultsBehindDdes_oneEntry [6#8, 0#8] 2#32 0#32 (info := 3) ⟨_, rfl⟩ (by simp)
  · exact faultsBehindDdes_oneEntry [7#8, 0#8] 2#32 0#32 ⟨_, rfl⟩ (by simp)

theorem reachable_unpack : ∀ e ∈ faultsOf .unpack, Reachable .unpack e := by
  refine List.forall_mem_cons.2 ⟨reachable_sequenceError rfl, fun e he => ?_⟩
  obtain ⟨-, t, -, -, h⟩ := faultsBehindDdes_of_mem_ownFaults e (by revert e; decide)
  exact ⟨t, h⟩

/-- The rows of DECODE are those of DDES and UNPACK's own (rule R219). -/
theorem faultsOf_decode : faultsOf .decode = faultsOf .ddes ++ ownFaults .unpack := by decide

theorem reachable_decode : ∀ e ∈ faultsOf .decode, Reachable .decode e := by
  intro e he
  rw [faultsOf_decode, List.mem_append] at he
  rcases he with hddes | hunpack
  · obtain ⟨s, h⟩ := reachable_ddes e hddes
    exact ⟨s, h.decode_of_ddes⟩
  · obtain ⟨s, t, ho, hexec, h⟩ := faultsBehindDdes_of_mem_ownFaults e hunpack
    exact ⟨s, h.decode ho hexec⟩

/-- A command whose only row is SequenceError is refused after reset. -/
theorem reachable_of_sequenceError_only {f : ValidFlag} (hi : prerequisite i = some f)
    (hrows : faultsOf i = [(.sequenceError, none)]) : ∀ e ∈ faultsOf i, Reachable i e := by
  rw [hrows]
  exact List.forall_mem_singleton.2 (reachable_sequenceError hi)

/-- Every row of the table of rule R233 has its state. -/
theorem reachable_of_mem_faultsOf (i : Instr) : ∀ e ∈ faultsOf i, Reachable i e := by
  cases i with
  | nop => exact List.forall_mem_nil _
  | clr => exact List.forall_mem_nil _
  | scan => exact List.forall_mem_singleton.2 (reachable_sourceUnavailable (sp := .src) rfl)
  | dser =>
    exact List.forall_mem_cons.2 ⟨reachable_sequenceError rfl,
      List.forall_mem_singleton.2 ⟨noRoom, faultsWith_dser_full rfl rfl (by decide)⟩⟩
  | pack => exact reachable_pack
  | encode => exact reachable_encode
  | ddes => exact reachable_ddes
  | unpack => exact reachable_unpack
  | decode => exact reachable_decode
  | build => exact reachable_of_sequenceError_only rfl rfl
  | gen => exact reachable_of_sequenceError_only rfl rfl
  | lookup b => exact reachable_of_sequenceError_only rfl rfl
  | rdfreq b => exact reachable_of_sequenceError_only rfl rfl
  | rdtree idx => exact reachable_of_sequenceError_only rfl rfl
  | rdtrie idx => exact reachable_of_sequenceError_only rfl rfl

/-- A word that decodes to no command is rejected (rules R95, R215). -/
theorem commandWrite_of_undefined {w : Word} (ho : s.Ok) (h : ∀ i, decode w ≠ .ok i) :
    commandWrite w s = .next (s.raise .illegalCommand w.toNat []) := by
  unfold commandWrite
  cases hw : decode w with
  | ok i => exact absurd hw (h i)
  | error e => exact if_neg (not_not.2 ho)

/-- Settles O20: a command's pseudocode raises the command's own rows alone, the dispatcher SequenceError alone, and every
row has a state that reaches it. -/
theorem commandsRaiseOnlyTheirFaults : Obligations.CommandsRaiseOnlyTheirFaults := by
  refine ⟨fun i s t ho h hf => records_of_exec ho h hf, fun i e he => ?_, fun w s ho hw => ?_⟩
  · obtain ⟨s, ho, t, hexec, hrec⟩ := reachable_of_mem_faultsOf i e he
    exact ⟨s, t, ho, hexec, hrec⟩
  · exact ⟨_, commandWrite_of_undefined ho hw, raise_err s _ _ _⟩

/-! ### What a fault records, clears and leaves -/

/-- Settles O16: everything `raise` does, with the code of each fault read off. -/
theorem raiseRecordsTheFault : Obligations.RaiseRecordsTheFault := by
  intro s x info outs t
  obtain ⟨hregs, -, hlen, -, -, -, -, hpq, -⟩ := raise_spec s x info outs
  refine ⟨(raise_err s x info outs).trans (by cases x <;> rfl), ?_, raise_flag s x info outs, raise_errSet s x info outs,
    fun sp hsp => by rw [hlen, if_pos hsp],
    fun sp hsp => ⟨by rw [hlen, if_neg hsp], (sameBuffersOutside_raise s x info outs).sameBytes hsp⟩, hpq, ?_,
    sameHostSide_raise s x info outs⟩
  · rw [raise_errinfo, BitVec.toNat_ofNat]
  · rw [raise_err, raise_errinfo, raise_status]
    exact hregs

/-! ### A command that faults -/

/-- The registers ENCODE and DECODE have written before their fault and that the fault leaves
(93_implementation_defined.md U6). -/
def staleRegs : Instr → List Reg
  | .encode => [.nsym, .treeRoot]
  | .decode => [.trieRoot, .trieNodes]
  | _ => []

/-- The registers in which a fault records itself, and the lengths it may zero (rule R236). -/
def faultRegs : List Reg := [.status, .err, .errinfo, .srcLen, .payLen, .dictLen, .dstLen]

theorem writtenRegs_subset_of_orchestrator (hi : i = .encode ∨ i = .decode) :
    writtenRegs i ⊆ faultRegs ++ staleRegs i := by
  rcases hi with rfl | rfl <;> decide

/-- After a fault of the command's own only ENCODE and DECODE have left a register written (rules R236, R239). -/
theorem regValue_raise_of_bodyOf_raised (hb : bodyOf i s = .raised x info u) {r : Reg} (hr : r ∉ faultRegs)
    (hstale : r ∉ staleRegs i) : (u.raise x info (outputsOf i)).regValue r = s.regValue r := by
  by_cases hi : i = .encode ∨ i = .decode
  · have hclr : i ≠ .clr := by rcases hi with rfl | rfl <;> decide
    have hkeeps := ends_bodyOf_keeps hclr s
    rw [hb, ends_raised] at hkeeps
    refine (regValue_raise u x info _ hr).trans (hkeeps.reg r fun hw => ?_)
    exact (List.mem_append.1 (writtenRegs_subset_of_orchestrator hi hw)).elim hr hstale
  · rw [raise_of_bodyOf_raised hb (not_or.1 hi) (List.Subset.refl _)]
    exact regValue_raise s x info _ hr

theorem lenReg_mem_writtenRegs {sp : Space} (hi : i ≠ .clr) (h : lenReg sp ∈ writtenRegs i) : sp ∈ outputsOf i := by
  revert h
  cases i with
  | clr => exact absurd rfl hi
  | _ => cases sp <;> simp [lenReg, writtenRegs, resultsWrittenBy, outputsOf]

theorem len_of_regValue_eq {sp : Space} (h : t.regValue (lenReg sp) = s.regValue (lenReg sp)) : t.len sp = s.len sp := by
  cases sp <;> exact congrArg BitVec.toNat h

/-- Wherever a command's pseudocode ends, the lengths that are not its outputs' are as before (rule R74). -/
theorem ends_bodyOf_len (hi : i ≠ .clr) {sp : Space} (hsp : sp ∉ outputsOf i) :
    (bodyOf i s).Ends (fun u => u.len sp = s.len sp) id :=
  (ends_bodyOf_keeps hi s).mono fun _ h => len_of_regValue_eq (h.reg _ fun hw => hsp (lenReg_mem_writtenRegs hi hw))

theorem not_mem_staleRegs {r : Reg} (hencode : i = .encode → r ≠ .nsym ∧ r ≠ .treeRoot)
    (hdecode : i = .decode → r ≠ .trieRoot ∧ r ≠ .trieNodes) : r ∉ staleRegs i := by
  cases i with
  | encode => simpa [staleRegs] using hencode rfl
  | decode => simpa [staleRegs] using hdecode rfl
  | _ => exact List.not_mem_nil

/-- Settles O21: the dispatcher's fault is that of the state before the command and discards no output, and a command that
ends at a fault of its own has written its outputs, their lengths and, in ENCODE and DECODE, the registers named. -/
theorem faultedCommandKeepsTheRest : Obligations.FaultedCommandKeepsTheRest := by
  intro i s t ho h hf
  obtain ⟨hbuf, hhost⟩ := exec_frame h
  rcases exec_cases_of_fault ho h hf with ⟨hno, rfl⟩ | ⟨hready, x, info, u, hb, rfl⟩
  · obtain ⟨-, -, hflags, hset, -, hothers, hpq, -, -⟩ := raiseRecordsTheFault s .sequenceError (encode i).toNat []
    exact ⟨hflags, hset, hpq, fun hr => absurd hr hno, fun sp _ => hothers sp List.not_mem_nil,
      fun r hr _ _ => regValue_raise s _ _ _ hr, hhost⟩
  · obtain ⟨-, -, hflags, hset, houts, hothers, hpq, -, -⟩ := raiseRecordsTheFault u x info (outputsOf i)
    have hclr : i ≠ .clr := by rintro rfl; cases hb
    refine ⟨hflags, hset, hpq, fun _ => houts, fun sp hsp => ?_,
      fun r hr he hd => regValue_raise_of_bodyOf_raised hb hr (not_mem_staleRegs he hd), hhost⟩
    have hout : sp ∉ outputsOf i := hsp.resolve_left (not_not.2 hready)
    have hlen := ends_bodyOf_len (s := s) hclr hout
    rw [hb, ends_raised] at hlen
    exact ⟨(hothers sp hout).1.trans hlen, hbuf.sameBytes hout⟩

/-! ### A recorded fault stays -/

/-- The registers that record a fault are as before. -/
def SameRecord (s t : State) : Prop :=
  t.regs.err = s.regs.err ∧ t.regs.errinfo = s.regs.errinfo ∧ t.regs.status = s.regs.status

theorem sameRecord_of_regs_eq (h : t.regs = s.regs) : SameRecord s t := by rw [SameRecord, h]; exact ⟨rfl, rfl, rfl⟩

/-- While a fault is recorded a word other than CLR's is ignored, whether it is legal or not (rules R95, R215). -/
theorem commandWrite_ignored {w : Word} (hf : ¬ s.Ok) (hw : w ≠ encode .clr) : commandWrite w s = .next s := by
  unfold commandWrite
  cases hd : decode w with
  | ok i =>
    refine exec_of_not_ok ?_ hf
    rintro rfl
    exact hw (encode_of_decode hd).symm
  | error e => exact if_pos hf

/-- An access to the window reaches a register of its table, in a whole word (rule R22). -/
theorem accessedReg_eq_ok {off : Nat} {width : AccessWidth} {r : Reg} (h : accessedReg off width = .ok r) :
    off = regOffset r ∧ width = .word := by
  unfold accessedReg at h
  split at h
  · cases h
  next hw =>
    split at h
    · next q hq =>
      cases h
      exact ⟨(eq_of_beq (List.find?_some (p := fun q => regOffset q == off) hq)).symm, not_not.1 hw⟩
    · cases h

theorem sameRecord_regWrite {r : Reg} {v : Word} (hf : ¬ s.Ok) (hclr : r = .cmd → v ≠ encode .clr)
    (h : regWrite r v s = .next t) : SameRecord s t := by
  by_cases hr : r = .cmd
  · subst hr
    have hignored : regWrite .cmd v s = .next s := commandWrite_ignored hf (hclr rfl)
    cases hignored.symm.trans h
    exact sameRecord_of_regs_eq rfl
  · cases (regWrite_of_ne_cmd hr v s).symm.trans h
    cases r <;> exact ⟨rfl, rfl, rfl⟩

/-- Nothing the host does but CLR and reset touches a recorded fault (rule R238). -/
theorem sameRecord_perform {a : HostAction} (hf : ¬ s.Ok) (hclr : a ≠ commandAction (encode .clr)) (hreset : a ≠ .reset)
    (h : perform a s = .next t) : SameRecord s t := by
  cases a with
  | writeReg off width v =>
    cases hacc : accessedReg off width with
    | error e => simp [perform, hacc] at h
    | ok r =>
      obtain ⟨rfl, rfl⟩ := accessedReg_eq_ok hacc
      rw [perform_writeReg] at h
      exact sameRecord_regWrite hf (by rintro rfl rfl; exact hclr rfl) h
  | readReg off width =>
    cases hacc : accessedReg off width with
    | error e => simp [perform, hacc] at h
    | ok r =>
      obtain ⟨rfl, rfl⟩ := accessedReg_eq_ok hacc
      cases (perform_readReg s r).symm.trans h
      exact sameRecord_of_regs_eq rfl
  | writeBuf sp off v =>
    rcases Nat.lt_or_ge off (s.cap sp) with hlt | hge
    · cases (perform_writeBuf hlt v).symm.trans h
      exact sameRecord_of_regs_eq (s.memWrite_regs sp off v)
    · cases (perform_beyond_capacity hge v).1.symm.trans h
  | readBuf sp off =>
    rcases Nat.lt_or_ge off (s.cap sp) with hlt | hge
    · cases (perform_readBuf hlt).symm.trans h
      exact sameRecord_of_regs_eq rfl
    · cases (perform_beyond_capacity hge 0#8).2.symm.trans h
  | reset => exact absurd rfl hreset

/-- With no host action to come a step waits (rule R248). -/
theorem step_of_empty_script (h : s.script = []) : step s = .next s := by
  unfold step nextAction
  rw [h]

theorem sameRecord_step (hf : ¬ s.Ok) (h : step s = .next t)
    (hclr : ∀ rest, s.script ≠ commandAction (encode .clr) :: rest) (hreset : ∀ rest, s.script ≠ .reset :: rest) :
    SameRecord s t := by
  cases hscript : s.script with
  | nil =>
    cases (step_of_empty_script hscript).symm.trans h
    exact sameRecord_of_regs_eq rfl
  | cons a rest =>
    rw [step_of_script hscript] at h
    exact sameRecord_perform (s := { s with script := rest }) hf (fun ha => hclr rest (ha ▸ hscript))
      (fun ha => hreset rest (ha ▸ hscript)) h

/-- Settles O17: a word other than CLR's is ignored, the host's accesses do not look at `ERR`, and none of them writes the
registers that record the fault. -/
theorem recordedFaultIsSticky : Obligations.RecordedFaultIsSticky := by
  intro s hf
  have hwrite : ∀ r, r ≠ .cmd → ∀ v, perform (.writeReg (regOffset r) .word v) s =
      .next { s with regs := hostWrite r v s.regs } := fun r hr v => by rw [perform_writeReg, regWrite_of_ne_cmd hr]
  refine ⟨fun w hw => commandWrite_ignored hf hw, perform_readReg s, fun v => ⟨?_, ?_, ?_⟩, fun sp off v hlt => ⟨?_, ?_⟩,
    fun t h hclr hreset => sameRecord_step hf h hclr hreset⟩
  · exact ⟨_, hwrite .srcLen (by decide) v, rfl⟩
  · exact ⟨_, hwrite .payLen (by decide) v, rfl⟩
  · exact ⟨_, hwrite .dictLen (by decide) v, rfl⟩
  · exact ⟨_, perform_writeBuf hlt v, s.memRead_memWrite_self sp off v⟩
  · exact perform_readBuf hlt

/-! ### Waiting -/

/-- Settles O7: a step is the script's next action, and here there is none. -/
theorem stepWaitsForTheHost : Obligations.StepWaitsForTheHost := fun _ => step_of_empty_script

end Sys2Proof.Machine

/-! PROOFS. spec/70_reset_and_hazards.md: CLR compared with reset (rule R262), and the valid flags as a state machine
(rule R268). -/

namespace Sys2Proof.Machine

variable {s t : State} {i : Instr}

/-! ### CLR and reset -/

theorem regValue_clear (s : State) {r : Reg} (hsrc : r ≠ .srcLen) (hpay : r ≠ .payLen) (hdict : r ≠ .dictLen) :
    s.clear.regValue r = 0#32 := by
  cases r with
  | srcLen => exact absurd rfl hsrc
  | payLen => exact absurd rfl hpay
  | dictLen => exact absurd rfl hdict
  | _ => rfl

theorem regValue_hardReset (s : State) (r : Reg) : s.hardReset.regValue r = 0#32 := by cases r <;> rfl

/-- No byte written before reset is left (rule R260, 93_implementation_defined.md U2). -/
theorem memRead_hardReset (s : State) (sp : Space) (a : Nat) :
    s.hardReset.memRead sp a = Config.unwrittenByte s.draws sp a := by cases sp <;> rfl

/-- Settles O15: both write 0 to every register, CLR keeping the three lengths, and only reset replaces the buffers. -/
theorem clrComparedWithReset : Obligations.ClrComparedWithReset := by
  intro s
  refine ⟨s.clear, s.hardReset, rfl, rfl, fun r hsrc hpay hdict => ?_, regValue_hardReset s, rfl, rfl, rfl,
    s.memRead_clear, s.draws, memRead_hardReset s⟩
  rw [regValue_clear s hsrc hpay hdict, regValue_hardReset]

/-! ### The valid flags -/

theorem Keeps.flag {ws : List Reg} (h : Keeps ws s t) (hs : .status ∉ ws) (f : ValidFlag) : t.flag f = s.flag f := by
  have hstatus : t.regs.status = s.regs.status := h.reg .status hs
  rw [State.flag, hstatus, State.flag]

theorem Fills.flag {sp : Space} (h : Fills sp s t) (f : ValidFlag) : t.flag f = s.flag f :=
  h.keeps.flag (by cases sp <;> decide) f

theorem flag_of_dserBody_done (h : dserBody s = .done t) (f : ValidFlag) : t.flag f = s.flag f := by
  have hends := ends_dserBody s
  rw [h, ends_done] at hends
  exact hends.flag f

theorem flag_of_packBody_done (h : packBody s = .done t) (f : ValidFlag) : t.flag f = s.flag f := by
  have hends := ends_packBody s
  rw [h, ends_done] at hends
  exact hends.flag f

theorem flag_of_unpackBody_done (h : unpackBody s = .done t) (f : ValidFlag) : t.flag f = s.flag f := by
  have hends := ends_unpackBody s
  rw [h, ends_done] at hends
  exact hends.flag f

theorem flag_of_ddesBody_done (h : ddesBody s = .done t) (f : ValidFlag) : t.flag f = flagAfter .ddes f (s.flag f) := by
  rcases ddesBody_cases s with ⟨-, hb⟩ | ⟨-, es, u, -, -, -, hb⟩ | ⟨-, -, x, info, hb, -⟩
  · cases hb.symm.trans h
  · cases hb.symm.trans h
    exact flag_trieSet_eq_flagAfter s es.length u f
  · cases hb.symm.trans h

theorem flag_of_encodeBody_done (h : encodeBody s = .done t) (f : ValidFlag) :
    t.flag f = flagAfter .encode f (s.flag f) := by
  rw [encodeBody_eq] at h
  split at h
  · cases h
  · obtain ⟨v, hdser, hpack⟩ := andThen_eq_done h
    rw [flag_of_packBody_done hpack, flag_of_dserBody_done hdser, flag_generated_built_scanned]

/-- The flags where a command's pseudocode runs to its end (rule R268). -/
theorem flag_of_bodyOf_done (hi : i ≠ .clr) (h : bodyOf i s = .done t) (f : ValidFlag) :
    t.flag f = flagAfter i f (s.flag f) := by
  cases i with
  | clr => exact absurd rfl hi
  | scan =>
    rw [bodyOf, scanBody_eq] at h
    split at h
    · cases h
    · cases h
      exact flag_scanned_eq_flagAfter s f
  | build =>
    cases h
    exact flag_built_eq_flagAfter s f
  | gen =>
    cases h
    exact flag_generated_eq_flagAfter s f
  | dser => exact flag_of_dserBody_done h f
  | pack => exact flag_of_packBody_done h f
  | encode => exact flag_of_encodeBody_done h f
  | ddes => exact flag_of_ddesBody_done h f
  | unpack => exact flag_of_unpackBody_done h f
  | decode =>
    obtain ⟨v, hddes, hunpack⟩ := andThen_eq_done h
    rw [flag_of_unpackBody_done hunpack, flag_of_ddesBody_done hddes]
    cases f <;> rfl
  | _ =>
    cases h
    rfl

/-- Settles O55: a command that succeeds is CLR or has run its pseudocode to the end, and a fault clears the flags. -/
theorem flagsFollowTheTable : Obligations.FlagsFollowTheTable := by
  intro i s t ho h
  refine ⟨fun hok f => ?_, fun hf f => ?_⟩
  · by_cases hi : i = .clr
    · subst hi
      cases h
      rw [State.flag_clear]
      cases f <;> rfl
    rcases exec_cases hi h with ⟨hno, -⟩ | ⟨-, -, rfl⟩ | ⟨-, -, hb⟩ | ⟨-, -, x, info, u, -, rfl⟩
    · exact absurd ho hno
    · exact absurd hok (raise_err_ne_zero s _ _ _)
    · exact flag_of_bodyOf_done hi hb f
    · exact absurd hok (raise_err_ne_zero u _ _ _)
  · rcases exec_cases_of_fault ho h hf with ⟨-, rfl⟩ | ⟨-, x, info, u, -, rfl⟩
    · exact raise_flag s _ _ _ f
    · exact raise_flag u x info _ f

end Sys2Proof.Machine
